-- ==== Sys2Proof/Word.lean ====
section
/-! DEFINITION. The word types of the N3: bytes, halves, words and doublewords. -/

namespace Sys2Proof

/-- A byte, the smallest addressable unit (R5). -/
abbrev Byte := BitVec 8

/-- A 16-bit half word. -/
abbrev W16 := BitVec 16

/-- A 32-bit word: one lane of a register line (R214). -/
abbrev W32 := BitVec 32

/-- A 64-bit doubleword: a scalar register or a control register (R214). -/
abbrev W64 := BitVec 64

/-- A 512-bit value: a Confluence message (R40), a die mask of the system image (R43) or a named scope (R214). -/
abbrev W512 := BitVec 512

/-- A logical die of the package, 0 to 7 (R6). -/
abbrev DieId := Fin 8

/-- The 48-byte body of a Confluence message (R40). -/
abbrev Body := BitVec 384

end Sys2Proof
end

