-- ==== Sys2Proof/Config.lean ====
section
/-! DEFINITION. What is fixed for the machine: figures the spec states, and the free values it leaves open.
A free value is an opaque constant: nothing in the model or in a proof can evaluate it. -/

namespace Sys2Proof.Config

/-- FREE VALUE (assumption 3): the nanoseconds that pass in the n-th step of the machine. `sys.time` is their sum since
FORM, so that it never decreases on one die (R215). -/
opaque elapsed : Nat → Nat

/-- FREE VALUE (assumption 3): the arithmetic cycles of a cluster that pass in the n-th step. -/
opaque cyclesPast : Nat → Nat → Nat

/-- FREE VALUE (assumption 4): what an access to memory homed in another package returns. Other packages of the
system image are outside the model; the argument is the draw counter of `State`. -/
opaque foreignRead : Nat → W64

/-- FREE VALUE (assumption 5): the quarter of a link to which a located FEC error belongs, since no rule places the bytes
of a flit on lanes (R33). -/
opaque quarterOf : Nat → Fin 4

/-- FREE VALUE (assumption 13): the fresh 32-byte nonces and ephemeral secrets that the firmware cores draw (R74). -/
opaque freshSecret : Nat → BitVec 448

/-- FREE VALUE (assumption 13): the fused per-die seed of the identity key (R73). -/
opaque identitySeed : Nat → BitVec 256

/-- FREE VALUE (assumption 13): the fused digest of the key that signs the firmware (R72). -/
opaque keyDigest : List (BitVec 8)

/-- FREE VALUE (assumption 52): whether, in the n-th step, the supervisor thread that serves a wave's SYSCALL has marked itself in I/O
wait (R131); no rule says how it does so. -/
opaque ioWait : Nat → Nat → Bool

/-- FREE VALUE (assumption 52): the nanoseconds from the entry of the system call that queued a launch to its wake store (R131). -/
opaque syscallNs : Nat → Nat

/-- FREE VALUE (assumption 44): a reading of a die's power meter (R17). -/
opaque powerReading : Nat → BitVec 16

/-- The fused hardware ceiling on die power, in units of 0.1 W (R17). -/
def ceilFuse : Nat := 4500

/-- Waves a cluster tracks at most, and how many of them may be suspended (R109). -/
def trackedWaves : Nat := 128
/-- At most 80 waves of a cluster may be suspended (R109). -/
def suspendedWaves : Nat := 80
/-- Active slots of a quadrant (R104). -/
def slotsPerQuadrant : Nat := 12
/-- Register-line bytes that the running teams of a cluster hold together at most (R104). -/
def registerBytes : Nat := 1572864
/-- Tile-reservation bytes that the running teams of a cluster hold together at most (R104). -/
def tileBytes : Nat := 1048576
/-- Bytes of one accumulator tile space (R116). -/
def tileSpace : Nat := 65536
/-- Ways of a tile-cache set (R148). -/
def cacheWays : Nat := 20
/-- Entries of the macro sequencer queue (R132). -/
def sequencerEntries : Nat := 8
/-- Command slots of the copy engine, and how many lower-priority teams may hold (R146). -/
def copySlots : Nat := 32
/-- Commands below the highest running priority get a slot only while fewer than this many are held by such (R146). -/
def copySlotsLow : Nat := 24
/-- Hardware queue slots of a die (R90). -/
def queueSlots : Nat := 256
/-- Flits of a port direction's replay buffer (R31). -/
def replayFlits : Nat := 1024

end Sys2Proof.Config
end

