-- ==== Sys2Proof/Machine/Sparse.lean ====
section
/-! DEFINITION. Sparse maps from natural numbers: lists of pairs, keys rising. Registers, memory and the parts of the
machine that come in numbered sets are held this way. -/

namespace Sys2Proof.Machine

variable {β : Type}

/-- The value listed at a key, if any. -/
def mfind : List (Nat × β) → Nat → Option β
  | [], _ => none
  | (j, v) :: m, k => if j = k then some v else mfind m k

/-- The value at a key; an unlisted key reads as `d`. -/
def mget (d : β) (m : List (Nat × β)) (k : Nat) : β := (mfind m k).getD d

/-- List a value at a key, keeping the keys in rising order. -/
def mset : List (Nat × β) → Nat → β → List (Nat × β)
  | [], k, v => [(k, v)]
  | (j, u) :: m, k, v => if j = k then (k, v) :: m else if k < j then (k, v) :: (j, u) :: m else (j, u) :: mset m k v

/-- Drop a key. -/
def mdel : List (Nat × β) → Nat → List (Nat × β)
  | [], _ => []
  | (j, u) :: m, k => if j = k then mdel m k else (j, u) :: mdel m k

/-- Write a value: the value an unlisted key reads as is not listed. -/
def mput [DecidableEq β] (d : β) (m : List (Nat × β)) (k : Nat) (v : β) : List (Nat × β) :=
  if v = d then mdel m k else mset m k v

/-- Change the value at a key with a function, if the key is listed. -/
def mmod (m : List (Nat × β)) (k : Nat) (f : β → β) : List (Nat × β) :=
  match mfind m k with
  | some v => mset m k (f v)
  | none => m

/-- The entries of n keys from lo on, numbered from 0. -/
def mslice (m : List (Nat × β)) (lo n : Nat) : List (Nat × β) :=
  m.filterMap fun p => if lo ≤ p.1 ∧ p.1 < lo + n then some (p.1 - lo, p.2) else none

/-- Replace the entries of n keys from lo on by `new`, numbered from 0. -/
def msplice (m : List (Nat × Byte)) (lo n : Nat) (new : List (Nat × Byte)) : List (Nat × Byte) :=
  (new.filter fun p => decide (p.1 < n)).foldl (fun m p => mput 0 m (lo + p.1) p.2)
    (m.filter fun p => decide (p.1 < lo) || decide (lo + n ≤ p.1))

/-- The lowest key that is not listed, from `k` on. -/
def mfree (m : List (Nat × β)) : Nat → Nat → Nat
  | k, 0 => k
  | k, fuel + 1 => if (mfind m k).isSome then mfree m (k + 1) fuel else k

/-- The keys rise strictly and no entry equals what an unlisted key reads as. -/
def sparseOk [DecidableEq β] (d : β) : List (Nat × β) → Bool
  | [] => true
  | [(_, v)] => !decide (v = d)
  | (j, v) :: (k, w) :: m => decide (j < k) && !decide (v = d) && sparseOk d ((k, w) :: m)

end Sys2Proof.Machine
end

