-- ==== Sys2Proof/Syntax.lean ====
section
/-! DEFINITION. The syntax: every operation of the machine, one constructor per row of the opcode table.
The first rows are events of the device; they carry what the event brings (a message, a register write, a reading
of the outside world). Then come the scalar instructions (R277) and the lane instructions (R285). -/

namespace Sys2Proof

/-- Who makes an access to a control register: a supervisor core, a firmware core (8 + k), a cluster, a copy
engine, or a host client by its PASID (R15, R212). -/
inductive Master where
  | sup (k : Fin 8)
  | fw (k : Fin 8)
  | cluster (c : Fin 64)
  | copyEngine (c : Fin 64)
  | host (pasid : Nat)
  deriving DecidableEq, Repr

/-- A tile: a tensor id (0 is the flat tensor) and a packed coordinate (R149, R151, R152). -/
structure TileId where
  tid : BitVec 20
  coord : BitVec 48
  deriving DecidableEq, Repr

/-- A die clock: eight 16-bit entries (entry e in bits 16e+15:16e) and the image epoch (R187). -/
structure Clock where
  entries : BitVec 128
  epoch : W32
  deriving DecidableEq, Repr

/-- What moves when a tile moves: payload and side bytes (only the non-zero ones, by offset), the poison bits and
the origin of the poison (R171). -/
structure TileData where
  payload : List (Nat × Byte)
  side : List (Nat × Byte)
  poison : BitVec 33
  porigin : W32
  deriving DecidableEq, Repr

/-- A bump acknowledgement: the tensor, and the clock of the die that answers (R154, R187). -/
structure BumpAck where
  tid : BitVec 20
  clock : Clock
  deriving DecidableEq, Repr

/-- How a read of storage went: at once, after the one retry, or not at all (R210). -/
inductive ReadResult where
  | good
  | transient
  | lasting
  deriving DecidableEq, Repr

/-- What a tile fill needs to know of the page it goes through (R53, R159, R200) and of its requester (R105); `region` holds the
bases of the code range that the tile lies in, with its arrays, as they stood when the slice sent its read (R52); `cluster` is the
cluster of a prefetch (R384). -/
structure FillReq where
  tile : TileId
  base : Nat
  home : DieId
  enc : Bool
  pcoh : Bool
  repl : BitVec 8
  nq4 : Bool
  side : Nat
  owner : Nat
  region : Option (Nat × Nat × Nat) := none
  cluster : Nat := 0
  deriving DecidableEq, Repr

/-- The operation codes of atomics (R278). -/
inductive AtomicOp where
  | add | and | or | xor | min | max | swap | cas
  deriving DecidableEq, Repr

/-- How the value of an atomic is read: a signed or unsigned integer, an FP32 or an FP64 number (R375, R413). -/
inductive AtomicKind where
  | signed | unsigned | f32 | f64
  deriving DecidableEq, Repr

/-- A remote write on its way to its home (R187). Offsets from 2,048 on are side bytes, whose area is at `side`; poison is
carried along (R172). -/
structure RemoteWrite where
  src : DieId
  seq : Nat
  tile : TileId
  base : Nat
  bytes : List (Nat × Byte)
  repl : BitVec 8
  clock : Clock
  wave : Nat
  side : Nat := 0
  poison : BitVec 33 := 0
  porigin : W32 := 0
  deriving DecidableEq, Repr

/-- Where the old value of an atomic goes: nowhere, to a scalar register, to a lane of a register, to the engine command
(a sequencer entry, or a copy) that waits for it to land, or to a host client or a core of a die. -/
inductive AtomicDest where
  | none
  | scalar (wave landing : Nat) (d : BitVec 6)
  | lane (wave landing : Nat) (reg lane : Nat)
  | engine (cluster : Nat) (copy : Bool) (id : Nat)
  | host (die pasid : Nat)
  | core (die k : Nat)
  deriving DecidableEq, Repr

/-- An atomic on its way to its home on CHAN 4 (R163). -/
structure AtomicReq where
  src : DieId
  seq : Nat
  tile : TileId
  base : Nat
  off : Nat
  width : Nat
  op : AtomicOp
  kind : AtomicKind
  operand : W64
  compare : W64
  repl : BitVec 8
  dest : AtomicDest
  clock : Clock
  wave : Nat := 0
  deriving DecidableEq, Repr

/-- The kind of a request of a host client (R81) or a core (R173): a fence of a supervisor core names the reads and writes of its
predecessor and successor sets (R175). -/
inductive HostKind where
  | read (len : Nat)
  | write (bytes : List Byte)
  | atomic (op : AtomicOp) (operand compare : W64)
  | fence (pr pw sr sw : Bool)
  deriving DecidableEq, Repr

/-- Who makes a request at a die: a host client by its PASID, or core k of the die (0 to 7 the supervisor cores, then the firmware
cores), which has translated the address itself: the request then holds the physical address, with the page's leaf and home package
and the process whose thread runs on the core. -/
inductive Client where
  | host (pasid : Nat)
  | core (k : Fin 16) (leaf : W64) (pkg : Nat) (pid : W32)
  deriving DecidableEq, Repr

/-- Who makes a wake store (R88, R99): a host client by the die of its port and its PASID. -/
inductive WakeWriter where
  | host (port : DieId) (pasid : Nat)
  | wave (key : Nat)
  | supervisor
  | launch
  deriving DecidableEq, Repr

/-- A LAUNCH request on its way to the queue's die (R99), with the time of its issue (R131) and the sender's die and clock, as an atomic
to a home carries them (R187). -/
structure LaunchReq where
  wave : Nat
  landing : Nat
  pid : W32
  queue : BitVec 20
  packet : BitVec 1024
  t0 : Nat := 0
  src : DieId := 0
  clock : Clock := ⟨0, 0⟩
  deriving DecidableEq, Repr

/-- A counted tile-cache request that the sampler picked, with the time of the request (R59, R60). -/
structure SampleReq where
  va : W64
  kind : Nat
  cluster : Nat
  launch : Nat
  tier : Nat
  pa : Nat
  time : Nat := 0
  deriving DecidableEq, Repr

/-- What the outside world brings to the end of a boot phase: whether training succeeded; the firmware image set (R72) with
the key that signed it, and what its image manifest lists (R68); the package number, and what the ports found (R23, R55). -/
structure BootReport where
  trained : Bool
  images : List Byte
  signer : List Byte
  manifestLen : Nat
  expected : W512
  identities : List (Nat × List Byte)
  pkg : BitVec 6
  hostMode : Bool
  hostPid : BitVec 12
  hostSpeed : BitVec 2
  peers : List (Nat × BitVec 9)
  deriving DecidableEq, Repr

/-- The ordering of a scalar access or atomic (R278). -/
inductive MemOrder where
  | relaxed | acquire | release
  deriving DecidableEq, Repr

/-- The scopes of R174. -/
inductive Scope where
  | lane | wave | team | die | package | system
  | named (n : BitVec 4)
  deriving DecidableEq, Repr

/-- The special operands of a lane source (R281). -/
inductive Special where
  | lane | wave | amask | iter | rctr
  deriving DecidableEq, Repr

/-- A source of a lane instruction (R281): a v register with its full/empty mode, a block parameter, a special, a
stream register, or the immediate. -/
inductive Src where
  | v (n : BitVec 10) (trap : Bool)
  | bp (n : BitVec 3)
  | special (x : Special)
  | stream (n : BitVec 3)
  | imm (w : W32)
  deriving DecidableEq, Repr

/-- The fields of a lane instruction beside its opcode (R280), with the extension word already found (R282). An
unused source is `Src.v 0 false`. -/
structure LaneFields where
  ty : BitVec 3
  guard : BitVec 3
  ginv : Bool
  dkind : Bool
  dest : BitVec 10
  a : Src
  b : Src
  c : Src
  x : W32
  deriving DecidableEq, Repr

/-- Every operation of the machine: one constructor per row of the opcode table (`LAWS.json` maps them). -/
inductive Instr where
  -- Links (chapter "Die bridges, reach links and the Confluence channel")
  | flitTransmit (d : DieId) (p : Fin 6)
  -- Confluence
  | gseqAssign (d : DieId) (group : BitVec 8) (msg : W512) (sender : BitVec 9) (core : Fin 16)
  | mailboxDeliver (d : DieId) (box : Fin 16) (msg : W512) (core : Option (DieId × Fin 16))
  | heartbeat (d : DieId) (about : BitVec 9)
  -- Memory attach (chapter "Memory attach, format regions and the shared pool")
  | tileFillComplete (d : DieId) (q : FillReq) (r : ReadResult)
  | accessSample (d : DieId) (q : SampleReq)
  -- The system image (chapter "Single system image, supervisor cores and firmware")
  | form (d : DieId) (tag : W32) (body : Body)
  | join (d : DieId) (tag : W32) (body : Body)
  | lost (d : DieId) (tag : W32) (body : Body)
  | resync (d : DieId) (src : BitVec 9) (body : Body)
  | map (d : DieId) (tag : W32) (body : Body)
  | procstart (d : DieId) (tag : W32) (body : Body)
  | procend (d : DieId) (tag : W32) (body : Body)
  | ttset (d : DieId) (tag : W32) (body : Body)
  | attestationRequest (d : DieId) (body : Body)
  | keyExchangeNonce (d : DieId) (p : Fin 6) (payload : List Byte)
  | keyExchangeReport (d : DieId) (p : Fin 6) (payload : List Byte)
  | keyExchangeEphemeral (d : DieId) (p : Fin 6) (payload : List Byte)
  | keyready (d : DieId) (p : Fin 6) (payload : List Byte)
  -- Hosts, queues and launches (chapter "Host attach, queues and launch commands")
  | wakeStore (d : DieId) (q : BitVec 20) (value : W64) (w : WakeWriter)
  | queueMap (d : DieId) (q : BitVec 20)
  | packetParse (d : DieId) (q : BitVec 20)
  | launchRequestReceive (d : DieId) (q : LaunchReq)
  | teamDependenceResolved (d : DieId) (team : Nat)
  | teamEventWrite (d : DieId) (team : Nat)
  | gridEventWrite (d : DieId) (launch : Nat)
  -- The scheduler (chapter "The scheduler: regions, teams and pre-emption")
  | regionTableRead (d : DieId) (pid : W32)
  | placementDecision (d : DieId)
  | teamMove (d : DieId) (team : Nat)
  | teamMoveComplete (d : DieId) (team : Nat)
  | tileBankWriteoutComplete (d : DieId) (cluster : Fin 64) (bank : Nat)
  | teamKill (d : DieId) (team : Nat) (status : BitVec 16)
  -- Debug, trace and replay (chapter "Names, stops, trace, replay and time accounting")
  | debugHaltComplete (d : DieId)
  -- Cluster engines (chapters "Inside a cluster" and "Matrix, copy and collective instructions")
  | sequencerEntryStart (d : DieId) (cluster : Fin 64)
  | sequencerStepComplete (d : DieId) (cluster : Fin 64) (entry : Nat)
  | copyCommandStart (d : DieId) (cluster : Fin 64)
  | copyStepLand (d : DieId) (cluster : Fin 64) (command : Nat)
  -- Coherence (chapter "The tile cache and coherence")
  | rds (home : DieId) (src : DieId) (t : TileId)
  | rdx (home : DieId) (src : DieId) (t : TileId)
  | upg (home : DieId) (src : DieId) (t : TileId)
  | inv (d : DieId) (home : DieId) (t : TileId)
  | fwds (d : DieId) (home : DieId) (requester : DieId) (t : TileId)
  | fwdx (d : DieId) (home : DieId) (requester : DieId) (t : TileId)
  | flreq (home : DieId) (src : DieId) (tid : BitVec 20) (lo hi : BitVec 48) (ticket : Nat)
  | flush (d : DieId) (home : DieId) (t : TileId)
  | wb (home : DieId) (src : DieId) (t : TileId) (keep : Bool) (data : Option (TileData × Clock))
  | data (d : DieId) (src : DieId) (t : TileId) (data : TileData) (clock : Clock)
  | datae (d : DieId) (src : DieId) (t : TileId) (data : TileData) (clock : Clock)
  | datax (d : DieId) (src : DieId) (t : TileId) (data : TileData) (clock : Clock)
  | upgack (d : DieId) (home : DieId) (t : TileId) (clock : Clock)
  | wback (d : DieId) (home : DieId) (t : TileId) (clock : Clock)
  | ack (home : DieId) (src : DieId) (t : TileId) (clock : Clock)
  | done (home : DieId) (src : DieId) (t : TileId) (clock : Clock)
  | flack (d : DieId) (home : DieId) (tid : BitVec 20) (ticket : Nat) (clock : Clock)
  | bumpNotice (d : DieId) (home : DieId) (tid : BitVec 20) (gen : BitVec 12)
  | bumpAck (home : DieId) (src : DieId) (ack : BumpAck)
  | remoteWrite (home : DieId) (q : RemoteWrite)
  | remoteWriteAck (d : DieId) (home : DieId) (seq : Nat) (clock : Clock)
  | remoteAtomic (home : DieId) (q : AtomicReq)
  | uncachedRead (home : DieId) (src : BitVec 9) (pa : Nat) (width : Nat)
  -- Shoot-downs, faults and containment (chapter "Address translation, page faults and error containment")
  | unmapIntent (d : DieId) (src : BitVec 9) (box : BitVec 4) (tag : W32) (body : Body)
  | shootDownAcknowledgement (d : DieId) (src : BitVec 9) (sdid : BitVec 16)
  | unmapCommit (d : DieId) (src : BitVec 9) (body : Body)
  -- Wave events (chapters "Execution state, splits and traps" and "Memory, tile cache and synchronisation")
  | loadResultLand (wave : Nat) (landing : Nat)
  | streamPrefetch (wave : Nat) (q : BitVec 3)
  | asyncTrapTake (wave : Nat)
  | barFlipObserve (wave : Nat) (split : Fin 5)
  -- Scalar instructions (R277)
  | udf (u : BitVec 26)
  | add (d a b : BitVec 6)
  | sub (d a b : BitVec 6)
  | and (d a b : BitVec 6)
  | or (d a b : BitVec 6)
  | xor (d a b : BitVec 6)
  | shl (d a b : BitVec 6)
  | shr (d a b : BitVec 6)
  | sar (d a b : BitVec 6)
  | mul (d a b : BitVec 6)
  | mulh (d a b : BitVec 6)
  | div (d a b : BitVec 6)
  | rem (d a b : BitVec 6)
  | min (d a b : BitVec 6)
  | max (d a b : BitVec 6)
  | slt (d a b : BitVec 6)
  | sltn (d a b : BitVec 6)
  | addi (d a : BitVec 6) (i : BitVec 14)
  | andi (d a : BitVec 6) (i : BitVec 14)
  | ori (d a : BitVec 6) (i : BitVec 14)
  | xori (d a : BitVec 6) (i : BitVec 14)
  | shli (d a : BitVec 6) (n : BitVec 6)
  | shri (d a : BitVec 6) (n : BitVec 6)
  | sari (d a : BitVec 6) (n : BitVec 6)
  | slti (d a : BitVec 6) (i : BitVec 14)
  | lui (d : BitVec 6) (i : BitVec 20)
  | movl (d : BitVec 6) (lit : W32)
  | sld (d a : BitVec 6) (w : BitVec 2) (off : BitVec 12)
  | sst (d a : BitVec 6) (w : BitVec 2) (off : BitVec 12)
  | slda (d a : BitVec 6) (sc : BitVec 3) (off : BitVec 11)
  | sstr (d a : BitVec 6) (sc : BitVec 3) (off : BitVec 11)
  | samoAdd (d a b : BitVec 6) (sc : BitVec 3) (o : BitVec 2)
  | samoAnd (d a b : BitVec 6) (sc : BitVec 3) (o : BitVec 2)
  | samoOr (d a b : BitVec 6) (sc : BitVec 3) (o : BitVec 2)
  | samoXor (d a b : BitVec 6) (sc : BitVec 3) (o : BitVec 2)
  | samoMin (d a b : BitVec 6) (sc : BitVec 3) (o : BitVec 2)
  | samoMax (d a b : BitVec 6) (sc : BitVec 3) (o : BitVec 2)
  | samoSwap (d a b : BitVec 6) (sc : BitVec 3) (o : BitVec 2)
  | samoCas (d a b : BitVec 6) (sc : BitVec 3) (o : BitVec 2)
  | beq (a b : BitVec 6) (off : BitVec 14)
  | bne (a b : BitVec 6) (off : BitVec 14)
  | blt (a b : BitVec 6) (off : BitVec 14)
  | bge (a b : BitVec 6) (off : BitVec 14)
  | bltn (a b : BitVec 6) (off : BitVec 14)
  | bgen (a b : BitVec 6) (off : BitVec 14)
  | jmp (off : BitVec 26)
  | call (off : BitVec 26)
  | jr (a : BitVec 6)
  | lblk (d a : BitVec 6) (count : BitVec 4) (rep : BitVec 10) (lit : W32)
  | ldrain
  | stbind (q : BitVec 3) (a : BitVec 6) (i : BitVec 14)
  | strel (q : BitVec 3)
  | bclose (d : BitVec 6)
  | bwait (a : BitVec 6)
  | bararr (b a : BitVec 6)
  | barwait (b a : BitVec 6)
  | barexp (b a : BitVec 6)
  | fence (sc : BitVec 5)
  | scopeset (a : BitVec 6) (n : BitVec 4)
  | recfence
  | recload (slot : BitVec 4)
  | syscall (service : BitVec 20)
  | trapret
  | csrr (d : BitVec 6) (addr : BitVec 12)
  | csrw (a : BitVec 6) (addr : BitVec 12)
  | exit
  | brk (code : BitVec 20)
  | yield
  | launch (d a b : BitVec 6)
  | nop
  | waitev (d a b : BitVec 6)
  | scalarReservedOpcode (w : W32)
  -- Lane instructions (R285)
  | iadd (f : LaneFields)
  | isub (f : LaneFields)
  | imul (f : LaneFields)
  | imad (f : LaneFields)
  | imulh (f : LaneFields)
  | idiv (f : LaneFields)
  | imin (f : LaneFields)
  | imax (f : LaneFields)
  | land (f : LaneFields)
  | lor (f : LaneFields)
  | lxor (f : LaneFields)
  | lshl (f : LaneFields)
  | lshr (f : LaneFields)
  | lsar (f : LaneFields)
  | popc (f : LaneFields)
  | clz (f : LaneFields)
  | icmp (f : LaneFields)
  | sel (f : LaneFields)
  | fadd (f : LaneFields)
  | fsub (f : LaneFields)
  | fmul (f : LaneFields)
  | ffma (f : LaneFields)
  | fmin (f : LaneFields)
  | fmax (f : LaneFields)
  | fcmp (f : LaneFields)
  | frnd (f : LaneFields)
  | fscale (f : LaneFields)
  | fcvt (f : LaneFields)
  | rcp (f : LaneFields)
  | rsq (f : LaneFields)
  | sqrt (f : LaneFields)
  | exp2 (f : LaneFields)
  | log2 (f : LaneFields)
  | ln (f : LaneFields)
  | dot4 (f : LaneFields)
  | hfma2 (f : LaneFields)
  | mov (f : LaneFields)
  | movsp (f : LaneFields)
  | rget (f : LaneFields)
  | rput (f : LaneFields)
  | shfl (f : LaneFields)
  | shflx (f : LaneFields)
  | bcast (f : LaneFields)
  | ballot (f : LaneFields)
  | vote (f : LaneFields)
  | reduce (f : LaneFields)
  | scan (f : LaneFields)
  | pset (f : LaneFields)
  | plop (f : LaneFields)
  | feclr (f : LaneFields)
  | feset (f : LaneFields)
  | lbr (f : LaneFields)
  | ljmp (f : LaneFields)
  | lend (f : LaneFields)
  | lnop (f : LaneFields)
  | ltrap (f : LaneFields)
  | lbrk (f : LaneFields)
  | ldv (f : LaneFields)
  | stv (f : LaneFields)
  | ldb (f : LaneFields)
  | stb (f : LaneFields)
  | cstore (f : LaneFields)
  | xload (f : LaneFields)
  | atom (f : LaneFields)
  | lfence (f : LaneFields)
  | bar (f : LaneFields)
  | qskip (f : LaneFields)
  | ctxsync (f : LaneFields)
  | packg (f : LaneFields)
  | unpackg (f : LaneFields)
  | nqdec (f : LaneFields)
  | rand (f : LaneFields)
  | randu (f : LaneFields)
  | propose (f : LaneFields)
  | accept (f : LaneFields)
  | pdiscard (f : LaneFields)
  | pread (f : LaneFields)
  | pcount (f : LaneFields)
  | tclook (f : LaneFields)
  | tcpf (f : LaneFields)
  | tcpin (f : LaneFields)
  | tchalo (f : LaneFields)
  | tcinv (f : LaneFields)
  | tcflush (f : LaneFields)
  | recbind (f : LaneFields)
  | cpy (f : LaneFields)
  | cpyg (f : LaneFields)
  | coll (f : LaneFields)
  | tcfg (f : LaneFields)
  | trel (f : LaneFields)
  | tzero (f : LaneFields)
  | mma (f : LaneFields)
  | mmag (f : LaneFields)
  | tlda (f : LaneFields)
  | tsta (f : LaneFields)
  | tmovv (f : LaneFields)
  | laneReservedOpcode (w : BitVec 96)
  -- Further events of the device
  | hostRequest (d : DieId) (who : Client) (va : W64) (q : HostKind)
  | faultRefuse (d : DieId) (fid : BitVec 16) (m : Master)
  | haloStripLand (d : DieId) (id : Nat)
  | homeWriteBackAck (d : DieId) (t : TileId)
  | generationMirrorFill (d : DieId) (tid : BitVec 20) (gen : BitVec 12)
  -- What only the outside of the model brings: it is never made by the machine itself.
  -- Package, power and bring-up (chapter "Package, dies and power")
  | powerOn
  | bootPhaseBoundExceeded (d : DieId)
  | vfiStepRequest (d : DieId) (i : Fin 16) (step : BitVec 4) (m : Master)
  | vfiStepChangeComplete (d : DieId) (i : Fin 16)
  | vfiGateSet (d : DieId) (i : Fin 16) (m : Master)
  | islandPowerOff (d : DieId) (i : Fin 16)
  | vfiGateClear (d : DieId) (i : Fin 16) (m : Master)
  | islandPowerRestored (d : DieId) (i : Fin 16)
  | pwrlimWrite (d : DieId) (value : W64) (m : Master)
  | powerThrottleDown (d : DieId) (power : Nat)
  | powerThrottleUp (d : DieId) (power : Nat)
  | thermalThrottleDown (d : DieId) (i : Fin 16) (temp : Nat)
  | thermalThrottleUp (d : DieId) (i : Fin 16) (temp : Nat)
  | dieThermalShutdown (d : DieId) (temp : Nat)
  | registerWrite (d : DieId) (off : Nat) (value : W64) (m : Master)
  -- Links (chapter "Die bridges, reach links and the Confluence channel")
  | flitReceive (d : DieId) (p : Fin 6) (bytes : List Byte)
  | replayTimeoutResend (d : DieId) (p : Fin 6)
  | linkRetrainComplete (d : DieId) (p : Fin 6)
  | keyWrite (d : DieId) (p : Fin 6) (n : Fin 2) (word : Fin 4) (value : W64) (m : Master)
  | lnkctlRoll (d : DieId) (p : Fin 6) (m : Master)
  | keyExpire (d : DieId) (p : Fin 6)
  | linkIdleSleep (d : DieId) (p : Fin 6) (idleUs : Nat)
  | linkWakeComplete (d : DieId) (p : Fin 6)
  | linkWakeTimeout (d : DieId) (p : Fin 6)
  -- Confluence
  | confluenceSend (d : DieId) (k : Fin 16) (m : Master)
  | sendUndeliverableTimeout (d : DieId) (k : Fin 16)
  | mbidxHeadWrite (d : DieId) (box : Fin 16) (head : BitVec 7) (m : Master)
  | heartbeatSend (d : DieId)
  | dieSilent (d : DieId) (about : BitVec 9)
  -- Memory attach (chapter "Memory attach, format regions and the shared pool")
  | lpddr6Scrub (d : DieId) (channel : Fin 64) (corrected : List Nat)
  | fmtrgnWrite (d : DieId) (n : Fin 32) (word : Fin 4) (value : W64) (m : Master)
  | frctlEnable (d : DieId) (n : Fin 32) (value : W64) (m : Master)
  | frctlDisable (d : DieId) (n : Fin 32) (value : W64) (m : Master)
  | poolmapWrite (d : DieId) (n : Fin 16) (word : Fin 2) (value : W64) (m : Master)
  | impmapWrite (d : DieId) (n : Fin 16) (word : Fin 2) (value : W64) (m : Master)
  | snpinv (d : DieId) (pa : Nat)
  | snpdata (d : DieId) (pa : Nat)
  | ringHeadWrite (d : DieId) (off : Nat) (head : BitVec 21) (m : Master)
  -- The system image (chapter "Single system image, supervisor cores and firmware")
  | formTimeout (d : DieId)
  | fwmbctlSend (d : DieId) (k : Fin 8) (m : Master)
  | fwmbctlRecv (d : DieId) (k : Fin 8) (m : Master)
  | firmwareWatchdogExpire (d : DieId) (k : Fin 8)
  | dieWithdraw (d : DieId)
  | linkKeyRollTimer (d : DieId) (p : Fin 6) (hours : Nat)
  -- Hosts, queues and launches (chapter "Host attach, queues and launch commands")
  | queueSlotTimeout (d : DieId) (q : BitVec 20)
  | queueSpill (d : DieId) (qs : List (BitVec 20))
  | queueReadbackComplete (d : DieId) (page : Nat) (readOk : Bool)
  -- The scheduler (chapter "The scheduler: regions, teams and pre-emption")
  | timeSliceExpire (d : DieId) (team : Nat) (ranUs : Nat)
  -- Debug, trace and replay (chapter "Names, stops, trace, replay and time accounting")
  | debugHalt (d : DieId) (value : W64) (m : Master)
  | debugResume (d : DieId) (value : W64) (m : Master)
  | debugStep (d : DieId) (value : W64) (m : Master)
  | pcSample (d : DieId) (cluster : Fin 64)
  | replayHoldTimeout (d : DieId) (tile : TileId)
  -- Coherence (chapter "The tile cache and coherence")
  | bounceDecay (d : DieId) (t : TileId)
  -- Shoot-downs, faults and containment (chapter "Address translation, page faults and error containment")
  | sddoneWrite (d : DieId) (value : W64) (m : Master)
  | faultReplay (d : DieId) (fid : BitVec 16) (m : Master)
  | frzclRelease (d : DieId) (value : W64) (m : Master)
  | frzceRelease (d : DieId) (value : W64) (m : Master)
  -- Further events of the device
  | bootPhaseComplete (d : DieId) (r : BootReport)
  | savePageWriteOutComplete (d : DieId) (page : Nat)
  | firmwareCoreRestart (d : DieId) (k : Fin 8)
  | pasidBind (d : DieId) (pasid : Nat) (pid : W32)
  deriving DecidableEq, Repr

end Sys2Proof
end

