-- ==== Sys2Proof/Machine/State.lean ====
section
/-! DEFINITION. The state of the machine: one package of eight dies with everything the spec gives them, the waves,
teams and launches, memory, and the messages on their way. Sets of numbered things are sparse maps. -/

namespace Sys2Proof.Machine

/-! ### Waves (chapter "Execution state, splits and traps") -/

/-- A stream register (R221, R228) and the elements prefetched for it (R181): step, lane, value. -/
structure Stream where
  base : W64 := 0
  sstride : W32 := 0
  count : W32 := 0
  pos : W32 := 0
  lstride : W16 := 0
  etype : BitVec 3 := 0
  dir : Bool := false
  bound : Bool := false
  pre : List (Nat × Nat × W64) := []
  deriving DecidableEq, Repr

/-- A lane-queue entry (R221, R223). -/
structure QEntry where
  bp : List (Nat × W64) := []
  off : W32 := 0
  rep : BitVec 10 := 0
  iter : BitVec 10 := 0
  res : BitVec 6 := 0
  resw : Bool := false
  npar : BitVec 4 := 0
  valid : Bool := false
  deriving DecidableEq, Repr

/-- A stack entry of a split (R221, R225). -/
structure StackEntry where
  pmask : W32
  ppc : W32
  rpc : W32
  phase : Bool
  deriving DecidableEq, Repr

/-- A split record (R221). `chain` holds RCV and TAG, innermost first; `stack` has its top first. `issued` is the
issue recency that R133 compares; 0 if it has not issued. -/
structure Split where
  lpc : W32 := 0
  mask : W32 := 0
  valid : Bool := false
  parked : Bool := false
  chain : List (W32 × BitVec 4) := []
  stack : List StackEntry := []
  issued : Nat := 0
  deriving DecidableEq, Repr

/-- The registers of a wave (R214). Register n of lane L is at key 32n + L of `v`, the side byte of granule g at key
4n + g of `side`; `poison` lists the poisoned granules with their origin (R171). -/
structure WaveRegs where
  s : List (Nat × W64) := []
  sEmpty : BitVec 64 := 0
  v : List (Nat × W32) := []
  side : List (Nat × Byte) := []
  vEmpty : BitVec 1024 := 0
  k : List (Nat × W32) := []
  q : List (Nat × Stream) := []
  poison : List (Nat × W32) := []
  deriving DecidableEq, Repr

/-- The system registers of a wave (R215) that the system block saves (R220). -/
structure WaveSys where
  lanebase : W64 := 0
  tvec : W64 := 0
  fpmode : W64 := 0
  rngkey0 : W64 := 0
  rngkey1 : W64 := 0
  batch : W64 := 0
  bdone : W64 := 0
  tcause : W64 := 0
  tspc : W64 := 0
  tlpc : W64 := 0
  taddr : W64 := 0
  tinst : BitVec 96 := 0
  tamask : W32 := 0
  tfmask : W32 := 0
  tsplit : W32 := 0
  pprop : W32 := 0
  pacc : W32 := 0
  deriving DecidableEq, Repr

/-- An asynchronous trap that is pending (R237, R306): its cause fields and the values it sets. -/
structure AsyncTrap where
  tcause : W64 := 0
  inst : BitVec 96 := 0
  tlpc : W64 := 0
  tamask : W32 := 0
  tfmask : W32 := 0
  taddr : W64 := 0
  split : Nat := 7
  deriving DecidableEq, Repr

/-- The wave state, proposal header, counters, queue entries and splits of the system block (R220, R221). Queue entry
4 and split 4 are those of the handler (R235). `bksup` says which streams have matching suppressed (R124): bits 0 to 3 the splits, 7 the
scalar stream, 4 and 5 the handler's two streams; BKSUP of the image is set while any is. -/
structure WaveCtl where
  pc : W64 := 0
  qhead : BitVec 2 := 0
  qcnt : BitVec 3 := 0
  hq : Bool := false
  intrap : Bool := false
  bksup : Byte := 0
  halted : Bool := false
  parked : Bool := false
  apend : Bool := false
  tagnext : BitVec 4 := 0
  harv : Bool := false
  haph : Bool := false
  acause : Byte := 0
  unfin : W32 := 0
  faultId : W16 := 0
  prog : Byte := 0
  arv : BitVec 4 := 0
  aph : BitVec 4 := 0
  gbase : BitVec 10 := 0
  gcount : BitVec 7 := 0
  popen : Bool := false
  pdefined : Bool := false
  rng : List (Nat × W64) := []
  pcount : List (Nat × W16) := []
  acount : List (Nat × W16) := []
  entries : List (Nat × QEntry) := []
  splits : List (Nat × Split) := []
  deriving DecidableEq, Repr

/-- A result on its way to registers that were marked empty at issue (R218): it lands when `need` reaches 0. A scalar
register, lane writes (key, value) and side bytes, the v registers it writes, and those to be marked full; `wide` says that
an answer of 8 bytes fills a pair. -/
structure Landing where
  need : Nat := 0
  scalar : Option (BitVec 6 × W64) := none
  lanes : List (Nat × W32) := []
  poison : List (Nat × W32) := []
  fullS : List Nat := []
  fullV : List Nat := []
  regs : List Nat := []
  wide : Bool := false
  side : List (Nat × Byte) := []
  deriving DecidableEq, Repr

/-- Where a wave is parked (R208): the stream that faulted, the access type of R209, the records raised with their
lanes and pages, and the ranges whose blocks it waits for (R207). -/
structure Park where
  lane : Bool := false
  split : Nat := 0
  fetch : Bool := false
  access : Byte := 0
  records : List (Nat × W32) := []
  blocked : Bool := false
  fullS : List Nat := []
  fullV : List Nat := []
  inst : BitVec 96 := 0
  deriving DecidableEq, Repr

/-- What a wave waits for outside its own stream: an answer to SYSCALL (its fault id), the arrival of the image that SYSCALL has
written, the code of a LAUNCH (its landing), a generation bump (its job), or nothing. -/
inductive WaveWait where
  | none
  | syscall (fid : Nat)
  | synced
  | launch (landing : Nat)
  | launched (code : W64)
  | served (ok : Bool)
  | bump (job : Nat)
  deriving DecidableEq, Repr

/-- A wave: its place (R96, R116), its state in the context image, and what the cluster holds for it. `unfinSplit` is the
split UNFIN belongs to, `unfinFull` the registers its instruction has marked empty, `lastCopy` its latest CPY or CPYG (R406), `stepping` how far a debugger's command is (R125: 0 nothing, 1 one
instruction is to issue, 2 one K-block of a matrix instruction is to run, 3 unfinished lanes are to be replayed). -/
structure Wave where
  launch : Nat := 0
  team : Nat := 0
  idx : Nat := 0
  ctxbase : W64 := 0
  winsize : Nat := 0
  feed : Bool := false
  prio : Nat := 0
  slot : Nat := 0
  running : Bool := false
  ended : Bool := false
  r : WaveRegs := {}
  y : WaveSys := {}
  c : WaveCtl := {}
  landings : List (Nat × Landing) := []
  nextLanding : Nat := 0
  park : Option Park := none
  wait : WaveWait := .none
  unfinSplit : Nat := 0
  unfinFull : List Nat := []
  stallS : Bool := false
  stallL : BitVec 5 := 0
  yielding : Nat := 0
  pendCopies : List Nat := []
  batches : List (W64 × List Nat) := []
  lastCopy : Nat := 0
  stepping : Nat := 0
  asyncs : List AsyncTrap := []
  deriving DecidableEq, Repr

/-! ### Teams, clusters and launches (chapters "Host attach, queues and launch commands" and "The scheduler") -/

/-- A barrier object (R116, R305, R378). -/
structure Barrier where
  pending : W64 := 0
  arrived : W16 := 0
  members : W16 := 0
  phase : Bool := false
  opened : Bool := false
  lane : Bool := false
  remain : BitVec 6 := 0
  deriving DecidableEq, Repr

/-- The configuration of an accumulator tile (R400): enabled, FP64, and its log2 rows and columns. -/
structure AccCfg where
  en : Bool := false
  f64 : Bool := false
  rlog : Nat := 0
  clog : Nat := 0
  deriving DecidableEq, Repr

/-- A shape record as a record slot holds it (R155, R158): its address and its 128 defined bytes. -/
structure Record where
  addr : W64 := 0
  bytes : List (Nat × Byte) := []
  deriving DecidableEq, Repr

/-- The tile an access names beside tensor 0 (R366): its id, the VA of its first byte, whether it is NQ4, and the VA of
its G8 scales (0 for none). -/
structure ElemTile where
  tile : TileId
  va : Nat
  nq4 : Bool
  side : Nat
  deriving DecidableEq, Repr

/-- A write that an engine step has still to make: the tile's address, its name, offsets and bytes, poison that is
carried along (R172), and the kind and width of an addition (R408, R413). -/
structure EngWrite where
  va : Nat
  tile : Option ElemTile
  bytes : List (Nat × Byte)
  poison : BitVec 33 := 0
  porigin : W32 := 0
  add : Option (AtomicKind × Nat) := none
  deriving DecidableEq, Repr

/-- What holds an engine command between steps: nothing, an unanswered fault (R209), a blocked range (R207), or an access
violation (R212). -/
inductive EngHold where
  | none
  | fault (fid : Nat)
  | blocked
  | frozen
  deriving DecidableEq, Repr

/-- An entry of the macro sequencer (R116, R145): the instruction with its opcode and fields, its progress, the wave and
the LPC it was issued at, whether it is in the array or unit now and whether it ever was, its place among the entries and
the order of its first issue; the gather or scatter list once read; what its step has still to write and which remote writes
and atomics have not landed; the frames it pins (R144), and the lanes that TMOVV writes. -/
structure SeqEntry where
  inst : BitVec 96
  op : Nat
  f : LaneFields
  step : Nat := 0
  wave : Nat
  tlpc : W64
  started : Bool := false
  begun : Bool := false
  order : Nat := 0
  firstTry : Nat := 0
  hold : EngHold := .none
  list : Option (List Nat) := none
  writes : List EngWrite := []
  busy : Bool := false
  pend : List (Nat × Nat) := []
  remote : Nat := 0
  pinned : List TileId := []
  lanes : W32 := 0
  deriving DecidableEq, Repr

/-- A command of the copy engine (R146, R396, R406): the instruction, the operands, records, level and ranks captured at
issue, its progress with the bytes counted so far, what its step has still to write or to see land, and the follow-on. -/
structure CopyCmd where
  id : Nat
  inst : BitVec 96
  op : Nat
  f : LaneFields
  wave : Nat
  tlpc : W64
  a : W64 := 0
  b : W64 := 0
  c : W64 := 0
  src : Option Record := none
  dst : Option Record := none
  level : Nat := 0
  list : List Nat := []
  rank : Nat := 0
  steps : Nat := 0
  size : Nat := 0
  step : Nat := 0
  order : Nat := 0
  started : Bool := false
  hold : EngHold := .none
  writes : List EngWrite := []
  busy : Bool := false
  pend : List (Nat × Nat) := []
  remote : Nat := 0
  follow : Option SeqEntry := none
  landed : Option Nat := none
  discarded : Bool := false
  deriving DecidableEq, Repr

/-- Where a team stands between its assignment and its event (R107, R108, R114, R117, R119); `away` is a team assigned to a die
of another package: `die` is then 8 plus that die's index. -/
inductive TeamPhase where
  | waiting
  | ready
  | running
  | suspended
  | moving
  | saved
  | ended
  | done
  | away
  deriving DecidableEq, Repr

/-- A team: its assignment, context block, barriers, accumulator tiles, record slots and sequencer store. Byte b of
accumulator tile i is at key 65536 i + b of `acc`. `placedAt` is the order of its placement, `since` the time of its last placement or
resumption (R112). -/
structure Team where
  launch : Nat := 0
  t : Nat := 0
  die : Nat := 0
  cluster : Nat := 0
  phase : TeamPhase := .waiting
  prio : Nat := 0
  fixedPrio : Bool := false
  ctx : W64 := 0
  carved : Bool := false
  waves : Nat := 0
  tilemax : Nat := 0
  regBytes : Nat := 0
  ctxBytes : Nat := 0
  banks : List (Nat × Nat) := []
  bars : List (Nat × Barrier) := []
  accCfg : List (Nat × AccCfg) := []
  acc : List (Nat × Byte) := []
  accPoison : List (Nat × W32) := []
  slots : List (Nat × Record) := []
  store : List SeqEntry := []
  placedAt : Nat := 0
  suspendedAt : Nat := 0
  since : Nat := 0
  status : W16 := 0
  killed : Bool := false
  fault : Option Nat := none
  deriving DecidableEq, Repr

/-- A launch that the parse core has accepted (R94 to R98, R131): its packet, its process and descriptor, its teams
by die, what is left of it, and its time classes: those of the record that is being counted, and of the full ones before it. -/
structure Launch where
  id : Nat := 0
  packet : BitVec 1024 := 0
  die : Nat := 0
  queue : Nat := 0
  pid : W32 := 0
  pindex : Nat := 0
  kernel : List (Nat × Byte) := []
  region : Nat := 0
  prio : Nat := 0
  teams : Nat := 0
  waves : Nat := 0
  serial : Bool := false
  rejected : Bool := false
  started : Bool := false
  done : Nat := 0
  worst : W16 := 0
  gridDone : Bool := false
  t0 : Nat := 0
  classes : List (Nat × Nat) := []
  parts : List (List (Nat × Nat)) := []
  accepted : Nat := 0
  index : Nat := 0
  killed : Bool := false
  deriving DecidableEq, Repr

/-- A wave that waits to issue to an engine (R135): the wave, its split and LPC, and whether it is the copy engine. -/
structure EngClaim where
  wave : Nat
  split : Nat
  lpc : W32
  copy : Bool
  deriving DecidableEq, Repr

/-- A cluster's shared units (R132): the macro sequencer queue, the copy engine, who waits for them, the tile banks
that are being written out (bank, and the team key and tile they held), and whether the cluster is fenced (R211). -/
structure Cluster where
  seq : List SeqEntry := []
  copies : List CopyCmd := []
  claims : List EngClaim := []
  writeout : List (Nat × Nat × Nat) := []
  fenced : Bool := false
  next : Nat := 1
  deriving DecidableEq, Repr

/-! ### The tile cache (chapter "The tile cache and coherence") -/

/-- The die-level state of a frame (R165, R168). -/
inductive CohState where
  | i | s | e | o | m | is | im | sm | om | mi
  deriving DecidableEq, Repr

/-- What the home of a package-coherent tile is waiting for (R165, R167); `evictWait` is the invalidation of the copies before the
home's frame is replaced (R161). -/
inductive HomeWait where
  | none
  | upgWait (x : Nat)
  | rdxWait (x : Nat)
  | fwdPend (x : Nat) (kind : Nat)
  | wbPend (x : Nat) (kind : Nat)
  | evictWait
  deriving DecidableEq, Repr

/-- A tile frame with its tag (R150), payload and side area. `base` is the physical address of its payload and `home`
its home die; `nq4` marks a decoded frame; `used` orders replacement (R161); `owner` is the launch it was filled for
(R105); `wb` marks a frame of the write-back buffer (R161). The home's transient state is kept beside the tag. `answered`
says that the copy was invalidated while it was requested, `asked` that an access waits for it and not only a prefetch, `once` in
which step it then served its read (R168), `prefetch` the number after that of the cluster whose prefetch asked for it (R384), and `grace` until which step the store that asked for ownership goes first. -/
structure Frame where
  tile : TileId := ⟨0, 0⟩
  gen : BitVec 12 := 0
  st : CohState := .i
  sharers : BitVec 64 := 0
  ncown : Bool := false
  dsharers : BitVec 8 := 0
  downer : BitVec 4 := 0
  bounce : BitVec 2 := 0
  pins : List Nat := []
  fetchPins : Nat := 0
  dirty : Bool := false
  poison : BitVec 33 := 0
  porigin : W32 := 0
  fillclk : BitVec 136 := 0
  payload : List (Nat × Byte) := []
  side : List (Nat × Byte) := []
  base : Nat := 0
  sideBase : Nat := 0
  home : Nat := 0
  pcoh : Bool := false
  repl : BitVec 8 := 0
  nq4 : Bool := false
  used : Nat := 0
  owner : Nat := 0
  wb : Bool := false
  answered : Bool := false
  asked : Bool := false
  once : Nat := 0
  grace : Nat := 0
  prefetch : Nat := 0
  wait : HomeWait := .none
  acks : BitVec 8 := 0
  done : Bool := false
  heldWback : Option Nat := none
  heldFwd : List (Nat × Nat) := []
  queue : List (Nat × Nat) := []
  deriving DecidableEq, Repr

/-- A halo annex (R160): the tile it is attached to, the strips by face with their valid bits, and its age. -/
structure Annex where
  tile : TileId
  strips : List (Nat × List (Nat × Byte)) := []
  used : Nat := 0
  deriving DecidableEq, Repr

/-- A remote write, or an atomic sent to its home, that has left the die and is not yet acknowledged (R187, R189): the bytes that
it writes, or the offsets that an atomic touches; `acq` marks an atomic that is an acquire. `wave` is the wave it belongs to (0 for
a unit of the die, from `coreKey` on for a core). A write to another package has the die itself as its home. -/
structure PendingWrite where
  seq : Nat
  home : Nat
  base : Nat
  bytes : List (Nat × Byte)
  wave : Nat
  atomic : List Nat := []
  acq : Bool := false
  deriving DecidableEq, Repr

/-- A flush request under way at the home (R170): who asked, its ticket, and the tiles still to come. -/
structure FlushJob where
  src : Nat
  tid : BitVec 20
  ticket : Nat
  tiles : List (BitVec 48)
  deriving DecidableEq, Repr

/-- A command of TCINV, TCFLUSH or TCHALO (kind 0, 1, 2) that waits for acknowledgements or strips before it counts (R154,
R170, R386). -/
structure CacheJob where
  id : Nat
  kind : Nat
  tid : BitVec 20
  acks : BitVec 8 := 0
  team : Nat := 0
  bar : Option Nat := none
  bytes : Nat := 0
  wave : Nat := 0
  strips : Nat := 0
  record : Option Record := none
  inst : BitVec 96 := 0
  tlpc : W64 := 0
  deriving DecidableEq, Repr

/-- A strip of a TCHALO on its way to the annex of a neighbour (R160): its id, the neighbour, the face, the bytes,
and the job that counts it. -/
structure HaloStrip where
  id : Nat
  tile : TileId
  face : Nat
  bytes : List (Nat × Byte)
  job : Nat
  deriving DecidableEq, Repr

/-- The cache side of a die: frames, annexes, the generation mirror of other homes (R154), pending bumps, the die clock
(R187), the pending remote writes and the pair sequence numbers. -/
structure CacheState where
  frames : List Frame := []
  annexes : List Annex := []
  mirror : List (Nat × BitVec 12) := []
  clock : Clock := ⟨0, 0⟩
  sent : Bool := false
  pend : List PendingWrite := []
  pairOut : List (Nat × Nat) := []
  pairIn : List (Nat × Nat) := []
  jobs : List CacheJob := []
  nextJob : Nat := 1
  flushes : List FlushJob := []
  halo : List HaloStrip := []
  used : Nat := 1
  fencedWays : List (Nat × Nat) := []
  deriving DecidableEq, Repr

/-! ### Translation, faults and errors (chapter "Address translation, page faults and error containment") -/

/-- A cached translation (R202): process-table index and first address and size of the page, its leaf, and its home
package. Where a cache holds it (quadrant, cluster) is not told apart, but the cluster is (R203). -/
structure TransEntry where
  cluster : Nat
  pindex : Nat
  pid : W32
  va : Nat
  size : Nat
  leaf : W64
  pkg : Nat
  deriving DecidableEq, Repr

/-- Who is behind a fault record (R209). -/
inductive FaultOwner where
  | wave (key : Nat)
  | copy (die cluster id : Nat)
  | seq (die cluster order : Nat)
  | host (ticket : Nat)
  | queue (q : Nat)
  | event (launch team : Nat)
  | context (launch team : Nat)
  | launchWrite (ticket : Nat)
  | halo (die id : Nat)
  deriving DecidableEq, Repr

/-- An unanswered fault, its 32 record bytes, whether its record has been written to the ring (R209), and the event that
is tried again on a replay, for an access that no wave or engine makes. -/
structure FaultRec where
  fid : Nat
  owner : FaultOwner
  record : List Byte
  written : Bool
  mask : W32 := 0
  va : W64 := 0
  reason : Nat := 0
  again : Option Instr := none
  deriving DecidableEq, Repr

/-- An open shoot-down (R205, R206): sender, id, kind, pid, range, what has been seen of it, and the remote writes and
atomics (home, pair number) that it still waits for (R419). -/
structure ShootDown where
  src : BitVec 9
  sdid : W16
  kind : Nat
  pid : W32
  first : Nat
  count : Nat
  box : BitVec 4
  tag : W32
  acked : Bool
  commit : Bool
  drain : List (Nat × Nat) := []
  deriving DecidableEq, Repr

/-- A host request that waits (R81, R209). -/
structure HostWait where
  ticket : Nat
  pasid : Nat
  va : W64
  kind : HostKind
  fault : Option Nat
  deriving DecidableEq, Repr

/-- A request of core k of a die that waits (R173): what it asks, as `Client.core` and `HostKind` say it. -/
structure CoreWait where
  k : Nat
  leaf : W64
  pkg : Nat
  pid : W32
  pa : W64
  kind : HostKind
  deriving DecidableEq, Repr

/-- The directory's open work: unanswered faults, open shoot-downs, the translation caches, held host requests; the supervisor
cores that are fenced (R211) and those frozen by a violation (R15, R39); the requests of its cores that wait, oldest first (R177). -/
structure TransState where
  cache : List TransEntry := []
  faults : List FaultRec := []
  nextFid : Nat := 0
  shoots : List ShootDown := []
  hostWaits : List HostWait := []
  nextTicket : Nat := 1
  errCount : Nat := 0
  violators : List (Nat × Nat) := []
  fencedRows : List (Nat × Nat) := []
  supFenced : BitVec 8 := 0
  supFrozen : BitVec 8 := 0
  coreWaits : List CoreWait := []
  deriving DecidableEq, Repr

/-! ### The rest of a die -/

/-- Power state of a die (R15 to R24): the cap of the power throttle, how far the thermal throttle lowers each island below
step 15, islands powered off, and whether the die is halted or off. -/
structure PowerState where
  cap : Nat := 15
  thermal : List (Nat × Nat) := []
  off : BitVec 16 := 0
  dieOff : Bool := false
  halted : Bool := false
  deriving DecidableEq, Repr

/-- A flit that a port has sent and that is not acknowledged (R31): its count, key slot, plain header and payload, and the
256 bytes that went out. -/
structure SentFlit where
  count : Nat
  slot : Nat
  plain : List Byte
  wire : List Byte
  deriving DecidableEq, Repr

/-- A port of a die, both directions (R26 to R39): the transmit count, queue and replay buffer; on the receive side the
lowest count not received, the counts received beyond it, ordered flits that are held, failures by count; NAKs to send, retired
quarters, retraining and wake attempts; key slots with the flits sent under each, the slot of the newest flits received and an
older one still in use until the flits below a count are delivered; the words of keys that are being written, by 4 × slot + word,
and a derived key that waits for its slot; the key exchange (R74). -/
structure Port where
  txCount : Nat := 0
  txq : List (List Byte) := []
  replay : List SentFlit := []
  rxNext : Nat := 0
  rxGot : List Nat := []
  held : List (Nat × List Byte) := []
  fails : List (Nat × Nat) := []
  naks : List Nat := []
  retired : BitVec 4 := 0
  training : Bool := false
  tries : Nat := 0
  keys : List (Nat × BitVec 256) := []
  keyWords : List (Nat × W64) := []
  wanted : Option (BitVec 256) := none
  sent : List (Nat × Nat) := []
  rxSlot : Nat := 0
  rxOld : Option (Nat × Nat) := none
  ready : Bool := false
  kxOn : Bool := false
  ownNonce : List Byte := []
  peerNonce : List Byte := []
  report : List Byte := []
  peerOk : Bool := false
  secret : BitVec 448 := 0
  rolls : Nat := 0
  keySet : Bool := false
  peerReady : Bool := false
  deriving DecidableEq, Repr

/-- The Confluence endpoint of a die (R40 to R45): messages being sent by core, the next GSEQ of the groups this die
sequences, the last GSEQ delivered by group, messages held out of order, the heartbeat record, and the link core's routes to
other packages: package, the die the traffic leaves from, and its reach port (R26, assumption 21), with the flits that
wait for a route. -/
structure ConfState where
  sending : List (Nat × W512) := []
  seqNext : List (Nat × W32) := []
  seqSeen : List (Nat × W32) := []
  heldMsgs : List (Nat × W512 × Option (Nat × Nat)) := []
  silent : List Nat := []
  heard : List Nat := []
  beat : Nat := 0
  routes : List (Nat × Nat × Nat) := []
  stuck : List (List Byte) := []
  deriving DecidableEq, Repr

/-- The sampling unit (R59, R60) and the scrub record of the memory attach (R48). -/
structure AttachState where
  smpCount : Nat := 0
  smpSeq : Nat := 0
  corrected : List (Nat × Nat) := []
  deriving DecidableEq, Repr

/-- The kernel instance of a die (R64 to R69): its view, image epoch, agreement log, joined dies and processes, where its
software keeps the tables whose place the spec leaves to it, the recovery of a lost sequencer (R76) with the members' APPLIED
and the re-sent messages seen, the page-table frames taken, the lost pages (R77: process, first address, bytes), the agreement
messages sent and not yet delivered (tag and body) and those that returned RESULT 3 in a recovery (R68, R76), and the threads of
the supervisor cores (core and process, R78), which the instance's software starts. -/
structure ImageState where
  view : W512 := 0
  epoch : W32 := 0
  applied : W64 := 0
  log : List (W32 × Body) := []
  voids : Nat := 0
  joined : W512 := 0
  formed : Bool := false
  procs : List (Nat × Body) := []
  qtbase : Nat := 0
  regionBase : List (Nat × Nat × Nat) := []
  withdrawn : Bool := false
  recover : Option Nat := none
  resyncSeen : List (Nat × W64) := []
  resent : Nat := 0
  formSent : Bool := false
  tables : Nat := 0
  lost : List (Nat × Nat × Nat) := []
  sends : List (W32 × Body) := []
  failed : List Body := []
  threads : List (Nat × W32) := []
  deriving DecidableEq, Repr

/-- The firmware cores of a die (R70 to R74): inbound mailbox queues, frozen cores, freezes with their time, the running
and the fused minimum SVN, the digest of the manifest, and the identity keys that the image manifest lists by die index. -/
structure FwState where
  inbox : List (Nat × List (BitVec 256)) := []
  frozen : Byte := 0
  history : List (Nat × Nat) := []
  svn : Nat := 0
  minSvn : Nat := 0
  digest : List Byte := []
  keys : List (Nat × List Byte) := []
  deriving DecidableEq, Repr

/-- A hardware queue slot (R88 to R91): the queue, when it was last woken, since when it has held the slot, and whether it
leaves it after its current packet. -/
structure QueueSlot where
  q : Nat
  woken : Nat
  since : Nat
  leaving : Bool := false
  deriving DecidableEq, Repr

/-- A save page (R91): its number, queues and bytes, whether its write-out is complete, and a read-back under way. -/
structure SavePage where
  page : Nat
  queues : List Nat
  bytes : List Byte
  written : Bool := false
  reading : Bool := false
  retried : Bool := false
  since : Nat := 0
  deriving DecidableEq, Repr

/-- The host attach and the parse core of a die (R81 to R99): bound PASIDs with their process and freeze, hardware slots,
queues that wait for one in the order of their wake stores, save pages, the time of the last wake of a queue, and for its
accepted wakes the TAIL, the time of acceptance and the launch's start (R131); for the read-backs of a queue, when each began and ended; the pages of the doorbell window that are granted, with their process (R88). -/
structure HostState where
  pasids : List (Nat × W32 × Bool) := []
  slots : List QueueSlot := []
  waking : List Nat := []
  pages : List SavePage := []
  nextPage : Nat := 0
  woken : List (Nat × Nat) := []
  wakes : List (Nat × Nat × Nat × Nat) := []
  reads : List (Nat × Nat × Nat) := []
  grants : List (Nat × W32) := []
  nextLaunch : Nat := 1
  deriving DecidableEq, Repr

/-- The schedule core and dispatcher of a die (R100 to R121): region tables as last read by process, ready lists (the
order of team keys within a level), and the count of placements. -/
structure SchedState where
  regions : List (Nat × List Byte) := []
  ready : List Nat := []
  placements : Nat := 1
  deriving DecidableEq, Repr

/-- Trace and replay of a die (R127 to R130): the trace sequence number, the open atomic runs, and of a replayed log what is used
of each record and the tiles whose order is no longer enforced. -/
structure DebugState where
  traceSeq : Nat := 0
  runs : List (TileId × Nat × Nat) := []
  aolUsed : List (Nat × Nat) := []
  aolFree : List TileId := []
  deriving DecidableEq, Repr

/-- A die: its control registers by offset (R7, R15) and the state of its units. -/
structure Die where
  ctl : List (Nat × W64) := []
  cache : CacheState := {}
  tr : TransState := {}
  power : PowerState := {}
  ports : List (Nat × Port) := []
  conf : ConfState := {}
  attach : AttachState := {}
  image : ImageState := {}
  fw : FwState := {}
  host : HostState := {}
  sched : SchedState := {}
  dbg : DebugState := {}
  deriving DecidableEq, Repr

/-- What leaves the model, by kind: 1 to 3 a read, write or atomic to another package, 4 and 5 an uncached host read or
write, 6 a LAUNCH request and 7 the answer of an uncached read to another package, 8 a Confluence message and 9 a heartbeat to
another package, 10 a flit on a port (target is the port), 11 a message to a firmware core and 12 an interrupt to a core of the
die (target is the core), 13 an MSI-X interrupt, 14 a completion to a host client, 15 a save page written to the spillway,
16 a team for another package, 17 a firmware core's freeze told to the instance, 18 the result of a multicast of another package, 19 a data
flit that has arrived, 20 a CXL.cache message about imported memory, 21 a completion to a core of the die, 22 a process signal. -/
structure Outgoing where
  die : Nat
  kind : Nat
  target : Nat
  payload : List Byte
  deriving DecidableEq, Repr

/-- The machine. Memory is a list of cells; an unlisted cell reads as 0 (assumption 1). `sm` holds the named scopes,
keyed by die, process and number (R214). `focus`, `lane` and `split` name the wave and stream that issues next, `issued`
the quadrants that have issued in the current cycle, with their waves;
`agenda` holds the messages on their way and the events to come, oldest first; `ticks` counts steps, `now` the nanoseconds since
reset, `formAt` those at FORM, and `draws` the free values used. `fuses` holds the remap table (R12), `keyDigest` the fused digest of the key that signs the firmware (R72). -/
structure State where
  ticks : Nat
  now : Nat
  formAt : Nat
  draws : Nat
  mem : List Host.Cell
  mempoison : List (Nat × W32)
  dies : List (Nat × Die)
  clusters : List (Nat × Cluster)
  waves : List (Nat × Wave)
  teams : List (Nat × Team)
  launches : List (Nat × Launch)
  sm : List (Nat × W512)
  focus : Nat
  lane : Bool
  split : Nat
  issued : List (Nat × Nat)
  agenda : List Instr
  outbox : List Outgoing
  fuses : W64
  keyDigest : List Byte
  deriving DecidableEq, Repr

/-- Why the machine stops. No meaning of the model stops with it: an access to an address that does not exist freezes
its master (R46, R212). It is safe. -/
inductive Fault where
  /-- An address outside every range of R46; raised by nothing, since the spec freezes the master instead. Safe. -/
  | noMemory (pa : Nat)
  deriving DecidableEq, Repr

/-- Why an instruction is refused. -/
inductive Refusal where
  /-- An instruction without a meaning in the model: raised by `exec`'s arm of that instruction. Safe. -/
  | notModelled (mnemonic : String)
  deriving DecidableEq, Repr

/-- The fuses of the model's package: the dark position is 8 and logical die d sits at position d (R12, assumption 2). -/
def fusesReset : W64 := 0x0000000876543210

/-- The machine after reset: every register and memory byte as the spec and the assumption log say; the control
registers stand at the reset values of their chapters (`ctlReset`), nothing is listed. -/
def State.reset : State :=
  { ticks := 0, now := 0, formAt := 0, draws := 0, mem := [], mempoison := [], dies := [], clusters := [], waves := [], teams := [],
    launches := [], sm := [], focus := 0, lane := false, split := 0, issued := [], agenda := [], outbox := [], fuses := fusesReset,
    keyDigest := Config.keyDigest }

end Sys2Proof.Machine
end

