-- ==== Sys2Proof/Machine/Memory.lean ====
section
/-! DEFINITION. Access to the parts of the state, the control registers' reset values, the physical address map (R46)
with the pool and import windows, and memory as each die sees it through its tile cache. -/

namespace Sys2Proof.Machine

/-! ### Parts of the state -/

def State.die (s : State) (d : Nat) : Die := mget {} s.dies d
def State.setDie (s : State) (d : Nat) (x : Die) : State := { s with dies := mset s.dies d x }
def State.modDie (s : State) (d : Nat) (f : Die → Die) : State := s.setDie d (f (s.die d))

/-- Change one unit of a die. -/
def State.modCache (s : State) (d : Nat) (f : CacheState → CacheState) : State := s.modDie d fun x => { x with cache := f x.cache }
def State.modTr (s : State) (d : Nat) (f : TransState → TransState) : State := s.modDie d fun x => { x with tr := f x.tr }

def clusterKey (d c : Nat) : Nat := 64 * d + c
def State.cluster (s : State) (k : Nat) : Cluster := mget {} s.clusters k
def State.modCluster (s : State) (k : Nat) (f : Cluster → Cluster) : State :=
  { s with clusters := mset s.clusters k (f (s.cluster k)) }

def teamKey (launch t : Nat) : Nat := launch * 2 ^ 20 + t
def waveKey (launch t w : Nat) : Nat := (launch * 2 ^ 20 + t) * 16 + w
def State.wave? (s : State) (k : Nat) : Option Wave := mfind s.waves k
def State.setWave (s : State) (k : Nat) (w : Wave) : State := { s with waves := mset s.waves k w }
def State.modWave (s : State) (k : Nat) (f : Wave → Wave) : State := { s with waves := mmod s.waves k f }
def State.team? (s : State) (k : Nat) : Option Team := mfind s.teams k
def State.team (s : State) (k : Nat) : Team := mget {} s.teams k
def State.modTeam (s : State) (k : Nat) (f : Team → Team) : State := { s with teams := mmod s.teams k f }
def State.launch (s : State) (k : Nat) : Launch := mget {} s.launches k
def State.modLaunch (s : State) (k : Nat) (f : Launch → Launch) : State := { s with launches := mmod s.launches k f }

/-- Put a message or a completion on its way. -/
def State.push (s : State) (i : Instr) : State := { s with agenda := s.agenda ++ [i] }

/-- Let a free value be drawn. -/
def State.draw (s : State) : State := { s with draws := s.draws + 1 }

/-- `sys.time`: the nanoseconds since FORM (R215); before FORM those since reset (assumption 3). -/
def State.time (s : State) : Nat := s.now - s.formAt

/-- The arithmetic cycles of a cluster so far (R215). -/
def cycleAt (k : Nat) : Nat → Nat
  | 0 => 0
  | n + 1 => cycleAt k n + Config.cyclesPast k n

/-! ### Bytes and words -/

/-- The n bytes of a number, the lowest first (R5). -/
def leBytes : Nat → Nat → List Byte
  | 0, _ => []
  | n + 1, v => BitVec.ofNat 8 v :: leBytes n (v / 256)

/-- The number that bytes stand for, the lowest first (R5). -/
def leNat : List Byte → Nat
  | [] => 0
  | b :: l => b.toNat + 256 * leNat l

/-- Bytes at consecutive offsets from `off`, without those that a sparse map does not list. -/
def atOffsets (off : Nat) : List Byte → List (Nat × Byte)
  | [] => []
  | b :: l => (off, b) :: atOffsets (off + 1) l

/-- n bytes of a sparse map from `off` on. -/
def bytesAt (m : List (Nat × Byte)) (off : Nat) : Nat → List Byte
  | 0 => []
  | n + 1 => mget 0 m off :: bytesAt m (off + 1) n

/-- Write a list of (offset, byte) pairs. -/
def putBytes (m : List (Nat × Byte)) (new : List (Nat × Byte)) : List (Nat × Byte) :=
  new.foldl (fun m p => mput 0 m p.1 p.2) m

def bitsOf (v hi lo : Nat) : Nat := v / 2 ^ lo % 2 ^ (hi + 1 - lo)
def wbits (v : W64) (hi lo : Nat) : Nat := bitsOf v.toNat hi lo
def bit (v : Nat) (i : Nat) : Bool := v / 2 ^ i % 2 = 1
/-- Replace bits hi:lo of v by x. -/
def setBits (v hi lo x : Nat) : Nat := v - bitsOf v hi lo * 2 ^ lo + x % 2 ^ (hi + 1 - lo) * 2 ^ lo

/-- Bits hi:lo of a register value set to one. -/
def fieldMask (hi lo : Nat) : Nat := (2 ^ (hi + 1 - lo) - 1) * 2 ^ lo

/-! ### Control registers: reset values (R8) -/

/-- The offset of a register within its block of `n` blocks of `size` bytes at `base`; `none` outside. -/
def inBlock (off base size n : Nat) : Option (Nat × Nat) :=
  if base ≤ off ∧ off < base + size * n then some ((off - base) / size, (off - base) % size) else none

/-- The reset value of the control register at an offset of the control block. Registers whose reset value is fused
are REMAP, which the state's fuses hold, and PWRLIM.CEIL. -/
def ctlReset (fuses : W64) (off : Nat) : W64 :=
  if off = 0x10 then fuses
  else if off = 0x2000 then BitVec.ofNat 64 (Config.ceilFuse * 2 ^ 16 + 4200)
  else if (inBlock off 0x1000 8 32).isSome then 15
  else if off = 0x5800 then BitVec.ofNat 64 (10 * 2 ^ 8 + 6 * 2)
  else if off = 0x5A00 then BitVec.ofNat 64 (12 * 2 ^ 12)
  else if off = 0x5B00 then BitVec.ofNat 64 (10 * 2 ^ 16 + 14 * 2 ^ 8)
  else if off = 0x5D18 then BitVec.ofNat 64 (10 * 2 ^ 8)
  else if off = 0x5E00 then BitVec.ofNat 64 (10 * 2 ^ 8)
  else if off = 0x6000 then BitVec.ofNat 64 (3 * 2 ^ 6)
  else match inBlock off 0x3000 0x100 6 with
    | some (_, 0x08) => BitVec.ofNat 64 (100 * 2 ^ 4)
    | _ => match inBlock off 0x7000 0x80 8 with
      | some (_, 0x20) => BitVec.ofNat 64 (8 * 2 ^ 8)
      | _ => 0

/-- A control register of a die. -/
def State.ctl (s : State) (d off : Nat) : W64 := (mfind (s.die d).ctl off).getD (ctlReset s.fuses off)
def State.setCtl (s : State) (d off : Nat) (v : W64) : State := s.modDie d fun x => { x with ctl := mset x.ctl off v }
def State.ctlBits (s : State) (d off hi lo : Nat) : Nat := bitsOf (s.ctl d off).toNat hi lo
def State.setCtlBits (s : State) (d off hi lo v : Nat) : State :=
  s.setCtl d off (BitVec.ofNat 64 (setBits (s.ctl d off).toNat hi lo v))

/-- The package number of the machine: DIEID.PKG of die 0 (R15). -/
def State.pkg (s : State) : Nat := s.ctlBits 0 0 13 8

/-! ### The physical address map (R46, R57, R83) -/

def lpddrBase (d : Nat) : Nat := d * 0x4000000000
def lpddrSize : Nat := 0x3000000000
def firmwareOff : Nat := 0x2FC0000000
def ctlBase (d : Nat) : Nat := 0xFF00000000000 + d * 0x1000000

/-- What lies at a physical address: cached storage of a home die, an uncached host range, a control block, the pool or
host memory. -/
inductive Loc where
  | cached (home cell : Nat)
  | host (home cell : Nat)
  | ctl (d off : Nat)
  | hole
  deriving DecidableEq, Repr

/-- The port of a die is in CXL mode (R56). -/
def State.cxl (s : State) (d : Nat) : Bool := s.ctlBits d 0x6000 0 0 = 1

/-- The first of n entries that a function finds. -/
def firstOf {α : Type} (f : Nat → Option α) : Nat → Nat → Option α
  | 0, _ => none
  | n + 1, i => (f i).orElse fun _ => firstOf f n (i + 1)

/-- A byte of the pool window of die d (R56, R57): the cell of the device byte it maps to. -/
def poolCell (s : State) (d o : Nat) : Option Nat :=
  if s.cxl d && s.ctlBits d 0x6000 1 1 = 1 then
    firstOf (fun n =>
      let win := s.ctl d (0x6100 + 0x10 * n)
      let tgt := s.ctl d (0x6108 + 0x10 * n)
      let lo := wbits win 12 0 * 2 ^ 30
      if wbits win 63 63 = 1 && decide (lo ≤ o) && decide (o < lo + wbits win 45 32 * 2 ^ 30) then
        some (2 ^ 64 * (1 + wbits tgt 51 40) + wbits tgt 33 0 * 2 ^ 30 + (o - lo))
      else none) 16 0
  else none

/-- A byte of the import window of die d (R83): its bus address and whether it is cached (R84, R85). -/
def importCell (s : State) (d o : Nat) : Option (Nat × Bool) :=
  firstOf (fun n =>
    let win := s.ctl d (0x6200 + 0x10 * n)
    let tgt := s.ctl d (0x6208 + 0x10 * n)
    let lo := wbits win 25 0 * 2 ^ 21
    if wbits win 63 63 = 1 && decide (lo ≤ o) && decide (o < lo + wbits win 58 32 * 2 ^ 21) then
      some (wbits tgt 63 21 * 2 ^ 21 + (o - lo), wbits win 62 62 = 1 && s.cxl d)
    else none) 16 0

/-- The host side of the ports: bus addresses lie past the pool devices. -/
def hostCell (d bus : Nat) : Nat := 2 ^ 80 * (1 + d) + bus
/-- A cell lies in host memory. -/
def isHostCell (c : Nat) : Bool := decide (2 ^ 80 ≤ c)

/-- What a physical address holds (R46). -/
def State.locate (s : State) (pa : Nat) : Loc :=
  let d := pa / 0x4000000000
  if d < 8 then if pa % 0x4000000000 < lpddrSize then .cached d pa else .hole
  else if 0x100000000000 ≤ pa ∧ pa < 0x500000000000 then
    let o := pa - 0x100000000000
    match poolCell s (o / 0x80000000000) (o % 0x80000000000) with
    | some c => .cached (o / 0x80000000000) c
    | none => .hole
  else if 0x8000000000000 ≤ pa ∧ pa < 0xC000000000000 then
    let o := pa - 0x8000000000000
    match importCell s (o / 0x800000000000) (o % 0x800000000000) with
    | some (bus, true) => .cached (o / 0x800000000000) (hostCell (o / 0x800000000000) bus)
    | some (bus, false) => .host (o / 0x800000000000) (hostCell (o / 0x800000000000) bus)
    | none => .hole
  else if 0xFF00000000000 ≤ pa ∧ pa < 0xFF00008000000 then
    .ctl ((pa - 0xFF00000000000) / 0x1000000) ((pa - 0xFF00000000000) % 0x1000000)
  else .hole

/-- The LPDDR6 channel of a physical address (R47): bits 16:11 of its offset in the die's range, XOR bits 22:17. -/
def lpddrChannel (pa : Nat) : Nat :=
  let o := pa % 0x4000000000
  bitsOf o 16 11 ^^^ bitsOf o 22 17

/-- The address lies in a firmware area (R46). -/
def inFirmware (pa : Nat) : Bool := decide (pa < 0x20000000000) && decide (firmwareOff ≤ pa % 0x4000000000) &&
  decide (pa % 0x4000000000 < lpddrSize)

/-! ### Memory cells -/

/-- A byte of memory; a cell that nothing has written reads as 0 (assumption 1). -/
def State.cellByte (s : State) (c : Nat) : Byte := mget 0 s.mem c

/-- Memory is in its canonical form: cells rising, none that reads as an unlisted one. -/
def memoryWf (m : List Host.Cell) : Bool := sparseOk 0 m

/-- The 2,048 bytes of a tile in memory. -/
def State.cellTile (s : State) (c : Nat) : List (Nat × Byte) := mslice s.mem c 2048

/-- Write bytes at offsets from a cell. -/
def State.putCells (s : State) (c : Nat) (new : List (Nat × Byte)) : State :=
  { s with mem := new.foldl (fun m p => mput 0 m (c + p.1) p.2) s.mem }

/-! ### Tiles of tensor 0 and the generation of a tensor (R149 to R154) -/

/-- The packed coordinate of tensor 0's tile at a physical address (R151): bits of the tile number in order. -/
def flatTile (pa : Nat) : TileId := ⟨0, BitVec.ofNat 48 (pa / 2048)⟩

def State.frames (s : State) (d : Nat) : List Frame := (s.die d).cache.frames

/-- The states in which a frame holds the tile's data for its own die (R165, R168). -/
def hasData (f : Frame) : Bool :=
  !f.wb && (f.st = .s || f.st = .e || f.st = .o || f.st = .m || f.st = .sm || f.st = .om)

/-- A frame of tensor 0 on a die, if resident with data. -/
def flatFrame? (fs : List Frame) (pa : Nat) : Option Frame :=
  fs.find? fun f => f.tile = flatTile pa && hasData f

/-- A byte as the tables of a die are read (R202): through the die's tensor-0 frames, else from memory. -/
def State.tableByte (s : State) (d pa : Nat) : Byte :=
  match flatFrame? (s.frames d) pa with
  | some f => mget 0 f.payload (pa % 2048)
  | none => match s.locate pa with
    | .cached _ c => s.cellByte c
    | _ => 0

/-- n bytes of a table, as a number. -/
def State.tableNat (s : State) (d pa : Nat) : Nat → Nat
  | 0 => 0
  | n + 1 => (s.tableByte d pa).toNat + 256 * s.tableNat d (pa + 1) n

/-- The home die, and the address of the table entry, of a tensor id (R152, R153). -/
def tensorHome (tid : BitVec 20) : Nat := tid.toNat / 2 ^ 17
def State.tensorEntry (s : State) (tid : BitVec 20) : Nat :=
  let h := tensorHome tid
  s.ctlBits h 0x5C00 51 17 * 2 ^ 17 + 32 * (tid.toNat % 4096)
def State.entryNat (s : State) (tid : BitVec 20) (off n : Nat) : Nat := s.tableNat (tensorHome tid) (s.tensorEntry tid + off) n

/-- The entry of a tensor id is VALID and has its reuse tag: else the id names no tensor now (R152, R153). -/
def State.entryLive (s : State) (tid : BitVec 20) : Bool :=
  let b := s.entryNat tid 14 1
  bit b 0 && bitsOf b 6 2 = bitsOf tid.toNat 16 12

/-- The current generation of a tensor as a die knows it (R154): the home's table, or the mirror elsewhere; a mirror
miss reads the home. An id of an entry that has gone to another tensor has none. -/
def State.generation? (s : State) (d : Nat) (tid : BitVec 20) : Option (BitVec 12) :=
  let home : Option (BitVec 12) := if s.entryLive tid then some (BitVec.ofNat 12 (s.entryNat tid 12 2)) else none
  if tid = 0 then some 0
  else if tensorHome tid = d then home
  else (mfind (s.die d).cache.mirror tid.toNat).orElse fun _ => home
def State.generation (s : State) (d : Nat) (tid : BitVec 20) : BitVec 12 := (s.generation? d tid).getD 0

/-- A frame that is not stale (R154). -/
def State.fresh (s : State) (d : Nat) (f : Frame) : Bool := f.tile.tid = 0 || s.generation? d f.tile.tid = some f.gen
/-- A copy whose INV was answered while it was requested serves its pending read in one step, and is then no copy (R168). -/
def State.spent (s : State) (f : Frame) : Bool := f.once ≠ 0 && f.once ≠ s.ticks + 1

/-- The frame of a tile on a die (R154): resident, with the current generation, not in the write-back buffer. -/
def State.frame? (s : State) (d : Nat) (t : TileId) : Option Frame :=
  (s.frames d).find? fun f => f.tile = t && !f.wb && f.st ≠ .i && f.st ≠ .mi && s.fresh d f && !s.spent f

/-- Change the frame of a tile on a die. -/
def State.modFrame (s : State) (d : Nat) (t : TileId) (g : Frame → Frame) : State :=
  s.modDie d fun x => { x with cache := { x.cache with
    frames := x.cache.frames.map fun f => if f.tile = t && !f.wb then g f else f } }
def State.dropFrame (s : State) (d : Nat) (t : TileId) : State :=
  s.modDie d fun x => { x with cache := { x.cache with
    frames := x.cache.frames.filter (fun f => !(f.tile = t && !f.wb))
    annexes := x.cache.annexes.filter (fun a => a.tile ≠ t) } }

/-- A frame of a die that holds the bytes of the storage tile at `base` undecoded. -/
def State.frameAt? (s : State) (d base : Nat) : Option Frame :=
  (s.frames d).find? fun f => f.base = base && !f.nq4 && hasData f && s.fresh d f

/-- The bytes of the storage tile at a cell as the home die has them: a frame of the home, else memory. -/
def State.homeTile (s : State) (home base cell : Nat) : List (Nat × Byte) :=
  match s.frameAt? home base with
  | some f => f.payload
  | none => s.cellTile cell

/-- The byte of a pending remote write of the die, the latest first (R189). -/
def pendingByte (ws : List PendingWrite) (base off : Nat) : Option Byte :=
  ws.foldl (fun o w => if w.base = base then (mfind w.bytes off).orElse fun _ => o else o) none

/-- A byte as a die sees it now, without filling: its pending write, its own frame, the home's frame, or memory. -/
def State.peek (s : State) (d pa : Nat) : Byte :=
  let base := pa / 2048 * 2048
  match pendingByte (s.die d).cache.pend base (pa - base) with
  | some b => b
  | none => match s.frameAt? d base with
    | some f => mget 0 f.payload (pa - base)
    | none => match s.locate pa with
      | .cached home c => match s.frameAt? home base with
        | some f => mget 0 f.payload (pa - base)
        | none => s.cellByte c
      | .host _ c => s.cellByte c
      | _ => 0

def State.peekBytes (s : State) (d pa : Nat) : Nat → List Byte
  | 0 => []
  | n + 1 => s.peek d pa :: s.peekBytes d (pa + 1) n
def State.peekNat (s : State) (d pa n : Nat) : Nat := leNat (s.peekBytes d pa n)

/-! ### Writes at the home -/

/-- Bytes of a write to a tile: offsets from 2,048 on are side bytes. -/
def payPart (new : List (Nat × Byte)) : List (Nat × Byte) := new.filter fun p => decide (p.1 < 2048)
def sidePart (new : List (Nat × Byte)) : List (Nat × Byte) :=
  new.filterMap fun p => if 2048 ≤ p.1 then some (p.1 - 2048, p.2) else none
/-- Write bytes into every undecoded frame of a die that holds the storage tile at `base`. -/
def writeFrames (fs : List Frame) (base : Nat) (new : List (Nat × Byte)) (dirty : Bool) : List Frame :=
  fs.map fun f => if f.base = base && !f.nq4 && hasData f then
    { f with payload := putBytes f.payload (payPart new), side := putBytes f.side (sidePart new), dirty := f.dirty || dirty } else f

/-- A store that rewrites a whole 64-byte sector clears its poison (R172): the sectors that `new` covers whole. -/
def coveredSectors (new : List (Nat × Byte)) : List Nat :=
  (List.range 32).filter fun k => (List.range 64).all fun i => new.any fun p => p.1 = 64 * k + i
def clearBits {n : Nat} (v : BitVec n) (l : List Nat) : BitVec n := l.foldl (fun v k => v &&& ~~~(BitVec.twoPow n k)) v

/-- The whole side area of a G8 tile is written. -/
def sideCovered (new : List (Nat × Byte)) : Bool := (List.range 64).all fun i => new.any fun p => p.1 = 2048 + i
/-- The poison bits that a write clears: its whole sectors, and the side area's. -/
def clearedBits (new : List (Nat × Byte)) : List Nat := coveredSectors new ++ if sideCovered new then [32] else []
/-- Clear poison bits of the undecoded frames of a tile. -/
def clearFrames (fs : List Frame) (base : Nat) (l : List Nat) : List Frame :=
  fs.map fun f => if f.base = base && !f.nq4 then { f with poison := clearBits f.poison l } else f

/-- The replica cells of a storage tile (R169): the same offset in each replica die's LPDDR6. -/
def replicaCells (home cell : Nat) (repl : BitVec 8) : List Nat :=
  (List.range 8).filterMap fun d => if repl.getLsbD d && d ≠ home then some (lpddrBase d + (cell - lpddrBase home)) else none

/-- A message of a slice to the host over CXL.cache about a tile of a coherent import range (R84): 0 RdShared, 1 RdOwn, 2 a
write-back with its data, 3 the answer to a snoop; the bus address, the bytes. -/
def hostLine (s : State) (home op cell : Nat) (bytes : List Byte) : State :=
  { s with outbox := s.outbox ++ [⟨home, 20, op, leBytes 8 cell ++ bytes⟩] }
/-- Bytes written to a tile of a coherent import range that its home does not hold: the slice takes the line with RdOwn and writes the
bytes back at once (R84, assumption 49). -/
def State.hostPut (s : State) (home c : Nat) (new : List (Nat × Byte)) : State :=
  new.foldl (fun s p => hostLine s home 2 (c + p.1) [p.2]) (hostLine s home 1 c [])

/-- Write bytes of the storage tile at `base` at its home die: into the home's frames if it is resident there, and into the home's own
memory where it is not or where replicas are written through. -/
def State.writeHere (s : State) (home base cell : Nat) (repl : BitVec 8) (new : List (Nat × Byte)) : State :=
  if (s.frameAt? home base).isSome then
    let s := s.modCache home fun c => { c with
      frames := clearFrames (writeFrames c.frames base new (repl = 0)) base (clearedBits new) }
    if repl = 0 then s else s.putCells cell (payPart new)
  else if isHostCell cell then s.hostPut home cell (payPart new)
  else s.putCells cell (payPart new)
/-- The same, and into the replicas (R169); a sector that is written whole is poisoned no longer. -/
def State.writeHome (s : State) (home base cell : Nat) (repl : BitVec 8) (new : List (Nat × Byte)) : State :=
  let s := s.writeHere home base cell repl new
  let cells := cell :: replicaCells home cell repl
  let s := { s with mempoison := cells.foldl (fun m c => (coveredSectors new).foldl (fun m k => mdel m (c / 64 + k)) m) s.mempoison }
  (replicaCells home cell repl).foldl (fun s c => s.putCells c (payPart new)) s

/-- Carry poison into the undecoded frames of a tile (R172): the first origin stays. -/
def poisonFrames (fs : List Frame) (base : Nat) (bits : BitVec 33) (origin : W32) : List Frame :=
  if bits = 0 then fs
  else fs.map fun f => if f.base = base && !f.nq4 && hasData f then
    { f with poison := f.poison ||| bits, porigin := if f.poison = 0 then origin else f.porigin } else f
/-- Mark the sectors of cells as poisoned in memory, with the origin. -/
def State.poisonCells (s : State) (cells : List Nat) (bits : BitVec 33) (origin : W32) : State :=
  { s with mempoison := cells.foldl (fun m c => (List.range 32).foldl (fun m k =>
    if bits.getLsbD k then mset m (c / 64 + k) origin else m) m) s.mempoison }
/-- Carry poison into a storage tile at its home: into its frames, and into memory and the replicas where they are written (R169). -/
def State.poisonHome (s : State) (home base cell : Nat) (repl : BitVec 8) (bits : BitVec 33) (origin : W32) : State :=
  if bits = 0 then s
  else
    let here := (s.frameAt? home base).isSome
    let s := if here then s.modCache home fun c => { c with frames := poisonFrames c.frames base bits origin } else s
    if here && repl = 0 then s else s.poisonCells (cell :: replicaCells home cell repl) bits origin

/-- The clock entry of R187. -/
def clockEntry (c : BitVec 128) (e : Nat) : Nat := bitsOf c.toNat (16 * e + 15) (16 * e)
def setClockEntry (c : BitVec 128) (e v : Nat) : BitVec 128 := BitVec.ofNat 128 (setBits c.toNat (16 * e + 15) (16 * e) v)
/-- a ≥ b modulo 2^16 (R187). -/
def clockGe (a b : Nat) : Bool := (a + 65536 - b) % 65536 < 32768

/-- A die has sent its clock in a message (R187). -/
def State.sendClock (s : State) (d : Nat) : State :=
  s.modDie d fun x => { x with cache := { x.cache with sent := true } }
/-- The entries of two clocks, the greater of each (R187). -/
def mergeEntries (c v : BitVec 128) : BitVec 128 :=
  (List.range 8).foldl (fun c e => if clockGe (clockEntry v e) (clockEntry c e) then setClockEntry c e (clockEntry v e) else c) c
/-- A read copy on die d whose home has come 2^14 further than at its fill: it is dropped (R190). -/
def copyExpired (entries : BitVec 128) (d : Nat) (f : Frame) : Bool :=
  f.home ≠ d && !f.pcoh && !f.wb &&
    decide (16384 ≤ (clockEntry entries f.home + 65536 - clockEntry (BitVec.ofNat 128 (f.fillclk.toNat % 2 ^ 128)) f.home) % 65536)
/-- A die absorbs a clock (R187). -/
def State.absorb (s : State) (d : Nat) (v : Clock) : State :=
  s.modCache d fun c =>
    let entries := mergeEntries c.clock.entries v.entries
    { c with clock := { c.clock with entries := entries }, frames := c.frames.filter fun f => !copyExpired entries d f }
def State.clock (s : State) (d : Nat) : Clock := (s.die d).cache.clock

/-- A home has applied a write to a causal tile: its own clock entry advances if the clock has been sent (R187). -/
def State.advanceClock (s : State) (h : Nat) : State :=
  s.modDie h fun x => if x.cache.sent then { x with cache := { x.cache with sent := false, clock := { x.cache.clock with
    entries := setClockEntry x.cache.clock.entries h ((clockEntry x.cache.clock.entries h + 1) % 65536) } } } else x

/-- The die has ownership of tiles homed here in E; a write makes them M (R162, R165). Of a coherent import range it
obtains ownership first (R84). -/
def markModified (s : State) (d : Nat) (t : TileId) : State :=
  s.modFrame d t fun f => if f.st = .e || (f.st = .s && f.home = d && !f.pcoh) then { f with st := .m } else f
/-- Copies in the home's near caches are recalled for a write that comes from elsewhere (R162). -/
def recallAll (s : State) (h : Nat) (t : TileId) : State := s.modFrame h t fun f => { f with sharers := 0, ncown := false }

/-- A remote write leaves a die (R164, R187): it updates the die's copy, if any, and is pending until the home acknowledges it. The
pair sequence number, the source and the clock of `q` are filled in here. -/
def State.remoteStore (s : State) (d home : Nat) (q : RemoteWrite) : State :=
  let seq := mget 0 (s.die d).cache.pairOut home
  let s := s.modCache d fun c => { c with
    frames := poisonFrames (clearFrames (writeFrames c.frames q.base q.bytes false) q.base (clearedBits q.bytes)) q.base q.poison q.porigin
    pairOut := mset c.pairOut home (seq + 1)
    pend := c.pend ++ [{ seq := seq, home := home, base := q.base, bytes := q.bytes, wave := q.wave }] }
  let s := s.sendClock d
  s.push (.remoteWrite (Fin.ofNat 8 home) { q with src := Fin.ofNat 8 d, seq := seq, clock := s.clock d })

/-- Bytes of one storage tile that a unit of die d writes, as an agent of its die (R186): at the home itself, as a remote write to
another die of the package, on the link to an uncached host range (R85). The write of an address without storage is not performed
(R46). -/
def State.unitPart (s : State) (d pa : Nat) (repl : BitVec 8) (l : List Byte) : State :=
  let base := pa / 2048 * 2048
  let new := atOffsets (pa - base) l
  match s.locate pa with
  | .cached home c =>
    if home = d then
      (recallAll (markModified (s.writeHome home base (c - (pa - base)) repl new) home (flatTile pa)) home (flatTile pa)).advanceClock home
    else s.remoteStore d home { src := 0, seq := 0, tile := flatTile pa, base := base, bytes := new, repl := repl, clock := s.clock d, wave := 0 }
  | .host e c => { s with outbox := s.outbox ++ [⟨e, 5, 0, leBytes 16 c ++ l⟩] }
  | _ => s
/-- The same, tile by tile. -/
def State.unitGo (d : Nat) (repl : BitVec 8) : Nat → Nat → List Byte → State → State
  | 0, _, _, s => s
  | fuel + 1, pa, l, s =>
    if l.isEmpty then s
    else
      let n := 2048 - pa % 2048
      unitGo d repl fuel (pa + n) (l.drop n) (s.unitPart d pa repl (l.take n))
/-- Write bytes at a physical address on behalf of a unit of die d (a ring, an event, a table). No page entry names replicas here. -/
def State.unitWrite (s : State) (d pa : Nat) (l : List Byte) : State := State.unitGo d 0 (l.length + 1) pa l s

/-- The side bytes of a write to a tile go to its side area where the home does not hold a frame of it, and where the tile is written
through (R156, R169). -/
def State.writeSide (s : State) (home base side : Nat) (repl : BitVec 8) (new : List (Nat × Byte)) : State :=
  if side = 0 || ((s.frameAt? home base).isSome && repl = 0) then s
  else (sidePart new).foldl (fun s p => State.unitGo home repl 1 (side + p.1) [p.2] s) s

end Sys2Proof.Machine
end

