-- ==== Sys2Proof/Machine/Fec.lean ====
section
/-! DEFINITION. The codes of a flit: CRC-64 (R27, R91) and the two interleaved Reed-Solomon codes (R30). -/

namespace Sys2Proof.Machine

/-! ### CRC-64 -/

/-- The ECMA-182 polynomial. -/
def crcPoly : W64 := 0x42F0E1EBA9EA3693
/-- Eight steps of the shift register, most significant bit first. -/
def crcBits : Nat → W64 → W64
  | 0, c => c
  | n + 1, c => crcBits n (if c.getLsbD 63 then (c <<< 1) ^^^ crcPoly else c <<< 1)
/-- The CRC-64 of bytes, started at 0 and neither reflected nor inverted (assumption 22). -/
def crc64 (l : List Byte) : W64 := l.foldl (fun c b => crcBits 8 (c ^^^ (BitVec.setWidth 64 b <<< 56))) (0 : W64)

/-! ### GF(2^8) with x^8 + x^4 + x^3 + x^2 + 1 -/

def gfDouble (a : Byte) : Byte := if a.getLsbD 7 then (a <<< 1) ^^^ 0x1D else a <<< 1
def gfMulGo : Nat → Byte → Byte → Byte → Byte
  | 0, _, _, r => r
  | n + 1, a, b, r => gfMulGo n (gfDouble a) (b >>> 1) (if b.getLsbD 0 then r ^^^ a else r)
def gfMul (a b : Byte) : Byte := gfMulGo 8 a b 0
/-- α^n for α = 2. -/
def gfExp : Nat → Byte
  | 0 => 1
  | n + 1 => gfDouble (gfExp n)
def gfPow (a : Byte) : Nat → Byte
  | 0 => 1
  | n + 1 => gfMul a (gfPow a n)
/-- 1 / a. -/
def gfInv (a : Byte) : Byte := gfPow a 254

/-- A polynomial (constant term first) at x. -/
def polyAt (p : List Byte) (x : Byte) : Byte := p.foldr (fun c r => c ^^^ gfMul r x) 0
def polyAdd (p q : List Byte) : List Byte :=
  (List.range (max p.length q.length)).map fun n => p.getD n 0 ^^^ q.getD n 0
def polyScale (a : Byte) (p : List Byte) : List Byte := p.map (gfMul a)
def polyMul : List Byte → List Byte → List Byte
  | [], _ => []
  | a :: p, q => polyAdd (polyScale a q) (0 :: polyMul p q)

/-! ### RS(128, 112) -/

/-- The generator with roots α^0 to α^15, constant term first. -/
def rsGen : List Byte := (List.range 16).foldl (fun g n => polyMul g [gfExp n, 1]) [1]
/-- The remainder register after one data byte; the register holds its highest coefficient first. -/
def rsStep (reg : List Byte) (b : Byte) : List Byte :=
  let f := b ^^^ reg.headD 0
  let gen := (rsGen.take 16).reverse
  (List.range 16).map fun n => reg.getD (n + 1) 0 ^^^ gfMul f (gen.getD n 0)
/-- The 16 parity bytes of 112 data bytes; the first byte of a codeword is its highest coefficient (assumption 22). -/
def rsParity (data : List Byte) : List Byte := data.foldl rsStep (List.replicate 16 0)
/-- Syndrome n of a codeword. -/
def rsSyndrome (cw : List Byte) (n : Nat) : Byte := cw.foldl (fun r b => gfMul r (gfExp n) ^^^ b) 0

/-- The error locator (constant term first) by Berlekamp and Massey. -/
structure BmState where
  c : List Byte
  b : List Byte
  len : Nat
  m : Nat
  last : Byte
def bmStep (syn : List Byte) (x : BmState) (n : Nat) : BmState :=
  let d := (List.range (x.len + 1)).foldl (fun a i => a ^^^ gfMul (x.c.getD i 0) (syn.getD (n - i) 0)) 0
  if d = 0 then { x with m := x.m + 1 }
  else
    let c := polyAdd x.c (polyScale (gfMul d (gfInv x.last)) (List.replicate x.m 0 ++ x.b))
    if 2 * x.len ≤ n then { c := c, b := x.c, len := n + 1 - x.len, m := 1, last := d }
    else { x with c := c, m := x.m + 1 }
/-- Correct a codeword of 128 bytes with up to 8 byte errors: the codeword and the places corrected, or nothing. -/
def rsCorrect (cw : List Byte) : Option (List Byte × List Nat) :=
  let syn := (List.range 16).map (rsSyndrome cw)
  if syn.all (· = 0) then some (cw, [])
  else
    let x := (List.range 16).foldl (bmStep syn) { c := [1], b := [1], len := 0, m := 1, last := 1 }
    let places := (List.range 128).filter fun k => polyAt x.c (gfInv (gfExp (127 - k))) = 0
    if 8 < x.len || places.length ≠ x.len then none
    else
      let omega := (polyMul syn x.c).take 16
      let deriv := (List.range x.c.length).map fun n => if n % 2 = 0 then x.c.getD (n + 1) 0 else 0
      let fixed := places.foldl (fun l k =>
        let X := gfExp (127 - k)
        let v := gfMul X (gfMul (polyAt omega (gfInv X)) (gfInv (polyAt deriv (gfInv X))))
        l.set k (l.getD k 0 ^^^ v)) cw
      if (List.range 16).all fun n => rsSyndrome fixed n = 0 then some (fixed, places) else none

/-- The even-numbered or odd-numbered bytes. -/
def everyOther : List Byte → List Byte
  | [] => []
  | [a] => [a]
  | a :: _ :: l => a :: everyOther l
/-- Two lists in turn. -/
def interleave : List Byte → List Byte → List Byte
  | a :: p, b :: q => a :: b :: interleave p q
  | p, [] => p
  | [], q => q
/-- A flit of 224 bytes with its FEC parity (R30). -/
def fecEncode (l : List Byte) : List Byte :=
  l ++ interleave (rsParity (everyOther l)) (rsParity (everyOther (l.drop 1)))
/-- The corrected flit and the byte places corrected, or nothing (R30). -/
def fecDecode (l : List Byte) : Option (List Byte × List Nat) :=
  match rsCorrect (everyOther l), rsCorrect (everyOther (l.drop 1)) with
  | some (a, p), some (b, q) => some (interleave a b, p.map (fun n => 2 * n) ++ q.map fun n => 2 * n + 1)
  | _, _ => none

end Sys2Proof.Machine
end

