-- ==== Sys2Proof/WellFormed.lean ====
section
/-! DEFINITION. Well-formed instructions: what the encodings chapter calls legal. A scalar instruction is checked for
the reserved codes of R279, a lane instruction against its row of R285 with the rules of R281, R282 and R287. -/

namespace Sys2Proof

/-- The opcode and fields of a lane instruction (R285); `none` for everything else. -/
def Instr.lane? : Instr → Option (Nat × LaneFields)
  | .iadd f => some (0x01, f)
  | .isub f => some (0x02, f)
  | .imul f => some (0x03, f)
  | .imad f => some (0x04, f)
  | .imulh f => some (0x05, f)
  | .idiv f => some (0x06, f)
  | .imin f => some (0x07, f)
  | .imax f => some (0x08, f)
  | .land f => some (0x09, f)
  | .lor f => some (0x0A, f)
  | .lxor f => some (0x0B, f)
  | .lshl f => some (0x0C, f)
  | .lshr f => some (0x0D, f)
  | .lsar f => some (0x0E, f)
  | .popc f => some (0x0F, f)
  | .clz f => some (0x10, f)
  | .icmp f => some (0x11, f)
  | .sel f => some (0x12, f)
  | .fadd f => some (0x13, f)
  | .fsub f => some (0x14, f)
  | .fmul f => some (0x15, f)
  | .ffma f => some (0x16, f)
  | .fmin f => some (0x17, f)
  | .fmax f => some (0x18, f)
  | .fcmp f => some (0x19, f)
  | .frnd f => some (0x1A, f)
  | .fcvt f => some (0x1B, f)
  | .rcp f => some (0x1C, f)
  | .rsq f => some (0x1D, f)
  | .sqrt f => some (0x1E, f)
  | .exp2 f => some (0x1F, f)
  | .log2 f => some (0x20, f)
  | .ln f => some (0x21, f)
  | .dot4 f => some (0x22, f)
  | .hfma2 f => some (0x23, f)
  | .mov f => some (0x24, f)
  | .movsp f => some (0x25, f)
  | .rget f => some (0x26, f)
  | .rput f => some (0x27, f)
  | .shfl f => some (0x28, f)
  | .shflx f => some (0x29, f)
  | .bcast f => some (0x2A, f)
  | .ballot f => some (0x2B, f)
  | .vote f => some (0x2C, f)
  | .reduce f => some (0x2D, f)
  | .scan f => some (0x2E, f)
  | .pset f => some (0x2F, f)
  | .plop f => some (0x30, f)
  | .feclr f => some (0x31, f)
  | .feset f => some (0x32, f)
  | .lbr f => some (0x33, f)
  | .ljmp f => some (0x34, f)
  | .lend f => some (0x35, f)
  | .lnop f => some (0x36, f)
  | .ltrap f => some (0x37, f)
  | .lbrk f => some (0x38, f)
  | .ldv f => some (0x39, f)
  | .stv f => some (0x3A, f)
  | .ldb f => some (0x3B, f)
  | .stb f => some (0x3C, f)
  | .cstore f => some (0x3D, f)
  | .xload f => some (0x3E, f)
  | .atom f => some (0x3F, f)
  | .lfence f => some (0x40, f)
  | .bar f => some (0x41, f)
  | .qskip f => some (0x42, f)
  | .ctxsync f => some (0x43, f)
  | .packg f => some (0x44, f)
  | .unpackg f => some (0x45, f)
  | .nqdec f => some (0x46, f)
  | .rand f => some (0x47, f)
  | .randu f => some (0x48, f)
  | .propose f => some (0x49, f)
  | .accept f => some (0x4A, f)
  | .pdiscard f => some (0x4B, f)
  | .pread f => some (0x4C, f)
  | .pcount f => some (0x4D, f)
  | .tclook f => some (0x4E, f)
  | .tcpf f => some (0x4F, f)
  | .tchalo f => some (0x50, f)
  | .tcinv f => some (0x51, f)
  | .tcpin f => some (0x52, f)
  | .tcflush f => some (0x53, f)
  | .recbind f => some (0x54, f)
  | .cpy f => some (0x55, f)
  | .cpyg f => some (0x56, f)
  | .coll f => some (0x57, f)
  | .tcfg f => some (0x58, f)
  | .trel f => some (0x59, f)
  | .tzero f => some (0x5A, f)
  | .mma f => some (0x5B, f)
  | .mmag f => some (0x5C, f)
  | .tlda f => some (0x5D, f)
  | .tsta f => some (0x5E, f)
  | .tmovv f => some (0x5F, f)
  | .fscale f => some (0x60, f)
  | _ => none

/-- The lane instruction an opcode names (R285); `none` for op 0x00 and 0x61 to 0x7F. -/
def laneOf (op : Nat) (f : LaneFields) : Option Instr :=
  match op with
  | 0x01 => some (.iadd f)
  | 0x02 => some (.isub f)
  | 0x03 => some (.imul f)
  | 0x04 => some (.imad f)
  | 0x05 => some (.imulh f)
  | 0x06 => some (.idiv f)
  | 0x07 => some (.imin f)
  | 0x08 => some (.imax f)
  | 0x09 => some (.land f)
  | 0x0A => some (.lor f)
  | 0x0B => some (.lxor f)
  | 0x0C => some (.lshl f)
  | 0x0D => some (.lshr f)
  | 0x0E => some (.lsar f)
  | 0x0F => some (.popc f)
  | 0x10 => some (.clz f)
  | 0x11 => some (.icmp f)
  | 0x12 => some (.sel f)
  | 0x13 => some (.fadd f)
  | 0x14 => some (.fsub f)
  | 0x15 => some (.fmul f)
  | 0x16 => some (.ffma f)
  | 0x17 => some (.fmin f)
  | 0x18 => some (.fmax f)
  | 0x19 => some (.fcmp f)
  | 0x1A => some (.frnd f)
  | 0x1B => some (.fcvt f)
  | 0x1C => some (.rcp f)
  | 0x1D => some (.rsq f)
  | 0x1E => some (.sqrt f)
  | 0x1F => some (.exp2 f)
  | 0x20 => some (.log2 f)
  | 0x21 => some (.ln f)
  | 0x22 => some (.dot4 f)
  | 0x23 => some (.hfma2 f)
  | 0x24 => some (.mov f)
  | 0x25 => some (.movsp f)
  | 0x26 => some (.rget f)
  | 0x27 => some (.rput f)
  | 0x28 => some (.shfl f)
  | 0x29 => some (.shflx f)
  | 0x2A => some (.bcast f)
  | 0x2B => some (.ballot f)
  | 0x2C => some (.vote f)
  | 0x2D => some (.reduce f)
  | 0x2E => some (.scan f)
  | 0x2F => some (.pset f)
  | 0x30 => some (.plop f)
  | 0x31 => some (.feclr f)
  | 0x32 => some (.feset f)
  | 0x33 => some (.lbr f)
  | 0x34 => some (.ljmp f)
  | 0x35 => some (.lend f)
  | 0x36 => some (.lnop f)
  | 0x37 => some (.ltrap f)
  | 0x38 => some (.lbrk f)
  | 0x39 => some (.ldv f)
  | 0x3A => some (.stv f)
  | 0x3B => some (.ldb f)
  | 0x3C => some (.stb f)
  | 0x3D => some (.cstore f)
  | 0x3E => some (.xload f)
  | 0x3F => some (.atom f)
  | 0x40 => some (.lfence f)
  | 0x41 => some (.bar f)
  | 0x42 => some (.qskip f)
  | 0x43 => some (.ctxsync f)
  | 0x44 => some (.packg f)
  | 0x45 => some (.unpackg f)
  | 0x46 => some (.nqdec f)
  | 0x47 => some (.rand f)
  | 0x48 => some (.randu f)
  | 0x49 => some (.propose f)
  | 0x4A => some (.accept f)
  | 0x4B => some (.pdiscard f)
  | 0x4C => some (.pread f)
  | 0x4D => some (.pcount f)
  | 0x4E => some (.tclook f)
  | 0x4F => some (.tcpf f)
  | 0x50 => some (.tchalo f)
  | 0x51 => some (.tcinv f)
  | 0x52 => some (.tcpin f)
  | 0x53 => some (.tcflush f)
  | 0x54 => some (.recbind f)
  | 0x55 => some (.cpy f)
  | 0x56 => some (.cpyg f)
  | 0x57 => some (.coll f)
  | 0x58 => some (.tcfg f)
  | 0x59 => some (.trel f)
  | 0x5A => some (.tzero f)
  | 0x5B => some (.mma f)
  | 0x5C => some (.mmag f)
  | 0x5D => some (.tlda f)
  | 0x5E => some (.tsta f)
  | 0x5F => some (.tmovv f)
  | 0x60 => some (.fscale f)
  | _ => none

namespace LaneFields

/-- The number of immediate sources. -/
def immCount (f : LaneFields) : Nat :=
  (if f.a matches .imm _ then 1 else 0) + (if f.b matches .imm _ then 1 else 0) + (if f.c matches .imm _ then 1 else 0)

/-- The type is one of those the row lists (R285). -/
def tyIn (f : LaneFields) (l : List Nat) : Bool := l.contains f.ty.toNat

/-- The type holds 64-bit values (R281). -/
def wide (f : LaneFields) : Bool := f.ty = 3#3 || f.ty = 6#3 || f.ty = 7#3

/-- Bits hi:lo of the extension word. -/
def xf (f : LaneFields) (hi lo : Nat) : Nat := f.x.toNat / 2 ^ lo % 2 ^ (hi + 1 - lo)

end LaneFields

/-- A source that the opcode does not use: field, kind and mode zero (R281). -/
def Src.unused (s : Src) : Bool := s = .v 0 false

/-- A v register named for an operand of the given width; the wide one is even (R281). -/
def regOk (wide : Bool) (n : BitVec 10) : Bool := !wide || n.toNat % 2 = 0

/-- A used source: any kind but an immediate, unless the row allows one there; an even register if wide. -/
def Src.ok (wide imm : Bool) : Src → Bool
  | .v n _ => regOk wide n
  | .imm _ => imm
  | _ => true

/-- A used source of kind 00. -/
def Src.vOk (wide : Bool) : Src → Bool
  | .v n _ => regOk wide n
  | _ => false

/-- A used source of kind 00 or a block parameter or special (kind 01). -/
def Src.vkOk (wide : Bool) : Src → Bool
  | .v n _ => regOk wide n
  | .bp _ => true
  | .special _ => true
  | _ => false

/-- A flat address: an even pair, or a source of kind 01 read whole (R365, mode 0, assumption 61). -/
def Src.flatOk : Src → Bool := Src.vkOk true

/-- The Dest column of R285: a v register, a v register or the block result, a predicate, nothing (R284). -/
def destV (wide : Bool) (f : LaneFields) : Bool := !f.dkind && regOk wide f.dest
def destVR (wide : Bool) (f : LaneFields) : Bool := if f.dkind then f.dest = 0 else regOk wide f.dest
def destK (f : LaneFields) : Bool := !f.dkind && decide (f.dest.toNat < 8)
def destNone (f : LaneFields) : Bool := !f.dkind && f.dest = 0

/-- A scope5 code that is not reserved (R278). -/
def scope5Ok (n : Nat) : Bool := decide (n < 6) || decide (16 ≤ n)

/-- A rounding code that is not reserved (R244). -/
def rmOk (n : Nat) : Bool := decide (n < 6)

def noSources (f : LaneFields) : Bool := f.a.unused && f.b.unused && f.c.unused

/-- The shape shared by the two-operand compute rows: dest v, sources A and B imm. -/
def binaryOk (types : List Nat) (xOk : Bool) (f : LaneFields) : Bool :=
  destV f.wide f && f.tyIn types && f.a.ok f.wide false && f.b.ok f.wide true && f.c.unused && xOk

/-- The shape of the three-operand rows: dest v, sources A, B and C imm. -/
def ternaryOk (types : List Nat) (xOk : Bool) (f : LaneFields) : Bool :=
  destV f.wide f && f.tyIn types && f.a.ok f.wide false && f.b.ok f.wide false && f.c.ok f.wide true && xOk

/-- The shape of the one-operand rows: dest v, source A. -/
def unaryOk (types : List Nat) (xOk : Bool) (f : LaneFields) : Bool :=
  destV f.wide f && f.tyIn types && f.a.ok f.wide false && f.b.unused && f.c.unused && xOk

/-- Nothing but a guard and X: no destination, no sources, type 0. -/
def bareOk (xOk : Bool) (f : LaneFields) : Bool := destNone f && f.tyIn [0] && noSources f && xOk

/-- The MEM fields: mode, ordering, scope5 (R283). -/
def LaneFields.mode (f : LaneFields) : Nat := f.xf 31 30
def LaneFields.ord (f : LaneFields) : Nat := f.xf 29 28
def LaneFields.scope5 (f : LaneFields) : Nat := f.xf 27 23

/-- Mode, ordering and scope of a lane memory instruction: `ords` the allowed orderings; mode 2 is relaxed at wave
scope only (R369, R370). -/
def memOk (modes ords : List Nat) (f : LaneFields) : Bool :=
  modes.contains f.mode && ords.contains f.ord && scope5Ok f.scope5 &&
    (f.mode ≠ 2 || (f.ord = 0 && f.scope5 = 1))

/-- Source A of a lane memory instruction, by mode (R365). -/
def addrOk (f : LaneFields) : Bool :=
  match f.mode with
  | 0 => f.a.flatOk
  | 1 => f.a.vOk false
  | _ => f.a.vkOk false

/-- The narrow width field of LDV and STV (R364). -/
def nwOk (f : LaneFields) : Bool := f.xf 22 21 ≠ 3 && (f.xf 22 21 = 0 || f.tyIn [0, 1])

/-- The format codes of FCVT that hold 64 bits (R283). -/
def cvWide (n : Nat) : Bool := n = 3 || n = 6 || n = 7

/-- CPY, CPYG and COLL: a coordinate or address is an even pair or of kind 01 (R392). -/
def copyOk (f : LaneFields) : Bool :=
  destNone f && f.tyIn [0] && f.a.vkOk true && f.b.vkOk true && f.xf 31 24 = 0 && scope5Ok (f.xf 20 16)

/-- The row of R285 for each opcode, with the opcode's own description where the row says so. -/
def rowOk (op : Nat) (f : LaneFields) : Bool :=
  match op with
  | 0x01 | 0x02 => binaryOk [0, 1, 6, 7] (f.x.toNat < 2) f
  | 0x03 | 0x05 | 0x06 | 0x07 | 0x08 => binaryOk [0, 1, 6, 7] (f.x = 0) f
  | 0x04 => ternaryOk [0, 1, 6, 7] (f.x.toNat < 2) f
  | 0x09 | 0x0A | 0x0B | 0x0C | 0x0D | 0x0E => binaryOk [0, 6] (f.x = 0) f
  | 0x0F | 0x10 => unaryOk [0, 6] (f.x = 0) f
  | 0x11 => destK f && f.tyIn [0, 1, 6, 7] && f.a.ok f.wide false && f.b.ok f.wide true && f.c.unused && f.x.toNat < 6
  | 0x12 => binaryOk [0, 6] (f.x.toNat < 16) f
  | 0x13 | 0x14 | 0x15 => binaryOk [2, 3, 4, 5] (rmOk f.x.toNat) f
  | 0x16 => ternaryOk [2, 3, 4, 5] (rmOk f.x.toNat) f
  | 0x17 | 0x18 => binaryOk [2, 3, 4, 5] (f.x = 0) f
  | 0x19 => destK f && f.tyIn [2, 3] && f.a.ok f.wide false && f.b.ok f.wide true && f.c.unused && f.x.toNat < 8
  | 0x1A => unaryOk [2, 3, 4, 5] (rmOk f.x.toNat) f
  | 0x1B => destV (cvWide (f.xf 11 8)) f && f.tyIn [0] && f.a.ok (cvWide (f.xf 7 4)) false && f.b.unused && f.c.unused &&
      f.xf 31 12 = 0 && rmOk (f.xf 2 0) && f.xf 7 4 < 14 && f.xf 11 8 < 14 &&
      (f.xf 3 3 = 0 || f.xf 11 8 = 8 || f.xf 11 8 = 9)
  | 0x1C | 0x1E => unaryOk [2, 3] (f.x = 0) f
  | 0x1D | 0x1F | 0x20 | 0x21 => unaryOk [2] (f.x = 0) f
  | 0x22 => destV false f && f.tyIn [0, 1] && f.a.ok false false && f.b.ok false false && f.c.ok false false && f.x.toNat < 2
  | 0x23 => ternaryOk [4, 5] (rmOk f.x.toNat) f
  | 0x24 => destV f.wide f && f.tyIn [0, 6] && f.a.ok f.wide true && f.b.unused && f.c.unused && f.x = 0
  | 0x25 => destV false f && f.tyIn [0] && f.b.unused && f.c.unused && f.x.toNat < 8 &&
      (if f.x.toNat = 7 then f.a.vOk false else f.a.unused)
  | 0x26 => destV f.wide f && f.tyIn [0, 6] && f.a.ok false false && f.b.ok false true && f.c.unused && f.x = 0
  | 0x27 => destNone f && f.tyIn [0, 6] && f.a.ok false false && f.b.ok false true && f.c.ok f.wide false && f.x = 0
  | 0x28 | 0x29 => destV f.wide f && f.tyIn [0, 6] && f.a.ok f.wide false && f.b.ok false true && f.c.unused && f.x = 0
  | 0x2A => destVR f.wide f && f.tyIn [0, 6] && f.a.ok f.wide false && f.b.ok false true && f.c.unused && f.x = 0
  | 0x2B => destVR false f && f.tyIn [0] && f.a.ok false false && f.b.unused && f.c.unused && f.x = 0
  | 0x2C => destVR false f && f.tyIn [0] && f.a.ok false false && f.b.unused && f.c.unused && f.x.toNat < 3
  | 0x2D => destVR f.wide f && f.tyIn [0, 1, 2, 3, 6, 7] && f.a.ok f.wide false && f.b.unused && f.c.unused &&
      f.x.toNat < 6 && (f.xf 2 0 < 3 || !f.tyIn [2, 3])
  | 0x2E => unaryOk [0, 1, 2, 3, 6, 7] (f.x.toNat < 16 && f.xf 2 0 < 6 && (f.xf 2 0 < 3 || !f.tyIn [2, 3])) f
  | 0x2F => destK f && f.tyIn [0] && f.a.ok false false && f.b.unused && f.c.unused && f.x = 0
  | 0x30 => destK f && f.tyIn [0] && noSources f && f.x.toNat < 512
  | 0x31 | 0x32 => destV false f && f.tyIn [0] && noSources f && f.x.toNat < 64
  | 0x33 => bareOk true f
  | 0x34 => bareOk (f.xf 15 0 = 0) f && f.guard = 0 && !f.ginv
  | 0x35 => bareOk (f.x = 0) f && f.guard = 0 && !f.ginv
  | 0x36 | 0x38 => bareOk (f.x = 0) f
  | 0x37 => bareOk true f
  | 0x39 => destV f.wide f && f.b.unused && f.c.unused && memOk [0, 1, 2] [0, 1] f && addrOk f && nwOk f &&
      (f.mode ≠ 1 || f.xf 15 0 = 0)
  | 0x3A => destNone f && f.b.ok f.wide false && f.c.unused && memOk [0, 1, 2] [0, 2] f && addrOk f && nwOk f &&
      (f.mode ≠ 1 || f.xf 15 0 = 0)
  | 0x3B => destV false f && f.tyIn [0] && f.b.unused && f.c.unused && memOk [0, 1] [0, 1] f &&
      (if f.mode = 0 then f.a.flatOk && f.xf 18 18 = 0 else f.a.vOk true && f.xf 9 0 = 0)
  | 0x3C => destNone f && f.tyIn [0] && f.b.vOk false && f.c.unused && memOk [0, 1] [0, 2] f &&
      (if f.mode = 0 then f.a.flatOk && f.xf 18 18 = 0 else f.a.vOk true && f.xf 9 0 = 0)
  | 0x3D => destNone f && f.tyIn [0, 1, 2, 3, 6, 7] && f.b.ok f.wide false && f.c.unused && memOk [0, 2] [0, 2] f &&
      addrOk f && f.xf 22 21 = 0
  | 0x3E => destV f.wide f && f.tyIn [0, 1, 2, 3, 6, 7] && f.b.unused && f.c.unused && memOk [0, 2] [0, 1] f &&
      addrOk f && f.xf 22 21 = 0
  | 0x3F => destV f.wide f && f.tyIn [0, 1, 2, 6, 7] && f.b.ok f.wide false &&
      (if f.xf 22 20 = 7 then f.c.ok f.wide false else f.c.unused) && memOk [0, 1] [0, 1, 2] f && addrOk f &&
      (f.mode ≠ 1 || f.xf 15 0 = 0) && !(f.tyIn [2] && [1, 2, 3].contains (f.xf 22 20))
  | 0x40 | 0x43 => bareOk (f.xf 31 28 = 0 && f.xf 22 0 = 0 && scope5Ok f.scope5) f
  | 0x41 => destNone f && f.tyIn [0] && f.a.vkOk false && f.b.unused && f.c.unused && f.x.toNat < 64
  | 0x42 => bareOk (f.x.toNat < 1024) f
  | 0x44 => destV false f && f.tyIn [2] && f.a.vOk false && f.b.unused && f.c.unused && rmOk f.x.toNat
  | 0x45 => destV false f && f.tyIn [2] && f.a.vOk false && f.b.unused && f.c.unused && f.x = 0
  | 0x46 => destV false f && f.tyIn [2, 4] && f.a.ok false false && f.b.ok false true && f.c.unused && f.x = 0
  | 0x47 => destV true f && f.tyIn [6, 7] && noSources f && f.x = 0
  | 0x48 => destV false f && f.tyIn [2] && noSources f && f.x = 0
  | 0x49 => bareOk (f.xf 31 17 = 0 && 1 ≤ f.xf 16 10 && f.xf 16 10 ≤ 64) f
  | 0x4A => destNone f && f.tyIn [2] && f.a.ok false false && f.c.unused && f.x.toNat < 2 &&
      (if f.x.toNat = 1 then f.b.ok false false else f.b.unused)
  | 0x4B => bareOk (f.x = 0) f
  | 0x4C => destV false f && f.tyIn [0] && f.a.ok false false && f.b.unused && f.c.unused && f.x = 0
  | 0x4D => destV false f && f.tyIn [0] && noSources f && f.x.toNat < 2
  | 0x4E => destV false f && f.tyIn [0] && f.a.vkOk true && f.b.unused && f.c.unused && f.x.toNat < 32 &&
      (f.xf 4 4 = 0 || f.xf 3 0 = 0)
  | 0x4F => destNone f && f.tyIn [0] && f.a.vkOk true && f.b.unused && f.c.unused && f.x.toNat < 256 &&
      (f.xf 4 4 = 0 || f.xf 3 0 = 0)
  | 0x50 => destNone f && f.tyIn [0] && f.a.vkOk true && f.b.unused && f.c.unused && f.x.toNat < 2048 && f.xf 4 4 = 0
  | 0x51 => bareOk (f.x.toNat < 16) f
  | 0x52 => destNone f && f.tyIn [0] && f.a.vkOk true && f.b.unused && f.c.unused && f.x.toNat < 64 &&
      (f.xf 4 4 = 0 || f.xf 3 0 = 0)
  | 0x53 => destNone f && f.tyIn [0] && f.c.unused && f.x.toNat < 2048 &&
      (if f.xf 4 4 = 1 then f.a.vkOk true && f.b.vkOk true else f.a.unused && f.b.unused)
  | 0x54 => destNone f && f.tyIn [0] && f.a.vkOk true && f.b.unused && f.c.unused && f.x.toNat < 16
  | 0x55 => copyOk f && f.c.vkOk true && f.xf 23 22 = 0
  | 0x56 => copyOk f && f.c.vkOk true && f.xf 23 22 = 0 && f.xf 9 9 = 0 && f.xf 4 4 = 0
  | 0x57 => copyOk f && f.c.unused && f.xf 23 22 ≠ 3 && (f.xf 23 22 = 0 || 16 ≤ f.xf 20 16) && f.xf 9 9 = 0 && f.xf 4 4 = 0
  | 0x58 => destNone f && f.tyIn [0] && f.a.vOk true && f.b.unused && f.c.unused && f.x = 0
  | 0x59 | 0x5A => bareOk (f.x.toNat < 256) f
  | 0x5B => destNone f && f.ty.toNat < 7 && f.a.vOk true && f.b.vOk true && f.xf 15 13 = 0 &&
      (if f.xf 11 11 = 1 then f.c.vOk true else f.c.unused)
  | 0x5C => destNone f && f.ty.toNat < 7 && f.a.vOk true && f.b.vOk true && f.xf 15 13 = 0 && f.xf 11 11 = 1 && f.c.vOk true
  | 0x5D => destNone f && f.tyIn [2, 3] && f.a.vOk true && f.b.unused && f.c.unused && f.xf 31 16 = 0 && f.xf 9 7 = 0
  | 0x5E => destNone f && f.tyIn [2, 3, 4, 5] && f.a.vOk true && f.c.unused && f.xf 31 21 = 0 && scope5Ok (f.xf 20 16) &&
      (if f.xf 7 7 = 1 then f.b.vOk true else f.b.unused) && (f.xf 8 8 = 0 || f.tyIn [2])
  | 0x5F => destV f.wide f && f.tyIn [2, 3] && noSources f && f.xf 31 16 = 0
  | 0x60 => destV f.wide f && f.tyIn [2, 3, 4, 5] && f.a.ok f.wide false && f.b.ok false true && f.c.unused && rmOk f.x.toNat
  | _ => false

/-- A legal lane instruction: its row, at most one immediate, and with an immediate only X bits 9:0 (R282). -/
def laneLegal (op : Nat) (f : LaneFields) : Bool :=
  f.immCount ≤ 1 && (f.immCount = 0 || f.x.toNat < 1024) && rowOk op f

/-- The wave-uniform opcodes (column U of R285, R286). -/
def laneUniform (op : Nat) : Bool :=
  op = 0x49 || op = 0x50 || op = 0x51 || op = 0x53 || op = 0x54 || (decide (0x55 ≤ op) && decide (op ≤ 0x5F))

/-- The reserved codes and ranges of the scalar words (R279). -/
def scalarLegal : Instr → Bool
  | .slda _ _ sc _ | .sstr _ _ sc _ => sc.toNat < 6
  | .samoAdd _ _ _ sc o | .samoAnd _ _ _ sc o | .samoOr _ _ _ sc o | .samoXor _ _ _ sc o
  | .samoMin _ _ _ sc o | .samoMax _ _ _ sc o | .samoSwap _ _ _ sc o | .samoCas _ _ _ sc o => sc.toNat < 6 && o.toNat < 3
  | .lblk _ a n _ _ => n.toNat ≤ 8 && a.toNat + n.toNat ≤ 64
  | .fence sc => scope5Ok sc.toNat
  | .scopeset a _ => a.toNat + 7 ≤ 63
  | .scalarReservedOpcode w => 0x31 ≤ w.toNat / 2 ^ 26
  | _ => true

/-- A lane word whose opcode is 0x00 or 0x61 to 0x7F (R287). -/
def laneReserved (w : BitVec 96) : Bool := (laneOf (w.toNat / 2 ^ 89) ⟨0, 0, false, false, 0, .v 0 false, .v 0 false, .v 0 false, 0⟩).isNone

/-- The instruction is well formed: what a word of the encodings chapter can say. Events are always well formed. -/
def Instr.wf (i : Instr) : Bool :=
  match i.lane? with
  | some (op, f) => laneLegal op f
  | none =>
    match i with
    | .laneReservedOpcode w => laneReserved w
    | _ => scalarLegal i

end Sys2Proof
end

