-- ==== Sys2Proof/Decode.lean ====
section
/-! DEFINITION. The decoders of the two instruction streams, total on any bits, and the encoder (R275 to R287).
Scalar code is 32-bit words, MOVL and LBLK with a literal word behind them; lane code is 96-bit instructions. -/

namespace Sys2Proof

/-- Bits hi down to lo of a scalar word are all zero (the "Must be zero" column of R277). -/
def zeroBits (w : W32) (hi lo : Nat) : Bool := w.extractLsb' lo (hi + 1 - lo) = 0

/-- `i` if the reserved bits of its word are zero (R279). -/
def ifZero (z : Bool) (i : Instr) : Option Instr := if z then some i else none

/-- The ALU group by fn (R277). -/
def decodeAlu (w : W32) : Option Instr :=
  let d := w.extractLsb' 20 6
  let a := w.extractLsb' 14 6
  let b := w.extractLsb' 8 6
  match (w.extractLsb' 0 8).toNat with
  | 0x00 => some (.add d a b)
  | 0x01 => some (.sub d a b)
  | 0x02 => some (.and d a b)
  | 0x03 => some (.or d a b)
  | 0x04 => some (.xor d a b)
  | 0x05 => some (.shl d a b)
  | 0x06 => some (.shr d a b)
  | 0x07 => some (.sar d a b)
  | 0x08 => some (.mul d a b)
  | 0x09 => some (.mulh d a b)
  | 0x0A => some (.div d a b)
  | 0x0B => some (.rem d a b)
  | 0x0C => some (.min d a b)
  | 0x0D => some (.max d a b)
  | 0x0E => some (.slt d a b)
  | 0x0F => some (.sltn d a b)
  | _ => none

/-- SAMO by operation (R278). -/
def decodeSamo (w : W32) : Instr :=
  let d := w.extractLsb' 20 6
  let a := w.extractLsb' 14 6
  let b := w.extractLsb' 8 6
  let sc := w.extractLsb' 2 3
  let o := w.extractLsb' 0 2
  match (w.extractLsb' 5 3).toNat with
  | 0 => .samoAdd d a b sc o
  | 1 => .samoAnd d a b sc o
  | 2 => .samoOr d a b sc o
  | 3 => .samoXor d a b sc o
  | 4 => .samoMin d a b sc o
  | 5 => .samoMax d a b sc o
  | 6 => .samoSwap d a b sc o
  | _ => .samoCas d a b sc o

/-- The scalar opcode map with its reserved bits, before the reserved codes are looked at (R276, R277). -/
def decodeScalarMap (w lit : W32) : Option Instr :=
  let d := w.extractLsb' 20 6
  let a := w.extractLsb' 14 6
  let b := w.extractLsb' 8 6
  let i14 := w.extractLsb' 0 14
  match (w.extractLsb' 26 6).toNat with
  | 0x00 => some (.udf (w.extractLsb' 0 26))
  | 0x01 => decodeAlu w
  | 0x02 => some (.addi d a i14)
  | 0x03 => some (.andi d a i14)
  | 0x04 => some (.ori d a i14)
  | 0x05 => some (.xori d a i14)
  | 0x06 => ifZero (zeroBits w 13 6) (.shli d a (w.extractLsb' 0 6))
  | 0x07 => ifZero (zeroBits w 13 6) (.shri d a (w.extractLsb' 0 6))
  | 0x08 => ifZero (zeroBits w 13 6) (.sari d a (w.extractLsb' 0 6))
  | 0x09 => some (.slti d a i14)
  | 0x0A => some (.lui d (w.extractLsb' 0 20))
  | 0x0B => ifZero (zeroBits w 19 0) (.movl d lit)
  | 0x0C => some (.sld d a (w.extractLsb' 12 2) (w.extractLsb' 0 12))
  | 0x0D => some (.sst d a (w.extractLsb' 12 2) (w.extractLsb' 0 12))
  | 0x0E => some (.slda d a (w.extractLsb' 11 3) (w.extractLsb' 0 11))
  | 0x0F => some (.sstr d a (w.extractLsb' 11 3) (w.extractLsb' 0 11))
  | 0x10 => some (decodeSamo w)
  | 0x11 => some (.beq d a i14)
  | 0x12 => some (.bne d a i14)
  | 0x13 => some (.blt d a i14)
  | 0x14 => some (.bge d a i14)
  | 0x15 => some (.bltn d a i14)
  | 0x16 => some (.bgen d a i14)
  | 0x17 => some (.jmp (w.extractLsb' 0 26))
  | 0x18 => some (.call (w.extractLsb' 0 26))
  | 0x19 => ifZero (zeroBits w 25 20 && zeroBits w 13 0) (.jr a)
  | 0x1A => some (.lblk d a (w.extractLsb' 10 4) (w.extractLsb' 0 10) lit)
  | 0x1B => ifZero (zeroBits w 25 0) .ldrain
  | 0x1C => ifZero (zeroBits w 25 23) (.stbind (w.extractLsb' 20 3) a i14)
  | 0x1D => ifZero (zeroBits w 25 23 && zeroBits w 19 0) (.strel (w.extractLsb' 20 3))
  | 0x1E => ifZero (zeroBits w 19 0) (.bclose d)
  | 0x1F => ifZero (zeroBits w 25 20 && zeroBits w 13 0) (.bwait a)
  | 0x20 => ifZero (zeroBits w 13 0) (.bararr d a)
  | 0x21 => ifZero (zeroBits w 13 0) (.barwait d a)
  | 0x22 => ifZero (zeroBits w 13 0) (.barexp d a)
  | 0x23 => ifZero (zeroBits w 25 5) (.fence (w.extractLsb' 0 5))
  | 0x24 => ifZero (zeroBits w 25 20 && zeroBits w 13 4) (.scopeset a (w.extractLsb' 0 4))
  | 0x25 => ifZero (zeroBits w 25 0) .recfence
  | 0x26 => ifZero (zeroBits w 25 4) (.recload (w.extractLsb' 0 4))
  | 0x27 => ifZero (zeroBits w 25 20) (.syscall (w.extractLsb' 0 20))
  | 0x28 => ifZero (zeroBits w 25 0) .trapret
  | 0x29 => ifZero (zeroBits w 19 12) (.csrr d (w.extractLsb' 0 12))
  | 0x2A => ifZero (zeroBits w 25 20 && zeroBits w 13 12) (.csrw a (w.extractLsb' 0 12))
  | 0x2B => ifZero (zeroBits w 25 0) .exit
  | 0x2C => ifZero (zeroBits w 25 20) (.brk (w.extractLsb' 0 20))
  | 0x2D => ifZero (zeroBits w 25 0) .yield
  | 0x2E => ifZero (zeroBits w 7 0) (.launch d a b)
  | 0x2F => ifZero (zeroBits w 25 0) .nop
  | 0x30 => ifZero (zeroBits w 7 0) (.waitev d a b)
  | _ => some (.scalarReservedOpcode w)

/-- The scalar decoder: an instruction, or `none` for a word of R279 that names no row of its own. -/
def decodeScalar (w lit : W32) : Option Instr := (decodeScalarMap w lit).filter scalarLegal

/-- The specials of source kind 01 (R281). -/
def decodeSpecial (n : Nat) : Option Special :=
  match n with
  | 16 => some .lane
  | 17 => some .wave
  | 18 => some .amask
  | 19 => some .iter
  | 20 => some .rctr
  | _ => none

/-- The number of a special in its source field (R281). -/
def Special.code : Special → BitVec 10
  | .lane => 16
  | .wave => 17
  | .amask => 18
  | .iter => 19
  | .rctr => 20

/-- A source from its field, kind and mode (R281): a mode bit is legal with kind 00 only. -/
def decodeSrc (field : BitVec 10) (kind : BitVec 2) (mode : BitVec 1) (imm : W32) : Option Src :=
  if kind = 0 then some (.v field (mode = 1))
  else if mode = 1 then none
  else if kind = 1 then
    if field.toNat < 8 then some (.bp (field.extractLsb' 0 3)) else (decodeSpecial field.toNat).map Src.special
  else if kind = 2 then
    if field.toNat < 8 then some (.stream (field.extractLsb' 0 3)) else none
  else some (.imm imm)

/-- The field, kind and mode of a source; an immediate carries the low bits of X in its field (R281, R282). -/
def Src.field (x : W32) : Src → BitVec 10
  | .v n _ => n
  | .bp n => n.zeroExtend 10
  | .special y => y.code
  | .stream n => n.zeroExtend 10
  | .imm _ => x.extractLsb' 0 10
def Src.kind : Src → BitVec 2
  | .v _ _ => 0
  | .bp _ => 1
  | .special _ => 1
  | .stream _ => 2
  | .imm _ => 3
def Src.modeBit : Src → BitVec 1
  | .v _ t => if t then 1 else 0
  | _ => 0
def Src.imm? : Src → Option W32
  | .imm w => some w
  | _ => none

/-- Bits 31:0 of a lane instruction: the immediate if a source is one, else X (R282). -/
def LaneFields.imm32 (f : LaneFields) : W32 :=
  ((f.a.imm?.orElse fun _ => f.b.imm?).orElse fun _ => f.c.imm?).getD f.x

/-- The extension word X of a lane word (R282). -/
def laneX (w : BitVec 96) : W32 :=
  if w.extractLsb' 39 2 = 3#2 then (w.extractLsb' 61 10).zeroExtend 32
  else if w.extractLsb' 37 2 = 3#2 then (w.extractLsb' 51 10).zeroExtend 32
  else if w.extractLsb' 35 2 = 3#2 then (w.extractLsb' 41 10).zeroExtend 32
  else w.extractLsb' 0 32

/-- The fields of a lane word (R280). -/
def decodeFields (w : BitVec 96) : Option LaneFields :=
  let imm := w.extractLsb' 0 32
  match decodeSrc (w.extractLsb' 61 10) (w.extractLsb' 39 2) (w.extractLsb' 34 1) imm,
      decodeSrc (w.extractLsb' 51 10) (w.extractLsb' 37 2) (w.extractLsb' 33 1) imm,
      decodeSrc (w.extractLsb' 41 10) (w.extractLsb' 35 2) (w.extractLsb' 32 1) imm with
  | some a, some b, some c =>
    some { ty := w.extractLsb' 86 3, guard := w.extractLsb' 83 3, ginv := w.extractLsb' 82 1 = 1#1,
           dkind := w.extractLsb' 81 1 = 1#1, dest := w.extractLsb' 71 10, a := a, b := b, c := c, x := laneX w }
  | _, _, _ => none

/-- The lane decoder: an instruction, or `none` for an illegal word of R287 with a defined opcode. -/
def decodeLane (w : BitVec 96) : Option Instr :=
  let op := (w.extractLsb' 89 7).toNat
  if laneReserved w then some (.laneReservedOpcode w)
  else
    match decodeFields w with
    | none => none
    | some f => if laneLegal op f then laneOf op f else none

/-- The 96 bits of a lane instruction (R280). -/
def laneWord (op : Nat) (f : LaneFields) : BitVec 96 :=
  BitVec.ofNat 7 op ++ f.ty ++ f.guard ++ BitVec.ofBool f.ginv ++ BitVec.ofBool f.dkind ++ f.dest ++
    f.a.field f.x ++ f.b.field f.x ++ f.c.field f.x ++ f.a.kind ++ f.b.kind ++ f.c.kind ++
    f.a.modeBit ++ f.b.modeBit ++ f.c.modeBit ++ f.imm32

/-- The three words of a 96-bit lane instruction, the lowest first (R275). -/
def laneWords (w : BitVec 96) : List W32 := [w.extractLsb' 0 32, w.extractLsb' 32 32, w.extractLsb' 64 32]

/-- The scalar layouts of R276. -/
def wordR (op : BitVec 6) (d a b : BitVec 6) (fn : BitVec 8) : W32 := op ++ d ++ a ++ b ++ fn
def wordI (op : BitVec 6) (d a : BitVec 6) (imm : BitVec 14) : W32 := op ++ d ++ a ++ imm
def wordJ (op : BitVec 6) (off : BitVec 26) : W32 := op ++ off
def wordU (op : BitVec 6) (d : BitVec 6) (imm : BitVec 20) : W32 := op ++ d ++ imm
def wordSamo (d a b : BitVec 6) (k : BitVec 3) (sc : BitVec 3) (o : BitVec 2) : W32 := (0x10#6) ++ d ++ a ++ b ++ k ++ sc ++ o

/-- The words of a scalar instruction: one, or two with a literal; none for everything else (R276, R277). -/
def encodeScalar : Instr → List W32
  | .udf u => [wordJ 0x00 u]
  | .add d a b => [wordR 0x01 d a b 0x00]
  | .sub d a b => [wordR 0x01 d a b 0x01]
  | .and d a b => [wordR 0x01 d a b 0x02]
  | .or d a b => [wordR 0x01 d a b 0x03]
  | .xor d a b => [wordR 0x01 d a b 0x04]
  | .shl d a b => [wordR 0x01 d a b 0x05]
  | .shr d a b => [wordR 0x01 d a b 0x06]
  | .sar d a b => [wordR 0x01 d a b 0x07]
  | .mul d a b => [wordR 0x01 d a b 0x08]
  | .mulh d a b => [wordR 0x01 d a b 0x09]
  | .div d a b => [wordR 0x01 d a b 0x0A]
  | .rem d a b => [wordR 0x01 d a b 0x0B]
  | .min d a b => [wordR 0x01 d a b 0x0C]
  | .max d a b => [wordR 0x01 d a b 0x0D]
  | .slt d a b => [wordR 0x01 d a b 0x0E]
  | .sltn d a b => [wordR 0x01 d a b 0x0F]
  | .addi d a i => [wordI 0x02 d a i]
  | .andi d a i => [wordI 0x03 d a i]
  | .ori d a i => [wordI 0x04 d a i]
  | .xori d a i => [wordI 0x05 d a i]
  | .shli d a n => [wordI 0x06 d a (n.zeroExtend 14)]
  | .shri d a n => [wordI 0x07 d a (n.zeroExtend 14)]
  | .sari d a n => [wordI 0x08 d a (n.zeroExtend 14)]
  | .slti d a i => [wordI 0x09 d a i]
  | .lui d i => [wordU 0x0A d i]
  | .movl d lit => [wordU 0x0B d 0, lit]
  | .sld d a w off => [wordI 0x0C d a (w ++ off)]
  | .sst d a w off => [wordI 0x0D d a (w ++ off)]
  | .slda d a sc off => [wordI 0x0E d a (sc ++ off)]
  | .sstr d a sc off => [wordI 0x0F d a (sc ++ off)]
  | .samoAdd d a b sc o => [wordSamo d a b 0 sc o]
  | .samoAnd d a b sc o => [wordSamo d a b 1 sc o]
  | .samoOr d a b sc o => [wordSamo d a b 2 sc o]
  | .samoXor d a b sc o => [wordSamo d a b 3 sc o]
  | .samoMin d a b sc o => [wordSamo d a b 4 sc o]
  | .samoMax d a b sc o => [wordSamo d a b 5 sc o]
  | .samoSwap d a b sc o => [wordSamo d a b 6 sc o]
  | .samoCas d a b sc o => [wordSamo d a b 7 sc o]
  | .beq a b off => [wordI 0x11 a b off]
  | .bne a b off => [wordI 0x12 a b off]
  | .blt a b off => [wordI 0x13 a b off]
  | .bge a b off => [wordI 0x14 a b off]
  | .bltn a b off => [wordI 0x15 a b off]
  | .bgen a b off => [wordI 0x16 a b off]
  | .jmp off => [wordJ 0x17 off]
  | .call off => [wordJ 0x18 off]
  | .jr a => [wordI 0x19 0 a 0]
  | .lblk d a n rep lit => [wordI 0x1A d a (n ++ rep), lit]
  | .ldrain => [wordJ 0x1B 0]
  | .stbind q a i => [wordI 0x1C (q.zeroExtend 6) a i]
  | .strel q => [wordI 0x1D (q.zeroExtend 6) 0 0]
  | .bclose d => [wordU 0x1E d 0]
  | .bwait a => [wordI 0x1F 0 a 0]
  | .bararr b a => [wordI 0x20 b a 0]
  | .barwait b a => [wordI 0x21 b a 0]
  | .barexp b a => [wordI 0x22 b a 0]
  | .fence sc => [wordJ 0x23 (sc.zeroExtend 26)]
  | .scopeset a n => [wordI 0x24 0 a (n.zeroExtend 14)]
  | .recfence => [wordJ 0x25 0]
  | .recload slot => [wordJ 0x26 (slot.zeroExtend 26)]
  | .syscall n => [wordJ 0x27 (n.zeroExtend 26)]
  | .trapret => [wordJ 0x28 0]
  | .csrr d n => [wordU 0x29 d (n.zeroExtend 20)]
  | .csrw a n => [wordI 0x2A 0 a (n.zeroExtend 14)]
  | .exit => [wordJ 0x2B 0]
  | .brk n => [wordJ 0x2C (n.zeroExtend 26)]
  | .yield => [wordJ 0x2D 0]
  | .launch d a b => [wordR 0x2E d a b 0]
  | .nop => [wordJ 0x2F 0]
  | .waitev d a b => [wordR 0x30 d a b 0]
  | .scalarReservedOpcode w => [w]
  | _ => []

/-- The encoder: the words of an instruction as the hardware stores them, the lowest address first (R276, R280).
An event has none. -/
def encode (i : Instr) : List W32 :=
  match i.lane? with
  | some (op, f) => laneWords (laneWord op f)
  | none =>
    match i with
    | .laneReservedOpcode w => laneWords w
    | _ => encodeScalar i

/-- What the words of an instruction decode to: one or two words are scalar code, three are lane code. -/
def decode : List W32 → Option Instr
  | [w] => decodeScalar w 0
  | [w, lit] => decodeScalar w lit
  | [w0, w1, w2] => decodeLane (w2 ++ w1 ++ w0)
  | _ => none

/-- The instruction the decoders read from bits numbered as the opcode table numbers them; a length above 64 bits is
that of a lane instruction. -/
def decodeTableWord (nbits w : Nat) : Option Instr :=
  let v := w % 2 ^ nbits
  if nbits ≤ 64 then decodeScalar (BitVec.ofNat 32 v) (BitVec.ofNat 32 (v / 2 ^ 32)) else decodeLane (BitVec.ofNat 96 v)

end Sys2Proof
end

