-- ==== Sys2Proof/Machine/Float.lean ====
section
/-! DEFINITION. Floating-point values and formats (R241 to R257): exact values, one rounding, conversions, and the
correctly rounded functions of R255. -/

namespace Sys2Proof.Machine

/-- A floating format (R241): exponent and fraction width, and whether it has infinities. -/
structure Fmt where
  ebits : Nat
  fbits : Nat
  hasInf : Bool
  deriving DecidableEq, Repr

def fp64 : Fmt := ⟨11, 52, true⟩
def fp32 : Fmt := ⟨8, 23, true⟩
def fp16 : Fmt := ⟨5, 10, true⟩
def bf16 : Fmt := ⟨8, 7, true⟩
def e5m2 : Fmt := ⟨5, 2, true⟩
def e4m3 : Fmt := ⟨4, 3, false⟩

def fmtBias (f : Fmt) : Nat := 2 ^ (f.ebits - 1) - 1
def fmtWidth (f : Fmt) : Nat := 1 + f.ebits + f.fbits
/-- The exponent of the largest finite value. -/
def fmtEmax (f : Fmt) : Int := if f.hasInf then fmtBias f else (fmtBias f : Int) + 1
/-- The exponent of the smallest normal value. -/
def fmtEmin (f : Fmt) : Int := 1 - (fmtBias f : Int)
/-- The significand of the largest finite value: E4M3 gives up its last code to NaN (R242). -/
def fmtMaxSig (f : Fmt) : Nat := if f.hasInf then 2 ^ (f.fbits + 1) - 1 else 2 ^ (f.fbits + 1) - 2
/-- The encodings of R242. -/
def fmtNan (f : Fmt) : Nat :=
  if f.hasInf then (2 ^ f.ebits - 1) * 2 ^ f.fbits + 2 ^ (f.fbits - 1) else 2 ^ (fmtWidth f - 1) - 1
def fmtInf (f : Fmt) : Nat := (2 ^ f.ebits - 1) * 2 ^ f.fbits
def fmtMax (f : Fmt) : Nat := if f.hasInf then fmtInf f - 1 else 2 ^ (fmtWidth f - 1) - 2
def fmtSign (f : Fmt) (neg : Bool) : Nat := if neg then 2 ^ (fmtWidth f - 1) else 0

/-- A value: NaN, an infinity, or (−1)^neg × m × 2^e exactly. -/
inductive FVal where
  | nan
  | inf (neg : Bool)
  | fin (neg : Bool) (m : Nat) (e : Int)
  deriving DecidableEq, Repr

/-- The value of an encoding (R241, R242); with `ftz` a subnormal input reads as zero (R246). -/
def fdecode (f : Fmt) (ftz : Bool) (bits : Nat) : FVal :=
  let neg := bits / 2 ^ (fmtWidth f - 1) % 2 = 1
  let e := bits / 2 ^ f.fbits % 2 ^ f.ebits
  let m := bits % 2 ^ f.fbits
  if f.hasInf && e = 2 ^ f.ebits - 1 then if m = 0 then .inf neg else .nan
  else if !f.hasInf && e = 2 ^ f.ebits - 1 && m = 2 ^ f.fbits - 1 then .nan
  else if e = 0 then .fin neg (if ftz then 0 else m) (fmtEmin f - f.fbits)
  else .fin neg (2 ^ f.fbits + m) ((e : Int) - fmtBias f - f.fbits)

/-- A rounding mode (R244) after sys.fpmode has been looked at; `sr` carries its 24-bit draw (R247). -/
inductive Rnd where
  | rne | rtz | rup | rdn
  | sr (d : Nat)
  deriving DecidableEq, Repr

/-- m × 2^e as a multiple of 2^q: the truncated count and what was cut off, as a fraction num / 2^k of one quantum. -/
def quantum (m : Nat) (e q : Int) : Nat × Nat × Nat :=
  if q ≤ e then (m * 2 ^ (e - q).toNat, 0, 0)
  else let k := (q - e).toNat; (m / 2 ^ k, m % 2 ^ k, k)

/-- Whether the truncated magnitude t goes up (R244, R247). -/
def goesUp (r : Rnd) (neg : Bool) (t rem k : Nat) : Bool :=
  if rem = 0 then false
  else match r with
    | .rne => decide (2 ^ k < 2 * rem) || (decide (2 * rem = 2 ^ k) && t % 2 = 1)
    | .rtz => false
    | .rup => !neg
    | .rdn => neg
    | .sr d => decide ((2 ^ 24 - d) * 2 ^ k ≤ rem * 2 ^ 24)

/-- A magnitude rounded to a multiple of 2^q. -/
def roundTo (r : Rnd) (neg : Bool) (m : Nat) (e q : Int) : Nat :=
  let (t, rem, k) := quantum m e q
  if goesUp r neg t rem k then t + 1 else t

/-- The position of the leading one of a non-zero m × 2^e. -/
def topExp (m : Nat) (e : Int) : Int := (Nat.log2 m : Int) + e

/-- a × 2^x ≤ b × 2^y. -/
def leScaled (a : Nat) (x : Int) (b : Nat) (y : Int) : Bool :=
  if y ≤ x then decide (a * 2 ^ (x - y).toNat ≤ b) else decide (a ≤ b * 2 ^ (y - x).toNat)

/-- What an overflow gives (R245): the infinity or the largest finite value; `reach` says the exact value is at least
2^(emax + 1). -/
def overflowTo (f : Fmt) (r : Rnd) (sat neg reach : Bool) : Nat :=
  let toInf := match r with
    | .rne => true
    | .rtz => false
    | .rup => !neg
    | .rdn => neg
    | .sr _ => reach
  if sat || !toInf then fmtSign f neg + fmtMax f
  else if f.hasInf then fmtSign f neg + fmtInf f else fmtNan f

/-- The encoding of a rounded magnitude t × 2^q, q at least the smallest quantum. -/
def fpack (f : Fmt) (neg : Bool) (t : Nat) (q : Int) : Nat :=
  let (t, q) := if 2 ^ (f.fbits + 1) ≤ t then (t / 2, q + 1) else (t, q)
  if t < 2 ^ f.fbits then fmtSign f neg + t
  else fmtSign f neg + (q + f.fbits + fmtBias f).toNat * 2 ^ f.fbits + (t - 2 ^ f.fbits)

/-- A finite non-zero exact value rounded once (R244 to R246). -/
def roundFin (f : Fmt) (r : Rnd) (ftz sat neg : Bool) (m : Nat) (e : Int) : Nat :=
  let E := topExp m e
  let tiny := ftz && decide (E < fmtEmin f) &&
    !leScaled 1 (fmtEmin f) (roundTo r neg m e (E - f.fbits)) (E - f.fbits)
  let q := (if E < fmtEmin f then fmtEmin f else E) - f.fbits
  let t := roundTo r neg m e q
  if tiny then fmtSign f neg
  else if leScaled t q (fmtMaxSig f) (fmtEmax f - f.fbits) then fpack f neg t q
  else overflowTo f r sat neg (decide (fmtEmax f + 1 ≤ E))

/-- An exact value rounded once to a format (R243 to R246, R248). -/
def fround (f : Fmt) (r : Rnd) (ftz sat : Bool) : FVal → Nat
  | .nan => fmtNan f
  | .inf neg => if sat then fmtSign f neg + fmtMax f else if f.hasInf then fmtSign f neg + fmtInf f else fmtNan f
  | .fin neg m e => if m = 0 then fmtSign f neg else roundFin f r ftz sat neg m e

/-- The value as a signed multiple of 2^q, for q at most its exponent. -/
def asMultiple (neg : Bool) (m : Nat) (e q : Int) : Int :=
  let v : Int := (m * 2 ^ (e - q).toNat : Nat)
  if neg then -v else v

/-- The exact product. -/
def fmulV : FVal → FVal → FVal
  | .nan, _ => .nan
  | _, .nan => .nan
  | .inf a, .inf b => .inf (a != b)
  | .inf a, .fin b m _ => if m = 0 then .nan else .inf (a != b)
  | .fin a m _, .inf b => if m = 0 then .nan else .inf (a != b)
  | .fin a m e, .fin b n g => .fin (a != b) (m * n) (e + g)

/-- The exact sum; `rdn` gives the sign of an exact zero of opposite operands. -/
def faddV (rdn : Bool) : FVal → FVal → FVal
  | .nan, _ => .nan
  | _, .nan => .nan
  | .inf a, .inf b => if a = b then .inf a else .nan
  | .inf a, .fin _ _ _ => .inf a
  | .fin _ _ _, .inf b => .inf b
  | .fin a m e, .fin b n g =>
    let q := min e g
    let z := asMultiple a m e q + asMultiple b n g q
    if z = 0 then .fin (if a = b then a else rdn) 0 q else .fin (decide (z < 0)) z.natAbs q

def fnegV : FVal → FVal
  | .nan => .nan
  | .inf a => .inf (!a)
  | .fin a m e => .fin (!a) m e

/-- The order of two values that are no NaN: −1, 0 or 1. -/
def fcmpV : FVal → FVal → Int
  | .nan, _ => 0
  | _, .nan => 0
  | .inf a, .inf b => if a = b then 0 else if a then -1 else 1
  | .inf a, .fin _ _ _ => if a then -1 else 1
  | .fin _ _ _, .inf b => if b then 1 else -1
  | .fin a m e, .fin b n g =>
    let q := min e g
    let x := asMultiple a m e q
    let y := asMultiple b n g q
    if x < y then -1 else if y < x then 1 else 0

def isNanV : FVal → Bool
  | .nan => true
  | _ => false
def negV : FVal → Bool
  | .nan => false
  | .inf a => a
  | .fin a _ _ => a

/-- A value rounded to an integral value (FRND); an exact zero keeps the sign. -/
def frndV (r : Rnd) : FVal → FVal
  | .fin neg m e => .fin neg (roundTo r neg m e 0) 0
  | v => v

/-- A value as an integer between lo and hi (R249). -/
def ftoInt (r : Rnd) (lo hi : Int) : FVal → Int
  | .nan => 0
  | .inf neg => if neg then lo else hi
  | .fin neg m e =>
    let t : Int := (roundTo r neg m e 0 : Nat)
    let z := if neg then -t else t
    if z < lo then lo else if hi < z then hi else z

def fofInt (z : Int) : FVal := .fin (decide (z < 0)) z.natAbs 0

/-! ### The functions of R255 -/

/-- The integer square root by bits, from bit n − 1 down. -/
def isqrtGo (x : Nat) : Nat → Nat → Nat
  | 0, r => r
  | n + 1, r => let c := r + 2 ^ n; isqrtGo x n (if c * c ≤ x then c else r)
def isqrt (x : Nat) : Nat := isqrtGo x (Nat.log2 x / 2 + 1) 0

/-- m × 2^e with a mark below the last bit when something was cut off; the rounding sees the mark as a remainder. -/
def sticky (neg : Bool) (m : Nat) (e : Int) (inexact : Bool) : FVal := .fin neg (2 * m + if inexact then 1 else 0) (e - 1)

/-- 1 / x. -/
def rcpV : FVal → FVal
  | .nan => .nan
  | .inf a => .fin a 0 0
  | .fin a m e =>
    if m = 0 then .inf a
    else let k := Nat.log2 m + 60; sticky a (2 ^ k / m) (-(k : Int) - e) (2 ^ k % m ≠ 0)

/-- The square root of x. -/
def sqrtV : FVal → FVal
  | .nan => .nan
  | .inf a => if a then .nan else .inf false
  | .fin a m e =>
    if m = 0 then .fin a 0 0
    else if a then .nan
    else
      let k := 128 + (e % 2).toNat
      let x := m * 2 ^ k
      let r := isqrt x
      sticky false r ((e - k) / 2) (r * r ≠ x)

/-- 1 / √x. -/
def rsqV : FVal → FVal
  | .nan => .nan
  | .inf a => if a then .nan else .fin false 0 0
  | .fin a m e =>
    if m = 0 then .inf a
    else if a then .nan
    else
      let m' := m * 2 ^ (e % 2).toNat
      let x := 2 ^ 256
      let r := isqrt (x / m')
      sticky false r (-128 - (e - e % 2) / 2) (r * r * m' ≠ x)

/-- ln 2 × 2^256, cut off. -/
def ln2Fix : Nat := 0xb17217f7d1cf79abc9e3b39803f2f6af40f343267298b62d8a0d175b8baafa2b

/-- The sum of t^k / k! in 256-bit fixed point, by terms from k = n on. -/
def expSum (t : Nat) : Nat → Nat → Nat → Nat
  | 0, _, _ => 0
  | fuel + 1, k, term => term + expSum t fuel (k + 1) (term * t / 2 ^ 256 / (k + 1))

/-- 2^x. A value that is no integer has an irrational power, so 256 bits decide every rounding. -/
def exp2V : FVal → FVal
  | .nan => .nan
  | .inf a => if a then .fin false 0 0 else .inf false
  | .fin a m e =>
    if m = 0 then .fin false 1 0
    else if decide (10 ≤ topExp m e) then if a then sticky false 1 (-2000) true else .fin false 1 2000
    else
      let fix := asMultiple a m e (-256)
      let n := fix / 2 ^ 256
      let frac := (fix % 2 ^ 256).toNat
      if frac = 0 then .fin false 1 n
      else sticky false (expSum (frac * ln2Fix / 2 ^ 256) 70 0 (2 ^ 256)) (n - 256) true

/-- The sum of z^(2k+1) / (2k+1) in 256-bit fixed point. -/
def atanhSum (z2 : Nat) : Nat → Nat → Nat → Nat
  | 0, _, _ => 0
  | fuel + 1, k, p => p / (2 * k + 1) + atanhSum z2 fuel (k + 1) (p * z2 / 2 ^ 256)

/-- x = y × 2^n with y between 2/3 and 4/3: n, and ln y as a signed 256-bit fixed-point number. -/
def lnParts (m : Nat) (e : Int) : Int × Int :=
  let l := Nat.log2 m
  let up := decide (4 * 2 ^ l ≤ 3 * m)
  let one : Nat := if up then 2 ^ (l + 1) else 2 ^ l
  let n := (l : Int) + e + if up then 1 else 0
  let d := (m : Int) - one
  let z := d.natAbs * 2 ^ 256 / (m + one)
  let s := 2 * atanhSum (z * z / 2 ^ 256) 90 0 z
  (n, if d < 0 then -(s : Int) else s)

def ofFix (z : Int) : FVal := .fin (decide (z < 0)) z.natAbs (-256)

/-- ln x. -/
def lnV : FVal → FVal
  | .nan => .nan
  | .inf a => if a then .nan else .inf false
  | .fin a m e =>
    if m = 0 then .inf true
    else if a then .nan
    else let (n, s) := lnParts m e; ofFix (n * (ln2Fix : Int) + s)

/-- log2 x. -/
def log2V : FVal → FVal
  | .nan => .nan
  | .inf a => if a then .nan else .inf false
  | .fin a m e =>
    if m = 0 then .inf true
    else if a then .nan
    else let (n, s) := lnParts m e; ofFix (n * 2 ^ 256 + s * 2 ^ 256 / (ln2Fix : Int))

/-! ### Shared scales (R250 to R254) -/

/-- The value of an E8M0 code (R250). -/
def e8m0V (e : Nat) : FVal := if e = 255 then .nan else .fin false 1 ((e : Int) - 127)

/-- A G8 element with its scale (R251). -/
def g8V (elem scale : Nat) : FVal := fmulV (fdecode e4m3 false elem) (e8m0V scale)

/-- The codebook of R253, as FP16 encodings. -/
def nq4Code (c : Nat) : Nat :=
  [0xBC00, 0xB990, 0xB830, 0xB64C, 0xB48C, 0xB1E8, 0xADD0, 0x0000,
   0x2D10, 0x3120, 0x33E0, 0x356C, 0x3710, 0x3880, 0x39CA, 0x3C00].getD c 0
def nq4V (c : Nat) : FVal := fdecode fp16 false (nq4Code c)

/-- s = RNE32(S × (q + 1) / 256) (R51, R254). -/
def nq4Scale (S q : Nat) : Nat := fround fp32 .rne false false (fmulV (fdecode fp32 false S) (.fin false (q + 1) (-8)))

/-- The magnitude order of two finite non-negative values, for the largest of a granule. -/
def maxMagV : List FVal → FVal
  | [] => .fin false 0 0
  | .fin _ m e :: l => let y := maxMagV l; if fcmpV y (.fin false m e) < 0 then .fin false m e else y
  | _ :: l => maxMagV l

/-- The scale code of a granule (R252). -/
def g8ScaleCode (vals : List FVal) : Nat :=
  match maxMagV vals with
  | .fin _ m e => if m = 0 then 127 else (max 0 (min 254 (topExp m e - 8 + 127))).toNat
  | _ => 127

/-- One element of a granule (R252). -/
def g8Elem (r : Rnd) (code : Nat) (v : FVal) : Nat :=
  fround e4m3 r false true (fmulV v (.fin false 1 (127 - (code : Int))))

end Sys2Proof.Machine
end

