-- ==== Sys2Proof/Machine/Regions.lean ====
section
/-! DEFINITION. Region trees (R100 to R103): the region table of a process as the schedule core last read it, effective
values, the path to the root, and whether the table is valid. -/

namespace Sys2Proof.Machine

/-- The region table of a process on a die, 256 bytes a block. -/
def regionTable (s : State) (d : Nat) (pid : W32) : List Byte := (mfind (s.die d).sched.regions pid.toNat).getD []

def regionCount (tab : List Byte) : Nat := tab.length / 256
/-- n bytes of block i from offset off. -/
def regionNat (tab : List Byte) (i off n : Nat) : Nat := leNat ((tab.drop (256 * i + off)).take n)

/-- The fields of a block, by OVR bit (R100). -/
def regionField (tab : List Byte) (i : Nat) : Nat → Nat
  | 0 => regionNat tab i 6 1 % 128
  | 1 => regionNat tab i 8 4
  | 2 => regionNat tab i 7 1 % 4
  | 3 => regionNat tab i 12 2
  | 4 => regionNat tab i 16 8
  | 5 => regionNat tab i 14 1
  | 6 => regionNat tab i 64 64
  | _ => regionNat tab i 24 16

/-- The regions from i to the root, at most as many as the table has. -/
def regionPath (tab : List Byte) : Nat → Nat → List Nat
  | 0, _ => []
  | fuel + 1, i =>
    if regionNat tab i 0 4 = 0xFFFFFFFF then [i]
    else if regionNat tab i 0 4 < regionCount tab then i :: regionPath tab fuel (regionNat tab i 0 4) else [i]

/-- The effective value of a field (R101): that of the nearest region on the path that owns it. -/
def regionEff (tab : List Byte) (i k : Nat) : Nat :=
  match (regionPath tab (regionCount tab) i).find? fun j => bit (regionNat tab j 4 2) k with
  | some j => regionField tab j k
  | none => 0

/-- The limits of the fields a region owns (R100, R102). -/
def regionFieldOk (tab : List Byte) (i k : Nat) : Bool :=
  let v := regionField tab i k
  match k with
  | 0 => true
  | 1 => v = 0 || (decide (100 ≤ v) && decide (v ≤ 10000000))
  | 2 => decide (v < 3)
  | 3 => decide (1 ≤ v) && decide (v ≤ 64)
  | 4 => v % 1024 = 0
  | 5 => decide (1 ≤ v) && decide (v ≤ 20)
  | 6 => true
  | _ => v % 65536 = 0 && regionNat tab i 32 8 % 65536 = 0 && decide (65536 ≤ regionNat tab i 32 8)

/-- A block's reserved fields are zero, whatever OVR says, and its parent links lead to the root over enabled regions (R100, R102). -/
def regionOk (tab : List Byte) (i : Nat) : Bool :=
  let n := regionCount tab
  let path := regionPath tab n i
  regionNat tab i 5 1 = 0 && regionNat tab i 6 1 / 128 = 0 && regionNat tab i 7 1 / 4 = 0 && decide (regionNat tab i 15 1 < 2) && regionNat tab i 40 24 = 0 &&
    ((List.range 8).all fun k => !bit (regionNat tab i 4 2) k || regionFieldOk tab i k) &&
    (i = 0) = (regionNat tab i 0 4 = 0xFFFFFFFF) &&
    (i = 0 || (decide (regionNat tab i 0 4 < n) && bit (regionNat tab (regionNat tab i 0 4) 15 1) 0)) &&
    path.getLast? = some 0

/-- The region table is valid (R102): the root owns every field, and every block, enabled or not, is in order. -/
def regionsValid (tab : List Byte) : Bool :=
  decide (0 < regionCount tab) && regionNat tab 0 4 2 % 256 = 255 &&
    (List.range (regionCount tab)).all fun i => regionOk tab i

/-- The regions on the path of a launch's leaf. -/
def launchPath (s : State) (d : Nat) (l : Launch) : List Nat :=
  let tab := regionTable s d l.pid
  regionPath tab (regionCount tab) l.region

/-- The TCWAYS budgets on a launch's path: region and ways (R105). -/
def wayBudgets (s : State) (d : Nat) (l : Launch) : List (Nat × Nat) :=
  let tab := regionTable s d l.pid
  (launchPath s d l).map fun i => (i, regionEff tab i 5)

/-- Launch a runs in the subtree of region i of launch l's process. -/
def inSubtree (s : State) (d : Nat) (l a : Launch) (i : Nat) : Bool := l.pid = a.pid && (launchPath s d a).contains i

end Sys2Proof.Machine
end

