-- ==== Sys2Proof/Machine/Records.lean ====
section
/-! DEFINITION. Rings (R61, R62), joined names (R121), and the records a die writes into them: errors (R213), traces
(R127) and faults (R209). -/

namespace Sys2Proof.Machine

/-- A ring: offsets of its control, base and index registers, the bits of LOG2SZ, the record size, and what a value
outside 10 to 20 is treated as (R61, R127). -/
structure Ring where
  ctl : Nat
  base : Nat
  idx : Nat
  hi : Nat
  lo : Nat
  size : Nat
  clamp : Bool
  deriving DecidableEq, Repr

def smpRing : Ring := ⟨0x5800, 0x5808, 0x5810, 12, 8, 32, true⟩
def trcRing : Ring := ⟨0x5A00, 0x5A08, 0x5A10, 16, 12, 64, false⟩
def aolRing : Ring := ⟨0x5B00, 0x5B08, 0x5B10, 12, 8, 16, true⟩
def fltRing : Ring := ⟨0x5D18, 0x5D08, 0x5D10, 12, 8, 32, true⟩
def errRing : Ring := ⟨0x5E00, 0x5E08, 0x5E10, 12, 8, 64, true⟩

/-- LOG2SZ as treated. -/
def ringLog (s : State) (d : Nat) (r : Ring) : Nat :=
  let n := s.ctlBits d r.ctl r.hi r.lo
  if r.clamp then max 10 (min 20 n) else if 10 ≤ n ∧ n ≤ 20 then n else 12

def ringTail (s : State) (d : Nat) (r : Ring) : Nat := s.ctlBits d r.idx 52 32
def ringHead (s : State) (d : Nat) (r : Ring) : Nat := s.ctlBits d r.idx 20 0

/-- Records in the ring. -/
def ringUsed (s : State) (d : Nat) (r : Ring) : Nat :=
  let w := 2 ^ (ringLog s d r + 1)
  (ringTail s d r + w - ringHead s d r % w) % w
def ringRoom (s : State) (d : Nat) (r : Ring) : Bool := decide (ringUsed s d r < 2 ^ ringLog s d r)

/-- Write a record at TAIL and then advance TAIL (R62). -/
def ringPut (s : State) (d : Nat) (r : Ring) (rec : List Byte) : State :=
  let base := (s.ctl d r.base).toNat / r.size * r.size
  let t := ringTail s d r
  (s.unitWrite d (base + r.size * (t % 2 ^ ringLog s d r)) rec).setCtlBits d r.idx 52 32 ((t + 1) % 2 ^ (ringLog s d r + 1))

/-- Count a lost record, saturating (R61). -/
def ringDrop (s : State) (d : Nat) (r : Ring) : State :=
  s.setCtlBits d r.ctl 63 32 (min (2 ^ 32 - 1) (s.ctlBits d r.ctl 63 32 + 1))

/-- Write a record, or drop it and count it (R62). -/
def ringPutOrDrop (s : State) (d : Nat) (r : Ring) (rec : List Byte) : State :=
  if ringRoom s d r then ringPut s d r rec else ringDrop s d r

/-- A write of a ring's HEAD that leaves at most 2^LOG2SZ records (R61). -/
def ringHeadOk (s : State) (d : Nat) (r : Ring) (head : Nat) : Bool :=
  let w := 2 ^ (ringLog s d r + 1)
  decide ((ringTail s d r + w - head % w) % w ≤ 2 ^ ringLog s d r)

/-- The index pkg × 8 + die of a die. -/
def State.dieIndex (s : State) (d : Nat) : Nat := s.pkg * 8 + d

/-- A joined name (R121). -/
def joinedName (pid tid launch team wave split : Nat) (lane : Option Nat) : List Byte :=
  leBytes 4 pid ++ leBytes 4 tid ++
    leBytes 8 (launch * 2 ^ 32 + team * 2 ^ 12 + wave * 2 ^ 8 + split * 2 ^ 6 +
      match lane with | some l => l * 2 + 1 | none => 0)

/-- The name of a wave, with the lane and split of a record that concerns one; a handler's split counts as 0. -/
def waveName (s : State) (w : Wave) (split : Nat) (lane : Option Nat) : List Byte :=
  joinedName (s.launch w.launch).pid.toNat 0 w.launch w.team w.idx (if split < 4 then split else 0) lane

def zeros (n : Nat) : List Byte := List.replicate n 0

/-- A trace record (R127): types 0x01, 0x0C and 0x0D need EN (and TIMEREC, for 0x0C), the PC sample its rate, the
others EN and EVT. -/
def traceRec (s : State) (d : Nat) (name : List Byte) (type : Nat) (payload : List Byte) : State :=
  let on := s.ctlBits d 0x5A00 0 0 = 1 &&
    (type = 0x01 || type = 0x0D || type = 0x0A || (type = 0x0C && s.ctlBits d 0x5A00 2 2 = 1) || s.ctlBits d 0x5A00 1 1 = 1)
  if on then
    let n := (s.die d).dbg.traceSeq
    let s := s.modDie d fun x => { x with dbg := { x.dbg with traceSeq := (n + 1) % 2 ^ 32 } }
    ringPutOrDrop s d trcRing (name ++ leBytes 8 s.time ++ leBytes 2 type ++ leBytes 2 (s.dieIndex d) ++ leBytes 4 n ++
      (payload ++ zeros 32).take 32)
  else s

/-- An error record (R213): its number, written if ERRCTL.EN is set and there is room. The trace refers to it, under the name of the
requester where that is known (R121, R127). -/
def errorRec (s : State) (d cls source pa : Nat) (name : List Byte) (unit action : Nat) : State × Nat :=
  let n := d * 2 ^ 29 + (s.die d).tr.errCount
  let s := s.modDie d fun x => { x with tr := { x.tr with errCount := (x.tr.errCount + 1) % 2 ^ 29 } }
  let rec' := leBytes 4 n ++ leBytes 2 (s.dieIndex d) ++ leBytes 1 cls ++ leBytes 1 source ++ leBytes 8 pa ++
    (name ++ zeros 16).take 16 ++ leBytes 8 s.time ++ leBytes 2 unit ++ leBytes 1 action ++ zeros 21
  let s := if s.ctlBits d 0x5E00 0 0 = 1 then ringPutOrDrop s d errRing rec' else s
  (traceRec s d ((name ++ zeros 16).take 16) 0x0B (leBytes 8 n), n)

/-! ### Fault records (R209) -/

/-- A fault record's 32 bytes. -/
def faultBytes (name : List Byte) (va mask reason access fid : Nat) : List Byte :=
  name ++ leBytes 8 va ++ leBytes 4 mask ++ leBytes 1 reason ++ leBytes 1 access ++ leBytes 2 fid

/-- Write the records that wait for room or for FLTCTL.EN, in order. -/
def flushFaultsGo (d : Nat) : List Nat → State → State
  | [], s => s
  | i :: l, s =>
    match (s.die d).tr.faults.find? (fun f => f.fid = i && !f.written) with
    | none => flushFaultsGo d l s
    | some f =>
      if s.ctlBits d 0x5D18 0 0 = 1 && ringRoom s d fltRing then
        let s := ringPut s d fltRing f.record
        flushFaultsGo d l (s.modDie d fun x => { x with tr := { x.tr with
          faults := x.tr.faults.map fun g => if g.fid = i then { g with written := true } else g } })
      else s
def flushFaults (s : State) (d : Nat) : State :=
  flushFaultsGo d (((s.die d).tr.faults.filter fun f => !f.written).map FaultRec.fid) s

/-- The first fault id from n on that no unanswered fault holds. -/
def freeFid (fs : List FaultRec) : Nat → Nat → Nat
  | 0, n => n % 65536
  | fuel + 1, n => if fs.any (fun f => f.fid = n % 65536) then freeFid fs fuel (n + 1) else n % 65536

/-- The page of an address of a process is lost (R77). -/
def pageLost (s : State) (d pid va : Nat) : Bool :=
  (s.die d).image.lost.any fun p => p.1 = pid && decide (p.2.1 ≤ va) && decide (va < p.2.1 + p.2.2)
/-- The refusal of a fault by a supervisor core that runs. -/
def refusal (s : State) (d fid : Nat) : Instr :=
  let t := (s.die d).tr
  let k := ((List.range 8).find? fun k => !t.supFenced.getLsbD k && !t.supFrozen.getLsbD k).getD 0
  .faultRefuse (Fin.ofNat 8 d) (BitVec.ofNat 16 fid) (.sup (Fin.ofNat 8 k))
/-- Raise a fault record; it waits while the ring is full or disabled. The supervisor refuses every fault
on a lost page (R77); a service call (access 12) is no access to a page. -/
def raiseFault (s : State) (d : Nat) (owner : FaultOwner) (name : List Byte) (va : W64) (mask : W32) (reason access : Nat) :
    State × Nat :=
  let t := (s.die d).tr
  let fid := freeFid t.faults t.faults.length t.nextFid
  let f : FaultRec := { fid := fid, owner := owner, record := faultBytes name va.toNat mask.toNat reason access fid,
                        written := false, mask := mask, va := va, reason := reason }
  let s := s.modDie d fun x => { x with tr := { x.tr with faults := x.tr.faults ++ [f], nextFid := (fid + 1) % 65536 } }
  let s := if access ≠ 12 && pageLost s d (leNat (name.take 4)) va.toNat then s.push (refusal s d fid) else s
  (flushFaults s d, fid)

/-- Forget unanswered faults (an answer was given, or they are abandoned). -/
def dropFaults (s : State) (d : Nat) (p : FaultRec → Bool) : State :=
  s.modDie d fun x => { x with tr := { x.tr with faults := x.tr.faults.filter fun f => !p f } }

end Sys2Proof.Machine
end

