-- ==== Sys2Proof/Machine/Translate.lean ====
section
/-! DEFINITION. Address translation (R197 to R203) and the freezing of masters (R212). -/

namespace Sys2Proof.Machine

/-- The index of a process's valid entry in the process table of a die (R201). -/
def findProcess (s : State) (d : Nat) (pid : W32) : Option Nat :=
  if s.ctlBits d 0x5D00 0 0 = 0 then none
  else
    let pt := s.ctlBits d 0x5D00 51 16 * 65536
    firstOf (fun i => if s.tableNat d (pt + 16 * i) 4 = pid.toNat && bit (s.tableNat d (pt + 16 * i + 4) 1) 0 then some i else none) 4096 0

/-- A leaf with its page: first address, size, and home package. -/
structure PageMap where
  va : Nat
  size : Nat
  leaf : W64
  pkg : Nat
  deriving DecidableEq, Repr

/-- How a walk ends (R200, R207). -/
inductive Walk where
  | ok (p : PageMap)
  | fail (reason : Nat)
  | blocked
  deriving DecidableEq, Repr

/-- The range of a shoot-down (R204) holds a byte of a page. -/
def shootCovers (x : ShootDown) (pid : W32) (va size : Nat) : Bool :=
  x.pid = pid && decide (x.first < va + size) && decide (va < x.first + x.count * 65536)
/-- New walks for an address are blocked (R205). -/
def blockedAt (s : State) (d : Nat) (pid : W32) (va : Nat) : Bool :=
  (s.die d).tr.shoots.any fun x => shootCovers x pid va 1

/-- Class and frame number of an entry lie within the table of R199; a large page is aligned and in no control block. -/
def frameOk (e : Nat) (large : Bool) : Bool :=
  let n := bitsOf e 49 21
  let cls := bitsOf e 51 50
  (match cls with
    | 0 => decide (n < 3145728)
    | 1 => decide (n < 2 ^ 27)
    | 2 => true
    | _ => decide (n < 256) && !large) && (!large || n % 2 ^ 13 = 0)

/-- The physical address of an entry's frame (R199). -/
def frameAddr (e : Nat) : Nat :=
  let n := bitsOf e 49 21 * 65536
  let h := bitsOf e 10 8
  match bitsOf e 51 50 with
  | 0 => lpddrBase h + n
  | 1 => 0x100000000000 + h * 0x80000000000 + n
  | 2 => 0x8000000000000 + h * 0x800000000000 + n
  | _ => ctlBase h + n

/-- The table a pointer entry of die d names: a frame of class 0 of the walking die (R198, assumption 30). -/
def tableAddr (d e : Nat) : Nat := lpddrBase d + bitsOf e 49 21 * 65536
/-- A pointer entry is well formed: its bits besides V, PKG and the frame number are reserved (R198, assumption 30). -/
def pointerOk (e : Nat) : Bool :=
  bitsOf e 63 52 = 0 && bitsOf e 20 19 = 0 && bitsOf e 12 5 = 0 && bitsOf e 51 50 = 0 && frameOk e false
/-- A leaf entry is well formed (R198, R199). -/
def leafOk (e : Nat) (large : Bool) : Bool := bitsOf e 63 52 = 0 && frameOk e large

/-- A sector of storage holds poison, as a die reads it. -/
def poisonedAt (s : State) (d pa : Nat) : Bool :=
  match flatFrame? (s.frames d) pa with
  | some f => f.poison.getLsbD (pa % 2048 / 64)
  | none => match s.locate pa with
    | .cached _ c => (mfind s.mempoison (c / 64)).isSome
    | _ => false

/-- The walk (R197 to R200): each level reports reason 5, 4 or 1 in that order. -/
def walk (s : State) (d pindex : Nat) (pid : W32) (va : W64) : Walk :=
  let v := va.toNat
  let pt := s.ctlBits d 0x5D00 51 16 * 65536 + 16 * pindex
  if v / 2 ^ 55 ≠ 0 then .fail 4
  else if blockedAt s d pid v then .blocked
  else if s.ctlBits d 0x5D00 0 0 = 0 then .fail 1
  else if !(s.tableNat d pt 4 = pid.toNat && bit (s.tableNat d (pt + 4) 1) 0) then .fail 1
  else
    let a1 := s.tableNat d (pt + 8) 8 + 8 * bitsOf v 54 42
    let e1 := s.tableNat d a1 8
    if poisonedAt s d a1 then .fail 5
    else if bitsOf e1 4 1 ≠ 0 || !pointerOk e1 then .fail 4
    else if !bit e1 0 then .fail 1
    else
      let a2 := tableAddr d e1 + 8 * bitsOf v 41 29
      let e2 := s.tableNat d a2 8
      if poisonedAt s d a2 then .fail 5
      else if bitsOf e2 4 1 ≠ 0 then
        if !leafOk e2 true then .fail 4
        else if !bit e2 0 then .fail 1
        else .ok ⟨v / 2 ^ 29 * 2 ^ 29, 2 ^ 29, BitVec.ofNat 64 e2, bitsOf e1 18 13⟩
      else if !pointerOk e2 then .fail 4
      else if !bit e2 0 then .fail 1
      else
        let a3 := tableAddr d e2 + 8 * bitsOf v 28 16
        let e3 := s.tableNat d a3 8
        if poisonedAt s d a3 then .fail 5
        else if !leafOk e3 false then .fail 4
        else if !bit e3 0 then .fail 1
        else .ok ⟨v / 2 ^ 16 * 2 ^ 16, 2 ^ 16, BitVec.ofNat 64 e3, bitsOf e2 18 13⟩

/-- The rights of R200 an access needs, as leaf bits: RD 1, W 2, SX 3, LX 4. -/
def rightsFail (leaf : W64) (need : List Nat) : Option Nat :=
  if !bit leaf.toNat 5 then some 3 else if need.all (fun b => bit leaf.toNat b) then none else some 2

/-- A translated access. -/
inductive Trans where
  | ok (pa : Nat) (leaf : W64) (pkg : Nat)
  | fail (reason : Nat)
  | blocked
  deriving DecidableEq, Repr

/-- The cached leaf for an address (R202), if a cache of the cluster holds one. -/
def cachedPage (s : State) (d cluster pindex : Nat) (pid : W32) (v : Nat) : Option PageMap :=
  ((s.die d).tr.cache.find? fun e => e.cluster = cluster && e.pindex = pindex && e.pid = pid &&
    decide (e.va ≤ v) && decide (v < e.va + e.size)).map fun e => ⟨e.va, e.size, e.leaf, e.pkg⟩

/-- The page of an address: cached, or by a walk. -/
def lookupPage (s : State) (d cluster pindex : Nat) (pid : W32) (va : W64) : Walk :=
  match cachedPage s d cluster pindex pid va.toNat with
  | some p => .ok p
  | none => walk s d pindex pid va

/-- Translate a user access (R200). -/
def translate (s : State) (d cluster pindex : Nat) (pid : W32) (va : W64) (need : List Nat) : Trans :=
  match lookupPage s d cluster pindex pid va with
  | .blocked => .blocked
  | .fail r => .fail r
  | .ok p => match rightsFail p.leaf need with
    | some r => .fail r
    | none => .ok (frameAddr p.leaf.toNat + (va.toNat - p.va)) p.leaf p.pkg

/-- The translation caches of a cluster with one more entry: at most 4,096, the oldest leaves (R132, R202, assumption 57). The
256 entries of each quadrant are among them. -/
def addEntry (l : List TransEntry) (e : TransEntry) : List TransEntry :=
  let mine := l.filter fun x => x.cluster = e.cluster
  let l := if mine.length < 4096 then l else match mine with
    | old :: _ => l.erase old
    | [] => l
  l ++ [e]
/-- Keep a walked page in the translation caches of the cluster (R202). -/
def cachePage (s : State) (d cluster pindex : Nat) (pid : W32) (va : W64) : State :=
  match cachedPage s d cluster pindex pid va.toNat with
  | some _ => s
  | none => match walk s d pindex pid va with
    | .ok p => s.modTr d fun t => { t with cache := addEntry t.cache ⟨cluster, pindex, pid, p.va, p.size, p.leaf, p.pkg⟩ }
    | _ => s

/-- Drop the cached translations of the page of an address in one cluster (R203). -/
def dropPage (s : State) (d cluster pindex : Nat) (pid : W32) (va : W64) : State :=
  s.modDie d fun x => { x with tr := { x.tr with cache := x.tr.cache.filter fun e =>
    !(e.cluster = cluster && e.pindex = pindex && e.pid = pid && decide (e.va ≤ va.toNat) && decide (va.toNat < e.va + e.size)) } }

/-- Whom a wave acts for: die, cluster, process index, process. -/
structure Who where
  d : Nat
  cluster : Nat
  pindex : Nat
  pid : W32
  deriving DecidableEq, Repr
def waveWho (s : State) (w : Wave) : Who :=
  let t := s.team (teamKey w.launch w.team)
  let l := s.launch w.launch
  ⟨t.die, t.cluster, l.pindex, l.pid⟩

/-! ### Freezing (R212) -/

/-- Freeze a cluster: an access-window violation by a wave; its access is not performed, an error is recorded. -/
def freezeCluster (s : State) (d c pa : Nat) (name : List Byte) (wave : Nat) : State :=
  let s := (errorRec s d 3 6 pa name c 3).1
  let s := s.setCtl d 0x5E18 (s.ctl d 0x5E18 ||| BitVec.twoPow 64 c)
  s.modDie d fun x => { x with tr := { x.tr with violators := x.tr.violators ++ [(c, wave)] } }
/-- Freeze a copy engine. -/
def freezeCopy (s : State) (d c pa : Nat) (name : List Byte) (command : Nat) : State :=
  let s := (errorRec s d 3 7 pa name c 3).1
  let s := s.setCtl d 0x5E20 (s.ctl d 0x5E20 ||| BitVec.twoPow 64 c)
  s.modDie d fun x => { x with tr := { x.tr with violators := x.tr.violators ++ [(64 + c, command)] } }
/-- Freeze a host client (R82). -/
def freezeHost (s : State) (d pasid pa : Nat) : State :=
  let s := (errorRec s d 3 10 pa [] pasid 3).1
  s.modDie d fun x => { x with host := { x.host with
    pasids := x.host.pasids.map fun p => if p.1 = pasid then (p.1, p.2.1, true) else p } }
/-- A die withdraws (R80): its links are fenced, its clusters and supervisor cores halt. -/
def withdrawDie (s : State) (d : Nat) : State :=
  let s := (List.range 6).foldl (fun s p => s.setCtlBits d (0x3000 + 0x100 * p) 16 16 1) s
  s.modDie d fun x => { x with image := { x.image with withdrawn := true }, power := { x.power with halted := true } }
/-- An hour in nanoseconds. -/
def hourNs : Nat := 3600000000000
/-- R71 requires the die to withdraw: the error or security core is frozen, or a core has been frozen twice within 1 h. -/
def mustWithdraw (x : Die) : Bool :=
  x.fw.frozen.getLsbD 3 || x.fw.frozen.getLsbD 6 ||
    (List.range x.fw.history.length).any fun i => (x.fw.history.drop (i + 1)).any fun b =>
      match x.fw.history[i]? with
      | some a => a.1 = b.1 && decide (b.2 - a.2 ≤ hourNs)
      | none => false
/-- The error core tells the instance of its die of a frozen firmware core (R71): the core and the number of its record. It can
tell nothing while it is frozen itself. -/
def tellInstance (s : State) (d k n : Nat) : State :=
  if (s.die d).fw.frozen.getLsbD 3 then s else { s with outbox := s.outbox ++ [⟨d, 17, k, leBytes 4 n⟩] }
/-- Firmware core k (8 to 15) is frozen, with its error record, and the die's instance is told; the die withdraws where R71 says
so. -/
def freezeFw (s : State) (d k pa : Nat) : State :=
  let (s, n) := errorRec s d 3 9 pa [] k 3
  let s := s.modDie d fun x => { x with fw := { x.fw with
    frozen := x.fw.frozen ||| BitVec.twoPow 8 (k - 8), history := x.fw.history ++ [(k, s.now)] } }
  let s := tellInstance s d k n
  if mustWithdraw (s.die d) then withdrawDie s d else s
/-- A supervisor core that violates an access window is frozen (R15, R39, R212); no rule names its release. -/
def freezeSupervisor (s : State) (d k pa : Nat) : State :=
  (errorRec s d 3 8 pa [] k 3).1.modTr d fun t => { t with supFrozen := t.supFrozen ||| BitVec.twoPow 8 k }
/-- An access-window violation by any master of the control registers (R15, R212). -/
def violation (s : State) (d : Nat) (m : Master) (pa : Nat) : State :=
  match m with
  | .sup k => freezeSupervisor s d k.val pa
  | .fw k => freezeFw s d (8 + k.val) pa
  | .cluster c => freezeCluster s d c.val pa [] 0
  | .copyEngine c => freezeCopy s d c.val pa [] 0
  | .host p => freezeHost s d p pa

/-- The cluster is frozen, or fenced (R211, R212). -/
def clusterFrozen (s : State) (d c : Nat) : Bool :=
  (s.ctl d 0x5E18).getLsbD c || (s.cluster (clusterKey d c)).fenced

/-! ### Lost dies -/

/-- A die of the package that answers nothing: off, halted or withdrawn (R20, R24, R80). -/
def dieDown (s : State) (d : Nat) : Bool :=
  let x := s.die d
  x.power.dieOff || x.power.halted || x.image.withdrawn
/-- Traffic of a die that has been lost is discarded (R75). -/
def fromLost (s : State) (d index : Nat) : Bool :=
  let x := (s.die d).image
  x.formed && !x.view.getLsbD index
/-- The boot phase of a die, BOOTSTAT.PHASE (R23). -/
def bootPhase (s : State) (d : Nat) : Nat := s.ctlBits d 0x20 3 0
/-- The firmware image of core 8 + k runs: the die is up, phase 2 has authenticated the image set, and the core is not frozen
(R23, R71). Until then the security core runs its boot ROM, whose work is the end of phases 1 and 2. -/
def fwUp (s : State) (d k : Nat) : Bool := !dieDown s d && decide (3 ≤ bootPhase s d) && !(s.die d).fw.frozen.getLsbD k
/-- Supervisor core k runs: the die is up, phase 6 has released the supervisor cores, and the core is neither fenced nor frozen
(R23, R211, R212). -/
def supUp (s : State) (d k : Nat) : Bool :=
  !dieDown s d && decide (6 ≤ bootPhase s d) && !(s.die d).tr.supFenced.getLsbD k && !(s.die d).tr.supFrozen.getLsbD k
/-- A master that can make no access: a frozen cluster, copy engine or host client, or a core that does not run. -/
def masterStopped (s : State) (d : Nat) (m : Master) : Bool :=
  match m with
  | .sup k => !supUp s d k.val
  | .fw k => !fwUp s d k.val
  | .host p => (s.die d).host.pasids.any fun x => x.1 = p && x.2.2
  | .cluster c => (s.ctl d 0x5E18).getLsbD c.val
  | .copyEngine c => (s.ctl d 0x5E20).getLsbD c.val

end Sys2Proof.Machine
end

