-- ==== Sys2Proof/Machine/Frames.lean ====
section
/-! DEFINITION. Tile frames: their place in the cache, what a fill brings and when it faults (R50 to R53, R84, R159), write-backs and
evictions (R161, R169, R171). -/

namespace Sys2Proof.Machine

/-- A 12-bit value rotated left (R149). -/
def rotl12 (v n : Nat) : Nat := (v * 2 ^ n % 4096) + (v * 2 ^ n / 4096)

/-- A coordinate component of a packed coordinate. -/
def coordAt (c : BitVec 48) (k : Nat) : Nat := bitsOf c.toNat (12 * k + 11) (12 * k)
def packCoord (c : Nat → Nat) : BitVec 48 :=
  BitVec.ofNat 48 (c 0 % 4096 + c 1 % 4096 * 2 ^ 12 + c 2 % 4096 * 2 ^ 24 + c 3 % 4096 * 2 ^ 36)

/-- Slice (bits 5:0) and set (bits 11:6) of a tile (R149). -/
def tileHash (t : TileId) : Nat :=
  coordAt t.coord 0 ^^^ rotl12 (coordAt t.coord 1) 3 ^^^ rotl12 (coordAt t.coord 2) 6 ^^^ rotl12 (coordAt t.coord 3) 9 ^^^
    (t.tid.toNat % 4096) ^^^ (t.tid.toNat / 4096)

/-- The element format NQ4 and G8 of R156. -/
def efmtG8 : Nat := 0x0F
def efmtNq4 : Nat := 0x10

/-- The home of a tensor marks it package-coherent (R153). -/
def tensorPcoh (s : State) (tid : BitVec 20) : Bool := tid ≠ 0 && s.entryLive tid && bit (s.entryNat tid 14 1) 1

/-! ### Format regions (R49 to R54) -/

/-- The enabled format region of a die that holds an address in its code range: code base, scale base, superscale base. -/
def codeRegion? (s : State) (d pa : Nat) : Option (Nat × Nat × Nat) :=
  firstOf (fun n =>
    let ctl := s.ctl d (0x5000 + 0x20 * n)
    let base := wbits ctl 51 16 * 65536
    let lim := s.ctlBits d (0x5008 + 0x20 * n) 51 16 * 65536 + 65536
    if wbits ctl 0 0 = 1 && decide (base ≤ pa) && decide (pa < lim) then
      some (base, s.ctlBits d (0x5010 + 0x20 * n) 51 6 * 64, s.ctlBits d (0x5018 + 0x20 * n) 51 2 * 4)
    else none) 32 0

/-- One of n bytes from an address on lies in the code range or the scale region of an enabled entry (R54). -/
def readOnlySpan (s : State) (d pa n : Nat) : Bool :=
  let meets (lo len : Nat) : Bool := decide (lo < pa + n) && decide (pa < lo + len)
  (List.range 32).any fun k =>
    let ctl := s.ctl d (0x5000 + 0x20 * k)
    let base := wbits ctl 51 16 * 65536
    let len := s.ctlBits d (0x5008 + 0x20 * k) 51 16 * 65536 + 65536 - base
    let tiles := len / 2048
    wbits ctl 0 0 = 1 && (meets base len || meets (s.ctlBits d (0x5010 + 0x20 * k) 51 6 * 64) (tiles * 64) ||
      meets (s.ctlBits d (0x5018 + 0x20 * k) 51 2 * 4) tiles)

/-- The fill faults of R53 and R159; a tensor id that names no tensor now is one too, since nothing matches it (R153). -/
def fillFaulty (s : State) (q : FillReq) : Bool :=
  let inCode := q.region.isSome
  (q.nq4 && !inCode) || (inCode && q.tile.tid ≠ 0 && !q.nq4) || q.enc != inCode ||
    (q.tile.tid ≠ 0 && !s.entryLive q.tile.tid) ||
    (tensorPcoh s q.tile.tid && decide (q.home.val ≠ tensorHome q.tile.tid)) ||
    (q.tile.tid ≠ 0 && decide (q.repl.toNat ≠ s.entryNat q.tile.tid 16 1))

/-- The resolved scales of a decoded tile (R51), at 4j to 4j + 3. -/
def nq4Side (s : State) (home pa : Nat) (reg : Nat × Nat × Nat) : List (Nat × Byte) :=
  let t := (pa - reg.1) / 2048
  let S := s.peekNat home (reg.2.2 + 4 * (t / 4)) 4
  putBytes [] ((List.range 64).flatMap fun j =>
    atOffsets (4 * j) (leBytes 4 (nq4Scale S (s.peekNat home (reg.2.1 + 64 * t + j) 1))))

/-- The poison of a storage tile at its home: bits by sector, and the first origin (R171). -/
def homePoison (s : State) (home base cell : Nat) : BitVec 33 × W32 :=
  match s.frameAt? home base with
  | some f => (f.poison, f.porigin)
  | none =>
    let l := (List.range 32).filter fun k => (mfind s.mempoison (cell / 64 + k)).isSome
    (l.foldl (fun v k => v ||| BitVec.twoPow 33 k) 0, match l with | k :: _ => mget 0 s.mempoison (cell / 64 + k) | [] => 0)
/-- The origin of the poison of the sector at a physical address, if it is poisoned. -/
def sectorPoison (s : State) (pa : Nat) : Option W32 :=
  match s.locate pa with
  | .cached home c => match s.frameAt? home (pa / 2048 * 2048) with
    | some f => if f.poison.getLsbD (pa % 2048 / 64) then some f.porigin else none
    | none => mfind s.mempoison (c / 64)
  | _ => none

/-- The cell of a storage tile's first byte. -/
def cellOf (s : State) (base : Nat) : Nat := match s.locate base with
  | .cached _ c => c
  | .host _ c => c
  | _ => base

/-- n free bytes at offsets 0, 1, …: what another package or the host holds (assumption 4). -/
def freeBytes (s : State) (n : Nat) : List (Nat × Byte) :=
  putBytes [] ((List.range n).map fun k => (k, (Config.foreignRead (s.draws + k)).extractLsb' 0 8))
/-- A fill reads a tile of a coherent import range that its home does not hold: from the host, with RdShared. -/
def hostFill (s : State) (q : FillReq) : Bool := isHostCell (cellOf s q.base) && (s.frameAt? q.home q.base).isNone
def askHost (s : State) (q : FillReq) : State :=
  if hostFill s q then { hostLine s q.home 0 (cellOf s q.base) [] with draws := s.draws + 2048 } else s

/-- The sectors whose poison a fill's side area takes: the tile's own scales, or the scales that it is decoded from. -/
def sidePoison (s : State) (q : FillReq) : Option W32 :=
  match q.nq4, q.region with
  | true, some reg =>
    let t := (q.base - reg.1) / 2048
    (sectorPoison s (reg.2.1 + 64 * t)).orElse fun _ => sectorPoison s (reg.2.2 + 4 * (t / 4))
  | _, _ => if q.side = 0 then none else sectorPoison s q.side
/-- Payload, side area and poison that a fill brings (R51, R156, R159, R171), all from the home; a code tile and its scales as the
home has them, in its cache or in memory (assumption 47). -/
def fillContent (s : State) (q : FillReq) : List (Nat × Byte) × List (Nat × Byte) × BitVec 33 × W32 :=
  let cell := cellOf s q.base
  let (po, og) := homePoison s q.home.val q.base cell
  let po : BitVec 33 := BitVec.ofNat 33 (po.toNat % 2 ^ 32)
  let (po, og) := match sidePoison s q with
    | some o => (po ||| BitVec.twoPow 33 32, if po = 0 then o else og)
    | none => (po, og)
  let data := if hostFill s q then freeBytes s 2048 else s.homeTile q.home q.base cell
  (data, (match q.nq4, q.region with
    | true, some reg => nq4Side s q.home q.base reg
    | _, _ => if q.side = 0 then [] else putBytes [] (atOffsets 0 (s.peekBytes q.home q.side 64))), po, og)

/-! ### Write-backs and evictions (R161, R168, R169, R171) -/

/-- The side area of a tile is written back, with its poison. -/
def sideBack (s : State) (f : Frame) : State :=
  let s := State.unitGo f.home f.repl 65 f.sideBase (bytesAt f.side 0 64) s
  if f.poison.getLsbD 32 then
    let base := f.sideBase / 2048 * 2048
    match s.locate base with
    | .cached h c => s.poisonHome h base c f.repl (BitVec.twoPow 33 (f.sideBase % 2048 / 64)) f.porigin
    | _ => s
  else s
/-- Write a dirty frame's payload, side area and poison back to its home's storage and its replicas (R161, R169, R172). -/
def writeBack (s : State) (f : Frame) : State :=
  let cell := cellOf s f.base
  if isHostCell cell then hostLine s f.home 2 cell (bytesAt f.payload 0 2048)
  else
    let cells := cell :: replicaCells f.home cell f.repl
    let s := cells.foldl (fun s c => { s with mem := msplice s.mem c 2048 f.payload }) s
    let s := { s with mempoison := cells.foldl (fun m c => (List.range 32).foldl (fun m k =>
      if f.poison.getLsbD k then mset m (c / 64 + k) f.porigin else mdel m (c / 64 + k)) m) s.mempoison }
    if f.sideBase = 0 then s else sideBack s f

/-- The clean or dirty data that a write-back carries (R166, R171). -/
def tileData (f : Frame) : TileData := ⟨f.payload, f.side, f.poison, f.porigin⟩

/-- Change, or take away, one frame of a die: a stale frame of the same tile is another. -/
def replaceFrame (s : State) (d : Nat) (f : Frame) (g : Option Frame) : State :=
  s.modCache d fun c => { c with frames := c.frames.filterMap fun x => if x = f then g else some x }
/-- The annex of a tile is dropped (R160). -/
def dropAnnex (s : State) (d : Nat) (t : TileId) : State :=
  s.modCache d fun c => { c with annexes := c.annexes.filter fun a => a.tile ≠ t }

/-- Evict a frame of a die (R161, R168): a die's copy of a package-coherent tile is written back to its home from the
write-back buffer, a dirty home frame to its storage; a clean copy, and a stale one with whatever it holds, is dropped. -/
def evict (s : State) (d : Nat) (f : Frame) : State :=
  if !s.fresh d f then replaceFrame s d f none
  else
    let s := dropAnnex s d f.tile
    if f.pcoh && f.home ≠ d && (f.st = .m || f.st = .o || f.st = .e) then
      let wb (data : Option (TileData × Clock)) : Instr := .wb (Fin.ofNat 8 f.home) (Fin.ofNat 8 d) f.tile false data
      let s := replaceFrame s d f (some { f with st := .mi, wb := true, sharers := 0, ncown := false })
      if f.st = .e then s.push (wb none) else (s.sendClock d).push (wb (some (tileData f, s.clock d)))
    else if f.dirty && f.home = d then
      (replaceFrame (writeBack s f) d f (some { f with st := .i, wb := true, sharers := 0, ncown := false })).push
        (.homeWriteBackAck (Fin.ofNat 8 d) f.tile)
    else replaceFrame s d f none

end Sys2Proof.Machine
end

