-- ==== Sys2Proof/Machine/Home.lean ====
section
/-! DEFINITION. The home of a package-coherent tile (R165 to R167): how it serves requests, in stable and transient states, and how it
gathers the copies of a frame that it is to replace (R161). -/

namespace Sys2Proof.Machine

def fin8 (n : Nat) : DieId := Fin.ofNat 8 n
def bit8 (n : Nat) : BitVec 8 := BitVec.twoPow 8 n
/-- The dies of a set. -/
def diesOf (v : BitVec 8) : List Nat := (List.range 8).filter fun n => v.getLsbD n

/-! ### The home (R167) -/

/-- The home's frame of a tile, with its directory. -/
def homeFrame (s : State) (h : Nat) (t : TileId) : Option Frame :=
  (s.frames h).find? fun f => f.tile = t && !f.wb && f.home = h && s.fresh h f
def ownerOf (f : Frame) : Option Nat := if f.downer.getLsbD 3 then some (f.downer.toNat % 8) else none
def setOwner (x : Nat) (f : Frame) : Frame := { f with downer := BitVec.ofNat 4 (8 + x) }
def noOwner (f : Frame) : Frame := { f with downer := 0 }

/-- INV to dies. -/
def sendInv (s : State) (h : Nat) (t : TileId) (l : List Nat) : State :=
  l.foldl (fun s x => s.push (.inv (fin8 x) (fin8 h) t)) s
/-- The home answers a request with data, from a current home frame: kind 0 DATA, 1 DATAE, 2 DATAX. -/
def sendData (s : State) (src x : Nat) (t : TileId) (kind : Nat) (data : TileData) : State :=
  let c := s.clock src
  let s := s.sendClock src
  s.push (match kind with
    | 0 => .data (fin8 x) (fin8 src) t data c
    | 1 => .datae (fin8 x) (fin8 src) t data c
    | _ => .datax (fin8 x) (fin8 src) t data c)

/-- A tile of a flush request is served (R170): the job answers FLACK after its last. -/
def flushServed (s : State) (h : Nat) (t : TileId) : State :=
  let l := (s.die h).cache.flushes.map fun j => if j.tid = t.tid then { j with tiles := j.tiles.filter fun c => c ≠ t.coord } else j
  let s := s.modCache h fun c => { c with flushes := l.filter fun j => !j.tiles.isEmpty }
  (l.filter fun j => j.tiles.isEmpty).foldl (fun s j =>
    let c := s.clock h
    (s.sendClock h).push (.flack (fin8 j.src) (fin8 h) j.tid j.ticket c)) s

/-- Serve a request in a stable state: kind 0 RDS, 1 RDX, 2 UPG, 3 a flush, 4 the eviction of the home's frame. The home's own copy is
answered from without messages (R165); its clusters own it no longer once the die leaves E or M (R162). -/
def serveReq (s : State) (h : Nat) (f : Frame) (kind x : Nat) : State :=
  let t := f.tile
  let g (s : State) (k : Frame → Frame) : State := s.modFrame h t k
  let others (l : List Nat) : List Nat := l.filter fun y => y ≠ x
  match kind, ownerOf f with
  | 4, some o =>
    if o = h then g s fun f => noOwner { f with dsharers := f.dsharers &&& ~~~(bit8 h), queue := (4, h) :: f.queue }
    else (g s fun f => { f with wait := .fwdPend o 2, done := false, acks := 0, queue := (4, h) :: f.queue }).push (.flush (fin8 o) (fin8 h) t)
  | 4, none =>
    let m := f.dsharers &&& ~~~(bit8 h)
    sendInv (g s fun f => { f with wait := .evictWait, acks := m, dsharers := 0 }) h t (diesOf m)
  | 3, none => flushServed s h t
  | 3, some o =>
    if o = h then flushServed s h t
    else (g s fun f => { f with wait := .fwdPend o 2, done := false, acks := 0 }).push (.flush (fin8 o) (fin8 h) t)
  | 0, none =>
    if (others (diesOf f.dsharers)).isEmpty then
      sendData (g s fun f => setOwner x { f with dsharers := bit8 x }) h x t 1 (tileData f)
    else sendData (g s fun f => { f with dsharers := f.dsharers ||| bit8 x }) h x t 0 (tileData f)
  | _, none =>
    if kind = 2 && f.dsharers.getLsbD x then
      let l := others (diesOf f.dsharers)
      sendInv (g s fun f => { f with wait := .upgWait x, acks := f.dsharers &&& ~~~(bit8 x) }) h t l
    else
      sendInv (g s fun f => { f with wait := .rdxWait x, acks := f.dsharers }) h t (diesOf f.dsharers)
  | _, some o =>
    if o = x then
      if kind = 2 then
        sendInv (g s fun f => { f with wait := .upgWait x, acks := f.dsharers &&& ~~~(bit8 x) }) h t (others (diesOf f.dsharers))
      else g s fun f => { f with wait := .wbPend x kind }
    else if o = h then
      if kind = 0 then
        sendData (g s fun f => noOwner { f with st := .s, ncown := false, dsharers := f.dsharers ||| bit8 h ||| bit8 x }) h x t 0 (tileData f)
      else
        let m := f.dsharers &&& ~~~(bit8 h ||| bit8 x)
        sendInv (g s fun f => noOwner { f with st := .i, sharers := 0, ncown := false, dsharers := f.dsharers &&& ~~~(bit8 h), wait := .rdxWait x, acks := m }) h t (diesOf m)
    else if kind = 0 then
      (g s fun f => { f with wait := .fwdPend x 0, acks := 0, done := false }).push (.fwds (fin8 o) (fin8 h) (fin8 x) t)
    else
      let m := f.dsharers &&& ~~~(bit8 o ||| bit8 x)
      sendInv ((g s fun f => { f with wait := .fwdPend x 1, acks := m, done := false }).push (.fwdx (fin8 o) (fin8 h) (fin8 x) t)) h t (diesOf m)

/-- WBACK. -/
def sendWback (s : State) (h o : Nat) (t : TileId) : State :=
  let c := s.clock h
  (s.sendClock h).push (.wback (fin8 o) (fin8 h) t c)

/-- A request would take the home's own copy away while the fetch unit pins it (R144). -/
def pinHeld (f : Frame) (h kind : Nat) : Bool := f.fetchPins ≠ 0 && kind ≠ 0 && kind ≠ 3 && ownerOf f = some h
/-- A transient state that has all it waits for ends (R167); then queued requests are served in order. A frame that was to be
replaced stays if it is asked for again. -/
def settleHome (h : Nat) (t : TileId) : Nat → State → State
  | 0, s => s
  | fuel + 1, s =>
    let g (s : State) (k : Frame → Frame) : State := s.modFrame h t k
    match homeFrame s h t with
    | none => s
    | some f =>
      match f.wait with
      | .upgWait x =>
        if f.acks = 0 then
          let c := s.clock h
          let s := (g s fun f => setOwner x { f with wait := .none, dsharers := bit8 x }).sendClock h
          settleHome h t fuel (s.push (.upgack (fin8 x) (fin8 h) t c))
        else s
      | .rdxWait x =>
        if f.acks = 0 then
          settleHome h t fuel (sendData (g s fun f => setOwner x { f with wait := .none, dsharers := bit8 x }) h x t 2 (tileData f))
        else s
      | .fwdPend x kind =>
        if f.done && f.acks = 0 && kind < 2 then
          let s := g s fun f =>
            if kind = 0 then { f with wait := .none, done := false, heldWback := none, dsharers := f.dsharers ||| bit8 x }
            else setOwner x { f with wait := .none, done := false, heldWback := none, dsharers := bit8 x }
          settleHome h t fuel (match f.heldWback with | some o => sendWback s h o t | none => s)
        else s
      | .wbPend _ _ => s
      | .evictWait =>
        if f.acks ≠ 0 then s
        else if f.queue.isEmpty then evict s h f
        else settleHome h t fuel (g s fun f => { f with wait := .none })
      | .none => match f.queue with
        | [] => s
        | (kind, x) :: l =>
          if pinHeld f h kind then s
          else settleHome h t fuel (serveReq (g s fun f => { f with queue := l }) h { f with queue := l } kind x)

/-- Put a request into the home's queue of a tile, and serve what can be served. -/
def queueHome (s : State) (h : Nat) (t : TileId) (kind x : Nat) : State :=
  settleHome h t 32 (s.modFrame h t fun f => if f.home = h then { f with queue := f.queue ++ [(kind, x)] } else f)

/-- The frames that an entry of the sequencer pins change (R144); requests that a pin has held back are served when it drops. -/
def setPins (s : State) (d : Nat) (old new : List TileId) : State :=
  let s := new.foldl (fun s t => s.modFrame d t fun f => { f with fetchPins := f.fetchPins + 1 }) s
  old.foldl (fun s t => settleHome d t 32 (s.modFrame d t fun f => { f with fetchPins := f.fetchPins - 1 })) s

end Sys2Proof.Machine
end

