-- ==== Sys2Proof/Machine/Cache.lean ====
section
/-! DEFINITION. The tile cache of a die: replacement (R105, R161), read copies of causal tiles (R164) and what an access needs of a
frame (R159, R162, R168). -/

namespace Sys2Proof.Machine

/-! ### Replacement (R105, R161) -/

/-- Other dies hold copies of the tile that this home frame is the home of: they are gathered before the frame is replaced. -/
def copiesOut (d : Nat) (f : Frame) : Bool :=
  f.pcoh && f.home = d && (f.dsharers &&& ~~~(BitVec.twoPow 8 d) ≠ 0 || (ownerOf f).any fun o => o ≠ d)
/-- A frame may be replaced: it is not pinned and nothing of the package protocol is under way. -/
def evictable (f : Frame) : Bool :=
  !f.wb && f.pins.isEmpty && f.fetchPins = 0 && f.st ≠ .is && f.st ≠ .im && f.st ≠ .sm && f.st ≠ .om && f.st ≠ .mi && f.wait = .none &&
    f.queue.isEmpty
/-- A frame that is invalid or stale: it is taken before any other of its set. The home's directory of a tile is not invalid. -/
def deadFrame (s : State) (d : Nat) (f : Frame) : Bool :=
  evictable f && (!s.fresh d f || s.spent f || (f.st = .i && !copiesOut d f && !f.dirty))
/-- The copies of a frame that is to be replaced are being gathered. -/
def leaving (f : Frame) : Bool := f.wait = .evictWait || f.queue.any fun q => q.1 = 4

/-- The least recently used frame of a list. -/
def oldest : List Frame → Option Frame
  | [] => none
  | f :: l => match oldest l with
    | none => some f
    | some g => if f.used ≤ g.used then some f else some g

/-- The ways of a set that are fenced (R211). -/
def fencedIn (s : State) (d h : Nat) : Nat := ((s.die d).cache.fencedWays.filter fun p => p.1 = h).length

/-- The frame to be replaced for a new tile in its set, if a free way is lacking: `none` when nothing qualifies and
`some none` when a way is free (R161). A TCWAYS budget that is used up confines the choice to the same subtree (R105). -/
def victim (s : State) (d : Nat) (t : TileId) (owner : Nat) : Option (Option Frame) :=
  let set := (s.frames d).filter fun f => !f.wb && tileHash f.tile = tileHash t
  let l := s.launch owner
  let full := (wayBudgets s d l).find? fun b =>
    decide (b.2 ≤ (set.filter fun f => f.owner ≠ 0 && inSubtree s d l (s.launch f.owner) b.1).length)
  let mine : List Frame := match full with
    | some (i, _) => set.filter fun f => f.owner ≠ 0 && inSubtree s d l (s.launch f.owner) i
    | none => set
  match oldest (mine.filter (deadFrame s d)) with
  | some f => some (some f)
  | none =>
    if full.isNone && decide (set.length + fencedIn s d (tileHash t) < Config.cacheWays) then some none
    else if mine.any leaving then none
    else (oldest (mine.filter evictable)).map some

/-- Put a new frame into a die's cache after room was made; `false` when the fill must wait. A tile whose slice lies in an island without
power gets its frame all the same (R21 is silent, assumption 44). -/
def allocate (s : State) (d : Nat) (f : Frame) : State × Bool :=
  match victim s d f.tile f.owner with
  | none => (s, false)
  | some v =>
    match v.filter fun g => s.fresh d g && copiesOut d g with
    | some g => (queueHome s d g.tile 4 d, false)
    | none =>
      let s := match v with | some g => evict s d g | none => s
      let n := (s.die d).cache.used
      (s.modCache d fun c => { c with used := n + 1, frames := c.frames ++ [{ f with used := n }] }, true)

/-- Note a use of a frame (R161). -/
def useFrame (s : State) (d : Nat) (t : TileId) : State :=
  let n := (s.die d).cache.used
  s.modDie d fun x => { x with cache := { x.cache with
    used := n + 1, frames := x.cache.frames.map fun f => if f.tile = t && !f.wb then { f with used := n } else f } }

/-! ### Read copies of causal tiles (R164, R187, R190) -/

/-- A read may hit a copy filled at clock `fill` while the die has seen nothing newer, its own entry left out. -/
def copyCurrent (s : State) (d : Nat) (f : Frame) : Bool :=
  let c := s.clock d
  let e := BitVec.ofNat 128 (f.fillclk.toNat % 2 ^ 128)
  bitsOf f.fillclk.toNat 135 128 = c.epoch.toNat % 256 &&
    ((List.range 8).all fun k => k = d || clockGe (clockEntry e k) (clockEntry c.entries k)) &&
    decide ((clockEntry c.entries f.home + 65536 - clockEntry e f.home) % 65536 < 16384)

/-- The fill clock of a response from a home (R187). -/
def fillClock (c : Clock) : BitVec 136 := BitVec.ofNat 136 (c.epoch.toNat % 256 * 2 ^ 128 + c.entries.toNat)

/-! ### The frame an access needs -/

/-- What an access to a tile finds: the frame is there, the access waits, or the fill faults. -/
inductive Touch where
  | ok (s : State)
  | wait (s : State)
  | fault (s : State)

/-- A new frame of a tile. -/
def newFrame (s : State) (d : Nat) (q : FillReq) (st : CohState) : Frame :=
  let (p, side, po, og) := fillContent s q
  { tile := q.tile, gen := s.generation d q.tile.tid, st := st, payload := p, side := side, poison := po, porigin := og,
    base := q.base, sideBase := q.side, home := q.home, pcoh := q.pcoh, repl := q.repl, nq4 := q.nq4, owner := q.owner }

/-- Fill the generation mirror for a remote tensor (R154). -/
def fillMirror (s : State) (d : Nat) (tid : BitVec 20) : State :=
  if tid = 0 || tensorHome tid = d then s
  else s.modDie d fun x => { x with cache := { x.cache with
    mirror := (mset x.cache.mirror tid.toNat (s.generation d tid)).take 1024 } }

/-- Complete a fill of a tile that no package protocol serves (R159, R164): a home tile in state E, or S if the host shares it
(R84); a remote one as a read copy with the home's clock, which the die absorbs. -/
def completeFill (s : State) (d : Nat) (q : FillReq) : Touch :=
  if fillFaulty s q then .fault s
  else
    let s := fillMirror s d q.tile.tid
    if q.home.val = d then
      let f := newFrame s d q (if isHostCell (cellOf s q.base) then .s else .e)
      match allocate (askHost s q) d f with
      | (s, true) => .ok s
      | (s, false) => .wait s
    else if dieDown s q.home then .wait s
    else
      let c := s.clock q.home
      match allocate ((askHost s q).sendClock q.home) d { newFrame s d q .s with fillclk := fillClock c } with
      | (s, true) => .ok (s.absorb d c)
      | (s, false) => .wait s

/-- A die's own copy of a package-coherent tile for a read or a write (R168): hit, or send RDS, RDX or UPG. -/
def pcohTouch (s : State) (d : Nat) (q : FillReq) (excl : Bool) : Touch :=
  let h : DieId := Fin.ofNat 8 q.home
  let me : DieId := Fin.ofNat 8 d
  let setSt (s : State) (st : CohState) : State := s.modFrame d q.tile fun f => { f with st := st, asked := true, answered := false, once := 0 }
  let ask (i : Instr) (st : CohState) : Touch := .wait ((setSt s st).push i)
  match (s.frames d).find? fun f => f.tile = q.tile && !f.wb && s.fresh d f with
  | none =>
    if fillFaulty s q then .fault s
    else
      let s := fillMirror s d q.tile.tid
      match allocate s d { newFrame s d q (if excl then .im else .is) with
          asked := true
          payload := if q.home.val = d then (newFrame s d q .i).payload else [] } with
      | (s, false) => .wait s
      | (s, true) => .wait (s.push (if excl then .rdx h me q.tile else .rds h me q.tile))
  | some f =>
    match f.st, excl with
    | .m, w => .ok ((useFrame s d q.tile).modFrame d q.tile fun f => if w then { f with grace := 0 } else f)
    | .e, true => .ok (s.modFrame d q.tile fun f => { f with st := .m })
    | .e, false => .ok (useFrame s d q.tile)
    | .o, false => .ok (useFrame s d q.tile)
    | .s, false =>
      if !f.answered || f.once = s.ticks + 1 then .ok (useFrame s d q.tile)
      else if f.once = 0 then .ok (s.modFrame d q.tile fun f => { f with once := s.ticks + 1 })
      else ask (.rds h me q.tile) .is
    | .s, true => if f.answered then ask (.rdx h me q.tile) .im else ask (.upg h me q.tile) .sm
    | .o, true => ask (.upg h me q.tile) .om
    | .sm, false => .ok s
    | .om, false => .ok s
    | .i, true => ask (.rdx h me q.tile) .im
    | .i, false => ask (.rds h me q.tile) .is
    | _, _ => .wait (s.modFrame d q.tile fun f => { f with asked := true })

/-- Make a tile available to a die for a read, or for a write at its home (`excl`). A read copy that is not current is filled again and
keeps its pins (R164). -/
def touch (s : State) (d : Nat) (q : FillReq) (excl : Bool) : Touch :=
  if q.pcoh then pcohTouch s d q excl
  else match s.frame? d q.tile with
    | some f =>
      if f.home ≠ d && !copyCurrent s d f then
        match completeFill (s.dropFrame d q.tile) d q with
        | .ok s => .ok (s.modFrame d q.tile fun g => { g with pins := f.pins, fetchPins := f.fetchPins })
        | r => r
      else .ok (useFrame s d q.tile)
    | none => completeFill s d q

/-- An acquire that reads at the home does not hit a read copy of its die: the copy is filled again (R164, R176). -/
def refetch (s : State) (d : Nat) (t : TileId) : State :=
  s.modFrame d t fun f => if f.home ≠ d && !f.pcoh then
    { f with fillclk := BitVec.ofNat 136 ((255 - (s.clock d).epoch.toNat % 256) * 2 ^ 128) } else f

/-! ### Near caches (R136, R140, R162) -/

/-- The tiles that the near cache of a cluster has room for: 32 in each of its 8 own banks, the rows of banks 0 to 23 that hold no
register line of a running team (a tile takes the place of 16 lines), and 32 in each tile bank that holds no team's tile
(assumption 56). -/
def nearRoom (s : State) (d c : Nat) : Nat :=
  let l := (s.teams.filter fun t => t.2.die = d && t.2.cluster = c).map Prod.snd
  let lines := (l.filter fun t => t.phase = .running).foldl (fun n t => n + t.regBytes) 0 / 132
  let banks := (l.flatMap fun t => t.banks.map Prod.snd) ++ (s.cluster (clusterKey d c)).writeout.map fun w => w.1
  256 + (12288 - lines) / 16 + 32 * (16 - banks.dedup.length)
/-- The frames whose tile the near cache of a cluster holds. -/
def nearFrames (s : State) (d c : Nat) : List Frame := (s.frames d).filter fun f => !f.wb && f.sharers.getLsbD c
/-- A copy leaves a near cache: its cluster leaves SHARERS, and what it owned stands in the frame (R162). -/
def nearDrop (s : State) (d c : Nat) (t : TileId) : State :=
  s.modFrame d t fun f => { f with sharers := f.sharers &&& ~~~(BitVec.twoPow 64 c), ncown := false }
/-- Make room for n tiles by evicting the least recently used. -/
def nearMakeRoom (d c : Nat) : Nat → State → State
  | 0, s => s
  | n + 1, s => match oldest (nearFrames s d c) with
    | some f => nearMakeRoom d c n (nearDrop s d c f.tile)
    | none => s
/-- A near-cache copy on a cluster (R162): a load leaves it shared, a store owns it; a tile that was not there takes room. -/
def nearTouch (s : State) (d c : Nat) (t : TileId) (own : Bool) : State :=
  let l := nearFrames s d c
  let s := if l.any fun f => f.tile = t then s else nearMakeRoom d c (l.length + 1 - nearRoom s d c) s
  s.modFrame d t fun f =>
    if own then { f with sharers := BitVec.twoPow 64 c, ncown := true }
    else { f with sharers := f.sharers ||| BitVec.twoPow 64 c, ncown := f.ncown && f.sharers = BitVec.twoPow 64 c }

end Sys2Proof.Machine
end

