-- ==== Sys2Proof/Machine/Routes.lean ====
section
/-! DEFINITION. Routes (R11, R26, R34, R75): the grid of die positions and its bridges, the paths between the dies of the
package over active bridges, the exits to other packages, and the two ends of a message inside the package. -/

namespace Sys2Proof.Machine

/-! ### The grid (R11, R12) -/

/-- Two positions of the three by three grid, numbered row by row, are neighbours. -/
def adjacent (a b : Nat) : Bool :=
  (a / 3 = b / 3 && (a + 1 = b || b + 1 = a)) || a + 3 = b || b + 3 = a
/-- The twelve bridges of the substrate, each by its two positions. -/
def gridBridges : List (Nat × Nat) :=
  (List.range 9).flatMap fun a => ((List.range 9).filter fun b => decide (a < b) && adjacent a b).map fun b => (a, b)
/-- The dark position and the position of a logical die, as the fuses say. -/
def darkPosition (s : State) : Nat := wbits s.fuses 35 32
def diePosition (s : State) (d : Nat) : Nat := wbits s.fuses (4 * d + 3) (4 * d)
/-- The bridges that are held in reset: those of the dark position. -/
def bridgesInReset (s : State) : List (Nat × Nat) := gridBridges.filter fun b => b.1 = darkPosition s || b.2 = darkPosition s
/-- A bridge joins two logical dies. -/
def bridged (s : State) (a b : Nat) : Bool :=
  let x := diePosition s a
  let y := diePosition s b
  decide (a < 8) && decide (b < 8) && gridBridges.contains (min x y, max x y) && !(bridgesInReset s).contains (min x y, max x y)

/-! ### Paths inside the package (R26) -/

/-- A port of a die is attached to a link that is up and not fenced. -/
def portLive (s : State) (d p : Nat) : Bool :=
  s.ctlBits d (0x3000 + 0x100 * p) 15 14 ≠ 0 && s.ctlBits d (0x3000 + 0x100 * p) 16 16 = 0
/-- The die index at the other end of a port. -/
def portPeer (s : State) (d p : Nat) : Nat :=
  s.ctlBits d (0x3000 + 0x100 * p) 27 22 * 8 + s.ctlBits d (0x3000 + 0x100 * p) 21 19
/-- The bridge port of a die to another, if it is live. -/
def bridgePort (s : State) (a b : Nat) : Option Nat :=
  [0, 1, 2, 3].find? fun p => portLive s a p && portPeer s a p = s.dieIndex b
/-- An active bridge between two dies: both of its ends are live. -/
def bridgeLive (s : State) (a b : Nat) : Bool := bridged s a b && (bridgePort s a b).isSome && (bridgePort s b a).isSome
/-- A die may carry the traffic of die a: it has power, and a's instance has not lost it (R75). -/
def mayPass (s : State) (a x : Nat) : Bool := !dieDown s x && !fromLost s a (s.dieIndex x)
/-- The paths of one more hop, each with its last die first, to dies not seen before. -/
def morePaths (s : State) (a : Nat) (seen : List Nat) (paths : List (List Nat)) : List (List Nat) :=
  paths.flatMap fun p => match p with
    | x :: _ => if x = a || mayPass s a x then
        ((List.range 8).filter fun y => bridgeLive s x y && !seen.contains y).map fun y => y :: p
      else []
    | [] => []
/-- The first path that ends at die b, tried by length. -/
def pathGo (s : State) (a b : Nat) : Nat → List Nat → List (List Nat) → Option (List Nat)
  | 0, _, _ => none
  | n + 1, seen, paths =>
    match paths.find? fun p => p.head? = some b with
    | some p => some p.reverse
    | none =>
      let more := morePaths s a seen paths
      pathGo s a b n (seen ++ more.filterMap List.head?) more
/-- The route from die a to die b: the dies of a shortest path over active bridges. -/
def pathOf (s : State) (a b : Nat) : Option (List Nat) := pathGo s a b 9 [a] [[a]]
/-- Traffic of die a reaches die b. -/
def reaches (s : State) (a b : Nat) : Bool := a = b || (pathOf s a b).isSome

/-! ### Exits to other packages (R26, R34) -/

/-- A reach port of a die that is live, of those whose peer is in a package first. -/
def reachPort (s : State) (d : Nat) (peer : Option Nat) : Option Nat :=
  [4, 5].find? fun p => portLive s d p && peer.all fun k => portPeer s d p / 8 = k
/-- The dies of the package whose reach ports traffic of die d can leave by, d itself first. -/
def exitDies (s : State) (d : Nat) : List Nat :=
  (d :: (List.range 8).filter (· ≠ d)).filter fun e => e = d || (!dieDown s e && reaches s d e)
/-- The route that the link core has set for a package, if it is live: the die that the traffic leaves from and its reach port. -/
def keptRoute (s : State) (d pkg : Nat) : Option (Nat × Nat) :=
  ((s.die d).conf.routes.find? fun r =>
    r.1 = pkg && (exitDies s d).contains r.2.1 && decide (4 ≤ r.2.2) && portLive s r.2.1 r.2.2).map fun r => r.2
/-- The route that the link core sets: over a port whose peer is in that package, else over any live port; on d itself before the
others (assumption 21). -/
def exitFor (s : State) (d pkg : Nat) : Option (Nat × Nat) :=
  let by_ (peer : Option Nat) : Option (Nat × Nat) := (exitDies s d).findSome? fun e => (reachPort s e peer).map fun p => (e, p)
  (by_ (some pkg)).orElse fun _ => by_ none

/-! ### Flits to other packages (R28, R29) -/

/-- A flit before its transmission: the fields of its header that do not depend on the port, and its payload (R28). Source and
destination are die indexes. -/
def makeFlit (chan type src dst : Nat) (payload : List Byte) : List Byte :=
  leBytes 16 (chan * 2 ^ 11 + type * 2 ^ 8 + src % 8 * 2 ^ 78 + src / 8 % 64 * 2 ^ 81 + dst % 8 * 2 ^ 87 + dst / 8 % 64 * 2 ^ 90) ++
    (payload ++ zeros 192).take 192
/-- The destination of a flit, as a die index. -/
def flitTo (l : List Byte) : Nat := bitsOf (leNat (l.take 16)) 95 90 * 8 + bitsOf (leNat (l.take 16)) 89 87
/-- Queue a flit on a port, behind the others. -/
def queueFlit (s : State) (d p : Nat) (l : List Byte) : State :=
  let s := s.modDie d fun x =>
    let q := mget {} x.ports p
    { x with ports := mset x.ports p { q with txq := q.txq ++ [l] } }
  s.push (.flitTransmit (Fin.ofNat 8 d) (Fin.ofNat 6 p))
/-- The route of a die's traffic to another package: the one that its link core has set, if it is live; else the link core, if it
works, sets a new one (R26, R34, assumption 21). -/
def routeFor (s : State) (d pkg : Nat) : Option (Nat × Nat) :=
  match keptRoute s d pkg with
  | some r => some r
  | none => if fwUp s d 4 then exitFor s d pkg else none
def keepRoute (s : State) (d pkg : Nat) (r : Nat × Nat) : State :=
  s.modDie d fun x => { x with conf := { x.conf with routes := (pkg, r) :: x.conf.routes.filter fun q => q.1 ≠ pkg } }
/-- A flit of a die to another package takes the route there; while there is none, it waits at the die, behind what waits there
for the same package. -/
def sendFlit (s : State) (d : Nat) (l : List Byte) : State :=
  match routeFor s d (flitTo l / 8) with
  | some r => queueFlit (keepRoute s d (flitTo l / 8) r) r.1 r.2 l
  | none => s.modDie d fun x => { x with conf := { x.conf with stuck := x.conf.stuck ++ [l] } }
/-- A route may have come up: what waits for one tries again. -/
def retryStuck (s : State) (d : Nat) : State :=
  (s.die d).conf.stuck.foldl (fun s l => sendFlit s d l) (s.modDie d fun x => { x with conf := { x.conf with stuck := [] } })
/-- Data for a die of another package on a channel, in as many flits as it takes. The spec gives it no layout (assumption 21). -/
def sendFlits (s : State) (d chan dst : Nat) (bytes : List Byte) : State :=
  (List.range ((bytes.length + 191) / 192)).foldl (fun s k => sendFlit s d (makeFlit chan 1 (s.dieIndex d) dst (bytes.drop (192 * k)))) s
/-- The logical die that a physical address of another package is homed on (R46). -/
def homeOfPa (pa : Nat) : Nat :=
  if pa < 0x100000000000 then pa / 0x4000000000 % 8
  else if pa < 0x8000000000000 then (pa - 0x100000000000) / 0x80000000000 % 8
  else if pa < 0xFF00000000000 then (pa - 0x8000000000000) / 0x800000000000 % 8
  else (pa - 0xFF00000000000) / 0x1000000 % 8

/-! ### Messages inside the package -/

/-- The group table entry of a group as a die's endpoint reads it (R43): its place, and the sequencer as a die index. -/
def groupAddr (s : State) (d group : Nat) : Nat := s.ctlBits d 0x4A00 51 15 * 2 ^ 15 + 128 * group
def groupSeq (s : State) (d group : Nat) : Nat :=
  s.peekNat d (groupAddr s d group + 64) 1 % 64 * 8 + s.peekNat d (groupAddr s d group + 65) 1 % 8
/-- The sender and the receiver of a message between two dies of the package, as die indexes. -/
def msgEnds (s : State) (i : Instr) : Option (Nat × Nat) :=
  let own (a b : DieId) : Option (Nat × Nat) := some (s.dieIndex a, s.dieIndex b)
  let from_ (a : Nat) (b : DieId) : Option (Nat × Nat) := some (a, s.dieIndex b)
  let field (m : W512) : Nat := bitsOf m.toNat 21 16 * 8 + bitsOf m.toNat 24 22
  match i with
  | .gseqAssign d _ _ x _ => from_ x.toNat d
  | .mailboxDeliver d _ m _ => from_ (field m) d
  | .heartbeat d x => from_ x.toNat d
  | .rds h x _ => own x h
  | .rdx h x _ => own x h
  | .upg h x _ => own x h
  | .inv d h _ => own h d
  | .fwds d h _ _ => own h d
  | .fwdx d h _ _ => own h d
  | .flreq h x _ _ _ _ => own x h
  | .flush d h _ => own h d
  | .wb h x _ _ _ => own x h
  | .data d x _ _ _ => own x d
  | .datae d x _ _ _ => own x d
  | .datax d x _ _ _ => own x d
  | .upgack d h _ _ => own h d
  | .wback d h _ _ => own h d
  | .ack h x _ _ => own x h
  | .done h x _ _ => own x h
  | .flack d h _ _ _ => own h d
  | .bumpNotice d h _ _ => own h d
  | .bumpAck h x _ => own x h
  | .remoteWrite h q => own q.src h
  | .remoteWriteAck d h _ _ => own h d
  | .remoteAtomic h q => own q.src h
  | .shootDownAcknowledgement d x _ => from_ x.toNat d
  | .unmapCommit d x _ => from_ x.toNat d
  | _ => none
/-- The two ends of a message's way: those of the message, but that a multicast goes to its members from the sequencer. -/
def wayEnds (s : State) (i : Instr) : Option (Nat × Nat) :=
  match i with
  | .mailboxDeliver d _ m _ =>
    if bit m.toNat 12 then some (groupSeq s d (bitsOf m.toNat 39 32), s.dieIndex d) else msgEnds s i
  | _ => msgEnds s i
/-- An event can come: no message between two dies of the package that no path of active bridges joins. -/
def canCome (s : State) (i : Instr) : Bool :=
  match wayEnds s i with
  | some (a, b) => a / 8 ≠ s.pkg || reaches s (a % 8) (b % 8)
  | none => true
/-- A message from a die that the receiver's instance has lost is discarded (R75). -/
def fromLostDie (s : State) (i : Instr) : Bool :=
  match msgEnds s i with
  | some (a, b) => fromLost s (b % 8) a
  | none => false
/-- A message comes to nothing: its sender is lost to the receiver's instance, or the die it goes to answers nothing (R20) and no
sender waits to learn of it. -/
def dropped (s : State) (i : Instr) : Bool :=
  fromLostDie s i || match msgEnds s i with
    | some (_, b) => b / 8 = s.pkg && dieDown s (b % 8) && (match i with
      | .gseqAssign .. => false
      | .mailboxDeliver .. => false
      | .heartbeat .. => false
      | .remoteAtomic .. => false
      | _ => true)
    | none => false
/-- The oldest event that can come, and what stays on its way. -/
def oldestEvent (s : State) : List Instr → Option (Instr × List Instr)
  | [] => none
  | i :: l => if canCome s i then some (i, l) else (oldestEvent s l).map fun p => (p.1, i :: p.2)

end Sys2Proof.Machine
end

