-- ==== Sys2Proof/Machine/Access.lean ====
section
/-! DEFINITION. One access of a wave or engine to memory: where it goes (R46, R54, R85, R88), and its load, store or
atomic through the tile cache of its die (R162 to R164, R186 to R193). -/

namespace Sys2Proof.Machine

/-- A placed access: physical address, the fill its tile needs, its leaf. -/
structure Placed where
  pa : Nat
  req : FillReq
  leaf : W64
  deriving DecidableEq, Repr

/-- What an access meets before it is performed. -/
inductive Prep where
  /-- storage that the die's tile cache serves -/
  | ok (p : Placed)
  /-- a walk failed with this reason: the access parks (R208) -/
  | page (reason : Nat)
  /-- the range is blocked by a shoot-down (R207) -/
  | blocked
  /-- an access-window violation (R46, R54, R212) at this address -/
  | frozen (pa : Nat)
  /-- memory homed in another package (R192) -/
  | foreign (pkg pa : Nat)
  /-- an uncached host range, or the host side of a port (R85) -/
  | host (d cell : Nat)
  /-- a wake address of the doorbell window (R88) -/
  | door (d off : Nat)
  deriving DecidableEq, Repr

/-- The rights an access kind needs (R200): load, store, atomic. -/
inductive AccKind where
  | load | store | atomic
  deriving DecidableEq, Repr
def needOf : AccKind → List Nat
  | .load => [1]
  | .store => [2]
  | .atomic => [1, 2]
def writes : AccKind → Bool
  | .load => false
  | _ => true

/-- The physical address of a G8 tile's scales, read with the process's own rights; 0 if there are none. -/
def sideAddr (s : State) (who : Who) (va : Nat) : Nat :=
  if va = 0 then 0 else match translate s who.d who.cluster who.pindex who.pid (BitVec.ofNat 64 va) [1] with
    | .ok pa _ _ => pa
    | _ => 0

/-! ### Queue descriptors and wake addresses (R87, R88) -/

/-- The physical address of a queue's descriptor; the instance's queue table is at `qtbase` (assumption 6). -/
def queueAddr (s : State) (d q : Nat) : Nat := (s.die d).image.qtbase + 64 * q
/-- n bytes of a queue's descriptor (R87). -/
def queueNat (s : State) (d q off n : Nat) : Nat := s.peekNat d (queueAddr s d q + off) n
/-- What a read of a wake address returns (R88): TAIL and STATE. -/
def doorRead (s : State) (d q : Nat) : W64 := BitVec.ofNat 64 (queueNat s d q 20 4 + queueNat s d q 10 1 % 4 * 2 ^ 32)
/-- Bytes that a read of wake addresses gives. -/
def doorBytes (s : State) (d off : Nat) : Nat → List Byte
  | 0 => []
  | n + 1 => BitVec.ofNat 8 ((doorRead s d ((off - 0x800000) / 8)).toNat / 2 ^ (8 * (off % 8))) :: doorBytes s d (off + 1) n
/-- The process that page n of the doorbell window is granted to (R88): the one it has been granted to, as long as a queue of the page
is that process's; else that of its first enabled queue, or of its first with a process (assumption 24). -/
def pageOwner (s : State) (d n : Nat) : Option W32 :=
  let pid (q : Nat) : W32 := BitVec.ofNat 32 (queueNat s d q 12 4)
  let l := (List.range 512).map fun k => 512 * n + k
  match (mfind (s.die d).host.grants n).filter fun p => l.any fun q => pid q = p with
  | some p => some p
  | none => ((l.find? fun q => bit (queueNat s d q 9 1) 0).orElse fun _ => l.find? fun q => pid q ≠ 0).map pid
/-- A process may store to a wake address. -/
def doorGranted (s : State) (d off : Nat) (pid : W32) : Bool := pageOwner s d ((off - 0x800000) / 4096) = some pid

/-- Place an access of kind k to n bytes at a virtual address, on a tensor's tile or on tensor 0's. -/
def place (s : State) (who : Who) (k : AccKind) (va : W64) (n : Nat) (tile : Option ElemTile) (owner : Nat) : Prep :=
  match translate s who.d who.cluster who.pindex who.pid va (needOf k) with
  | .fail r => .page r
  | .blocked => .blocked
  | .ok pa leaf pkg =>
    if pkg ≠ s.pkg then .foreign pkg pa
    else match s.locate pa with
      | .hole => .frozen pa
      | .ctl d off => if 0x800000 ≤ off && !(writes k && !doorGranted s d off who.pid) then .door d off else .frozen pa
      | .host d c => .host d c
      | .cached home _ =>
        if inFirmware pa || (writes k && readOnlySpan s home pa n) then .frozen pa
        else
          let base := pa / 2048 * 2048
          let t := match tile with | some e => e.tile | none => flatTile pa
          .ok { pa := pa, leaf := leaf,
                req := { tile := t, base := base, home := Fin.ofNat 8 home, enc := bit leaf.toNat 7,
                         pcoh := tensorPcoh s t.tid, repl := BitVec.ofNat 8 (wbits leaf 18 11),
                         nq4 := match tile with | some e => e.nq4 | none => false,
                         side := match tile with | some e => sideAddr s who e.side | none => 0, owner := owner, region := codeRegion? s home base } }

/-- The access would meet a fill fault (R53, R159): of the die's own fill, or of the home's for an atomic sent there. -/
def fillFaultAt (s : State) (d : Nat) (p : Placed) : Bool := (s.frame? d p.req.tile).isNone && fillFaulty s p.req

/-! ### Sampling (R59, R60) -/

/-- The weight that a leaf gives an access (R59). -/
def sampleWeight (leaf : W64) : Nat := match wbits leaf 20 19 with | 0 => 0 | 1 => 1 | 2 => 4 | _ => 16
/-- Count a request of the die's clusters with the weight of its translation; at zero the request is sampled. A store of TSTA, for which
R60 names no type, counts as a copy write (assumption 48); kinds that R60 does not list, as a halo publication's, are not counted. -/
def countAccess (s : State) (who : Who) (va : W64) (kind launch : Nat) (p : Placed) : State :=
  if s.ctlBits who.d 0x5800 0 0 = 0 || (8 ≤ kind && kind ≠ 13) then s
  else
    let kind := if kind = 13 then 7 else kind
    let w := sampleWeight p.leaf
    let n := 2 ^ (min 10 (s.ctlBits who.d 0x5800 4 1) + 6)
    let left := (s.die who.d).attach.smpCount
    let left := if left = 0 then n else left
    let setCount (s : State) (c : Nat) : State := s.modDie who.d fun x => { x with attach := { x.attach with smpCount := c } }
    if w < left then setCount s (left - w)
    else
      let tier := if p.pa < 0x20000000000 then if p.req.home.val = who.d then 0 else 1
        else if p.pa < 0x500000000000 then 2 else 3
      (setCount s n).push (.accessSample (Fin.ofNat 8 who.d) ⟨va, kind, who.d * 64 + who.cluster, launch, tier, p.pa, s.time⟩)

/-! ### Load and store of placed bytes -/

/-- A byte of a tile that the die holds. -/
def frameByte (s : State) (d : Nat) (t : TileId) (base off : Nat) : Byte :=
  match pendingByte (s.die d).cache.pend base off with
  | some b => b
  | none => match s.frame? d t with
    | some f => mget 0 f.payload off
    | none => s.peek d (base + off)

/-- n bytes of a placed access. -/
def loadBytes (s : State) (d : Nat) (p : Placed) : Nat → Nat → List Byte
  | _, 0 => []
  | k, n + 1 => frameByte s d p.req.tile p.req.base (p.pa - p.req.base + k) :: loadBytes s d p (k + 1) n

/-- The poison a load of n bytes from offset k of a placed access on meets, with its origin (R172). -/
def loadPoison (s : State) (d : Nat) (p : Placed) (k n : Nat) : Option W32 :=
  match s.frame? d p.req.tile with
  | some f =>
    let lo := p.pa - p.req.base + k
    if (List.range 32).any fun i => f.poison.getLsbD i && decide (lo < 64 * (i + 1)) && decide (64 * i < lo + n) then some f.porigin else none
  | none => none

/-- Before the home dirties a tile of a coherent import range that the host shares, it takes ownership with RdOwn (R84); `before` is the
state before the store. -/
def ownHost (s before : State) (q : FillReq) : State :=
  if isHostCell (cellOf s q.base) && (before.frame? q.home q.tile).any fun f => f.st = .s then hostLine s q.home 1 (cellOf s q.base) [] else s
/-- Store to a tile that the die may write (R162, R164, R169): at its home, in a package-coherent copy, or as a remote
write that also updates the die's copy. `new` gives offsets in the tile; `slice` says that it is done at the slice, with the near
copies recalled, and not in the near cache (R163). -/
def storeAt (s : State) (who : Who) (wave : Nat) (p : Placed) (new : List (Nat × Byte)) (poison : BitVec 33 := 0)
    (porigin : W32 := 0) (slice : Bool := false) : State :=
  let home := p.req.home.val
  let near (s : State) : State := if slice then recallAll s who.d p.req.tile else nearTouch s who.d who.cluster p.req.tile true
  if p.req.pcoh && home ≠ who.d then
    let put (l : List Frame) : List Frame := clearFrames (writeFrames l p.req.base new true) p.req.base (clearedBits new)
    near (s.modCache who.d fun c => { c with frames := poisonFrames (put c.frames) p.req.base poison porigin })
  else if home = who.d then
    let s := s.writeSide home p.req.base p.req.side p.req.repl new
    let s := s.writeHome home p.req.base (cellOf s p.req.base) p.req.repl new
    let s := s.poisonHome home p.req.base (cellOf s p.req.base) p.req.repl poison porigin
    let s := near (ownHost (markModified s who.d p.req.tile) s p.req)
    if p.req.pcoh then s else s.advanceClock home
  else
    s.remoteStore who.d home
      { src := 0, seq := 0, tile := p.req.tile, base := p.req.base, bytes := new, repl := p.req.repl
        clock := s.clock who.d, wave := wave, side := p.req.side, poison := poison, porigin := porigin }
/-- Store bytes at a placed access. -/
def storeBytes (s : State) (who : Who) (wave : Nat) (p : Placed) (bytes : List Byte) : State :=
  storeAt s who wave p (atOffsets (p.pa - p.req.base) bytes)

/-! ### Atomics (R297, R375) -/

def atomicCode : AtomicOp → Nat
  | .add => 0 | .and => 1 | .or => 2 | .xor => 3 | .min => 4 | .max => 5 | .swap => 6 | .cas => 7
def atomicOfCode : Nat → AtomicOp
  | 0 => .add | 1 => .and | 2 => .or | 3 => .xor | 4 => .min | 5 => .max | 6 => .swap | _ => .cas

/-- FMIN and FMAX on encodings (R332): −0 is below +0, a number wins over a NaN, two NaNs give the canonical NaN. -/
def fminmax (f : Fmt) (ftz big : Bool) (a b : Nat) : Nat :=
  let x := fdecode f ftz a
  let y := fdecode f ftz b
  if isNanV x && isNanV y then fmtNan f
  else if isNanV x then fround f .rne false false y
  else if isNanV y then fround f .rne false false x
  else
    let less := if fcmpV x y = 0 then negV x && !negV y else decide (fcmpV x y < 0)
    fround f .rne false false (if less != big then x else y)

/-- The signed reading of the low n bits. -/
def sgn (n v : Nat) : Int := if v % 2 ^ n < 2 ^ (n - 1) then (v % 2 ^ n : Nat) else (v % 2 ^ n : Nat) - (2 ^ n : Nat)

/-- The value an atomic of 8w bits leaves, or `none` for a cas that fails. -/
def atomicNew (op : AtomicOp) (kind : AtomicKind) (width old b c : Nat) : Option Nat :=
  let bits := 8 * width
  let m := 2 ^ bits
  let old := old % m
  let b := b % m
  let fmt := if width = 8 then fp64 else fp32
  let isF := kind = .f32 || kind = .f64
  match op with
  | .add => some (if isF then fround fmt .rne false false (faddV false (fdecode fmt false old) (fdecode fmt false b)) else (old + b) % m)
  | .and => some (Nat.land old b)
  | .or => some (Nat.lor old b)
  | .xor => some (Nat.xor old b)
  | .min => some (if isF then fminmax fmt false false old b
      else if kind = .signed then if sgn bits b < sgn bits old then b else old else min old b)
  | .max => some (if isF then fminmax fmt false true old b
      else if kind = .signed then if sgn bits old < sgn bits b then b else old else max old b)
  | .swap => some b
  | .cas => if old = c % m then some b else none

/-- An atomic performed in a tile that the die may write: the old value and the state after it. -/
def atomicHere (s : State) (who : Who) (wave : Nat) (p : Placed) (width : Nat) (op : AtomicOp) (kind : AtomicKind)
    (b c : Nat) (slice : Bool := false) : State × Nat :=
  let old := leNat (loadBytes s who.d p 0 width)
  match atomicNew op kind width old b c with
  | some v => (storeAt s who wave p (atOffsets (p.pa - p.req.base) (leBytes width v)) 0 0 slice, old)
  | none => (s, old)

/-- BOUNCE counts the times an atomic's ownership moves from one cluster to another (R163). -/
def bounce (s : State) (d c : Nat) (t : TileId) : State :=
  s.modFrame d t fun f => if f.ncown && f.sharers ≠ BitVec.twoPow 64 c && f.bounce < 2 then { f with bounce := f.bounce + 1 } else f

/-- An atomic on a locally homed tile runs at the slice: its ownership bounces, or the log of atomics orders it there (R129, R163). -/
def atSlice (s : State) (d : Nat) (t : TileId) : Bool :=
  s.ctlBits d 0x5B00 1 0 ≠ 0 || (s.frame? d t).any fun f => f.bounce = 2

/-- Send an atomic to its home (R163, R187); it is pending until the home has applied it. -/
def sendAtomic (s : State) (who : Who) (p : Placed) (width : Nat) (op : AtomicOp) (kind : AtomicKind) (b c : Nat)
    (dest : AtomicDest) (wave : Nat) (acq : Bool := false) : State :=
  let home := p.req.home.val
  let seq := mget 0 (s.die who.d).cache.pairOut home
  let s := s.modCache who.d fun x => { x with
    pairOut := mset x.pairOut home (seq + 1)
    pend := x.pend ++ [{ seq := seq, home := home, base := p.req.base, bytes := [], wave := wave, acq := acq
                         atomic := (List.range width).map fun k => p.pa - p.req.base + k }] }
  let s := s.sendClock who.d
  s.push (.remoteAtomic p.req.home
    { src := Fin.ofNat 8 who.d, seq := seq, tile := p.req.tile, base := p.req.base,
      off := p.pa - p.req.base, width := width, op := op, kind := kind, operand := BitVec.ofNat 64 b,
      compare := BitVec.ofNat 64 c, repl := p.req.repl, dest := dest, clock := s.clock who.d, wave := if wave < 2 ^ 64 then wave else 0 })

/-! ### Other places -/

/-- A message to another package: 1 read on CHAN 6, 2 write on CHAN 3, 3 atomic on CHAN 4 (R29, R192); 4 and 5 a read or write on a
die's host link. -/
def sendForeign (s : State) (d kind pkg : Nat) (payload : List Byte) : State :=
  let s := { s with outbox := s.outbox ++ [⟨d, kind, pkg, payload⟩] }
  if 4 ≤ kind then s
  else sendFlits s d (match kind with | 1 => 6 | 2 => 3 | _ => 4) (pkg * 8 + homeOfPa (leNat (payload.take 8))) payload

/-- Where an access goes that leaves the package: to another package, or to a host through a port (R85, R192). -/
inductive Away where
  | foreign (pkg pa : Nat)
  | host (d cell : Nat)
  deriving DecidableEq, Repr
/-- The message of such an access of a wave or unit, with the bytes it stores: 1 to 3 a read, write or atomic, 4 and 5 a host read or
write. A write or an atomic to another package stays pending until its home acknowledges it (R176, R192, assumption 21). -/
def sendAway (s : State) (d : Nat) (k : AccKind) (bytes : List Byte) (wave : Nat) : Away → State
  | .foreign pkg pa =>
    let s := sendForeign s d (match k with | .load => 1 | .store => 2 | .atomic => 3) pkg (leBytes 8 pa ++ bytes)
    if k = .load then s
    else
      let seq := mget 0 (s.die d).cache.pairOut d
      let s := s.modCache d fun c => { c with
        pairOut := mset c.pairOut d (seq + 1)
        pend := c.pend ++ [{ seq := seq, home := d, base := 0, bytes := [], wave := wave }] }
      s.push (.remoteWriteAck (Fin.ofNat 8 d) (Fin.ofNat 8 d) seq (s.clock d))
  | .host e c => sendForeign s e (if k = .load then 4 else 5) 0 (leBytes 16 c ++ bytes)

/-- The completion of a host client's request: status 0 done, 1 Completer Abort, 2 done with poisoned data; the data. -/
def hostDone (s : State) (d pasid status : Nat) (bytes : List Byte) : State :=
  { s with outbox := s.outbox ++ [⟨d, 14, pasid, BitVec.ofNat 8 status :: bytes⟩] }
/-- The same for a request of core k of a die; status 3 is a fill fault. -/
def coreDone (s : State) (d k status : Nat) (bytes : List Byte) : State :=
  { s with outbox := s.outbox ++ [⟨d, 21, k, BitVec.ofNat 8 status :: bytes⟩] }

/-- The value an access to another package returns: free (assumption 4). -/
def foreignValue (s : State) (width : Nat) : State × Nat :=
  (s.draw, (Config.foreignRead s.draws).toNat % 2 ^ (8 * width))

/-- An uncached host read: the host may have written meanwhile, so the value is free (assumption 4). -/
def hostValue (s : State) (width : Nat) : State × Nat := foreignValue s width

/-- A wave, or a core, has remote writes or atomics that are not acknowledged (R187). -/
def pendingOf (s : State) (d wave : Nat) : Bool := (s.die d).cache.pend.any fun w => w.wave = wave
/-- An atomic of the wave that is an acquire has not come back: what follows in program order waits (R177). -/
def acquirePending (s : State) (d wave : Nat) : Bool := (s.die d).cache.pend.any fun w => w.wave = wave && w.acq
/-- An atomic of the wave on one of n bytes at offset k of a tile has not come back: a load of the byte waits for it (R177). -/
def atomicPending (s : State) (d wave base k n : Nat) : Bool :=
  (s.die d).cache.pend.any fun w => w.wave = wave && w.base = base && w.atomic.any fun o => decide (k ≤ o) && decide (o < k + n)

end Sys2Proof.Machine
end

