-- ==== Sys2Proof/Machine/Agents.lean ====
section
/-! DEFINITION. Accesses that the parse core, the dispatcher and the clusters make to a process's memory as agents of their die (R186,
R431): they are performed at the home of each tile, on the way to another package, or on a host's link. -/

namespace Sys2Proof.Machine

/-- The agent of the parse core and the dispatcher: no cluster's translation cache. -/
def unitWho (d pindex : Nat) (pid : W32) : Who := ⟨d, 64, pindex, pid⟩
/-- A range cut at the multiples of a size: the first address and the length of each piece. -/
def pieces (size va n : Nat) : List (Nat × Nat) :=
  (List.range ((va % size + n + size - 1) / size)).map fun k =>
    let lo := max va (va / size * size + size * k)
    (lo, min (va + n) (va / size * size + size * (k + 1)) - lo)
/-- How the translation of a range ends: at its first page that fails, is blocked by a shoot-down or has its home down, or leads to
an address that the agent may not access (R46, R54, R83). -/
inductive RangeCheck where
  | ok
  | fail (va reason : Nat)
  | blocked
  | frozen (pa : Nat)
  deriving DecidableEq, Repr
/-- Check every page of a range. -/
def rangeCheck (s : State) (who : Who) (va n : Nat) (k : AccKind) : RangeCheck :=
  (pieces 65536 va n).foldl (fun r x =>
    match r with
    | .ok => match place s who k (BitVec.ofNat 64 x.1) x.2 none 0 with
      | .ok p => if dieDown s p.req.home then .blocked else .ok
      | .page c => .fail x.1 c
      | .blocked => .blocked
      | .frozen pa => .frozen pa
      | .door _ _ => .ok
      | .foreign _ _ => .ok
      | .host d _ => if dieDown s d then .blocked else .ok
    | r => r) .ok

/-- Part of a tile as an agent of die d reads it at the tile's home, with what the die has still to write there. -/
def homeRead (s : State) (d : Nat) (q : FillReq) (off n : Nat) : List (Nat × Byte) :=
  let tile := if hostFill s q then freeBytes s 2048 else s.homeTile q.home q.base (cellOf s q.base)
  (s.die d).cache.pend.foldl (fun m w => if w.base = q.base then
    putBytes m ((w.bytes.filter fun p => decide (off ≤ p.1) && decide (p.1 < off + n)).map fun p => (p.1 - off, p.2)) else m)
    (mslice tile off n)
/-- A response from a home carries its clock (R187). -/
def homeSeen (s : State) (d home : Nat) : State := if home = d then s else (s.sendClock home).absorb d (s.clock home)
/-- n bytes at virtual addresses of a process; what does not translate, or has no storage, reads as zero. -/
def readVirtual (who : Who) (va n : Nat) (s : State) : State × List (Nat × Byte) :=
  (pieces 2048 va n).foldl (fun r x =>
    let s := r.1
    let add (s' : State) (l : List (Nat × Byte)) : State × List (Nat × Byte) := (s', r.2 ++ l.map fun p => (x.1 - va + p.1, p.2))
    let away (y : Away) : State × List (Nat × Byte) :=
      let s := sendAway s who.d .load [] 0 y
      add { s with draws := s.draws + x.2 } (freeBytes s x.2)
    match place s who .load (BitVec.ofNat 64 x.1) x.2 none 0 with
    | .ok p => add (homeSeen (askHost s p.req) who.d p.req.home) (homeRead s who.d p.req (p.pa - p.req.base) x.2)
    | .foreign pkg pa => away (.foreign pkg pa)
    | .host d c => away (.host d c)
    | .door d off => add s (atOffsets 0 (doorBytes s d off x.2))
    | _ => r) (s, [])
/-- n bytes at a virtual address, as a number. -/
def virtualNat (s : State) (who : Who) (va n : Nat) : State × Nat :=
  let (s, l) := readVirtual who va n s
  (s, leNat (bytesAt (putBytes [] l) 0 n))

/-- Replace n bytes of a storage tile from lo on, at its home and in its replicas (R169). -/
def State.spliceHome (s : State) (home base cell : Nat) (repl : BitVec 8) (lo n : Nat) (new : List (Nat × Byte)) : State :=
  let here := (s.frameAt? home base).isSome
  let whole := (List.range 32).filter fun k => decide (lo ≤ 64 * k) && decide (64 * (k + 1) ≤ lo + n)
  let cells := cell :: replicaCells home cell repl
  let s := if here then
      s.modCache home fun c => { c with frames := clearFrames (c.frames.map fun (f : Frame) =>
        if f.base = base && !f.nq4 && hasData f then
          { f with payload := msplice f.payload lo n new, dirty := f.dirty || repl = 0 } else f) base whole }
    else s
  let s := if here && repl = 0 then s else if isHostCell cell then s.hostPut home cell (atOffsets lo (bytesAt new 0 n)) else { s with mem := cells.foldl (fun m c => msplice m (c + lo) n new) s.mem }
  { s with mempoison := cells.foldl (fun m c => whole.foldl (fun m k => mdel m (c / 64 + k)) m) s.mempoison }
/-- Replace n bytes from a placed address on, as an agent of die d (R164, R186): at the tile's home, or as a remote write to it. -/
def writePart (s : State) (d : Nat) (p : Placed) (n : Nat) (new : List (Nat × Byte)) : State :=
  let q := p.req
  let home := q.home.val
  let off := p.pa - q.base
  if home = d then
    let t := s.spliceHome home q.base (cellOf s q.base) q.repl off n new
    (ownHost (recallAll (markModified t home q.tile) home q.tile) s q).advanceClock home
  else
    s.remoteStore d home { src := 0, seq := 0, tile := q.tile, base := q.base, bytes := atOffsets off (bytesAt new 0 n)
                           repl := q.repl, clock := s.clock d, wave := 0 }
/-- Tensor 0's tile at a physical address of the package's storage, as an access without a shape record names it. -/
def flatPlaced (s : State) (home pa : Nat) (leaf : W64) : Placed :=
  let base := pa / 2048 * 2048
  { pa := pa, leaf := leaf
    req := { tile := flatTile pa, base := base, home := Fin.ofNat 8 home, enc := bit leaf.toNat 7, pcoh := false
             repl := BitVec.ofNat 8 (wbits leaf 18 11), nq4 := false, side := 0, owner := 0, region := codeRegion? s home base } }
/-- n bytes of storage at a home, as die d reads them there. -/
def storageRead (s : State) (d home pa n : Nat) (leaf : W64) : State × List Byte :=
  (pieces 2048 pa n).foldl (fun r x =>
    let p := flatPlaced s home x.1 leaf
    let t := homeSeen (askHost r.1 p.req) d home
    (t, r.2 ++ bytesAt (homeRead r.1 d p.req (x.1 - p.req.base) x.2) 0 x.2)) (s, [])
/-- Bytes written to storage at a home by an agent of die d, or of no die where d is the home. -/
def storageWrite (s : State) (d home pa : Nat) (leaf : W64) (l : List Byte) : State :=
  (pieces 2048 pa l.length).foldl (fun s x =>
    writePart s d (flatPlaced s home x.1 leaf) x.2 (atOffsets 0 ((l.drop (x.1 - pa)).take x.2))) s
/-- A sector of n bytes of storage is poisoned at its home. -/
def storagePoison (s : State) (pa n : Nat) : Bool := (pieces 64 pa n).any fun x => (sectorPoison s x.1).isSome
/-- Write n bytes of a sparse range to virtual addresses of a process; a part that does not translate for a store, or has no
storage, is left out. -/
def writeVirtual (who : Who) (va n : Nat) (new : List (Nat × Byte)) (s : State) : State :=
  (pieces 2048 va n).foldl (fun s x =>
    let part := mslice new (x.1 - va) x.2
    let away (y : Away) : State := sendAway s who.d .store (bytesAt part 0 x.2) 0 y
    match place s who .store (BitVec.ofNat 64 x.1) x.2 none 0 with
    | .ok p => writePart s who.d p x.2 part
    | .foreign pkg pa => away (.foreign pkg pa)
    | .host d c => away (.host d c)
    | _ => s) s

end Sys2Proof.Machine
end

