-- ==== Sys2Proof/Machine/Ops.lean ====
section
/-! DEFINITION. The named operations that instructions share: reading and writing registers (R214, R218, R230), what a
scalar instruction shares with every other (R289), taking a trap and returning from one (R233 to R237), parking (R208),
stops (R122 to R124), and ending a team (R119). -/

namespace Sys2Proof.Machine

/-- What a meaning answers. -/
abbrev Out := Host.Outcome State Fault Refusal

/-! ### Scalar registers -/

/-- s(n); s0 reads as zero (R214). -/
def sreg (w : Wave) (n : BitVec 6) : W64 := if n = 0 then 0 else mget 0 w.r.s n.toNat
/-- s(n) := v; a write to s0 is discarded (R214). -/
def setS (w : Wave) (n : BitVec 6) (v : W64) : Wave :=
  if n = 0 then w else { w with r := { w.r with s := mput 0 w.r.s n.toNat v } }
/-- s(n) is empty (R218). -/
def emptyS (w : Wave) (n : BitVec 6) : Bool := w.r.sEmpty.getLsbD n.toNat
def setEmptyS (w : Wave) (n : BitVec 6) : Wave :=
  if n = 0 then w else { w with r := { w.r with sEmpty := w.r.sEmpty ||| BitVec.twoPow 64 n.toNat } }
def setFullS (w : Wave) (n : Nat) : Wave := { w with r := { w.r with sEmpty := w.r.sEmpty &&& ~~~(BitVec.twoPow 64 n) } }

/-! ### Lane registers and the proposal view -/

/-- v(n) is a home register of the defined group (R230). -/
def isHome (w : Wave) (n : Nat) : Bool :=
  w.c.pdefined && decide (w.c.gbase.toNat ≤ n) && decide (n < w.c.gbase.toNat + w.c.gcount.toNat)
/-- v(n) is a bank register of the defined group. -/
def isBank (w : Wave) (n : Nat) : Bool :=
  w.c.pdefined && decide (w.c.gbase.toNat + w.c.gcount.toNat ≤ n) && decide (n < w.c.gbase.toNat + 2 * w.c.gcount.toNat)
/-- The bit of lane L in the side bytes of v(n): SEL of a home register, WR of a bank register. -/
def sideBit (w : Wave) (n L : Nat) : Bool := (mget 0 w.r.side (4 * n + L / 8)).getLsbD (L % 8)
def setSideBit (w : Wave) (n L : Nat) (b : Bool) : Wave :=
  let k := 4 * n + L / 8
  let v := mget 0 w.r.side k
  let v := if b then v ||| BitVec.twoPow 8 (L % 8) else v &&& ~~~(BitVec.twoPow 8 (L % 8))
  { w with r := { w.r with side := mput 0 w.r.side k v } }
/-- The line that a read of v(n) uses in lane L (R230). -/
def viewLine (w : Wave) (n L : Nat) : Nat :=
  if isHome w n then
    let bank := n + w.c.gcount.toNat
    if sideBit w n L != (w.c.popen && sideBit w bank L) then bank else n
  else n
/-- v(n) in lane L. -/
def vread (w : Wave) (n L : Nat) : W32 := mget 0 w.r.v (32 * viewLine w n L + L)
def setLine (w : Wave) (n L : Nat) (x : W32) : Wave := { w with r := { w.r with v := mput 0 w.r.v (32 * n + L) x } }
/-- v(n) := x in lane L: while a proposal is open a home register's write goes to the line SEL does not select. -/
def vwrite (w : Wave) (n L : Nat) (x : W32) : Wave :=
  if isHome w n && w.c.popen then
    let bank := n + w.c.gcount.toNat
    setSideBit (setLine w (if sideBit w n L then n else bank) L x) bank L true
  else setLine w (viewLine w n L) L x
def vread64 (w : Wave) (n L : Nat) : W64 := vread w (n + 1) L ++ vread w n L
def emptyV (w : Wave) (n : Nat) : Bool := w.r.vEmpty.getLsbD n
def setEmptyV (w : Wave) (n : Nat) : Wave := { w with r := { w.r with vEmpty := w.r.vEmpty ||| BitVec.twoPow 1024 n } }
def setFullV (w : Wave) (n : Nat) : Wave := { w with r := { w.r with vEmpty := w.r.vEmpty &&& ~~~(BitVec.twoPow 1024 n) } }

/-- k(n); k0 reads as all ones (R214). -/
def kread (w : Wave) (n : Nat) : W32 := if n = 0 then BitVec.allOnes 32 else mget 0 w.r.k n
def kwrite (w : Wave) (n : Nat) (v : W32) : Wave :=
  if n = 0 then w else { w with r := { w.r with k := mput 0 w.r.k n v } }

/-! ### Splits and entries -/

def getSplit (w : Wave) (n : Nat) : Split := mget {} w.c.splits n
def setSplit (w : Wave) (n : Nat) (x : Split) : Wave := { w with c := { w.c with splits := mput {} w.c.splits n x } }
def getEntry (w : Wave) (n : Nat) : QEntry := mget {} w.c.entries n
def setEntry (w : Wave) (n : Nat) (x : QEntry) : Wave := { w with c := { w.c with entries := mput {} w.c.entries n x } }
/-- The entry of the block that runs: the head, or the handler's. -/
def headEntry (w : Wave) : Nat := if w.c.intrap then 4 else w.c.qhead.toNat
/-- The lane queue is empty, as LDRAIN sees it (R223, R235). -/
def drained (w : Wave) : Bool := if w.c.intrap then !w.c.hq else w.c.qcnt = 0

/-! ### Focus -/

/-- Run a meaning on the wave in focus; without one there is nothing to issue. -/
def onWave (s : State) (k : Wave → Out) : Out :=
  match s.wave? s.focus with
  | none => .next s
  | some w => k w
/-- The wave waits with its scalar instruction (R110). -/
def stallScalar (s : State) (w : Wave) : Out := .next (s.setWave s.focus { w with stallS := true })
/-- The wave waits with the lane instruction of the split in focus. -/
def stallLane (s : State) (w : Wave) : Out :=
  .next (s.setWave s.focus { w with stallL := w.stallL ||| BitVec.twoPow 5 s.split })

/-- The instruction as sys.tinst0 to sys.tinst2 hold it: its words, padded with zeros (R234). -/
def instBits (i : Instr) : BitVec 96 :=
  match encode i with
  | [a] => a.zeroExtend 96
  | [a, b] => ((b ++ a : BitVec 64)).zeroExtend 96
  | [a, b, c] => c ++ b ++ a
  | _ => 0

/-! ### Results on their way (R218) -/

/-- Put a landing on its way; it comes at once unless it waits for `need` answers. -/
def addLanding (s : State) (key : Nat) (l : Landing) : State :=
  match s.wave? key with
  | none => s
  | some w =>
    let n := w.nextLanding
    let s := s.setWave key { w with landings := mset w.landings n l, nextLanding := n + 1 }
    if l.need = 0 then s.push (.loadResultLand key n) else s

def laneMask (l : List Nat) : W32 := l.foldl (fun m n => m ||| BitVec.twoPow 32 n) 0
/-- Registers have been written in the lanes of E: a granule written whole by one instruction holds poison no more (assumption 62). -/
def cleanGranules (w : Wave) (regs : List Nat) (E : W32) : Wave :=
  let whole := (List.range 4).filter fun g => E.extractLsb' (8 * g) 8 = BitVec.allOnes 8
  let keys := regs.flatMap fun n => whole.filterMap fun g =>
    match ((List.range 8).map fun L => viewLine w n (8 * g + L)).dedup with
    | [line] => some (4 * line + g)
    | _ => none
  if w.r.poison.isEmpty then w else { w with r := { w.r with poison := keys.foldl mdel w.r.poison } }
/-- The same of results by register and lane. -/
def cleanWritten (w : Wave) (l : List Nat) : Wave :=
  if w.r.poison.isEmpty then w
  else ((l.map (· / 32)).dedup).foldl (fun w n => cleanGranules w [n] (laneMask ((l.filter fun k => k / 32 = n).map (· % 32)))) w
/-- Apply a landing to a wave: write the results and mark the registers full. -/
def applyLanding (w : Wave) (l : Landing) : Wave :=
  let w := match l.scalar with | some (d, v) => setS w d v | none => w
  let w := cleanWritten (l.lanes.foldl (fun w p => vwrite w (p.1 / 32) (p.1 % 32) p.2) w) (l.lanes.map Prod.fst)
  let w := { w with r := { w.r with side := putBytes w.r.side l.side } }
  let w := l.fullS.foldl setFullS w
  l.fullV.foldl setFullV w

/-! ### Ending a team (R119) -/

/-- The waves of a team. -/
def teamWaves (s : State) (team : Nat) : List (Nat × Wave) :=
  s.waves.filter fun p => teamKey p.2.launch p.2.team = team

/-- A wave that has been stopped for good: nothing of it is parked, waited for or open. -/
def endWave (w : Wave) : Wave :=
  { w with ended := true, running := false, park := none, wait := .none, c := { w.c with parked := false, popen := false } }

/-- A placement decision is due on a die (R108). -/
def kickPlace (s : State) (d : Nat) : State :=
  let i : Instr := .placementDecision (Fin.ofNat 8 d)
  if s.agenda.contains i then s else s.push i
/-- The cluster's sequencer is asked to fill its queue and to start what it can; its copy engine, to start what it can. -/
def kickSeq (s : State) (d c : Nat) : State :=
  let i : Instr := .sequencerEntryStart (Fin.ofNat 8 d) (Fin.ofNat 64 c)
  if s.agenda.contains i then s else s.push i
def kickCopy (s : State) (d c : Nat) : State :=
  let i : Instr := .copyCommandStart (Fin.ofNat 8 d) (Fin.ofNat 64 c)
  if s.agenda.contains i then s else s.push i
/-- What a team has in the units of its cluster is discarded (R119): entries between steps with their pins, commands that have not started
or have landed, claims, and tiles that are being written out; a step in progress and commands in flight run on without counting. -/
def clearUnits (s : State) (d c team : Nat) : State :=
  let mine (k : Nat) : Bool := k / 16 = team
  let k := clusterKey d c
  let gone := (s.cluster k).seq.filter fun e => mine e.wave && !e.busy
  let s := gone.foldl (fun s e => setPins s d e.pinned []) s
  let s := s.modCluster k fun x => { x with
    seq := x.seq.filter fun e => !(mine e.wave && !e.busy)
    copies := (x.copies.filter fun e => !(mine e.wave && (!e.started || e.landed.isSome))).map fun (e : CopyCmd) =>
      if mine e.wave then { e with discarded := true, follow := none } else e
    claims := x.claims.filter fun e => !mine e.wave
    writeout := x.writeout.filter fun w => w.2.1 ≠ team }
  kickCopy (kickSeq s d c) d c
/-- Release what a team holds and write its event once its copies and stores are complete (R119). -/
def releaseTeam (s : State) (team : Nat) (status : W16) : State :=
  match s.team? team with
  | none => s
  | some t =>
    if t.phase = .ended || t.phase = .done then s
    else
      let mine (k : Nat) : Bool := k / 16 = team
      let orders := (((s.cluster (clusterKey t.die t.cluster)).seq.filter fun e => mine e.wave && !e.busy) ++ t.store).filterMap fun e =>
        match e.hold with | .fault f => some f | _ => none
      let s := { s with waves := s.waves.map fun (p : Nat × Wave) => if mine p.1 then (p.1, endWave p.2) else p }
      let s := clearUnits s t.die t.cluster team
      let s := s.modCache t.die fun c => { c with frames := c.frames.map fun (f : Frame) =>
        { f with pins := f.pins.filter fun k => k ≠ team } }
      let s := dropFaults s t.die fun f => match f.owner with
        | .wave k => mine k
        | .context l n => teamKey l n = team
        | .seq _ _ _ => orders.contains f.fid
        | _ => false
      let t' := { t with
        phase := .ended, status := status, banks := [], bars := [], accCfg := [], acc := [], accPoison := [],
        slots := [], store := [], fault := none }
      let s := { s with teams := mset s.teams team t' }
      let s := s.modDie t.die fun x => { x with sched := { x.sched with ready := x.sched.ready.filter fun k => k ≠ team } }
      kickPlace (s.push (.teamEventWrite (Fin.ofNat 8 t.die) team)) t.die

/-- Commands of a team are still in flight: copies, entries in the middle of a step, and tiles that are being written out (R117). -/
def draining (s : State) (t : Team) (key : Nat) : Bool :=
  let c := s.cluster (clusterKey t.die t.cluster)
  (c.copies.any fun x => x.wave / 16 = key && x.landed.isNone) || (c.seq.any fun e => e.wave / 16 = key && e.busy) ||
    c.writeout.any fun w => w.2.1 = key
/-- Kill a team (R119); the kill of a moving team waits for the drain of its move (R120). -/
def killTeam (s : State) (team : Nat) (status : W16) : State :=
  let t := s.team team
  let s := s.modTeam team fun t => { t with killed := true }
  if t.phase = .moving && draining s t team && s.agenda.contains (.teamMoveComplete (Fin.ofNat 8 t.die) team) then
    if t.killed then s else s.modTeam team fun t => { t with status := status }
  else releaseTeam s team status

/-! ### What a region's policy does (R78) -/

/-- A process signal (R41, R78): to the process, or to one of its host queues on a die; it may name a die. -/
def processSignal (s : State) (d : Nat) (pid : W32) (queue die : Option Nat) : State :=
  { s with outbox := s.outbox ++ [⟨d, 22, pid.toNat, leBytes 4 (queue.getD (2 ^ 32 - 1)) ++ leBytes 2 (die.getD 65535)⟩] }
/-- The enabled queues of a process on a die that hosts feed (R87). -/
def hostQueues (s : State) (d : Nat) (pid : W32) : List Nat :=
  let base := queueAddr s d 0
  let at_ (a : Nat) : Option Nat := if base ≤ a && a < base + 2 ^ 26 then some ((a - base) / 64) else none
  let bytes := s.mem.map Prod.fst ++ (s.frames d).flatMap fun f => f.payload.map fun p => f.base + p.1
  (bytes.filterMap at_).dedup.filter fun q =>
    let n := queueNat s d q 9 1
    bit n 0 && !bit n 1 && queueNat s d q 12 4 = pid.toNat
/-- What a region's fault-domain policy does on a die to the launches like l (R78, R103): the process's teams and threads are killed and
its host queues signalled, the region's teams are killed with the lost status, or nothing more. -/
def regionOutcome (s : State) (d : Nat) (l : Launch) : State :=
  let tab := regionTable s d l.pid
  let kill (p : Launch → Bool) (status : W16) (s : State) : State :=
    (s.teams.filter fun t => t.2.die = d && t.2.phase ≠ .ended && t.2.phase ≠ .done && p (s.launch t.2.launch)).foldl
      (fun s t => killTeam s t.1 status) s
  match regionEff tab l.region 2 with
  | 0 =>
    let s := kill (fun x => x.pid = l.pid) 2 s
    let s := s.modDie d fun x => { x with image := { x.image with threads := x.image.threads.filter fun t => t.2 ≠ l.pid } }
    (hostQueues s d l.pid).foldl (fun s q => processSignal s d l.pid (some q) none) s
  | 1 =>
    let path := regionPath tab (regionCount tab) l.region
    let r := (path.find? fun j => bit (regionNat tab j 4 2) 2).getD 0
    kill (fun x => inSubtree s d l x r) 3 s
  | _ => s
/-- The team of a launch has an unhandled trap: it is killed with STATUS 4; where the trap is an access to a lost page, its region's policy
follows on every die (R78). -/
def unhandled (s : State) (d team : Nat) (cause : Nat) (va : W64) : State :=
  let l := s.launch (team / 2 ^ 20)
  let lost := cause = 0x0A && pageLost s d l.pid.toNat va.toNat
  let s := killTeam s team 4
  if lost then (List.range 8).foldl (fun s e => if dieDown s e then s else regionOutcome s e l) s else s

/-! ### Traps (R232 to R238) -/

/-- What a trap sets (R217, R234): cause fields, the resume counters, masks, instruction, address and split. -/
structure Trap where
  tcause : W64
  tspc : W64
  tlpc : W64 := 0
  tamask : W32 := 0
  tfmask : W32 := 0
  inst : BitVec 96
  taddr : W64 := 0
  split : Nat := 7
  deriving DecidableEq, Repr

/-- sys.tcause (R217). -/
def causeBits (cause reason : Nat) (scalar async : Bool) (origin : W32) : W64 :=
  BitVec.ofNat 64 (cause + (if scalar then 256 else 0) + (if async then 512 else 0) + reason * 4096 + origin.toNat * 2 ^ 32)

/-- Trap entry (R234): the trap registers are written, INTRAP is set and the scalar stream goes to sys.tvec. A trap inside
a handler, or without one, kills the team with STATUS 4. A trace record of type 0x02 follows. -/
def enterTrap (s : State) (key : Nat) (x : Trap) : State :=
  match s.wave? key with
  | none => s
  | some w =>
    let payload := leBytes 8 x.tcause.toNat ++ leBytes 8 x.tlpc.toNat ++ leBytes 4 x.tfmask.toNat
    let d := (s.team (teamKey w.launch w.team)).die
    let name := waveName s w x.split none
    let s :=
      if w.c.intrap || w.y.tvec = 0 then unhandled s d (teamKey w.launch w.team) (wbits x.tcause 7 0) x.taddr
      else
        let y := { w.y with
          tcause := x.tcause, tspc := x.tspc, tlpc := x.tlpc, tamask := x.tamask, tfmask := x.tfmask, tinst := x.inst,
          taddr := x.taddr, tsplit := BitVec.ofNat 32 (x.split + if w.c.popen then 256 else 0) }
        s.setWave key { w with y := y, c := { w.c with intrap := true, pc := w.y.tvec } }
    traceRec s d name 0x02 payload

/-- A scalar instruction of the wave in focus traps: sys.tspc names it and it has no effect (R289). -/
def trapScalar (s : State) (w : Wave) (i : Instr) (cause : Nat) (taddr : W64) (reason : Nat := 0) (origin : W32 := 0) : Out :=
  .next (enterTrap s s.focus
    { tcause := causeBits cause reason true false origin, tspc := w.c.pc, inst := instBits i, taddr := taddr })

/-- The registers that the instruction of UNFIN has marked empty are marked full again (R233). -/
def refill (w : Wave) : Wave := { w.unfinFull.foldl setFullV w with unfinFull := [] }
/-- A lane instruction of the split in focus traps: sys.tspc names the next scalar instruction (R234). -/
def laneTrap (s : State) (w : Wave) (inst : BitVec 96) (cause : Nat) (tfmask : W32) (taddr : W64) (reason : Nat := 0)
    (origin : W32 := 0) : State :=
  let x := getSplit w s.split
  let s := s.modWave s.focus fun w => if w.c.unfin ≠ 0 && w.unfinSplit = s.split then refill w else w
  enterTrap s s.focus
    { tcause := causeBits cause reason false false origin, tspc := w.c.pc, tlpc := w.y.lanebase + x.lpc.zeroExtend 64,
      tamask := x.mask, tfmask := tfmask, inst := inst, taddr := taddr, split := s.split }
def trapLane (s : State) (w : Wave) (i : Instr) (cause : Nat) (tfmask : W32) (taddr : W64 := 0) : Out :=
  .next (laneTrap s w (instBits i) cause tfmask taddr)

/-! ### Breakpoints and watchpoints (R122 to R124) -/

/-- The enabled entries of a wave's cluster that a test accepts, in ascending order. -/
def bkEntries (s : State) (w : Wave) (p : Nat → Nat → Bool) : List Nat :=
  let who := waveWho s w
  (List.range 8).filter fun n =>
    let ctl := s.ctl who.d (0xA000 + 0x80 * who.cluster + 0x10 * n)
    let addr := s.ctlBits who.d (0xA008 + 0x80 * who.cluster + 0x10 * n) 54 0
    wbits ctl 0 0 = 1 && (wbits ctl 63 32 = 0 || wbits ctl 63 32 = w.launch) && p ctl.toNat addr

/-- The matches of a program counter (KIND 0 or 1). -/
def bkPc (s : State) (w : Wave) (kind pc : Nat) : List Nat :=
  bkEntries s w fun ctl addr => bitsOf ctl 3 1 = kind && addr = pc
/-- The range an entry watches. -/
def watchRange (ctl addr : Nat) : Nat × Nat :=
  let n := 2 ^ min 16 (bitsOf ctl 20 16)
  (addr / n * n, n)
/-- The matches of an access (KIND 2 to 4) to n bytes at va. -/
def bkWatch (s : State) (w : Wave) (k : AccKind) (va n : Nat) : List Nat :=
  bkEntries s w fun ctl addr =>
    let (lo, len) := watchRange ctl addr
    (match bitsOf ctl 3 1 with
      | 2 => k ≠ .store
      | 3 => k ≠ .load
      | 4 => true
      | _ => false) && decide (lo < va + n) && decide (va < lo + len)
/-- The lowest byte of an access that an entry watches. -/
def watchAddr (s : State) (w : Wave) (n va : Nat) : Nat :=
  let who := waveWho s w
  max va (watchRange (s.ctl who.d (0xA000 + 0x80 * who.cluster + 0x10 * n)).toNat
    (s.ctlBits who.d (0xA008 + 0x80 * who.cluster + 0x10 * n) 54 0)).1
/-- ACT of an entry (R122): halt instead of trap. -/
def bkHalts (s : State) (w : Wave) (n : Nat) : Bool :=
  let who := waveWho s w
  s.ctlBits who.d (0xA000 + 0x80 * who.cluster + 0x10 * n) 4 4 = 1
/-- The bit of BKSUP of a stream of the wave: the handler's streams have their own. -/
def supMask (w : Wave) (stream : Nat) : Byte := BitVec.twoPow 8 (if stream = 7 && w.c.intrap then 5 else stream)
/-- Matching is suppressed for the stopped instruction of a stream (R124). -/
def suppressed (w : Wave) (stream : Nat) : Bool := w.c.bksup &&& supMask w stream ≠ 0
/-- Set the suppression for the stream that a trap or a halt stops. -/
def suppress (w : Wave) (stream : Nat) : Wave := { w with c := { w.c with bksup := w.c.bksup ||| supMask w stream } }
/-- A wave halts at a stop, which is traced with every entry that matched (R123). -/
def haltAt (s : State) (w : Wave) (stream pc addr : Nat) (l : List Nat) : State :=
  let s := s.setWave s.focus { suppress w stream with c := { (suppress w stream).c with halted := true } }
  let s := kickPlace s (waveWho s w).d
  traceRec s (waveWho s w).d (waveName s w stream none) 0x01
    (leBytes 8 pc ++ leBytes 1 (l.foldl (fun m n => m + 2 ^ n) 0) ++ zeros 7 ++ leBytes 8 addr)
/-- The instruction of a stream has completed or parked: its suppression ends. -/
def unsuppress (w : Wave) (stream : Nat) : Wave :=
  { w with c := { w.c with bksup := w.c.bksup &&& ~~~(supMask w stream) } }

/-! ### What every scalar instruction shares (R289) -/

/-- The scalar program counter steps on; the instruction has completed. -/
def stepPc (w : Wave) (n : Nat) : Wave := let w := unsuppress w 7; { w with c := { w.c with pc := w.c.pc + BitVec.ofNat 64 n } }
/-- A scalar instruction completes with the wave as given, and steps by n bytes. -/
def doneS (s : State) (w : Wave) (n : Nat) : Out := .next (s.setWave s.focus (stepPc w n))

/-- A breakpoint on the scalar program counter stops the wave in focus. -/
def bkScalar (s : State) (w : Wave) (i : Instr) : Option State :=
  if suppressed w 7 then none
  else match bkPc s w 0 w.c.pc.toNat with
    | [] => none
    | n :: l =>
      if bkHalts s w n then some (haltAt s w 7 w.c.pc.toNat w.c.pc.toNat (n :: l))
      else
        let s := s.setWave s.focus (suppress w 7)
        match trapScalar s w i 0x0D w.c.pc with
        | .next s => some s
        | _ => some s

/-- The start of a scalar instruction: breakpoint, illegal word, then the wait for its sources and its destination. -/
def scalarOp (i : Instr) (srcs : List (BitVec 6)) (dst : Option (BitVec 6)) (s : State) (k : Wave → Out) : Out :=
  onWave s fun w =>
    match bkScalar s w i with
    | some s' => .next s'
    | none =>
      if !i.wf then trapScalar s w i 0x01 0
      else if srcs.any (emptyS w) || dst.any (emptyS w) then stallScalar s w
      else k w

/-! ### Parking (R208, R209) -/

/-- A failed access of a parked instruction: lane, address, reason (`none` for a blocked range), and whether it is a lane
load of an instruction that may be of another type (a stream element of a store). -/
structure Failed where
  lane : Nat
  va : W64
  reason : Option Nat
  load : Bool
  deriving DecidableEq, Repr


/-- The page of an address. -/
def pageOf (va : W64) : Nat := va.toNat / 65536

/-- The failures by page, each page once, in the order found. -/
def pagesOf (l : List Failed) : List Nat := ((l.filter fun f => f.reason.isSome).map fun f => pageOf f.va).dedup

/-- Raise one record for each page of the failed accesses (R209); it is of type 0 where only lane loads failed. The
trace shows the whole unfinished-lane mask (R127). -/
def raiseRecords (lane : Bool) (split access key : Nat) (unfin : W32) (l : List Failed) :
    List Nat → State → List (Nat × W32) → State × List (Nat × W32)
  | [], s, acc => (s, acc)
  | p :: ps, s, acc =>
    match s.wave? key with
    | none => (s, acc)
    | some w =>
      let mine := l.filter fun f => f.reason.isSome && pageOf f.va = p
      let mask := if lane then laneMask (mine.map Failed.lane) else 0
      let low := mine.foldl (fun (a : W64) f => if f.va.toNat < a.toNat then f.va else a) (BitVec.allOnes 64)
      let reason := match mine with | f :: _ => f.reason.getD 0 | [] => 0
      let first := if lane then some (mine.foldl (fun a f => min a f.lane) 31) else none
      let who := waveWho s w
      let (s, fid) := raiseFault s who.d (.wave key) (waveName s w split first) low mask reason
        (if mine.all Failed.load then 0 else access)
      let s := traceRec s who.d (waveName s w split none) 0x03 (leBytes 8 low.toNat ++ leBytes 4 unfin.toNat)
      raiseRecords lane split access key unfin l ps s (acc ++ [(fid, mask)])

/-- Park the wave in focus: records by page, UNFIN for a lane instruction, the fault id of the first record. -/
def parkWave (s : State) (lane fetch : Bool) (access : Nat) (l : List Failed) (unfin : W32) (inst : BitVec 96)
    (fullS fullV : List Nat) : State :=
  let split := if lane then s.split else 7
  let (s, recs) := raiseRecords (lane && !fetch) (if lane then s.split else 0) access s.focus (if lane && !fetch then unfin else 0) l (pagesOf l) s []
  match s.wave? s.focus with
  | none => s
  | some w =>
    let w := unsuppress w split
    let c := { w.c with
      parked := true, unfin := if lane && !fetch then unfin else w.c.unfin,
      faultId := match recs with | (f, _) :: _ => BitVec.ofNat 16 f | [] => 0 }
    s.setWave s.focus { w with
      c := c, unfinSplit := if lane && !fetch then s.split else w.unfinSplit,
      unfinFull := if lane && !fetch then fullV else w.unfinFull,
      park := some { lane := lane, split := s.split, fetch := fetch, access := BitVec.ofNat 8 access, records := recs,
                     blocked := l.any fun f => f.reason.isNone, fullS := fullS, fullV := fullV, inst := inst } }

/-- A parked wave goes on: its instruction is issued again and walks afresh (R203). -/
def unpark (w : Wave) : Wave := { w with park := none, c := { w.c with parked := false } }

/-- The scalar access of a parked instruction is replayed whole (R208). -/
def parkScalar (s : State) (i : Instr) (access : Nat) (va : W64) (reason : Option Nat) : Out :=
  .next (parkWave s false false access [⟨0, va, reason, false⟩] 0 (instBits i) [] [])

/-- The scalar start of a memory access: alignment, watch entries and placement are checked in the order of R233. -/
def scalarWatch (s : State) (w : Wave) (i : Instr) (k : AccKind) (va : W64) (n : Nat) : Option Out :=
  if suppressed w 7 then none
  else match bkWatch s w k va.toNat n with
    | [] => none
    | e :: l =>
      let a := watchAddr s w e va.toNat
      if bkHalts s w e then some (.next (haltAt s w 7 w.c.pc.toNat a (e :: l)))
      else some (trapScalar (s.setWave s.focus (suppress w 7)) w i 0x10 (BitVec.ofNat 64 a))

/-! ### Order (R176) -/

/-- The level at which a scope code of R278 acts: 0 near cache, 1 tile cache of the die, 2 home die, 3 system. A named
scope acts at the level its effective mask needs. -/
def namedMask (s : State) (w : Wave) (n : Nat) : W512 :=
  let who := waveWho s w
  (mget 0 s.sm ((who.pid.toNat * 8 + who.d) * 16 + n)) ||| BitVec.twoPow 512 (64 * who.d + who.cluster)
def scopeLevel (s : State) (w : Wave) (code : Nat) : Nat :=
  let who := waveWho s w
  if code < 3 then 0 else if code = 3 then 1 else if code = 4 then 2 else if code = 5 then 3
  else
    let m := namedMask s w (code - 16)
    if m = BitVec.twoPow 512 (64 * who.d + who.cluster) then 0
    else if m >>> (64 * who.d) <<< (64 * who.d) = m && m.toNat / 2 ^ (64 * who.d) < 2 ^ 64 then 1 else 2

/-- What comes after a release at a level must wait on a die: for every atomic that the die has sent and that is not applied, since
nothing sees it before; at the home level for every remote write of the die, which includes those acquired from other agents (R176,
R187, R429). -/
def levelWaits (s : State) (d level : Nat) : Bool :=
  (s.die d).cache.pend.any fun p => !p.atomic.isEmpty || decide (2 ≤ level)
/-- A release or fence of a scope must wait. -/
def releaseWaits (s : State) (w : Wave) (code : Nat) : Bool := levelWaits s (waveWho s w).d (scopeLevel s w code)
/-- The running block has written its result register: what the scalar stream may have read from it comes after all its lane
instructions (R178), so that the scalar stream's accesses wait for the end of the block. -/
def resultOut (w : Wave) : Bool := !drained w && (getEntry w (headEntry w)).resw
/-- An access of the scalar stream must wait: for the running block, or for the lanes that an instruction has left over, which may be
an acquire's (R178, R180, assumption 58). -/
def scalarHeld (w : Wave) : Bool := resultOut w || (!w.c.intrap && w.c.unfin ≠ 0)

/-- The load of an acquire of a scope that acts at the homes is made afresh at the home. -/
def refetchAt (s : State) (w : Wave) (code : Nat) (va : W64) (tile : Option ElemTile) : State :=
  let who := waveWho s w
  if scopeLevel s w code < 2 then s
  else match place s who .load va 1 tile w.launch with
    | .ok p => refetch s who.d p.req.tile
    | _ => s

/-- An acquire or fence discards the wave's stream prefetches (R181). -/
def dropPrefetch (w : Wave) : Wave := { w with r := { w.r with q := w.r.q.map fun p => (p.1, { p.2 with pre := [] }) } }

end Sys2Proof.Machine
end

