-- ==== Sys2Proof/Machine/Flags.lean ====
section
/-! DEFINITION. Comparisons and the results of arithmetic at its corners: the N3 has no flag register, so a comparison
gives a word, a branch condition or a predicate bit (R239, R243, R290, R291, R298, R328). -/

namespace Sys2Proof.Machine

/-- 1 or 0. -/
def boolWord (b : Bool) : W64 := if b then 1 else 0
/-- The shift count of R290: bits 5:0. -/
def shiftCount (y : W64) : Nat := y.toNat % 64

/-- The quotient of R291, truncated toward zero: all ones by zero, −2^63 by −1 wraps. -/
def divQ (x y : W64) : W64 := if y = 0 then BitVec.allOnes 64 else BitVec.ofInt 64 (x.toInt.tdiv y.toInt)
/-- The remainder of R291, with the sign of the dividend. -/
def divR (x y : W64) : W64 := if y = 0 then x else BitVec.ofInt 64 (x.toInt.tmod y.toInt)

/-- The condition codes EQ, NE, LT, LE, GT, GE of two integers (R283). -/
def ccInt (cc : Nat) (x y : Int) : Bool :=
  match cc with
  | 0 => decide (x = y)
  | 1 => decide (x ≠ y)
  | 2 => decide (x < y)
  | 3 => decide (x ≤ y)
  | 4 => decide (y < x)
  | _ => decide (y ≤ x)

end Sys2Proof.Machine
end

