-- ==== Sys2Proof/Machine/Image.lean ====
section
/-! DEFINITION. The context image of a wave (R219 to R222): its bytes as the current state gives them, the reading of a
system block back into a wave, and the wave's own accesses to its image. -/

namespace Sys2Proof.Machine

/-! ### The system block (R220, R221) -/

def bb (b : Bool) (k : Nat) : Nat := if b then 2 ^ k else 0

/-- The 12 bytes of wave state. -/
def waveStateBytes (c : WaveCtl) : List Byte :=
  leBytes 1 (c.qhead.toNat + c.qcnt.toNat * 4 + bb c.hq 5) ++
  leBytes 1 (bb c.intrap 0 + bb (c.bksup ≠ 0) 1 + bb c.halted 2 + bb c.parked 3 + bb c.apend 4) ++
  leBytes 1 (c.tagnext.toNat + bb c.harv 4 + bb c.haph 5) ++ [c.acause] ++ leBytes 4 c.unfin.toNat ++
  leBytes 2 c.faultId.toNat ++ [c.prog] ++ leBytes 1 (c.arv.toNat + c.aph.toNat * 16)

def headerNat (c : WaveCtl) : Nat := c.gbase.toNat + c.gcount.toNat * 2 ^ 10 + bb c.popen 30 + bb c.pdefined 31

def entryBytes (e : QEntry) : List Byte :=
  (List.range 8).flatMap (fun n => leBytes 8 (mget 0 e.bp n).toNat) ++ leBytes 4 e.off.toNat ++
    leBytes 4 (e.rep.toNat + e.iter.toNat * 2 ^ 10 + e.res.toNat * 2 ^ 20 + bb e.resw 26 + e.npar.toNat * 2 ^ 27 + bb e.valid 31)

def stackBytes (e : StackEntry) : List Byte := leBytes 4 e.pmask.toNat ++ leBytes 4 e.ppc.toNat ++ leBytes 4 e.rpc.toNat

def splitBytes (x : Split) : List Byte :=
  let up := x.stack.reverse
  let (r0, t0) := x.chain.getD 0 (0, 0)
  let (r1, t1) := x.chain.getD 1 (0, 0)
  let ph := (List.range 4).foldl (fun a n => a + bb (match up[n]? with | some e => e.phase | none => false) n) 0
  leBytes 4 x.lpc.toNat ++ leBytes 4 x.mask.toNat ++
    leBytes 4 (bb x.valid 0 + bb x.parked 1 + x.stack.length * 4 + x.chain.length * 32 + t0.toNat * 2 ^ 7 + t1.toNat * 2 ^ 11 + ph * 2 ^ 15) ++
    leBytes 4 r0.toNat ++ leBytes 4 r1.toNat ++
    (List.range 4).flatMap fun n => match up[n]? with | some e => stackBytes e | none => zeros 12

def streamBytes (q : Stream) : List Byte :=
  leBytes 8 q.base.toNat ++ leBytes 4 q.sstride.toNat ++ leBytes 4 q.count.toNat ++ leBytes 4 q.pos.toNat ++
    leBytes 2 q.lstride.toNat ++ leBytes 1 (q.etype.toNat + bb q.dir 3 + bb q.bound 7) ++ [0]

/-- The saved system registers in their order. -/
def sysBytes (y : WaveSys) : List Byte :=
  [y.lanebase, y.tvec, y.fpmode, y.rngkey0, y.rngkey1, y.batch, y.bdone, y.tcause, y.tspc, y.tlpc, y.taddr].flatMap
    (fun v => leBytes 8 v.toNat) ++ leBytes 12 y.tinst.toNat ++
  [y.tamask, y.tfmask, y.tsplit, y.pprop, y.pacc].flatMap fun v => leBytes 4 v.toNat

/-- The 2,048 bytes of the system block; a full/empty bit of 1 is full (assumption 16). -/
def sysBlock (w : Wave) : List Byte :=
  zeros 8 ++ (List.range 63).flatMap (fun n => leBytes 8 (mget 0 w.r.s (n + 1)).toNat) ++
  leBytes 8 (~~~w.r.sEmpty).toNat ++ leBytes 128 (~~~w.r.vEmpty).toNat ++ leBytes 8 w.c.pc.toNat ++
  zeros 4 ++ (List.range 7).flatMap (fun n => leBytes 4 (mget 0 w.r.k (n + 1)).toNat) ++
  waveStateBytes w.c ++ leBytes 4 (headerNat w.c) ++ sysBytes w.y ++
  (List.range 32).flatMap (fun l => leBytes 8 (mget 0 w.c.rng l).toNat) ++
  (List.range 32).flatMap (fun l => leBytes 2 (mget 0 w.c.pcount l).toNat ++ leBytes 2 (mget 0 w.c.acount l).toNat) ++
  (List.range 8).flatMap (fun n => streamBytes (mget {} w.r.q n)) ++
  (List.range 5).flatMap (fun n => entryBytes (getEntry w n)) ++
  (List.range 4).flatMap (fun n => splitBytes (getSplit w n)) ++
  leBytes 4 (getSplit w 4).lpc.toNat ++ leBytes 4 (getSplit w 4).mask.toNat ++ zeros 8

/-! ### Reading a system block back (R117, R222) -/

/-- n bytes of a block from an offset, as a number. -/
def blockNat (b : List Byte) (off n : Nat) : Nat := leNat ((b.drop off).take n)
def blockBV (b : List Byte) (off n k : Nat) : BitVec k := BitVec.ofNat k (blockNat b off n)

def readEntry (b : List Byte) (o : Nat) : QEntry :=
  let f := blockNat b (o + 68) 4
  { bp := (List.range 8).foldl (fun m n => mput 0 m n (blockBV b (o + 8 * n) 8 64)) [], off := blockBV b (o + 64) 4 32,
    rep := BitVec.ofNat 10 f, iter := BitVec.ofNat 10 (f / 2 ^ 10), res := BitVec.ofNat 6 (f / 2 ^ 20), resw := bit f 26,
    npar := BitVec.ofNat 4 (f / 2 ^ 27), valid := bit f 31 }

def readSplit (b : List Byte) (o : Nat) : Split :=
  let f := blockNat b (o + 8) 4
  let chain := [(blockBV b (o + 12) 4 32, BitVec.ofNat 4 (f / 2 ^ 7)), (blockBV b (o + 16) 4 32, BitVec.ofNat 4 (f / 2 ^ 11))]
  let stack := (List.range (min 4 (bitsOf f 4 2))).map fun n =>
    { pmask := blockBV b (o + 20 + 12 * n) 4 32, ppc := blockBV b (o + 24 + 12 * n) 4 32, rpc := blockBV b (o + 28 + 12 * n) 4 32,
      phase := bit f (15 + n) : StackEntry }
  { lpc := blockBV b o 4 32, mask := blockBV b (o + 4) 4 32, valid := bit f 0, parked := bit f 1,
    chain := chain.take (bitsOf f 6 5), stack := stack.reverse }

def readStream (b : List Byte) (o : Nat) : Stream :=
  let t := blockNat b (o + 22) 1
  { base := blockBV b o 8 64, sstride := blockBV b (o + 8) 4 32, count := blockBV b (o + 12) 4 32, pos := blockBV b (o + 16) 4 32,
    lstride := blockBV b (o + 20) 2 16, etype := BitVec.ofNat 3 t, dir := bit t 3, bound := bit t 7 }

/-- The wave state, header, counters, entries and splits of a block. -/
def readCtl (b : List Byte) (c : WaveCtl) : WaveCtl :=
  let n (k : Nat) := blockNat b (0x2B0 + k) 1
  let h := blockNat b 0x2BC 4
  { c with
    pc := blockBV b 0x288 8 64, qhead := BitVec.ofNat 2 (n 0), qcnt := BitVec.ofNat 3 (n 0 / 4), hq := bit (n 0) 5,
    intrap := bit (n 1) 0, bksup := if !bit (n 1) 1 then 0 else if c.bksup ≠ 0 then c.bksup else 0x80, halted := bit (n 1) 2, parked := bit (n 1) 3, apend := bit (n 1) 4,
    tagnext := BitVec.ofNat 4 (n 2), harv := bit (n 2) 4, haph := bit (n 2) 5, acause := BitVec.ofNat 8 (n 3),
    unfin := blockBV b 0x2B4 4 32, faultId := blockBV b 0x2B8 2 16, prog := BitVec.ofNat 8 (n 10),
    arv := BitVec.ofNat 4 (n 11), aph := BitVec.ofNat 4 (n 11 / 16),
    gbase := BitVec.ofNat 10 h, gcount := BitVec.ofNat 7 (h / 2 ^ 10), popen := bit h 30, pdefined := bit h 31,
    rng := (List.range 32).foldl (fun m l => mput 0 m l (blockBV b (0x338 + 8 * l) 8 64)) [],
    pcount := (List.range 32).foldl (fun m l => mput 0 m l (blockBV b (0x438 + 4 * l) 2 16)) [],
    acount := (List.range 32).foldl (fun m l => mput 0 m l (blockBV b (0x43A + 4 * l) 2 16)) [],
    entries := (List.range 5).foldl (fun m e => mput {} m e (readEntry b (0x578 + 72 * e))) [],
    splits := mput {} ((List.range 4).foldl (fun m e => mput {} m e (readSplit b (0x6E0 + 68 * e))) []) 4
      { lpc := blockBV b 0x7F0 4 32, mask := blockBV b 0x7F4 4 32, valid := bit (n 0) 5 && bit (n 1) 0 } }

/-- The saved system registers of a block; their reserved fields read as zero (R9). -/
def readSys (b : List Byte) (y : WaveSys) : WaveSys :=
  let q (k : Nat) : W64 := blockBV b (0x2C0 + 8 * k) 8 64
  let r (k : Nat) : W32 := blockBV b (0x2C0 + 100 + 4 * k) 4 32
  { y with
    lanebase := q 0, tvec := q 1, fpmode := q 2 &&& 0xF, rngkey0 := q 3, rngkey1 := q 4, batch := q 5, bdone := q 6, tcause := q 7 &&& 0xFFFFFFFF0000F3FF,
    tspc := q 8, tlpc := q 9, taddr := q 10, tinst := blockBV b (0x2C0 + 88) 12 96, tamask := r 0, tfmask := r 1,
    tsplit := r 2 &&& 0x107, pprop := r 3, pacc := r 4 }

/-- Restore a wave from its image: system block, data area and side area (R117). -/
def restoreWave (w : Wave) (block : List Byte) (data side : List (Nat × Byte)) : Wave :=
  { w with
    y := readSys block w.y, c := readCtl block w.c,
    r := { w.r with
      s := (List.range 63).foldl (fun m n => mput 0 m (n + 1) (blockBV block (8 * (n + 1)) 8 64)) [],
      sEmpty := ~~~(blockBV block 0x200 8 64), vEmpty := ~~~(blockBV block 0x208 128 1024),
      k := (List.range 7).foldl (fun m n => mput 0 m (n + 1) (blockBV block (0x294 + 4 * n) 4 32)) [],
      q := (List.range 8).foldl (fun m n => mput {} m n (readStream block (0x4B8 + 24 * n))) [],
      v := (data.map fun p => p.1 / 4).dedup.foldl (fun m n => mput 0 m n (BitVec.ofNat 32 (leNat (bytesAt data (4 * n) 4)))) [],
      side := side } }

/-! ### The wave's own accesses (R222, R370) -/

/-- Where an offset of the image lies: data of a register and lane, a side byte, the system block, or outside. -/
inductive ImagePart where
  | data (n L : Nat)
  | side (n : Nat)
  | block (off : Nat)
  | outside
  deriving DecidableEq, Repr
def imagePart (w : Wave) (off : Nat) : ImagePart :=
  let W := w.winsize
  if off < W * 128 then .data (off / 128) (off % 128 / 4)
  else if off < W * 132 then .side ((off - W * 128) / 4)
  else if off < W * 132 + 2048 then .block (off - W * 132)
  else .outside

/-- The size of a wave's image. -/
def imageSize (w : Wave) : Nat := w.winsize * 132 + 2048

/-- n bytes at a virtual address lie in the wave's own image: their offset. -/
def ownImage (w : Wave) (va : W64) : Option Nat :=
  let o := (va - w.ctxbase).toNat
  if o < imageSize w then some o else none

/-- A raw byte of the image (R230: the lines, not the view). -/
def imageByte (w : Wave) (off : Nat) : Byte :=
  match imagePart w off with
  | .data n L => (mget 0 w.r.v (32 * n + L)).extractLsb' (8 * (off % 4)) 8
  | .side _ => mget 0 w.r.side (off - w.winsize * 128)
  | .block o => (sysBlock w).getD o 0
  | .outside => 0
def imageBytes (w : Wave) (off : Nat) : Nat → List Byte
  | 0 => []
  | n + 1 => imageByte w off :: imageBytes w (off + 1) n

/-- Store a raw byte to the data or side area. -/
def imageStore (w : Wave) (off : Nat) (b : Byte) : Wave :=
  match imagePart w off with
  | .data n L =>
    let x := mget 0 w.r.v (32 * n + L)
    let i := 8 * (off % 4)
    setLine w n L ((x &&& ~~~((0xFF#32) <<< i)) ||| (b.zeroExtend 32 <<< i))
  | .side _ => { w with r := { w.r with side := mput 0 w.r.side (off - w.winsize * 128) b } }
  | _ => w
def imageStores (w : Wave) (off : Nat) : List Byte → Wave
  | [] => w
  | b :: l => imageStores (imageStore w off b) (off + 1) l

/-- The register whose line or side bytes an offset lies in. -/
def imageReg (w : Wave) (off : Nat) : Option Nat :=
  match imagePart w off with
  | .data n _ => some n
  | .side n => some n
  | _ => none
/-- The access must wait until its register is full. -/
def imageWaits (w : Wave) (off : Nat) : Bool := match imageReg w off with | some n => emptyV w n | none => false

/-- The bytes of a wave's registers and side bytes as its image holds them: offset, value. -/
def imageData (w : Wave) : List (Nat × Byte) :=
  w.r.v.flatMap fun p => ((atOffsets (4 * p.1) (leBytes 4 p.2.toNat)).filter fun b => b.2 ≠ 0 && decide (b.1 < w.winsize * 128))

end Sys2Proof.Machine
end

