-- ==== Sys2Proof/Machine/Replay.lean ====
section
/-! DEFINITION. The atomic-order log and its replay (R129, R130). -/

namespace Sys2Proof.Machine

/-- A requester as a log record names it: 16 × team + wave, or OTHER for one outside the launch. -/
def otherReq : Nat := 2 ^ 24
def requester (s : State) (h launch team wave : Nat) : Nat :=
  if launch ≠ 0 && s.ctlBits h 0x5B00 63 32 = launch then team * 16 + wave else otherReq

/-- A log record (R129). -/
def aolRecord (t : TileId) (req run : Nat) : List Byte :=
  leBytes 4 t.tid.toNat ++ leBytes 6 t.coord.toNat ++ leBytes 2 run ++
    (if req = otherReq then leBytes 4 (2 ^ 24) else leBytes 4 req)

/-- Write a closed run; a full ring sets OVF. -/
def aolWrite (s : State) (h : Nat) (t : TileId) (req run : Nat) : State :=
  if ringRoom s h aolRing then ringPut s h aolRing (aolRecord t req run) else s.setCtlBits h 0x5B00 3 3 1

/-- Record an atomic: it lengthens the open run of its tile, or closes it and opens another. -/
def aolNote (s : State) (h : Nat) (t : TileId) (req : Nat) : State :=
  let setRuns (s : State) (l : List (TileId × Nat × Nat)) : State := s.modDie h fun x => { x with dbg := { x.dbg with runs := l } }
  let runs := (s.die h).dbg.runs
  match runs.find? fun r => r.1 = t with
  | none => setRuns s (runs ++ [(t, req, 1)])
  | some (_, q, n) =>
    if q = req && n < 65535 then setRuns s (runs.map fun r => if r.1 = t then (t, q, n + 1) else r)
    else aolWrite (setRuns s (runs.map fun r => if r.1 = t then (t, req, 1) else r)) h t q n

/-- Close every open run (recording is switched off). -/
def aolClose (s : State) (h : Nat) : State :=
  let runs := (s.die h).dbg.runs
  runs.foldl (fun s r => aolWrite s h r.1 r.2.1 r.2.2) (s.modDie h fun x => { x with dbg := { x.dbg with runs := [] } })

/-- Record n of the log: tile, requester, run. -/
def aolRead (s : State) (h n : Nat) : TileId × Nat × Nat :=
  let base := (s.ctl h 0x5B08).toNat / 64 * 64 + 16 * (n % 2 ^ ringLog s h aolRing)
  let num (off k : Nat) := s.peekNat h (base + off) k
  (⟨BitVec.ofNat 20 (num 0 4), BitVec.ofNat 48 (num 4 6)⟩,
    if bit (num 15 1) 0 then otherReq else num 12 3, num 10 2)

/-- Record numbers of a tile that are left in the log, with what is used of each. -/
def aolLeft (s : State) (h : Nat) (t : TileId) : List Nat :=
  ((List.range (ringUsed s h aolRing)).map fun i => ringHead s h aolRing + i).filter fun n =>
    let r := aolRead s h n
    r.1 = t && mget 0 (s.die h).dbg.aolUsed n < r.2.2
def aolKnows (s : State) (h : Nat) (t : TileId) : Bool :=
  (List.range (ringUsed s h aolRing)).any fun i => (aolRead s h (ringHead s h aolRing + i)).1 = t

/-- The order of a tile is no longer enforced: DIV is set and a type 0x0D record written (R130). -/
def aolDiverge (s : State) (h : Nat) (t : TileId) : State :=
  let s := s.modDie h fun x => { x with dbg := { x.dbg with aolFree := x.dbg.aolFree ++ [t] } }
  let s := s.setCtlBits h 0x5B00 2 2 1
  traceRec s h (zeros 16) 0x0D (leBytes 4 t.tid.toNat ++ leBytes 6 t.coord.toNat)

/-- An atomic of a tile without a record in the log means that the log has lost records: it is the launch's, whose every atomic is logged,
or the log overflowed (R130, assumption 55). -/
def aolLost (s : State) (h req : Nat) : Bool := req ≠ otherReq || s.ctlBits h 0x5B00 3 3 = 1
/-- Admit an atomic at its home slice: recorded in mode 1; in mode 2 `none` while another requester is due. -/
def aolAdmit (s : State) (h : Nat) (t : TileId) (launch team wave : Nat) : Option State :=
  let req := requester s h launch team wave
  match s.ctlBits h 0x5B00 1 0 with
  | 1 => some (aolNote s h t req)
  | 2 =>
    if (s.die h).dbg.aolFree.contains t then some s
    else if !aolKnows s h t then some (if aolLost s h req then aolDiverge s h t else s)
    else match aolLeft s h t with
      | [] => some (aolDiverge s h t)
      | n :: _ =>
        if (aolRead s h n).2.1 = req then
          some (s.modDie h fun x => { x with dbg := { x.dbg with aolUsed := mset x.dbg.aolUsed n (mget 0 x.dbg.aolUsed n + 1) } })
        else none
  | _ => some s

end Sys2Proof.Machine
end

