-- ==== Sys2Proof/Machine/Operands.lean ====
section
/-! DEFINITION. Memory operands: the scalar access of R294 with all it may meet, and queue descriptors (R87, R88). -/

namespace Sys2Proof.Machine

/-! ### Queue descriptors -/

/-- The parse core writes hardware bytes of a descriptor. -/
def setQueue (s : State) (d q off : Nat) (b : List Byte) : State := s.unitWrite d (queueAddr s d q + off) b
/-! ### The scalar access (R294) -/

/-- The frame an access needs on its own die: none for a store or atomic that goes to another home. -/
def needsFrame (k : AccKind) (d : Nat) (p : Placed) : Bool :=
  match k with
  | .load => true
  | .store => p.req.pcoh || p.req.home.val = d
  | .atomic => p.req.home.val = d

/-- Bring the frame for an access. -/
def bring (s : State) (k : AccKind) (d : Nat) (p : Placed) : Touch :=
  if needsFrame k d p then touch s d p.req (writes k) else .ok s

/-- The access meets a fill fault (R53): of its own die's fill, or of the home's where it is sent there. -/
def fillFaults (s : State) (k : AccKind) (d : Nat) (p : Placed) : Bool := fillFaultAt s (if needsFrame k d p then d else p.req.home) p
/-- The poison that an access consumes (R172): a load's, and an atomic's here or at its home. -/
def accessPoison (s : State) (k : AccKind) (d : Nat) (p : Placed) (n : Nat) : Option W32 :=
  if k = .store then none else if needsFrame k d p then loadPoison s d p 0 n else sectorPoison s p.pa
/-- The cluster's near cache serves the access: it holds the tile, and owns it for a write (R162). -/
def nearHit (s : State) (who : Who) (k : AccKind) (p : Placed) : Bool :=
  (s.frame? who.d p.req.tile).any fun f => f.sharers.getLsbD who.cluster && (!writes k || f.ncown)
/-- Count an access that goes to the tile cache (R59). -/
def countMiss (s : State) (who : Who) (va : W64) (access launch : Nat) (k : AccKind) (p : Placed) : State :=
  if nearHit s who k p then s else countAccess s who va access launch p

/-- The outcome of one placed scalar access: what is in storage, what another package or host answers, a wake address, the wave's own image (R222). -/
structure ScalarDo where
  here : State → Who → Placed → Wave → Out
  away : State → Who → Wave → Away → Out
  door : State → Who → Wave → Nat → Nat → Out
  image : State → Wave → Nat → Out

/-- A scalar access of n bytes at va (R294): it waits where R178 and R180 order it; fill fault, alignment and watch entries are looked at first, then a page
fault parks, then a violation freezes the cluster; poison is consumed last (R233). -/
def scalarMem (i : Instr) (k : AccKind) (va : W64) (n access : Nat) (s : State) (w : Wave) (act : ScalarDo) : Out :=
  let who := waveWho s w
  let p := place s who k va n none w.launch
  let faulty := match p with | .ok q => fillFaults s k who.d q | _ => false
  let tileVa : W64 := BitVec.ofNat 64 (va.toNat / 2048 * 2048)
  if scalarHeld w then stallScalar s w
  else if faulty then trapScalar s w i 0x0B tileVa
  else if va.toNat % n ≠ 0 then trapScalar s w i 0x05 va
  else match scalarWatch s w i k va n with
    | some o => o
    | none =>
      let s := cachePage s who.d who.cluster who.pindex who.pid va
      match p, ownImage w va with
      | .page r, _ => parkScalar s i access va (some r)
      | .blocked, _ => parkScalar s i access va none
      | _, some off => act.image s w off
      | .frozen pa, none => .next (freezeCluster s who.d who.cluster pa (waveName s w 0 none) s.focus)
      | .foreign pkg pa, none => act.away s who w (.foreign pkg pa)
      | .host d c, none => act.away s who w (.host d c)
      | .door d off, none => act.door s who w d off
      | .ok q, none =>
        if k = .load && atomicPending s who.d s.focus q.req.base (q.pa - q.req.base) n then stallScalar s w
        else match bring s k who.d q with
        | .fault s => trapScalar s w i 0x0B tileVa
        | .wait s => stallScalar s w
        | .ok s =>
          let s := countMiss s who va access w.launch k q
          match accessPoison s k who.d q n with
          | some origin => trapScalar s w i 0x09 va 0 origin
          | none => act.here (if needsFrame k who.d q then nearTouch s who.d who.cluster q.req.tile false else s) who q w

/-- A scalar load completes with v on its way to s(d), which is empty until it lands (R218). -/
def landScalar (s : State) (w : Wave) (d : BitVec 6) (v : W64) (n : Nat) : Out :=
  if d = 0 then doneS s w n
  else .next (addLanding (s.setWave s.focus (stepPc (setEmptyS w d) n)) s.focus
    { scalar := some (d, v), fullS := [d.toNat] })

end Sys2Proof.Machine
end

