-- ==== Sys2Proof/Machine/Tensor.lean ====
section
/-! DEFINITION. Shape records and their checks (R155 to R158), the tiles and elements of a bound tensor (R157, R366), and
wide scalar reads such as that of a record (R302, R312, R319, R320). -/

namespace Sys2Proof.Machine

/-! ### Shape records (R155) -/

def recNat (r : Record) (off n : Nat) : Nat := leNat (bytesAt r.bytes off n)
def Record.tid (r : Record) : BitVec 20 := BitVec.ofNat 20 (recNat r 0 4)
def Record.efmt (r : Record) : Nat := recNat r 4 1
def Record.rank (r : Record) : Nat := recNat r 5 1
def Record.pcoh (r : Record) : Bool := bit (recNat r 6 1) 0
def Record.halo (r : Record) : Bool := bit (recNat r 6 1) 1
def Record.pfrad (r : Record) : Nat := recNat r 7 1
def Record.base (r : Record) : Nat := recNat r 8 8
def Record.dim (r : Record) (d : Nat) : Nat := recNat r (16 + 4 * d) 4
def Record.tlog (r : Record) (d : Nat) : Nat := recNat r (32 + d) 1
def Record.ext (r : Record) (d : Nat) : Nat := 2 ^ r.tlog d
def Record.hw (r : Record) (d : Nat) : Nat := recNat r (36 + d) 1
/-- The byte distance between tiles adjacent in dimension d. -/
def Record.stride (r : Record) (d : Nat) : Nat := if d = 0 then 2048 else recNat r (40 + 8 * d) 8
def Record.sidebase (r : Record) : Nat := recNat r 72 8
/-- The tiles along dimension d. -/
def Record.count (r : Record) (d : Nat) : Nat := (r.dim d + r.ext d - 1) / r.ext d

/-- The bits of an element (R156); 0 for a reserved EFMT. -/
def efmtBits : Nat → Nat
  | 0x01 => 8 | 0x02 => 8 | 0x03 => 16 | 0x04 => 16 | 0x05 => 32 | 0x06 => 32 | 0x07 => 64 | 0x08 => 64
  | 0x09 => 16 | 0x0A => 16 | 0x0B => 32 | 0x0C => 64 | 0x0D => 8 | 0x0E => 8 | 0x0F => 8 | 0x10 => 4
  | _ => 0

def dims : List Nat := [0, 1, 2, 3]

/-- The log2 of the elements of a tile that a record's TLOG fields give. -/
def Record.tileLog (r : Record) : Nat := (dims.map r.tlog).sum

/-- The checks of R158 that the record alone decides. -/
def Record.ok (r : Record) : Bool :=
  bitsOf (recNat r 0 4) 31 20 = 0 && bitsOf (recNat r 6 1) 7 2 = 0 && recNat r 40 8 = 0 && recNat r 80 48 = 0 &&
    efmtBits r.efmt ≠ 0 && decide (1 ≤ r.rank) && decide (r.rank ≤ 4) && decide (r.pfrad ≤ 3) && r.base % 2048 = 0 &&
    (dims.all fun d => decide (1 ≤ r.dim d) && (decide (d < r.rank) || r.dim d = 1)) &&
    (if r.efmt = efmtG8 then r.sidebase % 64 = 0 else r.sidebase = 0) &&
    decide (r.tileLog ≤ 12) && 2 ^ r.tileLog * efmtBits r.efmt = 16384 &&
    (dims.all fun d => r.stride d % 2048 = 0 && decide (r.hw d ≤ 16) && decide (r.hw d ≤ r.ext d) &&
      decide (r.count d ≤ 4096)) &&
    decide ((dims.map fun d => 2 * r.hw d * 2 ^ (12 - r.tlog d)).sum ≤ 4096)

/-- The checks of R158 against the tensor table, read from the home die. Entry index 0 is reserved (R152). -/
def Record.entryOk (s : State) (r : Record) (pid : W32) : Bool :=
  let t := r.tid
  let b := s.entryNat t 14 1
  s.ctlBits (tensorHome t) 0x5C00 0 0 = 1 && t.toNat % 4096 ≠ 0 && bit b 0 && bitsOf b 6 2 = t.toNat / 4096 % 32 &&
    s.entryNat t 0 8 = r.addr.toNat && s.entryNat t 8 4 = pid.toNat && s.entryNat t 15 1 % 8 = tensorHome t &&
    bit b 1 = r.pcoh

/-- The record that bytes 0 to 127 at an address form. -/
def recordAt (va : W64) (bytes : List Byte) : Record := { addr := va, bytes := putBytes [] (atOffsets 0 bytes) }

/-- The record bound in a slot of a wave's team. -/
def slotOf (s : State) (w : Wave) (n : Nat) : Option Record := mfind (s.team (teamKey w.launch w.team)).slots n
def setSlot (s : State) (w : Wave) (n : Nat) (r : Record) : State :=
  s.modTeam (teamKey w.launch w.team) fun t => { t with slots := mset t.slots n r }

/-! ### Tiles and elements (R157, R366) -/

/-- A tile lies inside the tensor. -/
def Record.inside (r : Record) (c : Nat → Nat) : Bool := dims.all fun d => decide (c d < r.count d)
/-- The virtual address of a tile's first payload byte. -/
def Record.tileVa (r : Record) (c : Nat → Nat) : Nat := (r.base + (dims.map fun d => r.stride d * c d).sum) % 2 ^ 64
/-- A tile of the tensor as an access names it. -/
def Record.tile (r : Record) (c : Nat → Nat) : ElemTile :=
  let va := r.tileVa c
  { tile := ⟨r.tid, packCoord c⟩, va := va, nq4 := r.efmt = efmtNq4,
    side := if r.efmt = efmtG8 then (r.sidebase + (va + 2 ^ 64 - r.base) % 2 ^ 64 / 32) % 2 ^ 64 else 0 }
/-- The tile that a packed coordinate names: none outside the tensor or with a bit in 63:48 (R372, R382). -/
def Record.packed? (r : Record) (x : W64) : Option ElemTile :=
  let c (d : Nat) : Nat := bitsOf x.toNat (12 * d + 11) (12 * d)
  if x.toNat / 2 ^ 48 = 0 && r.inside c then some (r.tile c) else none
/-- The index of an element within its tile. -/
def Record.index (r : Record) (f : Nat → Nat) : Nat :=
  ((f 3 * r.ext 2 + f 2) * r.ext 1 + f 1) * r.ext 0 + f 0
/-- The tile of an element and the element's byte offset in it; none for a negative or an outside one. -/
def Record.element? (r : Record) (e : Nat → Int) : Option (ElemTile × Nat) :=
  let c (d : Nat) : Nat := (e d).toNat / r.ext d
  if (dims.all fun d => decide (0 ≤ e d)) && r.inside c then
    some (r.tile c, r.index (fun d => (e d).toNat % r.ext d) * efmtBits r.efmt / 8)
  else none

/-! ### Wide scalar reads -/

/-- Bytes of the answers that lie outside the package's storage (assumption 4). -/
def foreignBytes (s : State) : Nat → State × List Byte
  | 0 => (s, [])
  | n + 1 =>
    let (s, v) := foreignValue s 1
    let (s, l) := foreignBytes s n
    (s, leBytes 1 v ++ l)
/-- Read n bytes for a scalar instruction as one access, and go on with them. -/
def wideRead (i : Instr) (va : W64) (n : Nat) (s : State) (w : Wave) (k : State → Wave → List Byte → Out) : Out :=
  scalarMem i .load va n 3 s w
    { here := fun s who p w => k s w (loadBytes s who.d p 0 n)
      away := fun s who w x => let (s, l) := foreignBytes (sendAway s who.d .load [] s.focus x) n; k s w l
      image := fun s w off => if (List.range n).any fun k => imageWaits w (off + k) then stallScalar s w else k s w (imageBytes w off n)
      door := fun s _ w d off => k s w (doorBytes s d off n) }

end Sys2Proof.Machine
end

