-- ==== Sys2Proof/Machine/Blocks.lean ====
section
/-! DEFINITION. Lane blocks and splits (R223 to R227), barriers (R305 to R308, R378 to R380), asynchronous traps (R237,
R306) and copy batches (R303, R304): what the control instructions share. -/

namespace Sys2Proof.Machine

/-! ### Blocks (R223) -/

/-- The numbers of the splits that the running block may use. -/
def blockSplits (w : Wave) : List Nat := if w.c.intrap then [4] else [0, 1, 2, 3]
/-- The valid splits of the running block. -/
def validSplits (w : Wave) : List Nat := (blockSplits w).filter fun n => (getSplit w n).valid

/-- Start an iteration of the block in entry e: one split with all lanes at the entry offset. -/
def startIteration (w : Wave) (e : Nat) : Wave :=
  let x : Split := { lpc := (getEntry w e).off, mask := BitVec.allOnes 32, valid := true }
  if e = 4 then setSplit w 4 x else setSplit (setSplit (setSplit (setSplit w 1 {}) 2 {}) 3 {}) 0 x

/-- The block of entry e ends: the next one of the queue, if any, starts (R223, R235). -/
def endBlock (w : Wave) (e : Nat) : Wave :=
  let w := setEntry w e {}
  match decide (e = 4) with
  | true =>
    let w := setSplit w 4 {}
    let c := w.c
    { w with c := { c with hq := false, harv := false, haph := false } }
  | false =>
    let c := w.c
    let w := { w with c := { c with qhead := c.qhead + 1, qcnt := c.qcnt - 1 } }
    if w.c.qcnt = 0 then w else startIteration w w.c.qhead.toNat

/-- No split is valid any more: the next iteration, or the end of the block. -/
def endIteration (w : Wave) : Wave :=
  let e := headEntry w
  let x := getEntry w e
  if x.iter.toNat < x.rep.toNat then startIteration (setEntry w e { x with iter := x.iter + 1 }) e else endBlock w e

/-- The lanes of split n end for this iteration (R227). -/
def endLanes (w : Wave) (n : Nat) : Wave :=
  let x := getSplit w n
  let w := match x.stack with
    | [] => setSplit w n { x with valid := false, parked := false }
    | e :: l =>
      if !e.phase then setSplit w n { x with mask := e.pmask, lpc := e.ppc, stack := { e with pmask := 0, phase := true } :: l }
      else setSplit w n { x with mask := e.pmask, lpc := e.rpc, stack := l }
  if (validSplits w).isEmpty then endIteration w else w

/-- A split whose mask has become 0 ends at once, as often as its stack gives another empty mask (R227). -/
def endEmpty (n : Nat) : Nat → Wave → Wave
  | 0, w => w
  | fuel + 1, w =>
    if (getSplit w n).valid && (getSplit w n).mask = 0 then endEmpty n fuel (endLanes w n) else w

/-- This LEND would end the block with its result register unwritten (R223). -/
def resultMissing (w : Wave) (n : Nat) : Bool :=
  let e := getEntry w (headEntry w)
  (getSplit w n).stack.isEmpty && decide (validSplits w = [n]) && e.iter = e.rep && e.res ≠ 0 && !e.resw

/-! ### Reconvergence (R226, R379) -/

/-- Split n waits at a BAR (R379). -/
def waitsBar (w : Wave) (n : Nat) : Bool := if n = 4 then w.c.harv else w.c.arv.getLsbD n

/-- First step of R226 for one split: the stack entry whose point is reached. -/
def popStack (w : Wave) (n : Nat) : Option Wave :=
  let x := getSplit w n
  match x.stack with
  | [] => none
  | e :: l =>
    if x.valid && x.lpc = e.rpc && !waitsBar w n then
      if !e.phase then some (setSplit w n { x with mask := e.pmask, lpc := e.ppc, stack := { e with pmask := x.mask, phase := true } :: l })
      else some (setSplit w n { x with mask := x.mask ||| e.pmask, stack := l })
    else none

/-- The entries two chains share, counted from the outermost. -/
def commonChain (a b : List (W32 × BitVec 4)) : List (W32 × BitVec 4) :=
  (((a.reverse.zip b.reverse).takeWhile fun p => p.1.2 = p.2.2).map Prod.fst).reverse

/-- Second step of R226 for a pair: equal counters and empty stacks merge into the lower-numbered. -/
def mergePair (w : Wave) (i j : Nat) : Option Wave :=
  let x := getSplit w i
  let y := getSplit w j
  if x.valid && y.valid && x.lpc = y.lpc && x.stack.isEmpty && y.stack.isEmpty && !waitsBar w i && !waitsBar w j then
    some (setSplit (setSplit w i
      { x with mask := x.mask ||| y.mask, chain := commonChain x.chain y.chain, parked := false }) j {})
  else none

/-- The split stands at its innermost reconvergence point. -/
def atChain (x : Split) : Option ((W32 × BitVec 4) × List (W32 × BitVec 4)) :=
  match x.chain with
  | (rcv, tag) :: l => if x.lpc = rcv then some ((rcv, tag), l) else none
  | [] => none

/-- Third step of R226 for one split: at its reconvergence point it parks while the tag is held, else pops it. -/
def popChain (w : Wave) (n : Nat) : Option Wave :=
  let x := getSplit w n
  if !x.valid || waitsBar w n then none
  else match atChain x with
    | none => if x.parked then some (setSplit w n { x with parked := false }) else none
    | some ((_, tag), l) =>
      if (validSplits w).any fun m => m ≠ n && (getSplit w m).chain.any fun c => c.2 = tag then
        if x.parked then none else some (setSplit w n { x with parked := true })
      else some (setSplit w n { x with chain := l, parked := false })

/-- The first rule that changes something. -/
def firstSome : List (Option Wave) → Option Wave
  | [] => none
  | some w :: _ => some w
  | none :: l => firstSome l

/-- One change by the steps of R226, if any applies. -/
def reconvergeOnce (w : Wave) : Option Wave :=
  firstSome ([0, 1, 2, 3].map (popStack w) ++
    [(0, 1), (0, 2), (0, 3), (1, 2), (1, 3), (2, 3)].map (fun p => mergePair w p.1 p.2) ++ [0, 1, 2, 3].map (popChain w))

/-- The steps of R226 until none changes anything. -/
def reconverge : Nat → Wave → Wave
  | 0, w => w
  | fuel + 1, w => match reconvergeOnce w with
    | some w' => reconverge fuel w'
    | none => w

/-! ### Barriers (R116, R308, R379) -/

def popcount {n : Nat} (v : BitVec n) : Nat := ((List.range n).filter fun i => v.getLsbD i).length
def getBar (s : State) (team b : Nat) : Barrier := mget {} (s.team team).bars b
def setBar (s : State) (team b : Nat) (x : Barrier) : State := s.modTeam team fun t => { t with bars := mput {} t.bars b x }

/-- Evaluate a barrier: the phase flips when all arrivals are in and no byte is pending. -/
def evalBar (x : Barrier) : Barrier :=
  let full := if x.lane then x.remain = 0 else popcount x.arrived = popcount x.members
  if x.opened && full && x.pending = 0 then
    { x with phase := !x.phase, arrived := 0, opened := false, members := 0, lane := false, remain := 0 }
  else x

/-- A completion subtracts its byte count from a barrier of its team (R195). -/
def countBar (s : State) (team b bytes : Nat) : State :=
  match s.team? team with
  | none => s
  | some t =>
    if t.phase = .ended || t.phase = .done then s
    else let x := getBar s team b; setBar s team b (evalBar { x with pending := x.pending - BitVec.ofNat 64 bytes })

/-- The lane mask of a lane-mode barrier: bytes 8 to 11 (R378). -/
def laneM (x : Barrier) : W32 := x.members ++ x.arrived

/-! ### Asynchronous traps (R237, R306) -/

/-- Post a trap that a wave takes at its next issue decision outside a park and a handler. -/
def postAsync (w : Wave) (x : AsyncTrap) : Wave :=
  let l := w.asyncs ++ [x]
  { w with asyncs := l, c := { w.c with apend := true, acause := match l with | y :: _ => y.tcause.extractLsb' 0 8 | [] => 0 } }

/-- The object after a mismatch (R306, R380): phase and pending bytes stay. -/
def clearBar (x : Barrier) : Barrier := { x with arrived := 0, opened := false, members := 0, lane := false, remain := 0 }

/-- A word of code that a wave would fetch. -/
inductive Fetch where
  | word (w : W32)
  | page (reason : Nat)
  | blocked
  | frozen (pa : Nat)
  /-- in another package or behind a host port -/
  | away (x : Away)
  /-- the fill of its tile is a fill fault (R53): the VA of the tile's first byte -/
  | faulty (va : W64)
  /-- the home die of its tile does not answer -/
  | waits
  deriving DecidableEq, Repr

/-- Fetch a word through the execute right of its stream (R200, R275): 3 is scalar, 4 is lane. -/
def fetchWord (s : State) (w : Wave) (va : W64) (right : Nat) : Fetch :=
  let who := waveWho s w
  match translate s who.d who.cluster who.pindex who.pid va [right] with
  | .fail r => .page r
  | .blocked => .blocked
  | .ok pa leaf pkg =>
    if pkg ≠ s.pkg then .away (.foreign pkg pa)
    else match s.locate pa with
      | .cached home c =>
        let here := (s.frame? who.d (flatTile pa)).isSome
        if inFirmware pa then .frozen pa
        else if !here && bit leaf.toNat 7 ≠ (codeRegion? s home (pa / 2048 * 2048)).isSome then
          .faulty (BitVec.ofNat 64 (va.toNat / 2048 * 2048))
        else if !here && dieDown s home then .waits
        else if isHostCell c && (s.frameAt? home (pa / 2048 * 2048)).isNone then .away (.host home c)
        else .word (BitVec.ofNat 32 (s.peekNat who.d pa 4))
      | .host e c => .away (.host e c)
      | _ => .frozen pa

/-- The barrier and the bits of the BAR at an offset of the lane code, if one stands there. -/
def barAt (s : State) (w : Wave) (lpc : W32) : Option (Nat × BitVec 96) :=
  let va : W64 := w.y.lanebase + lpc.zeroExtend 64
  match fetchWord s w va 4, fetchWord s w (va + 4) 4, fetchWord s w (va + 8) 4 with
  | .word a, .word b, .word c => match decodeLane (c ++ b ++ a) with
    | some (.bar f) => some (f.x.toNat % 64, c ++ b ++ a)
    | _ => none
  | _, _, _ => none

/-- The valid splits of a wave whose LPC names a BAR on b, with the BAR's bits, in ascending order. -/
def splitsAtBar (s : State) (w : Wave) (b : Nat) : List (Nat × BitVec 96) :=
  (validSplits w).filterMap fun n => match barAt s w (getSplit w n).lpc with
    | some (b', bits) => if b' = b then some (n, bits) else none
    | none => none

/-- Clear the lane-barrier state of a split: its ARV bit, or HARV for the handler split (R379). -/
def clearArv (w : Wave) (n : Nat) : Wave :=
  if n = 4 then { w with c := { w.c with harv := false } }
  else { w with c := { w.c with arv := w.c.arv &&& ~~~(BitVec.twoPow 4 n) } }

/-- What a mismatch at a lane-mode object does to a wave of the team (R380): its splits at the BAR have not arrived, and
another wave than the mismatching one takes the trap. -/
def mismatchLane (s : State) (b : Nat) (self : Bool) (w : Wave) : Wave :=
  let l := splitsAtBar s w b
  let w := l.foldl (fun w p => clearArv w p.1) w
  match l with
  | [] => w
  | (n, bits) :: _ =>
    if self then w
    else
      let x := getSplit w n
      postAsync w
        { tcause := causeBits 0x07 0 false false 0, inst := bits, tlpc := w.y.lanebase + x.lpc.zeroExtend 64, tamask := x.mask,
          tfmask := x.mask, taddr := BitVec.ofNat 64 b, split := n }

/-- A membership mismatch on barrier b by the wave in focus with instruction `inst` (R306, R380): what it does beside the
trap of that wave. -/
def mismatch (s : State) (team b : Nat) (inst : BitVec 96) : State :=
  let x := getBar s team b
  let hit (p : Nat × Wave) : Nat × Wave :=
    if p.1 / 16 ≠ team || p.2.ended then p
    else if x.lane then (p.1, mismatchLane s b (p.1 = s.focus) p.2)
    else if x.arrived.getLsbD p.2.idx && p.1 ≠ s.focus then
      (p.1, postAsync p.2 { tcause := causeBits 0x07 0 true false 0, inst := inst, taddr := BitVec.ofNat 64 b })
    else p
  setBar { s with waves := s.waves.map hit } team b (clearBar x)

/-- The oldest pending trap of a wave is taken (R237, R306, R380): at an issue decision outside a park and a handler. -/
def takeAsync (s : State) (key : Nat) : State :=
  match s.wave? key with
  | none => s
  | some w =>
    match w.asyncs with
    | [] => s
    | x :: l =>
      if w.c.intrap || w.park.isSome then s
      else
        let c := { w.c with apend := !l.isEmpty, acause := match l with | y :: _ => y.tcause.extractLsb' 0 8 | [] => 0 }
        enterTrap (s.setWave key { w with asyncs := l, c := c }) key
          { tcause := x.tcause, tspc := w.c.pc, tlpc := x.tlpc, tamask := x.tamask, tfmask := x.tfmask, inst := x.inst,
            taddr := x.taddr, split := x.split }

/-- A split that waits at a BAR observes the flip (R379): it steps past the BAR, which is an acquire. -/
def observeBar (s : State) (w : Wave) (n : Nat) : Wave :=
  let x := getSplit w n
  if !x.valid || !waitsBar w n then w
  else match barAt s w x.lpc with
    | none => w
    | some (b, _) =>
      let aph := if n = 4 then w.c.haph else w.c.aph.getLsbD n
      if (getBar s (teamKey w.launch w.team) b).phase = aph then w
      else dropPrefetch (setSplit (clearArv w n) n { x with lpc := x.lpc + 12 })

/-- What a wave does before a choice of split (R226, R379). -/
def settle (s : State) (w : Wave) : Wave :=
  let w := (blockSplits w).foldl (observeBar s) w
  if w.c.intrap then w else reconverge 64 w

/-! ### Copy batches (R303, R304) -/

/-- bdone advances over the closed batches whose copies have all completed. -/
def advanceBatches : List (W64 × List Nat) → W64 → List (W64 × List Nat) × W64
  | [], n => ([], n)
  | (k, ids) :: l, n => if ids.isEmpty then advanceBatches l k else ((k, ids) :: l, n)
def settleBatches (w : Wave) : Wave :=
  let (l, n) := advanceBatches w.batches w.y.bdone
  { w with batches := l, y := { w.y with bdone := n } }
/-- A copy of the wave has completed or was discarded. -/
def copyDone (w : Wave) (id : Nat) : Wave :=
  settleBatches { w with
    pendCopies := w.pendCopies.filter fun k => k ≠ id,
    batches := w.batches.map fun b => (b.1, b.2.filter fun k => k ≠ id) }

/-! ### Writing a wave's image to memory (R114, R314, R377) -/

/-- The bytes of the whole image that are not zero, by offset. -/
def imageSparse (w : Wave) : List (Nat × Byte) :=
  imageData w ++ (w.r.side.map fun p => (w.winsize * 128 + p.1, p.2)) ++
    ((atOffsets (w.winsize * 132) (sysBlock w)).filter fun p => p.2 ≠ 0)

/-- Write a wave's image out: data and side areas and system block. -/
def syncImage (s : State) (w : Wave) : State :=
  writeVirtual (waveWho s w) w.ctxbase.toNat (imageSize w) (imageSparse w) s
/-- What reaches a wave after its team was suspended is put into its image too (R114). -/
def syncStopped (s : State) (key : Nat) : State :=
  match s.wave? key with
  | none => s
  | some w => match (s.team (key / 16)).phase with
    | .suspended | .moving => if w.ended then s else syncImage s w
    | _ => s
/-- The same for an instruction of the wave: nothing follows it until the writes that leave the die are acknowledged (R313, R377). -/
def syncHere (s : State) (key : Nat) (w : Wave) : State :=
  let d := (waveWho s w).d
  let n := (s.die d).cache.pend.length
  (syncImage s w).modCache d fun c => { c with pend := c.pend.take n ++ (c.pend.drop n).map fun p => { p with wave := key, acq := true } }

end Sys2Proof.Machine
end

