-- ==== Sys2Proof/Machine/ScalarCtl.lean ====
section
/-! DEFINITION. Scalar control flow, the feeding of the lane queue, streams, copy batches and team barriers (R298 to
R308). -/

namespace Sys2Proof.Machine

/-- A scalar instruction that goes on at pc. -/
def jumpS (s : State) (w : Wave) (pc : W64) : Out :=
  let w := unsuppress w 7
  .next (s.setWave s.focus { w with c := { w.c with pc := pc } })

/-- The wait of LDRAIN (R301), then the rest of the instruction. -/
def afterDrain (s : State) (k : Wave → Out) (w : Wave) : Out := if drained w then k w else stallScalar s w

/-- A conditional branch (R298). -/
def branchOp (i : Instr) (a b : BitVec 6) (off : BitVec 14) (c : W64 → W64 → Bool) (s : State) : Out :=
  scalarOp i [a, b] none s fun w =>
    if c (sreg w a) (sreg w b) then jumpS s w (w.c.pc + off.signExtend 64 <<< 2) else doneS s w 4

/-- BEQ (R298). -/
def execBeq (a b : BitVec 6) (off : BitVec 14) (s : State) : Out := branchOp (.beq a b off) a b off (fun x y => x = y) s
/-- BNE (R298). -/
def execBne (a b : BitVec 6) (off : BitVec 14) (s : State) : Out := branchOp (.bne a b off) a b off (fun x y => x ≠ y) s
/-- BLT (R298), signed. -/
def execBlt (a b : BitVec 6) (off : BitVec 14) (s : State) : Out := branchOp (.blt a b off) a b off (fun x y => x.slt y) s
/-- BGE (R298), signed. -/
def execBge (a b : BitVec 6) (off : BitVec 14) (s : State) : Out := branchOp (.bge a b off) a b off (fun x y => !x.slt y) s
/-- BLTN (R298), unsigned. -/
def execBltn (a b : BitVec 6) (off : BitVec 14) (s : State) : Out := branchOp (.bltn a b off) a b off (fun x y => x.ult y) s
/-- BGEN (R298), unsigned. -/
def execBgen (a b : BitVec 6) (off : BitVec 14) (s : State) : Out := branchOp (.bgen a b off) a b off (fun x y => !x.ult y) s
/-- JMP (R299): PC := PC + 4 × sext(off26). -/
def execJmp (off : BitVec 26) (s : State) : Out :=
  scalarOp (.jmp off) [] none s fun w => jumpS s w (w.c.pc + off.signExtend 64 <<< 2)
/-- CALL (R299): s63 := PC + 4, then as JMP. -/
def execCall (off : BitVec 26) (s : State) : Out :=
  scalarOp (.call off) [] (some 63) s fun w => jumpS s (setS w 63 (w.c.pc + 4)) (w.c.pc + off.signExtend 64 <<< 2)
/-- JR (R299): PC := s(a); a misaligned target traps with cause 0x05. -/
def execJr (a : BitVec 6) (s : State) : Out :=
  scalarOp (.jr a) [a] none s fun w =>
    if (sreg w a).extractLsb' 0 2 ≠ 0 then trapScalar s w (.jr a) 0x05 (sreg w a) else jumpS s w (sreg w a)

/-! ### The lane queue (R223, R300, R301) -/

/-- The entry an LBLK fills; none while it must wait (R223, R235). -/
def freeEntry (w : Wave) : Option Nat :=
  if w.c.intrap then if w.c.hq then none else some 4
  else if w.c.qcnt = 4 then none else some ((w.c.qhead.toNat + w.c.qcnt.toNat) % 4)

/-- Put a block into entry e; the first of its queue starts (R223). -/
def enqueue (w : Wave) (e : Nat) (x : QEntry) : Wave :=
  let w := setEntry w e x
  if e = 4 then startIteration { w with c := { w.c with hq := true } } 4
  else
    let w' : Wave := { w with c := { w.c with qcnt := w.c.qcnt + 1 } }
    if w.c.qcnt = 0 then startIteration w' e else w'

/-- LBLK (R300): snapshot the parameters, mark s(d) empty, enqueue the block. -/
def execLblk (d a : BitVec 6) (count : BitVec 4) (rep : BitVec 10) (lit : W32) (s : State) : Out :=
  let i := Instr.lblk d a count rep lit
  let par (k : Nat) : BitVec 6 := a + BitVec.ofNat 6 k
  scalarOp i ((List.range count.toNat).map par) (some d) s fun w =>
    if lit.toNat % 4 ≠ 0 then trapScalar s w i 0x05 (w.y.lanebase + lit.zeroExtend 64)
    else match freeEntry w with
      | none => stallScalar s w
      | some e =>
        let x : QEntry :=
          { bp := (List.range count.toNat).foldl (fun m k => mput 0 m k (sreg w (par k))) []
            off := lit, rep := rep, res := d, npar := count, valid := true }
        doneS s (enqueue (setEmptyS w d) e x) 8
/-- LDRAIN (R301). -/
def execLdrain (s : State) : Out := scalarOp .ldrain [] none s (afterDrain s fun w => doneS s w 4)

/-! ### Streams (R228, R302) -/

/-- The stream that 32 bytes of a table entry describe; none with a non-zero reserved field. -/
def streamOf (b : List Byte) : Option Stream :=
  let n (off k : Nat) : Nat := leNat ((b.drop off).take k)
  if n 16 4 = 0 && n 22 1 / 16 = 0 && n 23 9 = 0 then
    some { base := BitVec.ofNat 64 (n 0 8), sstride := BitVec.ofNat 32 (n 8 4), count := BitVec.ofNat 32 (n 12 4),
           lstride := BitVec.ofNat 16 (n 20 2), etype := BitVec.ofNat 3 (n 22 1), dir := bit (n 22 1) 3, bound := true }
  else none
def setStream (w : Wave) (q : Nat) (x : Stream) : Wave := { w with r := { w.r with q := mput {} w.r.q q x } }
def getStream (w : Wave) (q : Nat) : Stream := mget {} w.r.q q

/-- STBIND (R302): bind q(n) to the stream-table entry at s(a) + sext(imm14). -/
def execStbind (q : BitVec 3) (a : BitVec 6) (i : BitVec 14) (s : State) : Out :=
  let ins := Instr.stbind q a i
  scalarOp ins [a] none s (afterDrain s fun w =>
    wideRead ins (sreg w a + i.signExtend 64) 32 s w fun s w b =>
      match streamOf b with
      | none => trapScalar s w ins 0x0B 0
      | some x => doneS s (setStream w q.toNat x) 4)
/-- STREL (R302): clear BOUND. -/
def execStrel (q : BitVec 3) (s : State) : Out :=
  scalarOp (.strel q) [] none s (afterDrain s fun w =>
    doneS s (setStream w q.toNat { getStream w q.toNat with bound := false, pre := [] }) 4)

/-! ### Copy batches (R303, R304) -/

/-- BCLOSE (R303): the pending copies become batch n := sys.batch + 1; s(d) := n. -/
def execBclose (d : BitVec 6) (s : State) : Out :=
  scalarOp (.bclose d) [] (some d) s fun w =>
    let n := w.y.batch + 1
    let w : Wave := { w with batches := w.batches ++ [(n, w.pendCopies)], pendCopies := [], y := { w.y with batch := n } }
    doneS s (setS (settleBatches w) d n) 4
/-- BWAIT (R304): wait until sys.bdone ≥ min(s(a), sys.batch). -/
def execBwait (a : BitVec 6) (s : State) : Out :=
  scalarOp (.bwait a) [a] none s fun w =>
    if min (sreg w a).toNat w.y.batch.toNat ≤ w.y.bdone.toNat then doneS s w 4 else stallScalar s w

/-! ### Team barriers (R305 to R308) -/

/-- BARARR (R305): arrive with the membership mask of s(a). -/
def execBararr (b a : BitVec 6) (s : State) : Out :=
  let i := Instr.bararr b a
  scalarOp i [a] none s fun w =>
    if releaseWaits s w 2 then stallScalar s w
    else
    let team := teamKey w.launch w.team
    let m := (sreg w a).extractLsb' 0 16
    let x := getBar s team b.toNat
    let y := if x.opened then x else { x with members := m, opened := true }
    if x.lane || m ≠ y.members || !m.getLsbD w.idx || y.arrived.getLsbD w.idx then
      let s := mismatch (setBar s team b.toNat y) team b.toNat (instBits i)
      onWave s fun w => trapScalar s w i 0x07 (b.zeroExtend 64)
    else
      doneS (setBar s team b.toNat (evalBar { y with arrived := y.arrived ||| BitVec.twoPow 16 w.idx })) w 4
/-- BARWAIT (R307): wait until the phase equals s(a) bit 0. -/
def execBarwait (b a : BitVec 6) (s : State) : Out :=
  scalarOp (.barwait b a) [a] none s fun w =>
    if (getBar s (teamKey w.launch w.team) b.toNat).phase = (sreg w a).getLsbD 0 then doneS s (dropPrefetch w) 4
    else stallScalar s w
/-- BAREXP (R308): add s(a) to the pending bytes and evaluate. -/
def execBarexp (b a : BitVec 6) (s : State) : Out :=
  scalarOp (.barexp b a) [a] none s fun w =>
    let team := teamKey w.launch w.team
    let x := getBar s team b.toNat
    doneS (setBar s team b.toNat (evalBar { x with pending := x.pending + sreg w a })) w 4

end Sys2Proof.Machine
end

