-- ==== Sys2Proof/Machine/Lanes.lean ====
section
/-! DEFINITION. What every lane instruction shares (R224, R233, R322 to R324): the order of its checks, its sources, its
accesses lane by lane with their parks and replays (R208, R367), and its completion. -/

namespace Sys2Proof.Machine

/-- What a lane instruction uses: the sources it reads with their width, the registers it writes, registers it names
beside these, registers it reaches by a count (`more` are read, with their trap mode, `dstMore` are
written, `range` are neither), registers that may
not lie in a defined group (R356), whether it writes %res, whether it needs every lane at once, and what makes it illegal
in the state of the wave. -/
structure Shape where
  op : Nat
  f : LaneFields
  srcs : List (Src × Bool) := []
  dst : List Nat := []
  dstMore : List Nat := []
  named : List Nat := []
  more : List (Nat × Bool) := []
  range : List Nat := []
  noGroup : List Nat := []
  res : Bool := false
  cross : Bool := false
  early : Wave → Bool := fun _ => false
  /-- what lanes of E read beside the sources in their own lane: the lane, the line and the lane read (R172) -/
  reaches : Wave → W32 → (Nat → Nat → W64) → List (Nat × Nat × Nat) := fun _ _ _ => []

/-- The register or the pair that an operand names. -/
def pairOf (wide : Bool) (n : Nat) : List Nat := if wide then [n, n + 1] else [n]
def srcRegs : Src × Bool → List (Nat × Bool)
  | (.v n t, wide) => (pairOf wide n.toNat).map fun r => (r, t)
  | _ => []
/-- The guard's lanes (R322). -/
def guardMask (w : Wave) (f : LaneFields) : W32 := if f.ginv then ~~~(kread w f.guard.toNat) else kread w f.guard.toNat
/-- The lanes of a mask, ascending. -/
def lanesOf (m : W32) : List Nat := (List.range 32).filter fun L => m.getLsbD L
def lowestLane (m : W32) : Nat := (lanesOf m).headD 0

/-! ### UNFIN (R208, R221) -/

/-- The instruction of the split in focus is replayed for the lanes of UNFIN. -/
def ownReplay (s : State) (w : Wave) : Bool := w.c.unfin ≠ 0 && w.unfinSplit = s.split
/-- UNFIN is held by an instruction of another split that waits. -/
def unfinBusy (s : State) (w : Wave) : Bool := w.c.unfin ≠ 0 && w.unfinSplit ≠ s.split && !w.c.intrap
/-- Lanes may be left unfinished without a park. -/
def mayLeave (s : State) (w : Wave) : Bool := w.c.unfin = 0 || w.unfinSplit = s.split

/-! ### Completion -/

/-- The streams that a list of sources names, each once. -/
def streamsOf (srcs : List (Src × Bool)) : List (Nat × Bool) :=
  (srcs.filterMap fun p => match p.1 with | .stream q => some (q.toNat, p.2) | _ => none).dedup
/-- A stream is exhausted (R228). -/
def exhausted (q : Stream) : Bool := decide (q.count.toNat ≤ q.pos.toNat)
/-- POS advances by n steps, at most to COUNT; prefetches of earlier steps are dropped (R228, R381). -/
def skipStream (q : Stream) (n : Nat) : Stream :=
  let p := max q.pos.toNat (min (q.pos.toNat + n) q.count.toNat)
  { q with pos := BitVec.ofNat 32 p, pre := q.pre.filter fun e => decide (p ≤ e.1) }
/-- The instruction of the split in focus is done: its suppression and its replay end, and the LPC steps by 12. -/
def lanePass (s : State) (w : Wave) : Wave :=
  let own := ownReplay s w
  let w := unsuppress w s.split
  let c := w.c
  let w := if own then { w with c := { c with unfin := 0, prog := 0 }, unfinFull := [] } else w
  let x := getSplit w s.split
  setSplit w s.split { x with lpc := x.lpc + 12 }
/-- An instruction that acted completes: each stream it names advances by one step (R224). -/
def laneFinish (s : State) (w : Wave) (srcs : List (Src × Bool)) : Wave :=
  ((streamsOf srcs).map Prod.fst).dedup.foldl (fun w q => setStream w q (skipStream (getStream w q) 1)) (lanePass s w)
def laneDone (s : State) (w : Wave) (srcs : List (Src × Bool)) : Out := .next (s.setWave s.focus (laneFinish s w srcs))

/-! ### The start of a lane instruction (R224, R233) -/

/-- A breakpoint on the lane program counter (R122 to R124). -/
def bkLane (s : State) (w : Wave) (i : Instr) : Option Out :=
  let x := getSplit w s.split
  let pc := (w.y.lanebase + x.lpc.zeroExtend 64).toNat
  if suppressed w s.split then none
  else match bkPc s w 1 pc with
    | [] => none
    | n :: l =>
      if bkHalts s w n then some (.next (haltAt s w s.split pc pc (n :: l)))
      else
        let w := suppress w s.split
        some (trapLane (s.setWave s.focus w) w i 0x0D x.mask (BitVec.ofNat 64 pc))

/-- The first write of %res that breaks R223, with the register number. -/
def resBad (w : Wave) : Option W64 :=
  let e := getEntry w (headEntry w)
  if e.res = 0 then some 0 else if e.resw then some (e.res.zeroExtend 64) else none
/-- Write %res, which becomes full. -/
def writeRes (w : Wave) (v : W64) : Wave :=
  let e := getEntry w (headEntry w)
  setFullS (setS (setEntry w (headEntry w) { e with resw := true }) e.res v) e.res.toNat

/-- Check a lane instruction in the order of R233 up to its waits, and go on with its execute lanes. -/
def laneOp (i : Instr) (sh : Shape) (s : State) (k : State → Wave → W32 → Out) : Out :=
  onWave s fun w =>
    let x := getSplit w s.split
    let own := ownReplay s w
    let all := x.mask &&& guardMask w sh.f
    let E := if own then all &&& w.c.unfin else all
    let regs := sh.srcs.flatMap srcRegs
    let direct := regs.map Prod.fst ++ sh.dst ++ sh.named
    let read := regs ++ sh.more
    let counted := sh.more.map Prod.fst ++ sh.dstMore ++ sh.range
    let holds (n : Nat) : Bool := emptyV w n && !(own && (sh.dst ++ sh.dstMore).contains n)
    match bkLane s w i with
    | some o => o
    | none =>
      if !i.wf || (all ≠ 0 && sh.early w) then trapLane s w i 0x01 x.mask
      else if laneUniform sh.op && x.mask ≠ BitVec.allOnes 32 then trapLane s w i 0x13 x.mask
      else if direct.any fun n => decide (w.winsize ≤ n) then trapLane s w i 0x03 x.mask
      else if E = 0 then .next (s.setWave s.focus (lanePass s w))
      else if counted.any (fun n => decide (w.winsize ≤ n)) || (direct ++ counted).any (isBank w) ||
          sh.noGroup.any (fun n => isHome w n || isBank w n) then trapLane s w i 0x03 x.mask
      else match read.find? fun r => r.2 && holds r.1 with
        | some r => trapLane s w i 0x04 x.mask (BitVec.ofNat 64 r.1)
        | none =>
          if read.any (fun r => holds r.1) || (!own && (sh.dst ++ sh.dstMore).any (emptyV w)) then stallLane s w
          else k s w E

/-! ### Accesses of lanes (R367) -/

/-- One access of a lane: `key` tells the accesses of one instruction apart, `annex` is what a halo
annex gives (R366), `raw` an offset in the wave's image (R370); `counted` says that it is a request of its own to the tile
cache (R59). -/
structure LaneAcc where
  lane : Nat
  key : Nat
  va : W64
  n : Nat
  kind : AccKind
  tile : Option ElemTile := none
  annex : Option W64 := none
  raw : Option Nat := none
  counted : Bool := true
  deriving DecidableEq, Repr

/-- What an access meets. -/
inductive Ready where
  | here (p : Placed)
  | away (x : Away)
  | door (d off : Nat)
  | image (off : Nat)
  | annex (v : W64)
  | failed (reason : Option Nat)
  | waits
  deriving DecidableEq, Repr

/-- The VA of the first byte of the tile of an access. -/
def tileStart (a : LaneAcc) : W64 := match a.tile with
  | some t => BitVec.ofNat 64 t.va
  | none => BitVec.ofNat 64 (a.va.toNat / 2048 * 2048)

def leastVa (l : List W64) : W64 := l.foldl (fun (m : W64) a => if a.toNat < m.toNat then a else m) (BitVec.allOnes 64)

/-- The offset of an access in the wave's own image: flat accesses only. -/
def accImage (w : Wave) (a : LaneAcc) : Option Nat := if a.tile.isNone then ownImage w a.va else none
/-- An access that is translated. -/
def isReal (a : LaneAcc) : Bool := a.annex.isNone && a.raw.isNone

/-- The watch entries that the accesses of an instruction match (R122, R123): the lowest-numbered decides. `all` are the
lanes of an instruction that acts once for the wave. -/
def watchAccs (s : State) (w : Wave) (i : Instr) (accs : List LaneAcc) (all : Option W32 := none) : Option Out :=
  if suppressed w s.split then none
  else
    let hits := accs.map fun a => (a, bkWatch s w a.kind a.va.toNat a.n)
    match (List.range 8).filter fun e => hits.any fun h => h.2.contains e with
    | [] => none
    | e :: l =>
      let mine := (hits.filter fun h => h.2.contains e).map Prod.fst
      let addr := leastVa (mine.map fun a => BitVec.ofNat 64 (watchAddr s w e a.va.toNat))
      if bkHalts s w e then
        some (.next (haltAt s w s.split (w.y.lanebase + (getSplit w s.split).lpc.zeroExtend 64).toNat addr.toNat (e :: l)))
      else
        let w := suppress w s.split
        some (trapLane (s.setWave s.focus w) w i 0x10 (all.getD (laneMask (mine.map LaneAcc.lane))) addr)

/-- The lane and address of an access-window violation (R212): no place, or an atomic at a wake address. -/
def violates (a : LaneAcc) : Prep → Option (Nat × Nat)
  | .frozen pa => some (a.lane, pa)
  | .door d off => if a.kind = .atomic then some (a.lane, ctlBase d + off) else none
  | _ => none

/-- The translated accesses of an instruction with their places. -/
def placedAccs (s : State) (w : Wave) (accs : List LaneAcc) : List (LaneAcc × Prep) :=
  (accs.filter isReal).map fun a => (a, place s (waveWho s w) a.kind a.va a.n a.tile w.launch)
/-- The first check of accesses: fill faults (R53). -/
def faultyAccs (s : State) (w : Wave) (i : Instr) (accs : List LaneAcc) : Option Out :=
  let faulty := (placedAccs s w accs).filter fun p => match p.2 with
    | .ok q => fillFaults s p.1.kind (waveWho s w).d q
    | _ => false
  match faulty with
  | (a, _) :: _ => some (trapLane s w i 0x0B (laneMask (faulty.map fun p => p.1.lane)) (tileStart a))
  | [] => none
/-- The checks before anything is performed: fill fault, alignment, watch entries, access windows. -/
def scanAccs (s : State) (w : Wave) (i : Instr) (accs : List LaneAcc) : Option Out :=
  let who := waveWho s w
  let real := accs.filter isReal
  let pl := placedAccs s w accs
  let odd := accs.filter fun a => a.annex.isNone && a.va.toNat % a.n ≠ 0
  match faultyAccs s w i accs with
  | some o => some o
  | none =>
    if !odd.isEmpty then some (trapLane s w i 0x05 (laneMask (odd.map LaneAcc.lane)) (leastVa (odd.map LaneAcc.va)))
    else match watchAccs s w i real with
      | some o => some o
      | none => match pl.findSome? fun p => (violates p.1 p.2).filter fun _ => (accImage w p.1).isNone with
        | some (L, pa) => some (.next (freezeCluster s who.d who.cluster pa (waveName s w s.split (some L)) s.focus))
        | none => none

/-- Place one access, bring its frame, and see whether it would meet poison. -/
def readyOne (s : State) (w : Wave) (a : LaneAcc) : State × Ready × Option (W32 × W64) :=
  match a.annex, a.raw with
  | some v, _ => (s, .annex v, none)
  | none, some off => (s, .image off, none)
  | none, none =>
    let who := waveWho s w
    let p := place s who a.kind a.va a.n a.tile w.launch
    let s := cachePage s who.d who.cluster who.pindex who.pid a.va
    match p, accImage w a with
    | .page r, _ => (s, .failed (some r), none)
    | .blocked, _ => (s, .failed none, none)
    | _, some off => (s, .image off, none)
    | .frozen _, none => (s, .waits, none)
    | .foreign pkg pa, none => (s, .away (.foreign pkg pa), none)
    | .host d c, none => (s, .away (.host d c), none)
    | .door d o, none => (s, .door d o, none)
    | .ok q, none =>
      if a.kind = .load && atomicPending s who.d s.focus q.req.base (q.pa - q.req.base) a.n then (s, .waits, none)
      else match bring s a.kind who.d q with
      | .ok s => (s, .here q, (accessPoison s a.kind who.d q a.n).map fun o => (o, a.va))
      | .wait s => (s, .waits, none)
      | .fault s => (s, .waits, none)

/-- The accesses of an instruction, placed: what each meets, the lanes that would consume poison with the first origin
and its lowest address. -/
structure Gather where
  accs : List (LaneAcc × Ready) := []
  poison : W32 := 0
  origin : W32 := 0
  paddr : W64 := 0
  deriving DecidableEq, Repr

def gatherOne (w : Wave) (x : State × Gather) (a : LaneAcc) : State × Gather :=
  let (s, r, p) := readyOne x.1 w a
  let g := x.2
  (s, match p with
    | none => { g with accs := g.accs ++ [(a, r)] }
    | some (o, pa) =>
      { accs := g.accs ++ [(a, r)], poison := g.poison ||| BitVec.twoPow 32 a.lane
        origin := if g.poison = 0 then o else g.origin
        paddr := if g.poison = 0 || pa.toNat < g.paddr.toNat then pa else g.paddr })

/-- Poison in granules that lanes read (R172), from a list of the reading lane, the line and the lane read: its address is 0. -/
def granulePoison (w : Wave) (g : Gather) (l : List (Nat × Nat × Nat)) : Gather :=
  l.foldl (fun (g : Gather) p =>
    match mfind w.r.poison (4 * p.2.1 + p.2.2 / 8) with
    | none => g
    | some o => { g with poison := g.poison ||| BitVec.twoPow 32 p.1, origin := if g.poison = 0 then o else g.origin }) g
/-- What lane L reads of v(n) in lane j. -/
def reach (w : Wave) (L n j : Nat) : Nat × Nat × Nat := (L, viewLine w n j, j)
/-- Poison in the source registers of the lanes of E. -/
def regPoison (w : Wave) (E : W32) (regs : List Nat) : Gather :=
  granulePoison w {} (regs.flatMap fun n => (lanesOf E).map fun L => reach w L n L)

/-- Lanes of an instruction whose accesses cannot complete now. -/
def failedOf (g : Gather) : List Failed := g.accs.filterMap fun p => match p.2 with
  | .failed r => some ⟨p.1.lane, p.1.va, r, decide (p.1.kind = .load)⟩
  | _ => none
def waitsOf (g : Gather) : W32 := laneMask (g.accs.filterMap fun p => if p.2 = .waits then some p.1.lane else none)
/-- An access to the wave's image waits for its register. -/
def imageStalls (w : Wave) (g : Gather) : Bool := g.accs.any fun p => match p.2 with
  | .image off => (List.range p.1.n).any fun k => imageWaits w (off + k)
  | _ => false

/-- Perform a load that is ready. Lanes that read the same bytes outside the package share the value (R179). -/
def loadReady (w : Wave) (x : State × List (Nat × W64) × W32) (p : LaneAcc × Ready) : State × List (Nat × W64) × W32 :=
  let (s, vals, miss) := x
  let a := p.1
  let who := waveWho s w
  let give (s : State) (v : W64) : State × List (Nat × W64) × W32 := (s, vals ++ [(32 * a.key + a.lane, v)], miss)
  let lost (s : State) : State × List (Nat × W64) × W32 := (s, vals, miss ||| BitVec.twoPow 32 a.lane)
  match p.2 with
  | .here q => match bring s .load who.d q with
    | .ok s =>
      let s := if a.counted then countMiss s who a.va 0 w.launch .load q else s
      let s := nearTouch s who.d who.cluster q.req.tile false
      give s (BitVec.ofNat 64 (leNat (loadBytes s who.d q 0 a.n)))
    | .wait s => lost s
    | .fault s => lost s
  | .away x =>
    let (s, v) := foreignValue (sendAway s who.d .load [] s.focus x) a.n
    give s (BitVec.ofNat 64 v)
  | .door d o =>
    give s (BitVec.ofNat 64 ((doorRead s d ((o - 0x800000) / 8)).toNat / 2 ^ (8 * (a.va.toNat % 8)) % 2 ^ (8 * a.n)))
  | .image off => give s (BitVec.ofNat 64 (leNat (imageBytes w off a.n)))
  | .annex v => give s v
  | .failed _ => lost s
  | .waits => lost s
/-- The value of a load of the same bytes that an earlier lane has made outside the package. -/
def sharedValue (vals : List (Nat × W64)) (before : List (LaneAcc × Ready)) (p : LaneAcc × Ready) : Option W64 :=
  match p.2 with
  | .away _ =>
    match before.find? fun q => q.2 = p.2 && q.1.va = p.1.va && q.1.n = p.1.n with
    | some q => mfind vals (32 * q.1.key + q.1.lane)
    | none => none
  | _ => none
def loadAllGo (w : Wave) : List (LaneAcc × Ready) → List (LaneAcc × Ready) → State × List (Nat × W64) × W32 →
    State × List (Nat × W64) × W32
  | [], _, x => x
  | p :: l, before, x =>
    match sharedValue x.2.1 before p with
    | some v => loadAllGo w l before (x.1, x.2.1 ++ [(32 * p.1.key + p.1.lane, v)], x.2.2)
    | none => loadAllGo w l (p :: before) (loadReady w x p)
/-- Perform the loads of a gather: the values by key and lane, and the lanes that lack one. -/
def loadAll (s : State) (w : Wave) (l : List (LaneAcc × Ready)) : State × List (Nat × W64) × W32 := loadAllGo w l [] (s, [], 0)

/-! ### Sources (R281, R323) -/

/-- A stream element is 8 bytes (R228). -/
def streamWide (q : Stream) : Bool := q.etype = 3 || q.etype = 6 || q.etype = 7
/-- The use of a stream that traps with cause 0x0B (R228, R323). -/
def streamBad (w : Wave) (p : Nat × Bool) : Bool :=
  let q := getStream w p.1
  !q.bound || q.dir || streamWide q ≠ p.2
/-- The address of the element of lane L at the current step. -/
def streamVa (q : Stream) (L : Nat) : W64 :=
  q.base + BitVec.ofInt 64 (L * q.lstride.toInt) + BitVec.ofInt 64 (q.pos.toNat * q.sstride.toInt)
/-- The prefetched element of lane L at the current step. -/
def prefetched (q : Stream) (L : Nat) : Option W64 := (q.pre.find? fun e => e.1 = q.pos.toNat && e.2.1 = L).map fun e => e.2.2
/-- The loads that the stream sources make in the lanes of E. -/
def streamAccs (w : Wave) (E : W32) (srcs : List (Src × Bool)) : List LaneAcc :=
  (streamsOf srcs).flatMap fun p =>
    let q := getStream w p.1
    if exhausted q then []
    else (lanesOf E).filterMap fun L =>
      if (prefetched q L).isSome then none
      else some { lane := L, key := p.1, va := streamVa q L, n := if p.2 then 8 else 4, kind := .load }

/-- FP32 bits widened exactly to FP64 (R323). -/
def widen32 (v : W32) : W64 := BitVec.ofNat 64 (fround fp64 .rne false false (fdecode fp32 false v.toNat))
/-- A special operand in lane L (R281). -/
def specialVal (s : State) (w : Wave) (L : Nat) : Special → W32
  | .lane => BitVec.ofNat 32 L
  | .wave => BitVec.ofNat 32 w.idx
  | .amask => (getSplit w s.split).mask
  | .iter => (getEntry w (headEntry w)).iter.zeroExtend 32
  | .rctr => (mget 0 w.c.rng L).extractLsb' 0 32
/-- A source in lane L; `vals` are the stream elements that have arrived. -/
def srcVal (s : State) (w : Wave) (vals : List (Nat × W64)) (ty : BitVec 3) (x : Src) (wide : Bool) (L : Nat) : W64 :=
  match x with
  | .v n _ => if wide then vread64 w n.toNat L else (vread w n.toNat L).zeroExtend 64
  | .bp n => let v := mget 0 (getEntry w (headEntry w)).bp n.toNat; if wide then v else v &&& 0xFFFFFFFF
  | .special y => (specialVal s w L y).zeroExtend 64
  | .stream q =>
    let x := getStream w q.toNat
    if exhausted x then 0
    else (mfind vals (32 * q.toNat + L)).getD ((prefetched x L).getD 0)
  | .imm v => if wide && ty = 6 then v.signExtend 64 else if wide && ty = 3 then widen32 v else v.zeroExtend 64

/-! ### Compute instructions (R322 to R324) -/

/-- Lanes left over: the wave parks with their failures, or they wait. -/
def laneLeft (i : Instr) (s : State) (w : Wave) (access : Nat) (left : W32) (failed : List Failed) (fullV : List Nat) : Out :=
  if failed.isEmpty then
    let c := w.c
    stallLane s { w with c := { c with unfin := left }, unfinSplit := s.split, unfinFull := fullV }
  else .next (parkWave (s.setWave s.focus w) true false access failed left (instBits i) [] fullV)

/-- Source n of a compute instruction in lane L: a stream has elements in the lanes of E only. -/
def computeVal (s : State) (w : Wave) (sh : Shape) (E : W32) (vals : List (Nat × W64)) (n L : Nat) : W64 :=
  match sh.srcs[n]? with
  | some (.stream q, wide) => if E.getLsbD L then srcVal s w vals sh.f.ty (.stream q) wide L else 0
  | some (x, wide) => srcVal s w vals sh.f.ty x wide L
  | none => 0

/-- A compute instruction: its stream elements arrive, then `eff` gives the wave after the lanes that can act. `val n L` is
source n in lane L, `last` says that no lane is left; `bad` are lanes whose index fails, and `hold` an indirect wait (R342). -/
def laneChecked (i : Instr) (sh : Shape) (s : State) (bad : Wave → (Nat → Nat → W64) → Nat → Bool)
    (hold : Wave → (Nat → Nat → W64) → Nat → Bool)
    (eff : State → Wave → W32 → Bool → (Nat → Nat → W64) → Wave) : Out :=
  laneOp i sh s fun s w E =>
    let accs := streamAccs w E sh.srcs
    if (streamsOf sh.srcs).any (streamBad w) then trapLane s w i 0x0B E
    else match scanAccs s w i accs with
      | some o => o
      | none => match if sh.res then resBad w else none with
        | some r => trapLane s w i 0x12 0 r
        | none =>
          if !accs.isEmpty && unfinBusy s w then stallLane s w
          else
            let regs := (sh.srcs.flatMap srcRegs ++ sh.more).map Prod.fst
            let (s, g) := accs.foldl (gatherOne w) (s, regPoison w E regs)
            if imageStalls w g then stallLane s w
            else
              let (s, vals, miss) := loadAll s w g.accs
              let failed := failedOf g
              let val := computeVal s w sh E vals
              let g := granulePoison w g ((sh.reaches w (E &&& ~~~miss) val).filter fun p => E.getLsbD p.1)
              let can := if sh.cross && miss ≠ 0 then 0 else E &&& ~~~(miss ||| g.poison)
              let off := laneMask ((lanesOf (E &&& ~~~miss)).filter (bad w val))
              if off ≠ 0 then trapLane s w i 0x03 off
              else if (lanesOf can).any (hold w val) then stallLane s w
              else if miss = 0 && g.poison ≠ 0 then
                .next (laneTrap s w (instBits i) 0x09 g.poison g.paddr 0 g.origin)
              else if miss ≠ 0 && failed.isEmpty && (!mayLeave s w) then stallLane s w
              else
                let w' := if can = 0 then w else cleanGranules (eff s w can (can = E) val) (sh.dst ++ sh.dstMore) can
                if can = E then laneDone s w' sh.srcs else laneLeft i s w' 0 (E &&& ~~~can) failed []

/-- A compute instruction without an index. -/
def laneCompute (i : Instr) (sh : Shape) (s : State)
    (eff : State → Wave → W32 → Bool → (Nat → Nat → W64) → Wave) : Out :=
  laneChecked i sh s (fun _ _ _ => false) (fun _ _ _ => false) eff

/-- Write a result of one or two words to lane L. -/
def writeV (wide : Bool) (n L : Nat) (v : W64) (w : Wave) : Wave :=
  let w := vwrite w n L (v.extractLsb' 0 32)
  if wide then vwrite w (n + 1) L (v.extractLsb' 32 32) else w

/-- A lane-wise result: v(dest) of each lane from that lane's sources. -/
def laneResult (i : Instr) (sh : Shape) (wide : Bool) (s : State)
    (f : State → Wave → (Nat → W64) → Nat → W64) : Out :=
  let d := sh.f.dest.toNat
  laneCompute i { sh with dst := pairOf wide d } s fun s w can _ val =>
    (lanesOf can).foldl (fun w' L => writeV wide d L (f s w (fun n => val n L) L) w') w

/-- Set the bits of a predicate in the lanes of a mask (R280, R330). -/
def writeK (w : Wave) (n : Nat) (m bits : W32) : Wave := kwrite w n ((kread w n &&& ~~~m) ||| (bits &&& m))
/-- A lane-wise truth: bit L of k(dest). -/
def laneTruth (i : Instr) (sh : Shape) (s : State) (f : Wave → (Nat → W64) → Nat → Bool) : Out :=
  laneCompute i sh s fun _ w can _ val =>
    writeK w sh.f.dest.toNat can (laneMask ((lanesOf can).filter fun L => f w (fun n => val n L) L))

end Sys2Proof.Machine
end

