-- ==== Sys2Proof/Machine/LaneInt.lean ====
section
/-! DEFINITION. Integer arithmetic and logic of the lanes, DOT4, comparison and selection (R327 to R330, R338). -/

namespace Sys2Proof.Machine

/-- The width of an integer type, and whether it is signed (R327). -/
def intBits (ty : BitVec 3) : Nat := if ty = 6 || ty = 7 then 64 else 32
def intSigned (ty : BitVec 3) : Bool := ty = 0 || ty = 6
/-- A value read as an integer of its type. -/
def asInt (ty : BitVec 3) (v : W64) : Int :=
  if intSigned ty then sgn (intBits ty) v.toNat else (v.toNat % 2 ^ intBits ty : Nat)
/-- The least and the greatest integer of a type. -/
def intMin (ty : BitVec 3) : Int := if intSigned ty then -(2 ^ (intBits ty - 1) : Nat) else 0
def intMax (ty : BitVec 3) : Int := if intSigned ty then (2 ^ (intBits ty - 1) : Nat) - 1 else (2 ^ intBits ty : Nat) - 1
/-- An exact integer as a result: wrapped, or clamped under SAT (R327). -/
def intResult (ty : BitVec 3) (sat : Bool) (z : Int) : W64 :=
  BitVec.ofInt 64 (if sat then max (intMin ty) (min (intMax ty) z) else z)

/-- The shape of an instruction with sources A; A and B; A, B and C at the type's width. -/
def shapeA (op : Nat) (f : LaneFields) : Shape := { op := op, f := f, srcs := [(f.a, f.wide)] }
def shapeAB (op : Nat) (f : LaneFields) : Shape := { op := op, f := f, srcs := [(f.a, f.wide), (f.b, f.wide)] }
def shapeABC (op : Nat) (f : LaneFields) : Shape :=
  { op := op, f := f, srcs := [(f.a, f.wide), (f.b, f.wide), (f.c, f.wide)] }

/-- An integer instruction of two sources by its exact value. -/
def intOp (i : Instr) (op : Nat) (f : LaneFields) (sat : Bool) (g : Int → Int → Int) (s : State) : Out :=
  laneResult i (shapeAB op f) f.wide s fun _ _ v _ => intResult f.ty sat (g (asInt f.ty (v 0)) (asInt f.ty (v 1)))
/-- A bitwise instruction of two sources. -/
def bitOp (i : Instr) (op : Nat) (f : LaneFields) (g : W64 → W64 → W64) (s : State) : Out :=
  laneResult i (shapeAB op f) f.wide s fun _ _ v _ => g (v 0) (v 1)

/-- IADD (R327): a + b. -/
def execIadd (f : LaneFields) (s : State) : Out := intOp (.iadd f) 0x01 f (f.xf 0 0 = 1) (fun a b => a + b) s
/-- ISUB (R327): a − b. -/
def execIsub (f : LaneFields) (s : State) : Out := intOp (.isub f) 0x02 f (f.xf 0 0 = 1) (fun a b => a - b) s
/-- IMUL (R327): a × b. -/
def execImul (f : LaneFields) (s : State) : Out := intOp (.imul f) 0x03 f false (fun a b => a * b) s
/-- IMAD (R327): a × b + c. -/
def execImad (f : LaneFields) (s : State) : Out :=
  laneResult (.imad f) (shapeABC 0x04 f) f.wide s fun _ _ v _ =>
    intResult f.ty (f.xf 0 0 = 1) (asInt f.ty (v 0) * asInt f.ty (v 1) + asInt f.ty (v 2))
/-- IMULH (R327): the high half of the product. -/
def execImulh (f : LaneFields) (s : State) : Out :=
  intOp (.imulh f) 0x05 f false (fun a b => a * b / (2 ^ intBits f.ty : Nat)) s
/-- IDIV (R328): truncated; all ones for a divisor of 0. -/
def execIdiv (f : LaneFields) (s : State) : Out :=
  intOp (.idiv f) 0x06 f false (fun a b => if b = 0 then -1 else a.tdiv b) s
/-- IMIN (R327). -/
def execImin (f : LaneFields) (s : State) : Out := intOp (.imin f) 0x07 f false (fun a b => min a b) s
/-- IMAX (R327). -/
def execImax (f : LaneFields) (s : State) : Out := intOp (.imax f) 0x08 f false (fun a b => max a b) s
/-- LAND (R329). -/
def execLand (f : LaneFields) (s : State) : Out := bitOp (.land f) 0x09 f (fun a b => a &&& b) s
/-- LOR (R329). -/
def execLor (f : LaneFields) (s : State) : Out := bitOp (.lor f) 0x0A f (fun a b => a ||| b) s
/-- LXOR (R329). -/
def execLxor (f : LaneFields) (s : State) : Out := bitOp (.lxor f) 0x0B f (fun a b => a ^^^ b) s
/-- The shift count of R329. -/
def laneCount (ty : BitVec 3) (b : W64) : Nat := b.toNat % intBits ty
/-- LSHL (R329). -/
def execLshl (f : LaneFields) (s : State) : Out := bitOp (.lshl f) 0x0C f (fun a b => a <<< laneCount f.ty b) s
/-- LSHR (R329): the operand has no bits beyond its width. -/
def execLshr (f : LaneFields) (s : State) : Out := bitOp (.lshr f) 0x0D f (fun a b => a >>> laneCount f.ty b) s
/-- LSAR (R329). -/
def execLsar (f : LaneFields) (s : State) : Out :=
  bitOp (.lsar f) 0x0E f (fun a b => BitVec.ofInt 64 (asInt f.ty a / (2 ^ laneCount f.ty b : Nat))) s
/-- POPC (R329). -/
def execPopc (f : LaneFields) (s : State) : Out :=
  laneResult (.popc f) (shapeA 0x0F f) f.wide s fun _ _ v _ => BitVec.ofNat 64 (popcount (v 0))
/-- The leading zeros of an n-bit value. -/
def leadingZeros (n v : Nat) : Nat := if v = 0 then n else n - 1 - Nat.log2 v
/-- CLZ (R329). -/
def execClz (f : LaneFields) (s : State) : Out :=
  laneResult (.clz f) (shapeA 0x10 f) f.wide s fun _ _ v _ => BitVec.ofNat 64 (leadingZeros (intBits f.ty) (v 0).toNat)
/-- ICMP (R330). -/
def execIcmp (f : LaneFields) (s : State) : Out :=
  laneTruth (.icmp f) (shapeAB 0x11 f) s fun _ v _ => ccInt (f.xf 3 0) (asInt f.ty (v 0)) (asInt f.ty (v 1))
/-- SEL (R330): A where the select predicate holds, else B. -/
def execSel (f : LaneFields) (s : State) : Out :=
  laneResult (.sel f) (shapeAB 0x12 f) f.wide s fun _ w v L =>
    if (kread w (f.xf 2 0)).getLsbD L != (f.xf 3 3 = 1) then v 0 else v 1

/-- Byte n of a word, signed or not. -/
def byteInt (signed : Bool) (v : W64) (n : Nat) : Int :=
  let b := bitsOf v.toNat (8 * n + 7) (8 * n)
  if signed then sgn 8 b else b
/-- DOT4 (R338): C + Σ A_i × B_i over four bytes. -/
def execDot4 (f : LaneFields) (s : State) : Out :=
  laneResult (.dot4 f) (shapeABC 0x22 f) false s fun _ _ v _ =>
    let sg := intSigned f.ty
    let sum := ((List.range 4).map fun n => byteInt sg (v 0) n * byteInt sg (v 1) n).sum
    intResult f.ty (f.xf 0 0 = 1) (asInt f.ty (v 2) + sum)

end Sys2Proof.Machine
end

