-- ==== Sys2Proof/Machine/LaneFloat.lean ====
section
/-! DEFINITION. Floating-point instructions of the lanes (R325, R331 to R337, R339) with stochastic rounding (R247, R357). -/

namespace Sys2Proof.Machine

/-! ### Rounding (R216, R244, R246, R247) -/

/-- MIX (R357). -/
def mixC1 : W64 := 0xA24BAED4963EE407
def mixC2 : W64 := 0x9FB21C651E98DF25
def mix (c k0 k1 : W64) (L : Nat) : W64 :=
  let x := c ^^^ k0 ^^^ (BitVec.ofNat 64 L * mixC1)
  let x := (x ^^^ (x >>> 32)) * mixC2
  let x := (x ^^^ (x >>> 29)) * mixC1
  let x := x ^^^ k1
  x ^^^ (x >>> 32)

/-- FTZ and SRE of sys.fpmode (R216). -/
def ftz (w : Wave) : Bool := w.y.fpmode.getLsbD 2
def sre (w : Wave) : Bool := w.y.fpmode.getLsbD 3
/-- The draw of R247 in lane L, from the bits of sources A and B; the second half of a pair takes bits 39:16. -/
def srDraw (w : Wave) (a b : W64) (L half : Nat) : Nat :=
  let v := mix (mget 0 w.c.rng L ^^^ (a ^^^ b.rotateLeft 32)) w.y.rngkey0 w.y.rngkey1 L
  if half = 0 then wbits v 63 40 else wbits v 39 16
/-- The mode that a rounding code selects (R244). -/
def rndOf (w : Wave) (code : Nat) (d : Nat) : Rnd :=
  match code with
  | 1 => .rtz
  | 2 => .rup
  | 3 => .rdn
  | 4 => if sre w then .sr d else .rne
  | 5 => match w.y.fpmode.toNat % 4 with
    | 1 => .rtz
    | 2 => .rup
    | 3 => .rdn
    | _ => .rne
  | _ => .rne

/-! ### Formats and halves (R240) -/

def fmtOf (ty : BitVec 3) : Fmt := match ty.toNat with | 3 => fp64 | 4 => fp16 | 5 => bf16 | _ => fp32
def packed (ty : BitVec 3) : Bool := ty = 4 || ty = 5
/-- Half n of a packed value; a scalar value is its own half 0. -/
def halfOf (ty : BitVec 3) (v : W64) (n : Nat) : Nat := if packed ty then bitsOf v.toNat (16 * n + 15) (16 * n) else v.toNat
/-- A result for each half. -/
def byHalves (ty : BitVec 3) (g : Nat → Nat) : W64 :=
  if packed ty then BitVec.ofNat 64 (g 0 % 2 ^ 16 + g 1 % 2 ^ 16 * 2 ^ 16) else BitVec.ofNat 64 (g 0)

/-- A floating instruction rounded under the code in X bits 2:0: `g` gives the exact value from the decoded sources; its
first argument says that an exact zero sum is negative. -/
def roundOp (i : Instr) (sh : Shape) (s : State) (g : Bool → (Nat → FVal) → FVal) : Out :=
  let f := sh.f
  laneResult i sh f.wide s fun _ w v L =>
    byHalves f.ty fun h =>
      let r := rndOf w (f.xf 2 0) (srDraw w (v 0) (if sh.srcs.length ≤ 1 then 0 else v 1) L h)
      fround (fmtOf f.ty) r (ftz w) false (g (decide (r = .rdn)) fun n => fdecode (fmtOf f.ty) (ftz w) (halfOf f.ty (v n) h))

/-- FADD (R331). -/
def execFadd (f : LaneFields) (s : State) : Out := roundOp (.fadd f) (shapeAB 0x13 f) s fun d v => faddV d (v 0) (v 1)
/-- FSUB (R331). -/
def execFsub (f : LaneFields) (s : State) : Out := roundOp (.fsub f) (shapeAB 0x14 f) s fun d v => faddV d (v 0) (fnegV (v 1))
/-- FMUL (R331). -/
def execFmul (f : LaneFields) (s : State) : Out := roundOp (.fmul f) (shapeAB 0x15 f) s fun _ v => fmulV (v 0) (v 1)
/-- FFMA (R331): one rounding. -/
def execFfma (f : LaneFields) (s : State) : Out :=
  roundOp (.ffma f) (shapeABC 0x16 f) s fun d v => faddV d (fmulV (v 0) (v 1)) (v 2)
/-- FMIN (R332). -/
def execFmin (f : LaneFields) (s : State) : Out :=
  laneResult (.fmin f) (shapeAB 0x17 f) f.wide s fun _ w v _ =>
    byHalves f.ty fun h => fminmax (fmtOf f.ty) (ftz w) false (halfOf f.ty (v 0) h) (halfOf f.ty (v 1) h)
/-- FMAX (R332). -/
def execFmax (f : LaneFields) (s : State) : Out :=
  laneResult (.fmax f) (shapeAB 0x18 f) f.wide s fun _ w v _ =>
    byHalves f.ty fun h => fminmax (fmtOf f.ty) (ftz w) true (halfOf f.ty (v 0) h) (halfOf f.ty (v 1) h)
/-- The condition codes of FCMP (R333). -/
def ccFloat (cc : Nat) (x y : FVal) : Bool :=
  let un := isNanV x || isNanV y
  match cc with
  | 6 => un
  | 7 => !un
  | 1 => un || fcmpV x y ≠ 0
  | _ => !un && ccInt cc (fcmpV x y) 0
/-- FCMP (R333). -/
def execFcmp (f : LaneFields) (s : State) : Out :=
  laneTruth (.fcmp f) (shapeAB 0x19 f) s fun w v _ =>
    ccFloat (f.xf 3 0) (fdecode (fmtOf f.ty) (ftz w) (v 0).toNat) (fdecode (fmtOf f.ty) (ftz w) (v 1).toNat)
/-- FRND (R334): rounded to an integral value, which the format holds. -/
def execFrnd (f : LaneFields) (s : State) : Out :=
  laneResult (.frnd f) (shapeA 0x1A f) f.wide s fun _ w v L =>
    byHalves f.ty fun h =>
      fround (fmtOf f.ty) .rne (ftz w) false
        (frndV (rndOf w (f.xf 2 0) (srDraw w (v 0) 0 L h)) (fdecode (fmtOf f.ty) (ftz w) (halfOf f.ty (v 0) h)))
/-- A value times 2^n; exponents beyond ±4000 round as ±4000 does in every format. -/
def fscaleV (n : Int) : FVal → FVal
  | .fin neg m e => .fin neg m (e + max (-4000) (min 4000 n))
  | v => v
/-- FSCALE (R335): B is never a pair. -/
def execFscale (f : LaneFields) (s : State) : Out :=
  let sh : Shape := { op := 0x60, f := f, srcs := [(f.a, f.wide), (f.b, false)] }
  laneResult (.fscale f) sh f.wide s fun _ w v L =>
    byHalves f.ty fun h =>
      let n := if packed f.ty then sgn 16 (halfOf f.ty (v 1) h) else sgn 32 (v 1).toNat
      fround (fmtOf f.ty) (rndOf w (f.xf 2 0) (srDraw w (v 0) (v 1) L h)) (ftz w) false
        (fscaleV n (fdecode (fmtOf f.ty) (ftz w) (halfOf f.ty (v 0) h)))

/-! ### FCVT (R248, R249, R336) -/

/-- The float format of a code of R283; none for an integer code. -/
def cvFmt : Nat → Option Fmt
  | 2 => some fp32 | 3 => some fp64 | 4 => some fp16 | 5 => some bf16 | 8 => some e4m3 | 9 => some e5m2 | _ => none
/-- Width and signedness of an integer code of R283. -/
def cvInt : Nat → Nat × Bool
  | 1 => (32, false) | 6 => (64, true) | 7 => (64, false) | 10 => (16, true) | 11 => (16, false) | 12 => (8, true)
  | 13 => (8, false) | _ => (32, true)
def cvMin (n : Nat) : Int := if (cvInt n).2 then -(2 ^ ((cvInt n).1 - 1) : Nat) else 0
def cvMax (n : Nat) : Int := if (cvInt n).2 then (2 ^ ((cvInt n).1 - 1) : Nat) - 1 else (2 ^ (cvInt n).1 : Nat) - 1
/-- The source of a conversion: an exact value, integers too. -/
def cvValue (w : Wave) (src dst : Nat) (v : W64) : FVal :=
  match cvFmt src with
  | some f =>
    let flush := ftz w && (match cvFmt dst with | some g => g ≠ e4m3 && g ≠ e5m2 | none => false)
    fdecode f flush (v.toNat % 2 ^ fmtWidth f)
  | none => let n := (cvInt src).1; fofInt (if (cvInt src).2 then sgn n v.toNat else (v.toNat % 2 ^ n : Nat))
/-- The conversion of one value (R336). -/
def convert (w : Wave) (src dst : Nat) (r : Rnd) (sat : Bool) (v : W64) : W64 :=
  let x := cvValue w src dst v
  match cvFmt dst with
  | some g => BitVec.ofNat 64 (fround g r (ftz w && g ≠ e4m3 && g ≠ e5m2) sat x)
  | none => BitVec.ofInt 64 (ftoInt r (cvMin dst) (cvMax dst) x)
/-- FCVT (R336). -/
def execFcvt (f : LaneFields) (s : State) : Out :=
  let src := f.xf 7 4
  let dst := f.xf 11 8
  let sh : Shape := { op := 0x1B, f := f, srcs := [(f.a, cvWide src)] }
  laneResult (.fcvt f) sh (cvWide dst) s fun _ w v L =>
    convert w src dst (rndOf w (f.xf 2 0) (srDraw w (v 0) 0 L 0)) (f.xf 3 3 = 1) (v 0)

/-! ### Transcendentals and HFMA2 -/

/-- A function of R255: correctly rounded RNE, with FTZ. -/
def funcOp (i : Instr) (op : Nat) (f : LaneFields) (g : FVal → FVal) (s : State) : Out :=
  laneResult i (shapeA op f) f.wide s fun _ w v _ =>
    BitVec.ofNat 64 (fround (fmtOf f.ty) .rne (ftz w) false (g (fdecode (fmtOf f.ty) (ftz w) (v 0).toNat)))

/-- RCP (R337). -/
def execRcp (f : LaneFields) (s : State) : Out := funcOp (.rcp f) 0x1C f rcpV s
/-- RSQ (R337). -/
def execRsq (f : LaneFields) (s : State) : Out := funcOp (.rsq f) 0x1D f rsqV s
/-- SQRT (R337). -/
def execSqrt (f : LaneFields) (s : State) : Out := funcOp (.sqrt f) 0x1E f sqrtV s
/-- EXP2 (R337). -/
def execExp2 (f : LaneFields) (s : State) : Out := funcOp (.exp2 f) 0x1F f exp2V s
/-- LOG2 (R337). -/
def execLog2 (f : LaneFields) (s : State) : Out := funcOp (.log2 f) 0x20 f log2V s
/-- LN (R337). -/
def execLn (f : LaneFields) (s : State) : Out := funcOp (.ln f) 0x21 f lnV s
/-- HFMA2 (R339): two products of halves and an FP32 C, rounded once. -/
def execHfma2 (f : LaneFields) (s : State) : Out :=
  laneResult (.hfma2 f) (shapeABC 0x23 f) false s fun _ w v L =>
    let r := rndOf w (f.xf 2 0) (srDraw w (v 0) (v 1) L 0)
    let x (n h : Nat) : FVal := fdecode (fmtOf f.ty) (ftz w) (halfOf f.ty (v n) h)
    let c := fdecode fp32 (ftz w) (v 2).toNat
    let d := decide (r = .rdn)
    BitVec.ofNat 64 (fround fp32 r (ftz w) false
      (faddV d (faddV d (fmulV (x 0 0) (x 1 0)) (fmulV (x 0 1) (x 1 1))) c))

end Sys2Proof.Machine
end

