-- ==== Sys2Proof/Machine/LaneMove.lean ====
section
/-! DEFINITION. Moves, indirect registers and cross-lane instructions (R340 to R347). -/

namespace Sys2Proof.Machine

/-- MOV (R340). -/
def execMov (f : LaneFields) (s : State) : Out := laneResult (.mov f) (shapeA 0x24 f) f.wide s fun _ _ v _ => v 0

/-- The items of MOVSP (R341). -/
def movspItem (s : State) (w : Wave) (f : LaneFields) (L : Nat) : W64 :=
  let who := waveWho s w
  match f.xf 4 0 with
  | 0 => BitVec.ofNat 64 w.team
  | 1 => BitVec.ofNat 64 w.launch
  | 2 => BitVec.ofNat 64 s.split
  | 3 => BitVec.ofNat 64 w.winsize
  | 4 => mget 0 w.c.rng L >>> 32
  | 5 => BitVec.ofNat 64 (cycleAt (clusterKey who.d who.cluster) s.ticks)
  | 6 => BitVec.ofNat 64 s.time
  | _ => match f.a with | .v n _ => boolWord (!emptyV w n.toNat) | _ => 0
/-- MOVSP (R341): item 7 names its register and never waits on it. -/
def execMovsp (f : LaneFields) (s : State) : Out :=
  let named := match f.a with | .v n _ => if f.xf 4 0 = 7 then [n.toNat] else [] | _ => []
  laneResult (.movsp f) { op := 0x25, f := f, named := named } false s fun s w _ L => movspItem s w f L

/-- The index of RGET and RPUT in a lane (R342). -/
def indexOf (a b : W64) : Int := sgn 32 a.toNat + sgn 32 b.toNat
/-- A register index that R342 refuses. -/
def indexBad (w : Wave) (wide : Bool) (i : Int) : Bool :=
  decide (i < 0) || decide ((w.winsize : Int) < i + if wide then 2 else 1) || (wide && i % 2 ≠ 0) ||
    isBank w i.toNat || (wide && isBank w (i.toNat + 1))
/-- An instruction with an index: checked in every lane of E, then waited on; `eff` acts in one lane on register n. -/
def indexOp (i : Instr) (sh : Shape) (s : State) (eff : (Nat → W64) → Nat → Nat → Wave → Wave → Wave) : Out :=
  let wide := sh.f.wide
  let idx (v : Nat → Nat → W64) (L : Nat) : Int := indexOf (v 0 L) (v 1 L)
  laneChecked i sh s (fun w v L => indexBad w wide (idx v L)) (fun w v L => (pairOf wide (idx v L).toNat).any (emptyV w))
    fun _ w can _ v => (lanesOf can).foldl (fun w' L => eff (fun n => v n L) (idx v L).toNat L w w') w

/-- RGET (R342). -/
def execRget (f : LaneFields) (s : State) : Out :=
  let d := f.dest.toNat
  let sh : Shape := { op := 0x26, f := f, srcs := [(f.a, false), (f.b, false)], dst := pairOf f.wide d
                      reaches := fun w E v => (lanesOf E).flatMap fun L =>
                        (pairOf f.wide (indexOf (v 0 L) (v 1 L)).toNat).map fun n => reach w L n L }
  indexOp (.rget f) sh s
    fun _ n L w w' => writeV f.wide d L (if f.wide then vread64 w n L else (vread w n L).zeroExtend 64) w'
/-- RPUT (R342). -/
def execRput (f : LaneFields) (s : State) : Out :=
  indexOp (.rput f) { op := 0x27, f := f, srcs := [(f.a, false), (f.b, false), (f.c, f.wide)] } s
    fun v n L _ w' => writeV f.wide n L (v 2) w'

/-! ### Cross-lane instructions (R343 to R347) -/

/-- A cross-lane instruction with a v destination or %res: `g` gives the lanes' results from the sources and E; `ext` is how
%res holds the one result. -/
def crossOp (i : Instr) (sh : Shape) (s : State) (ext : W64 → W64)
    (g : Wave → W32 → (Nat → Nat → W64) → Nat → W64) : Out :=
  let f := sh.f
  let d := f.dest.toNat
  laneCompute i { sh with dst := if f.dkind then [] else pairOf f.wide d, res := f.dkind, cross := true } s
    fun _ w E _ val =>
      if f.dkind then writeRes w (ext (g w E val (lowestLane E)))
      else (lanesOf E).foldl (fun w' L => writeV f.wide d L (g w E val L) w') w

def sext32 (v : W64) : W64 := (v.extractLsb' 0 32).signExtend 64
def zext32 (v : W64) : W64 := v &&& 0xFFFFFFFF
/-- The shape of an instruction that reads A in the lane that B names, for each lane of E. -/
def shapeLane (op : Nat) (f : LaneFields) (from_ : W32 → (Nat → Nat → W64) → Nat → Nat) : Shape :=
  { op := op, f := f, srcs := [(f.a, f.wide), (f.b, false)]
    reaches := fun w E v => (lanesOf E).flatMap fun L => (srcRegs (f.a, f.wide)).map fun r => reach w L r.1 (from_ E v L) }
/-- The source lanes of SHFL, SHFLX and BCAST (R344). -/
def shflLane (_ : W32) (v : Nat → Nat → W64) (L : Nat) : Nat := (v 1 L).toNat % 32
def shflxLane (_ : W32) (v : Nat → Nat → W64) (L : Nat) : Nat := L ^^^ ((v 1 L).toNat % 32)
def bcastLane (E : W32) (v : Nat → Nat → W64) (_ : Nat) : Nat := (v 1 (lowestLane E)).toNat % 32

/-- SHFL (R344). -/
def execShfl (f : LaneFields) (s : State) : Out :=
  crossOp (.shfl f) (shapeLane 0x28 f shflLane) s id fun _ E v L => v 0 (shflLane E v L)
/-- SHFLX (R344). -/
def execShflx (f : LaneFields) (s : State) : Out :=
  crossOp (.shflx f) (shapeLane 0x29 f shflxLane) s id fun _ E v L => v 0 (shflxLane E v L)
/-- BCAST (R344). -/
def execBcast (f : LaneFields) (s : State) : Out :=
  crossOp (.bcast f) (shapeLane 0x2A f bcastLane) s (if f.wide then id else sext32) fun _ E v L => v 0 (bcastLane E v L)
/-- The lanes of E whose source A is not zero. -/
def ballotMask (E : W32) (v : Nat → Nat → W64) : W32 := laneMask ((lanesOf E).filter fun L => v 0 L ≠ 0)
/-- BALLOT (R345). -/
def execBallot (f : LaneFields) (s : State) : Out :=
  crossOp (.ballot f) (shapeA 0x2B f) s zext32 fun _ E v _ => (ballotMask E v).zeroExtend 64
/-- VOTE (R345). -/
def execVote (f : LaneFields) (s : State) : Out :=
  crossOp (.vote f) (shapeA 0x2C f) s zext32 fun _ E v _ =>
    boolWord (match f.xf 1 0 with
      | 0 => ballotMask E v = E
      | 1 => ballotMask E v ≠ 0
      | _ => (lanesOf E).all fun L => v 0 L = v 0 (lowestLane E))

/-- The RED operation (R346) on two values of a type. -/
def redOp (ty : BitVec 3) (flush : Bool) (op : Nat) (x y : W64) : W64 :=
  if ty = 2 || ty = 3 then
    let f := fmtOf ty
    BitVec.ofNat 64 (match op with
      | 0 => fround f .rne flush false (faddV false (fdecode f flush x.toNat) (fdecode f flush y.toNat))
      | 1 => fminmax f flush false x.toNat y.toNat
      | _ => fminmax f flush true x.toNat y.toNat)
  else
    let v := match op with
      | 0 => x + y
      | 1 => if asInt ty y < asInt ty x then y else x
      | 2 => if asInt ty x < asInt ty y then y else x
      | 3 => x &&& y
      | 4 => x ||| y
      | _ => x ^^^ y
    BitVec.ofNat 64 (v.toNat % 2 ^ intBits ty)
/-- One level of the tree (R346): neighbours combined, an odd one passed on. -/
def redLevel (op : W64 → W64 → W64) : List (Option W64) → List (Option W64)
  | x :: y :: l =>
    (match x, y with
      | some a, some b => some (op a b)
      | some a, none => some a
      | none, b => b) :: redLevel op l
  | l => l
/-- REDUCE (R346). -/
def reduceVal (f : LaneFields) (w : Wave) (E : W32) (v : Nat → Nat → W64) : W64 :=
  let op := redOp f.ty (ftz w) (f.xf 2 0)
  let leaves := (List.range 32).map fun L => if E.getLsbD L then some (v 0 L) else none
  match redLevel op (redLevel op (redLevel op (redLevel op (redLevel op leaves)))) with
  | some x :: _ => x
  | _ => 0
def execReduce (f : LaneFields) (s : State) : Out :=
  crossOp (.reduce f) (shapeA 0x2D f) s (if f.ty = 0 then sext32 else if f.wide then id else zext32)
    fun w E v _ => reduceVal f w E v
/-- The identity of an exclusive scan (R347). -/
def redIdentity (ty : BitVec 3) (op : Nat) : W64 :=
  if ty = 2 || ty = 3 then
    match op with
    | 0 => 0
    | 1 => BitVec.ofNat 64 (fmtInf (fmtOf ty))
    | _ => BitVec.ofNat 64 (fmtSign (fmtOf ty) true + fmtInf (fmtOf ty))
  else match op with
    | 1 => BitVec.ofInt 64 (intMax ty)
    | 2 => BitVec.ofInt 64 (intMin ty)
    | 3 => BitVec.allOnes 64
    | _ => 0
/-- The running combination of a list of lanes in order. -/
def scanVal (op : W64 → W64 → W64) (v : Nat → W64) : List Nat → Option W64 → Option W64
  | [], acc => acc
  | L :: l, none => scanVal op v l (some (v L))
  | L :: l, some a => scanVal op v l (some (op a (v L)))
/-- SCAN (R347). -/
def execScan (f : LaneFields) (s : State) : Out :=
  let op := f.xf 2 0
  crossOp (.scan f) (shapeA 0x2E f) s id fun w E v L =>
    let below := (lanesOf E).filter fun m => if f.xf 3 3 = 1 then decide (m < L) else decide (m ≤ L)
    (scanVal (redOp f.ty (ftz w) op) (v 0) below none).getD (redIdentity f.ty op)

end Sys2Proof.Machine
end

