-- ==== Sys2Proof/Machine/LanePred.lean ====
section
/-! DEFINITION. Predicates, full/empty bits and lane control (R225, R227, R348 to R352). -/

namespace Sys2Proof.Machine

/-- PSET (R348). -/
def execPset (f : LaneFields) (s : State) : Out :=
  laneTruth (.pset f) (shapeA 0x2F f) s fun _ v _ => v 0 ≠ 0
/-- f(p, q) of PLOP (R348). -/
def plopVal (code : Nat) (p q : Bool) : Bool :=
  match code with
  | 0 => p && q
  | 1 => p || q
  | 2 => p != q
  | 3 => p && !q
  | 4 => !p
  | 5 => p
  | 6 => true
  | _ => false
/-- PLOP (R348). -/
def execPlop (f : LaneFields) (s : State) : Out :=
  laneTruth (.plop f) { op := 0x30, f := f } s fun w _ L =>
    plopVal (f.xf 2 0) ((kread w (f.xf 5 3)).getLsbD L) ((kread w (f.xf 8 6)).getLsbD L)

/-- A register is the destination of a result on its way, or of a parked instruction (R349). -/
def pendingV (w : Wave) (n : Nat) : Bool :=
  (w.landings.any fun p => p.2.fullV.contains n) || (w.park.any fun p => p.fullV.contains n)
/-- FECLR and FESET (R349): wait for producers, then set the bits of the range at once. -/
def feOp (i : Instr) (op : Nat) (f : LaneFields) (set : Wave → Nat → Wave) (s : State) : Out :=
  let regs := (List.range (f.xf 5 0 + 1)).map fun k => f.dest.toNat + k
  laneOp i { op := op, f := f, named := [f.dest.toNat], range := regs } s fun s w _ =>
    if unfinBusy s w || regs.any (pendingV w) then stallLane s w else laneDone s (regs.foldl set w) []
/-- FECLR (R349). -/
def execFeclr (f : LaneFields) (s : State) : Out := feOp (.feclr f) 0x31 f setEmptyV s
/-- FESET (R349). -/
def execFeset (f : LaneFields) (s : State) : Out := feOp (.feset f) 0x32 f setFullV s

/-! ### Lane control -/

/-- A split goes on at an offset; the instruction is complete. -/
def laneJump (s : State) (w : Wave) (lpc : W32) : Wave :=
  let w := lanePass s w
  setSplit w s.split { getSplit w s.split with lpc := lpc }
/-- A count of instructions as a byte distance (R225). -/
def instDist (n : Nat) : W32 := BitVec.ofInt 32 (12 * sgn 16 n)
/-- The first tag from TAGNEXT on that no valid split holds (R225). -/
def freeTag (w : Wave) : Nat → BitVec 4 → BitVec 4
  | 0, g => g
  | fuel + 1, g => if (validSplits w).any fun n => (getSplit w n).chain.any fun c => c.2 = g then freeTag w fuel (g + 1) else g
/-- The lowest invalid split record. -/
def freeSplit (w : Wave) : Nat := ([0, 1, 2, 3].find? fun n => !(getSplit w n).valid).getD 0
/-- LBR (R225, R350): the divergence of the split in focus with taken lanes T. -/
def execLbr (f : LaneFields) (s : State) : Out :=
  laneOp (.lbr f) { op := 0x33, f := f } s fun s w T =>
    let x := getSplit w s.split
    let N := x.mask &&& ~~~T
    let tgt := x.lpc + instDist (f.xf 31 16)
    let rcv := x.lpc + instDist (f.xf 15 0)
    let fall := x.lpc + 12
    if N = 0 then .next (s.setWave s.focus (laneJump s w tgt))
    else if w.c.intrap then trapLane s w (.lbr f) 0x06 x.mask
    else if (validSplits w).length < 4 && x.chain.length < 2 then
      let g := freeTag w 16 w.c.tagnext
      let chain := (rcv, g) :: x.chain
      let n := freeSplit w
      let w := laneJump s w tgt
      let w := setSplit w s.split { getSplit w s.split with mask := T, chain := chain }
      let w := setSplit w n { lpc := fall, mask := N, valid := true, chain := chain }
      let c := w.c
      .next (s.setWave s.focus { w with c := { c with tagnext := g + 1 } })
    else if x.stack.length = 4 then trapLane s w (.lbr f) 0x06 x.mask
    else
      let w := laneJump s w tgt
      let e : StackEntry := { pmask := N, ppc := fall, rpc := rcv, phase := false }
      .next (s.setWave s.focus (setSplit w s.split { getSplit w s.split with mask := T, stack := e :: x.stack }))
/-- LJMP (R350). -/
def execLjmp (f : LaneFields) (s : State) : Out :=
  laneOp (.ljmp f) { op := 0x34, f := f } s fun s w _ =>
    .next (s.setWave s.focus (laneJump s w ((getSplit w s.split).lpc + instDist (f.xf 31 16))))
/-- LEND (R227, R351); the end of a block with an unwritten result traps (R223). -/
def execLend (f : LaneFields) (s : State) : Out :=
  laneOp (.lend f) { op := 0x35, f := f } s fun s w _ =>
    if resultMissing w s.split then trapLane s w (.lend f) 0x12 0 ((getEntry w (headEntry w)).res.zeroExtend 64)
    else
      let w := laneJump s w (getSplit w s.split).lpc
      .next (s.setWave s.focus (endEmpty s.split 8 (endLanes w s.split)))
/-- LNOP (R351). -/
def execLnop (f : LaneFields) (s : State) : Out :=
  laneOp (.lnop f) { op := 0x36, f := f } s fun s w _ => laneDone s w []
/-- LTRAP (R352). -/
def execLtrap (f : LaneFields) (s : State) : Out :=
  laneOp (.ltrap f) { op := 0x37, f := f } s fun s w E => trapLane s w (.ltrap f) 0x0E E (f.x.zeroExtend 64)
/-- LBRK (R352): no suppression is set. -/
def execLbrk (f : LaneFields) (s : State) : Out :=
  laneOp (.lbrk f) { op := 0x38, f := f } s fun s w E =>
    trapLane s w (.lbrk f) 0x0D E (w.y.lanebase + (getSplit w s.split).lpc.zeroExtend 64)
/-- A reserved lane opcode (R287): cause 0x01. -/
def execLaneReservedOpcode (x : BitVec 96) (s : State) : Out :=
  onWave s fun w =>
    match bkLane s w (.laneReservedOpcode x) with
    | some o => o
    | none => trapLane s w (.laneReservedOpcode x) 0x01 (getSplit w s.split).mask

end Sys2Proof.Machine
end

