-- ==== Sys2Proof/Machine/LaneNarrow.lean ====
section
/-! DEFINITION. Narrow formats, random values and proposal banks of the lanes (R353 to R362). -/

namespace Sys2Proof.Machine

/-! ### Narrow formats (R353 to R356) -/

/-- The number of a v source and its mode. -/
def vNum : Src → Nat × Bool
  | .v n t => (n.toNat, t)
  | _ => (0, false)
/-- Replace byte m of a word. -/
def setWordByte (x : W32) (m : Nat) (b : Byte) : W32 := (x &&& ~~~((0xFF#32) <<< (8 * m))) ||| (b.zeroExtend 32 <<< (8 * m))

/-- PACKG (R353). -/
def execPackg (f : LaneFields) (s : State) : Out :=
  let (a, t) := vNum f.a
  let d := f.dest.toNat
  let sh : Shape := { op := 0x44, f := f, srcs := [(f.a, false)], dst := [d], more := [1, 2, 3].map fun m => (a + m, t), noGroup := [d] }
  laneCompute (.packg f) sh s fun _ w E _ _ =>
    (List.range 4).foldl (fun w' g =>
      let lanes := (lanesOf E).filter fun L => L / 8 = g
      if lanes.isEmpty then w'
      else
        let x (m L : Nat) : FVal := fdecode fp32 false (vread w (a + m) L).toNat
        let code := g8ScaleCode (lanes.flatMap fun L => (List.range 4).map fun m => x m L)
        let w' : Wave := { w' with r := { w'.r with side := mput 0 w'.r.side (4 * d + g) (BitVec.ofNat 8 code) } }
        lanes.foldl (fun w' L => (List.range 4).foldl (fun w' m =>
          let bits : W64 := (vread w (a + m) L).zeroExtend 64
          let r := rndOf w (f.xf 2 0) (srDraw w bits (BitVec.ofNat 64 m) L 0)
          vwrite w' d L (setWordByte (vread w' d L) m (BitVec.ofNat 8 (g8Elem r code (x m L))))) w') w') w
/-- UNPACKG (R354). -/
def execUnpackg (f : LaneFields) (s : State) : Out :=
  let (a, _) := vNum f.a
  let d := f.dest.toNat
  let sh : Shape := { op := 0x45, f := f, srcs := [(f.a, false)], dst := [d], dstMore := [d + 1, d + 2, d + 3], noGroup := [a] }
  laneCompute (.unpackg f) sh s fun _ w E _ v =>
    (lanesOf E).foldl (fun w' L => (List.range 4).foldl (fun w' m =>
      let scale := mget 0 w.r.side (4 * a + L / 8)
      let x := fround fp32 .rne (ftz w) false (g8V (bitsOf (v 0 L).toNat (8 * m + 7) (8 * m)) scale.toNat)
      vwrite w' (d + m) L (BitVec.ofNat 32 x)) w') w
/-- NQDEC (R355). -/
def execNqdec (f : LaneFields) (s : State) : Out :=
  let d := f.dest.toNat
  let count := if f.ty = 2 then 8 else 4
  let sh : Shape := { op := 0x46, f := f, srcs := [(f.a, false), (f.b, false)], dst := [d], dstMore := (List.range count).map fun k => d + k }
  laneCompute (.nqdec f) sh s fun _ w E _ v =>
    (lanesOf E).foldl (fun w' L => (List.range count).foldl (fun w' n =>
      let x (fm : Fmt) (k : Nat) : Nat :=
        fround fm .rne (ftz w) false (fmulV (nq4V (bitsOf (v 0 L).toNat (4 * k + 3) (4 * k))) (fdecode fp32 false (v 1 L).toNat))
      vwrite w' (d + n) L (BitVec.ofNat 32 (if f.ty = 2 then x fp32 n else x fp16 (2 * n) + x fp16 (2 * n + 1) * 2 ^ 16))) w') w

/-! ### Random values (R229, R357, R358) -/

/-- A draw of lane L and the wave after it. -/
def drawOf (w : Wave) (L : Nat) : W64 := mix (mget 0 w.c.rng L) w.y.rngkey0 w.y.rngkey1 L
def advanceRng (w : Wave) (L : Nat) : Wave :=
  let c := w.c
  { w with c := { c with rng := mput 0 c.rng L (mget 0 c.rng L + 1) } }
/-- RANDU's value of a draw. -/
def randuOf (v : W64) : Nat := fround fp32 .rne false false (.fin false (2 * wbits v 63 41 + 1) (-24))
/-- RAND (R358). -/
def execRand (f : LaneFields) (s : State) : Out :=
  laneCompute (.rand f) { op := 0x47, f := f, dst := pairOf true f.dest.toNat } s fun _ w E _ _ =>
    (lanesOf E).foldl (fun w' L => advanceRng (writeV true f.dest.toNat L (drawOf w L) w') L) w
/-- RANDU (R358). -/
def execRandu (f : LaneFields) (s : State) : Out :=
  laneCompute (.randu f) { op := 0x48, f := f, dst := [f.dest.toNat] } s fun _ w E _ _ =>
    (lanesOf E).foldl (fun w' L =>
      advanceRng (writeV false f.dest.toNat L (BitVec.ofNat 64 (randuOf (drawOf w L))) w') L) w

/-! ### Proposal banks (R230, R359 to R362) -/

/-- The group's home registers. -/
def homeRegs (w : Wave) : List Nat := (List.range w.c.gcount.toNat).map fun k => w.c.gbase.toNat + k
/-- The line of the bank register of a home register. -/
def bankOf (w : Wave) (n : Nat) : Nat := n + w.c.gcount.toNat
/-- Resolve the old group: lanes with SEL set copy their bank line into the home line (R230). -/
def resolveGroup (w : Wave) : Wave :=
  (homeRegs w).foldl (fun w n => (List.range 32).foldl (fun w L =>
    if sideBit w n L then setSideBit (setLine w n L (mget 0 w.r.v (32 * bankOf w n + L))) n L false else w) w) w
/-- Clear the selector state of the registers of a new group. -/
def clearGroup (w : Wave) (b n : Nat) : Wave :=
  { w with r := { w.r with side := w.r.side.filter fun p => !(decide (4 * b ≤ p.1) && decide (p.1 < 4 * (b + 2 * n))) } }
/-- PROPOSE (R359). -/
def execPropose (f : LaneFields) (s : State) : Out :=
  let b := f.xf 9 0
  let n := f.xf 16 10
  laneOp (.propose f) { op := 0x49, f := f, early := fun _ => n = 0 || decide (64 < n) } s fun s w _ =>
    if w.c.popen then trapLane s w (.propose f) 0x0F (getSplit w s.split).mask
    else if w.winsize < b + 2 * n then trapLane s w (.propose f) 0x03 (getSplit w s.split).mask
    else
      let same := w.c.pdefined && w.c.gbase.toNat = b && w.c.gcount.toNat = n
      let w := if w.c.pdefined && !same then resolveGroup w else w
      let w := if same then w else clearGroup w b n
      let c := w.c
      laneDone s { w with c := { c with gbase := BitVec.ofNat 10 b, gcount := BitVec.ofNat 7 n, pdefined := true, popen := true } } []
/-- Clear WR in one lane. -/
def clearWr (w : Wave) (L : Nat) : Wave := (homeRegs w).foldl (fun w n => setSideBit w (bankOf w n) L false) w
/-- A committing lane flips SEL where WR is set. -/
def commitLane (w : Wave) (L : Nat) : Wave :=
  (homeRegs w).foldl (fun w n => if sideBit w (bankOf w n) L then setSideBit w n L (!sideBit w n L) else w) w
/-- The decision of ACCEPT: λ is no NaN and at least ln u. -/
def accepts (lam u : Nat) : Bool :=
  let x := fdecode fp32 false lam
  let l := fdecode fp32 false (fround fp32 .rne false false (lnV (fdecode fp32 false u)))
  !isNanV x && !isNanV l && decide (0 ≤ fcmpV x l)
/-- ACCEPT in one lane (R360). -/
def acceptLane (useB : Bool) (v : Nat → Nat → W64) (w : Wave) (L : Nat) : Wave :=
  let u := if useB then (v 1 L).toNat else randuOf (drawOf w L)
  let w := if useB then w else advanceRng w L
  let ok := accepts (v 0 L).toNat u
  let c := w.c
  let y := w.y
  let w : Wave := { w with
    c := { c with pcount := mput 0 c.pcount L (mget 0 c.pcount L + 1)
                  acount := if ok then mput 0 c.acount L (mget 0 c.acount L + 1) else c.acount }
    y := { y with pprop := y.pprop + 1, pacc := y.pacc + if ok then 1 else 0 } }
  clearWr (if ok then commitLane w L else w) L
/-- The proposal is closed. -/
def closeGroup (w : Wave) : Wave := { w with c := { w.c with popen := false } }
/-- ACCEPT (R360): the lanes outside E discard when the last lane of E is done. -/
def execAccept (f : LaneFields) (s : State) : Out :=
  let useB := f.xf 0 0 = 1
  let srcs := (f.a, false) :: if useB then [(f.b, false)] else []
  laneCompute (.accept f) { op := 0x4A, f := f, srcs := srcs, early := fun w => !w.c.popen } s fun s w can last val =>
    let w' := (lanesOf can).foldl (acceptLane useB val) w
    if last then
      let outside := ~~~((getSplit w s.split).mask &&& guardMask w f)
      closeGroup ((lanesOf outside).foldl clearWr w')
    else w'
/-- PDISCARD (R361). -/
def execPdiscard (f : LaneFields) (s : State) : Out :=
  laneOp (.pdiscard f) { op := 0x4B, f := f } s fun s w _ =>
    laneDone s (if w.c.popen then closeGroup ((List.range 32).foldl clearWr w) else w) []
/-- A home register index that PREAD refuses. -/
def preadBad (w : Wave) (v : W64) : Bool :=
  !w.c.pdefined || decide (sgn 32 v.toNat < 0) || decide ((w.c.gcount.toNat : Int) ≤ sgn 32 v.toNat)
/-- PREAD (R362): the line that SEL selects; it waits for an empty home register as RGET does (R342, assumption 62). -/
def execPread (f : LaneFields) (s : State) : Out :=
  let d := f.dest.toNat
  let home (w : Wave) (v : Nat → Nat → W64) (L : Nat) : Nat := w.c.gbase.toNat + (v 0 L).toNat
  let line (w : Wave) (v : Nat → Nat → W64) (L : Nat) : Nat :=
    let n := home w v L
    if sideBit w n L then bankOf w n else n
  let sh : Shape := { op := 0x4C, f := f, srcs := [(f.a, false)], dst := [d]
                      reaches := fun w E v => (lanesOf E).map fun L => (L, line w v L, L) }
  laneChecked (.pread f) sh s (fun w v L => preadBad w (v 0 L)) (fun w v L => emptyV w (home w v L)) fun _ w can _ v =>
    (lanesOf can).foldl (fun w' L => vwrite w' d L (mget 0 w.r.v (32 * line w v L + L))) w
/-- PCOUNT (R362). -/
def execPcount (f : LaneFields) (s : State) : Out :=
  laneResult (.pcount f) { op := 0x4D, f := f } false s fun _ w _ L =>
    (if f.xf 0 0 = 0 then mget 0 w.c.pcount L else mget 0 w.c.acount L).zeroExtend 64

end Sys2Proof.Machine
end

