-- ==== Sys2Proof/Machine/ScalarMem.lean ====
section
/-! DEFINITION. Scalar loads, stores and atomics (R294 to R297). -/

namespace Sys2Proof.Machine

/-- A wake address is no place for this access: a read gives TAIL and STATE, a narrow or wide store is ignored unless
it is an aligned 8-byte write whose high half is zero, which is a wake store (R88). Whatever its form, it needs the grant of the page. -/
def doorStore (s : State) (d off n : Nat) (v : W64) : State :=
  let v' := v.toNat % 2 ^ (8 * n)
  if n = 8 && v' < 2 ^ 32 then
    s.push (.wakeStore (Fin.ofNat 8 d) (BitVec.ofNat 20 ((off - 0x800000) / 8)) (BitVec.ofNat 64 v') (.wave s.focus))
  else s

/-- The address of a scalar memory instruction (R294). -/
def scalarAddr (w : Wave) (a : BitVec 6) (off : W64) : W64 := sreg w a + off

/-- A load of n bytes to s(d); an acquire of a scope (`acq`) discards the wave's prefetches (R181). -/
def loadOp (i : Instr) (d a : BitVec 6) (off : W64) (n : Nat) (acq : Option Nat) (s : State) : Out :=
  scalarOp i [a] (some d) s fun w =>
    let va := scalarAddr w a off
    let fin (w : Wave) : Wave := if acq.isSome then dropPrefetch w else w
    let s := match acq with | some code => refetchAt s w code va none | none => s
    scalarMem i .load va n 3 s w
      { here := fun s who p w => landScalar s (fin w) d (BitVec.ofNat 64 (leNat (loadBytes s who.d p 0 n))) 4
        away := fun s who w x => let (s, v) := foreignValue (sendAway s who.d .load [] s.focus x) n; landScalar s (fin w) d (BitVec.ofNat 64 v) 4
        image := fun s w off =>
          if imageWaits w off then stallScalar s w
          else landScalar s (fin w) d (BitVec.ofNat 64 (leNat (imageBytes w off n))) 4
        door := fun s _ w e o =>
          landScalar s (fin w) d (BitVec.ofNat 64 ((doorRead s e ((o - 0x800000) / 8)).toNat / 2 ^ (8 * (va.toNat % 8)) % 2 ^ (8 * n))) 4 }

/-- A store of the low n bytes of s(d); a release of the scope waits for the wave's remote writes (R176). -/
def storeOp (i : Instr) (d a : BitVec 6) (off' : W64) (n : Nat) (rel : Option Nat) (s : State) : Out :=
  scalarOp i [a, d] none s fun w =>
    match rel.map (releaseWaits s w) with
    | some true => stallScalar s w
    | _ =>
      scalarMem i .store (scalarAddr w a off') n 4 s w
        { here := fun s who p w => doneS (storeBytes s who s.focus p (leBytes n (sreg w d).toNat)) (dropPrefetch w) 4
          away := fun s who w x => doneS (sendAway s who.d .store (leBytes n (sreg w d).toNat) s.focus x) (dropPrefetch w) 4
          image := fun s w off =>
            if imageWaits w off then stallScalar s w
            else if (imageReg w off).isNone then trapScalar s w i 0x0A (scalarAddr w a off')
            else doneS s (dropPrefetch (imageStores w off (leBytes n (sreg w d).toNat))) 4
          door := fun s _ w e o => doneS (doorStore s e o n (sreg w d)) w 4 }

/-- An 8-byte atomic at s(a) (R297): at once where the die holds the tile, else at its home. -/
def samoOp (i : Instr) (d a b : BitVec 6) (sc : BitVec 3) (o : BitVec 2) (op : AtomicOp) (s : State) : Out :=
  scalarOp i [a, b] (some d) s fun w =>
    if o = 2 && releaseWaits s w sc.toNat then stallScalar s w
    else
      let w' (w : Wave) : Wave := dropPrefetch w
      let y := (sreg w b).toNat
      let c := (sreg w d).toNat
      scalarMem i .atomic (sreg w a) 8 2 s w
        { here := fun s who p w =>
            if p.req.home.val = who.d then
              match aolAdmit s who.d p.req.tile w.launch w.team w.idx with
              | none => stallScalar s w
              | some s =>
                let (s, old) := atomicHere (bounce s who.d who.cluster p.req.tile) who s.focus p 8 op .signed y c (atSlice s who.d p.req.tile)
                landScalar s (w' w) d (BitVec.ofNat 64 old) 4
            else
              let n := w.nextLanding
              let s := sendAtomic s who p 8 op .signed y c (if d = 0 then .none else .scalar s.focus n d) s.focus (o = 1)
              if d = 0 then doneS s (w' w) 4
              else .next (addLanding (s.setWave s.focus (stepPc (setEmptyS (w' w) d) 4)) s.focus
                { need := 1, fullS := [d.toNat] })
          away := fun s who w x =>
            match x with
            | .host _ _ => trapScalar s w i 0x0A (sreg w a)
            | .foreign _ _ =>
              let (s, v) := foreignValue (sendAway s who.d .atomic (leBytes 8 y ++ leBytes 8 c) s.focus x) 8
              landScalar s (w' w) d (BitVec.ofNat 64 v) 4
          image := fun s w off =>
            if imageWaits w off then stallScalar s w
            else if (imageReg w off).isNone then trapScalar s w i 0x0A (sreg w a)
            else
              let old := leNat (imageBytes w off 8)
              let w := match atomicNew op .signed 8 old y c with
                | some v => imageStores w off (leBytes 8 v)
                | none => w
              landScalar s (w' w) d (BitVec.ofNat 64 old) 4
          door := fun s who w e o =>
            .next (freezeCluster s who.d who.cluster (ctlBase e + o) (waveName s w 0 none) s.focus) }

/-- SLD (R295): 2^w2 bytes at s(a) + sext(off12), zero-extended. -/
def execSld (d a : BitVec 6) (w : BitVec 2) (off : BitVec 12) (s : State) : Out :=
  loadOp (.sld d a w off) d a (off.signExtend 64) (2 ^ w.toNat) none s
/-- SST (R295): the low 2^w2 bytes of s(d) at s(a) + sext(off12). -/
def execSst (d a : BitVec 6) (w : BitVec 2) (off : BitVec 12) (s : State) : Out :=
  storeOp (.sst d a w off) d a (off.signExtend 64) (2 ^ w.toNat) none s
/-- SLDA (R296): an 8-byte load that is an acquire of its scope. -/
def execSlda (d a : BitVec 6) (sc : BitVec 3) (off : BitVec 11) (s : State) : Out :=
  loadOp (.slda d a sc off) d a (off.signExtend 64) 8 (some sc.toNat) s
/-- SSTR (R296): an 8-byte store that is a release of its scope. -/
def execSstr (d a : BitVec 6) (sc : BitVec 3) (off : BitVec 11) (s : State) : Out :=
  storeOp (.sstr d a sc off) d a (off.signExtend 64) 8 (some sc.toNat) s
/-- SAMO.ADD (R297). -/
def execSamoAdd (d a b : BitVec 6) (sc : BitVec 3) (o : BitVec 2) (s : State) : Out := samoOp (.samoAdd d a b sc o) d a b sc o .add s
/-- SAMO.AND (R297). -/
def execSamoAnd (d a b : BitVec 6) (sc : BitVec 3) (o : BitVec 2) (s : State) : Out := samoOp (.samoAnd d a b sc o) d a b sc o .and s
/-- SAMO.OR (R297). -/
def execSamoOr (d a b : BitVec 6) (sc : BitVec 3) (o : BitVec 2) (s : State) : Out := samoOp (.samoOr d a b sc o) d a b sc o .or s
/-- SAMO.XOR (R297). -/
def execSamoXor (d a b : BitVec 6) (sc : BitVec 3) (o : BitVec 2) (s : State) : Out := samoOp (.samoXor d a b sc o) d a b sc o .xor s
/-- SAMO.MIN (R297), signed. -/
def execSamoMin (d a b : BitVec 6) (sc : BitVec 3) (o : BitVec 2) (s : State) : Out := samoOp (.samoMin d a b sc o) d a b sc o .min s
/-- SAMO.MAX (R297), signed. -/
def execSamoMax (d a b : BitVec 6) (sc : BitVec 3) (o : BitVec 2) (s : State) : Out := samoOp (.samoMax d a b sc o) d a b sc o .max s
/-- SAMO.SWAP (R297). -/
def execSamoSwap (d a b : BitVec 6) (sc : BitVec 3) (o : BitVec 2) (s : State) : Out := samoOp (.samoSwap d a b sc o) d a b sc o .swap s
/-- SAMO.CAS (R297): compared with s(d) as read at issue. -/
def execSamoCas (d a b : BitVec 6) (sc : BitVec 3) (o : BitVec 2) (s : State) : Out := samoOp (.samoCas d a b sc o) d a b sc o .cas s

end Sys2Proof.Machine
end

