-- ==== Sys2Proof/Machine/LaneMem.lean ====
section
/-! DEFINITION. Lane loads, stores and atomics (R364 to R375), fences, context sync, the lane barrier and the stream skip
(R376 to R381). -/

namespace Sys2Proof.Machine

/-! ### Addresses (R364 to R366, R370) -/

/-- A lane memory instruction: its access, the width in bytes, the bits of OFF, its record slot and HL in mode 1. -/
structure MemForm where
  op : Nat
  f : LaneFields
  kind : AccKind
  width : Nat
  offBits : Nat := 21
  slot : Nat := 0
  hl : Bool := false
  srcs : List (Src × Bool) := []
  dst : List Nat := []
  ordered : Bool := false

/-- The signed offset in X. -/
def memOff (m : MemForm) : Int := sgn m.offBits m.f.x.toNat
/-- Source A as the mode reads it. -/
def addrSrc (f : LaneFields) : Src × Bool := (f.a, f.mode = 0)
/-- The coordinate registers of a mode-1 access. -/
def coordRegs (f : LaneFields) (rank : Nat) : List (Nat × Bool) :=
  let (a, t) := vNum f.a
  (List.range rank).map fun d => (a + d, t)
/-- What the instruction uses: the address, the data sources, the destination. -/
def memShape (s : State) (w : Wave) (m : MemForm) : Shape :=
  let base := if m.f.mode = 1 then [] else [addrSrc m.f]
  let rank := match slotOf s w m.slot with | some r => r.rank | none => 1
  let regs := if m.f.mode = 1 then coordRegs m.f rank else []
  { op := m.op, f := m.f, srcs := base ++ m.srcs, dst := m.dst, named := (regs.take 1).map Prod.fst, more := regs }

/-- The key of an instruction's own access beside those of streams. -/
def memKey : Nat := 8

/-- The element a lane names: coordinates by dimension, own tile and offsets under HL (R366); none for a tile coordinate
of 4,096 or more. -/
structure ElemRef where
  e : List Int
  c : List Nat
  off : List Int
  deriving DecidableEq, Repr
def elemRef (w : Wave) (f : LaneFields) (r : Record) (hl : Bool) (L : Nat) : Option ElemRef :=
  let x : List Nat := (List.range r.rank).map fun d => (vread w ((vNum f.a).1 + d) L).toNat
  if hl then
    let c : List Nat := x.map fun v => v % 65536
    let o : List Int := x.map fun v => sgn 16 (v / 65536)
    if c.any fun k => decide (4096 ≤ k) then none
    else some ⟨(List.range r.rank).map fun d => (c.getD d 0 : Int) * r.ext d + o.getD d 0, c, o⟩
  else some ⟨x.map fun v => (v : Int), x.mapIdx fun d v => v / r.ext d, x.mapIdx fun d v => ((v % r.ext d : Nat) : Int)⟩

/-- The dimension in which a halo access leaves its own tile, if it is exactly one and no further than HW (R366). -/
def haloDim (r : Record) (x : ElemRef) : Option Nat :=
  match (List.range r.rank).filter fun d => decide (x.off.getD d 0 < 0) || decide ((r.ext d : Int) ≤ x.off.getD d 0) with
  | [d] =>
    if -(r.hw d : Int) ≤ x.off.getD d 0 && x.off.getD d 0 < (r.ext d : Int) + r.hw d then some d else none
  | _ => none
/-- The index of an element in the strip of a face of dimension d (R160). -/
def stripIndex (r : Record) (x : ElemRef) (d : Nat) : Nat :=
  let len (k : Nat) : Nat := if k = d then r.hw d else r.ext k
  let pos (k : Nat) : Nat :=
    let o := x.off.getD k 0
    if k = d then (if o < 0 then o + r.hw d else o - r.ext d).toNat else o.toNat
  ((pos 3 * len 2 + pos 2) * len 1 + pos 1) * len 0 + pos 0
/-- What the annex of the own tile gives for a halo load, if its face is valid. -/
def annexVal (s : State) (d : Nat) (r : Record) (x : ElemRef) (width : Nat) : Option W64 :=
  match haloDim r x with
  | none => none
  | some k =>
    let t : TileId := ⟨r.tid, packCoord fun n => x.c.getD n 0⟩
    let face := 2 * k + if x.off.getD k 0 < 0 then 0 else 1
    if (s.frame? d t).isNone then none
    else match (s.die d).cache.annexes.find? fun a => a.tile = t with
      | none => none
      | some a => (mfind a.strips face).map fun b => BitVec.ofNat 64 (leNat (bytesAt b (width * stripIndex r x k) width))

/-- An access to an element, or none outside the tensor. -/
def elemAcc (s : State) (w : Wave) (m : MemForm) (r : Record) (L : Nat) : Option LaneAcc :=
  match elemRef w m.f r m.hl L with
  | none => none
  | some x => (r.element? fun d => x.e.getD d 0).map fun p =>
    let annex := if m.hl && m.kind = .load then annexVal s (waveWho s w).d r x m.width else none
    { lane := L, key := memKey, va := BitVec.ofNat 64 (p.1.va + p.2), n := m.width, kind := m.kind, tile := some p.1, annex := annex }

/-- A trap that the addresses of an instruction give: cause, lanes, sys.taddr. -/
abbrev AddrTrap := Nat × W32 × W64

/-- A mode-2 access of n bytes at an offset of the image (R370): it lies outside, or stores to a side byte of a group. -/
def rawBad (w : Wave) (k : AccKind) (off : Int) : Bool :=
  decide (off < 0) || decide ((imageSize w : Int) ≤ off) ||
    (k ≠ .load && (match imagePart w off.toNat with | .side n => isHome w n || isBank w n | _ => false))

/-- The accesses of the lanes of E (R365, R366, R370), or the trap that their addresses give. The lanes of an instruction
that forms its addresses from one base take them in order. -/
def laneAddrs (s : State) (w : Wave) (m : MemForm) (E : W32) : Except AddrTrap (List LaneAcc) :=
  let a (L : Nat) : W64 := srcVal s w [] 0 m.f.a (m.f.mode = 0) L
  let place (L n : Nat) : W64 := a (if m.ordered then lowestLane E else L) + BitVec.ofNat 64 n
  let lanes := if m.ordered then (lanesOf E).mapIdx fun n L => (L, (n + w.c.prog.toNat) * m.width) else (lanesOf E).map fun L => (L, 0)
  match m.f.mode with
  | 1 =>
    match slotOf s w m.slot with
    | none => .error (0x0B, E, 0)
    | some r =>
      let bad := laneMask ((lanesOf E).filter fun L => (elemAcc s w m r L).isNone)
      if efmtBits r.efmt ≠ 8 * m.width || r.efmt = efmtNq4 then .error (0x0B, E, 0)
      else if bad ≠ 0 then .error (0x0B, bad, 0)
      else .ok ((lanesOf E).filterMap (elemAcc s w m r))
  | 0 => .ok (lanes.map fun p =>
      { lane := p.1, key := memKey, va := place p.1 p.2 + BitVec.ofInt 64 (memOff m), n := m.width, kind := m.kind })
  | _ =>
    let off (p : Nat × Nat) : Int := ((place p.1 0).toNat : Int) + p.2 + memOff m
    let bad := laneMask ((lanes.filter fun p => rawBad w m.kind (off p)).map Prod.fst)
    if bad ≠ 0 then .error (0x03, bad, 0)
    else .ok (lanes.map fun p =>
      { lane := p.1, key := memKey, va := w.ctxbase + BitVec.ofInt 64 (off p), n := m.width, kind := m.kind, raw := some (off p).toNat })

/-! ### The start of an access (R367 to R369) -/

/-- An access is refused: an atomic at an uncached host range, or a store to the wave's own system block (R85, R222). -/
def refusedAcc (w : Wave) (p : LaneAcc × Ready) : Bool :=
  match p.2 with
  | .image off => p.1.kind ≠ .load && (imageReg w off).isNone
  | .away (.host _ _) => p.1.kind = .atomic
  | _ => false

/-- What is ready to be performed: the lanes that can go, their accesses, the values of the loads among all accesses, the
failures, and the sources. -/
structure MemGo where
  E : W32
  can : W32
  own : List (LaneAcc × Ready)
  vals : List (Nat × W64)
  failed : List Failed
  val : Nat → Nat → W64

/-- The lanes of E before the first that cannot go. -/
def prefixOf (E can : W32) : W32 := laneMask ((lanesOf E).takeWhile fun L => can.getLsbD L)

/-- Gathered accesses: what traps, or what can be performed. `loads` are performed here. -/
def memGo (i : Instr) (s : State) (w : Wave) (E : W32) (ordered : Bool) (ty : BitVec 3) (srcs : List (Src × Bool))
    (g : Gather) (k : State → Wave → MemGo → Out) : Out :=
  if imageStalls w g then stallLane s w
  else
    let own := g.accs.filter fun p => p.1.kind ≠ .load
    let (s, vals, miss) := loadAll s w (g.accs.filter fun p => p.1.kind = .load)
    let refused := own.filter (refusedAcc w)
    let stuck := miss ||| laneMask ((own.filter fun p => p.2 = .waits || p.2 matches .failed _).map fun p => p.1.lane)
    let failed := failedOf g
    if stuck = 0 && !refused.isEmpty then
      trapLane s w i 0x0A (laneMask (refused.map fun p => p.1.lane)) (leastVa (refused.map fun p => p.1.va))
    else if stuck = 0 && g.poison ≠ 0 then .next (laneTrap s w (instBits i) 0x09 g.poison g.paddr 0 g.origin)
    else if stuck ≠ 0 && failed.isEmpty && !mayLeave s w then stallLane s w
    else
      let can := E &&& ~~~(stuck ||| g.poison ||| laneMask (refused.map fun p => p.1.lane))
      let can := if ordered then prefixOf E can else can
      let val (n L : Nat) : W64 := match srcs[n]? with
        | some (x, wide) => srcVal s w vals ty x wide L
        | none => 0
      k s w { E := E, can := can, own := own.filter fun p => can.getLsbD p.1.lane, vals := vals, failed := failed, val := val }

/-- A lane memory instruction up to the point where its lanes are performed. -/
def memStart (i : Instr) (m : MemForm) (s : State) (k : State → Wave → MemGo → Out) : Out :=
  onWave s fun w0 =>
    laneOp i (memShape s w0 m) s fun s w E =>
      if (streamsOf m.srcs).any (streamBad w) then trapLane s w i 0x0B E
      else match laneAddrs s w m E with
        | .error (c, lanes, a) => trapLane s w i c lanes a
        | .ok mem =>
          let accs := streamAccs w E m.srcs ++ mem
          match scanAccs s w i accs with
          | some o => o
          | none =>
            if (m.f.ord = 2 && releaseWaits s w m.f.scope5) || unfinBusy s w then stallLane s w
            else
              let regs := ((memShape s w m).srcs.flatMap srcRegs ++ (memShape s w m).more).map Prod.fst
              let s := if m.kind = .load && m.f.ord = 1 then mem.foldl (fun s a => refetchAt s w m.f.scope5 a.va a.tile) s else s
              let (s, g) := accs.foldl (gatherOne w) (s, regPoison w E regs)
              memGo i s w E m.ordered m.f.ty m.srcs g k

/-! ### Completion -/

/-- The lanes `done` of a load are performed: their results are on their way, and the destination is empty (R218). -/
def landLanes (s : State) (w : Wave) (dst : List Nat) (l : Landing) (last : Bool) : State :=
  addLanding (s.setWave s.focus (dst.foldl setEmptyV w)) s.focus { l with regs := dst, fullV := if last then dst else [] }
/-- PROG after n more elements of a compress or expand (R373). -/
def addProg (w : Wave) (ordered : Bool) (n : Nat) : Wave :=
  if ordered then let c := w.c; { w with c := { c with prog := c.prog + BitVec.ofNat 8 n } } else w

/-- What follows the lanes `done`: completion, or the rest is left (R208). -/
def memEnd (i : Instr) (m : MemForm) (acq : Bool) (E done : W32) (failed : List Failed) (access : Nat) (s : State) : Out :=
  onWave s fun w =>
    if done = E then
      let w := laneFinish s w m.srcs
      .next (s.setWave s.focus (if acq then dropPrefetch w else w))
    else laneLeft i s (addProg w m.ordered (popcount done)) access (E &&& ~~~done) failed m.dst

/-- The words that a result writes: register and lane keys. -/
def wordsAt (wide : Bool) (d L : Nat) (v : W64) : List (Nat × W32) :=
  (32 * d + L, v.extractLsb' 0 32) :: if wide then [(32 * (d + 1) + L, v.extractLsb' 32 32)] else []

/-- A lane load: `fix` extends a narrow value. -/
def loadLanes (i : Instr) (m : MemForm) (fix : W64 → W64) (s : State) : Out :=
  memStart i m s fun s w g =>
    let d := m.f.dest.toNat
    let words := (lanesOf g.can).flatMap fun L => wordsAt m.f.wide d L (fix ((mfind g.vals (32 * memKey + L)).getD 0))
    memEnd i m (m.f.ord = 1) g.E g.can g.failed 0 (landLanes s w m.dst { lanes := words } (g.can = g.E))

/-- Two accesses go to one tile of the die's storage. -/
def sameTile (p q : LaneAcc × Ready) : Bool :=
  match p.2, q.2 with
  | .here a, .here b => a.req.tile = b.req.tile
  | _, _ => false
/-- Accesses by tile, in the order of the first lane of each. -/
def tileGroups : Nat → List (LaneAcc × Ready) → List (LaneAcc × Ready × List (LaneAcc × Ready))
  | 0, _ => []
  | _, [] => []
  | n + 1, p :: l => (p.1, p.2, p :: l.filter (sameTile p)) :: tileGroups n (l.filter fun q => !sameTile p q)
/-- The stores of one instruction to a tile, each lane's and each side byte's a store of its own, which therefore rewrites no sector
whole (R172, R179, R372); in lane order, so that of several lanes the last prevails. -/
def groupStores (bytes : LaneAcc → List Byte) (side : List (Nat × Byte)) (l : List (LaneAcc × Ready)) : List (List (Nat × Byte)) :=
  (l.map fun p => match p.2 with
    | .here q => atOffsets (q.pa - q.req.base) (bytes p.1)
    | _ => []) ++ side.map fun b => [b]
/-- Perform the stores to one tile, or one store that leaves the die; its lanes are done unless it must wait. -/
def storeGroup (bytes : LaneAcc → List Byte) (side : List (Nat × Byte)) (x : State × Wave × W32)
    (g : LaneAcc × Ready × List (LaneAcc × Ready)) : State × Wave × W32 :=
  let (s, w, done) := x
  let (a, r, l) := g
  let who := waveWho s w
  let ok (s : State) (w : Wave) : State × Wave × W32 := (s, w, done ||| laneMask (l.map fun p => p.1.lane))
  match r with
  | .here q => match bring s .store who.d q with
    | .ok s =>
      let s := l.foldl (fun s p => if p.1.counted then countMiss s who p.1.va 1 w.launch .store q else s) s
      ok ((groupStores bytes side l).foldl (fun s new => storeAt s who s.focus q new) s) w
    | .wait s => (s, w, done)
    | .fault s => (s, w, done)
  | .away y => ok (sendAway s who.d .store (bytes a) s.focus y) w
  | .door d o => ok (doorStore s d o a.n (BitVec.ofNat 64 (leNat (bytes a)))) w
  | .image off => ok s (imageStores w off (bytes a))
  | _ => (s, w, done)
/-- Perform stores tile by tile, in ascending lanes (R179); with `ordered` the first that waits stops the rest. -/
def storeGroups (ordered : Bool) (bytes : LaneAcc → List Byte) (side : List (Nat × Byte)) :
    List (LaneAcc × Ready × List (LaneAcc × Ready)) → State × Wave × W32 → State × Wave × W32
  | [], x => x
  | g :: l, x =>
    let y := storeGroup bytes side x g
    if ordered && y.2.2 = x.2.2 then y else storeGroups ordered bytes side l y
def storeAll (ordered : Bool) (bytes : LaneAcc → List Byte) (side : List (Nat × Byte)) (l : List (LaneAcc × Ready))
    (x : State × Wave × W32) : State × Wave × W32 := storeGroups ordered bytes side (tileGroups l.length l) x
/-- A lane store of the low bytes of source 0. -/
def storeLanes (i : Instr) (m : MemForm) (s : State) : Out :=
  memStart i m s fun s w g =>
    let (s, w, done) := storeAll m.ordered (fun a => leBytes m.width (g.val 0 a.lane).toNat) [] g.own (s, dropPrefetch w, 0)
    memEnd i m false g.E done g.failed 1 (s.setWave s.focus w)

/-! ### LDV, STV, CSTORE, XLOAD (R371, R373) -/

/-- The access width of LDV and STV. -/
def vWidth (f : LaneFields) : Nat := match f.xf 22 21 with | 1 => 1 | 2 => 2 | _ => if f.wide then 8 else 4
/-- A narrow value extended to 32 bits (R371). -/
def narrowFix (f : LaneFields) (v : W64) : W64 :=
  if f.xf 22 21 = 0 || f.ty = 1 then v else (BitVec.ofInt 32 (sgn (8 * vWidth f) v.toNat)).zeroExtend 64
def ldvForm (f : LaneFields) : MemForm :=
  { op := 0x39, f := f, kind := .load, width := vWidth f, slot := f.xf 20 17, hl := f.mode = 1 && f.xf 16 16 = 1
    dst := pairOf f.wide f.dest.toNat }
def stvForm (f : LaneFields) : MemForm :=
  { op := 0x3A, f := f, kind := .store, width := vWidth f, slot := f.xf 20 17, hl := f.mode = 1 && f.xf 16 16 = 1
    srcs := [(f.b, f.wide)] }
def cstoreForm (f : LaneFields) : MemForm :=
  { op := 0x3D, f := f, kind := .store, width := if f.wide then 8 else 4, srcs := [(f.b, f.wide)], ordered := true }
def xloadForm (f : LaneFields) : MemForm :=
  { op := 0x3E, f := f, kind := .load, width := if f.wide then 8 else 4, dst := pairOf f.wide f.dest.toNat, ordered := true }
/-- LDV (R371). -/
def execLdv (f : LaneFields) (s : State) : Out := loadLanes (.ldv f) (ldvForm f) (narrowFix f) s
/-- STV (R371). -/
def execStv (f : LaneFields) (s : State) : Out := storeLanes (.stv f) (stvForm f) s
/-- CSTORE (R373). -/
def execCstore (f : LaneFields) (s : State) : Out := storeLanes (.cstore f) (cstoreForm f) s
/-- XLOAD (R373). -/
def execXload (f : LaneFields) (s : State) : Out := loadLanes (.xload f) (xloadForm f) id s

/-! ### ATOM (R375) -/

def atomForm (f : LaneFields) : MemForm :=
  { op := 0x3F, f := f, kind := .atomic, width := if f.wide then 8 else 4, offBits := 20, slot := f.xf 19 16
    srcs := (f.b, f.wide) :: if f.xf 22 20 = 7 then [(f.c, f.wide)] else [], dst := pairOf f.wide f.dest.toNat }
def atomKind (f : LaneFields) : AtomicKind := if f.ty = 2 then .f32 else if intSigned f.ty then .signed else .unsigned
/-- The old values and what is still to come of an atomic. -/
structure AtomGo where
  s : State
  w : Wave
  done : W32 := 0
  words : List (Nat × W32) := []
  need : Nat := 0
/-- Perform one lane's atomic: here, at its home, outside the package, or on the wave's own image. -/
def atomOne (f : LaneFields) (b c : Nat → Nat) (landing : Nat) (x : AtomGo) (p : LaneAcc × Ready) : AtomGo :=
  let s := x.s
  let w := x.w
  let a := p.1
  let who := waveWho s w
  let d := f.dest.toNat
  let op := atomicOfCode (f.xf 22 20)
  let got (s : State) (w : Wave) (old : Nat) : AtomGo :=
    { x with s := s, w := w, done := x.done ||| BitVec.twoPow 32 a.lane
             words := x.words ++ wordsAt f.wide d a.lane (BitVec.ofNat 64 old) }
  match p.2 with
  | .here q =>
    if q.req.home.val = who.d then
      match bring s .atomic who.d q with
      | .ok s =>
        match aolAdmit s who.d q.req.tile w.launch w.team w.idx with
        | none => { x with s := s }
        | some s =>
          let s := bounce (countMiss s who a.va 2 w.launch .atomic q) who.d who.cluster q.req.tile
          let (s, old) := atomicHere s who s.focus q a.n op (atomKind f) (b a.lane) (c a.lane) (atSlice s who.d q.req.tile)
          got s w old
      | .wait s => { x with s := s }
      | .fault s => { x with s := s }
    else
      let s := sendAtomic (countAccess s who a.va 2 w.launch q) who q a.n op (atomKind f) (b a.lane) (c a.lane)
        (.lane s.focus landing d a.lane) s.focus (f.ord = 1)
      { x with s := s, done := x.done ||| BitVec.twoPow 32 a.lane, need := x.need + 1 }
  | .away y =>
    let (s, v) := foreignValue (sendAway s who.d .atomic (leBytes 8 (b a.lane) ++ leBytes 8 (c a.lane)) s.focus y) a.n
    got s w v
  | .image off =>
    let old := leNat (imageBytes w off a.n)
    got s (match atomicNew op (atomKind f) a.n old (b a.lane) (c a.lane) with
      | some v => imageStores w off (leBytes a.n v)
      | none => w) old
  | _ => x
/-- ATOM (R375): lanes in ascending order. -/
def execAtom (f : LaneFields) (s : State) : Out :=
  let m := atomForm f
  memStart (.atom f) m s fun s w g =>
    let b (L : Nat) : Nat := (g.val 0 L).toNat
    let c (L : Nat) : Nat := (g.val 1 L).toNat
    let x := g.own.foldl (atomOne f b c w.nextLanding) { s := s, w := dropPrefetch w }
    memEnd (.atom f) m (f.ord = 1) g.E x.done g.failed 2
      (landLanes x.s x.w m.dst { lanes := x.words, need := x.need, wide := f.wide } (x.done = g.E))

/-! ### Line loads and stores (R372) -/

def lineCount (f : LaneFields) : Nat := f.xf 22 19 + 1
def lineSide (f : LaneFields) : Bool := f.mode = 1 && f.xf 18 18 = 1
/-- The registers of a line instruction. -/
def lineRegs (f : LaneFields) (first : Nat) : List Nat := (List.range (lineCount f)).map fun j => first + j
/-- The tile of a line instruction with the address of its first line, or its trap. -/
def lineTile (s : State) (w : Wave) (f : LaneFields) (E : W32) : Except AddrTrap (Option ElemTile × W64) :=
  let a := srcVal s w [] 0 f.a true (lowestLane E)
  let n := lineCount f
  if f.mode = 0 then
    let va := a + BitVec.ofInt 64 (sgn 18 f.x.toNat)
    if va.toNat % 128 ≠ 0 || 2048 < va.toNat % 2048 + 128 * n then .error (0x05, E, va) else .ok (none, va)
  else match slotOf s w (f.xf 17 14) with
    | none => .error (0x0B, E, 0)
    | some r =>
      let j0 := f.xf 13 10
      match r.packed? a with
      | none => .error (0x0B, E, 0)
      | some t =>
        if 16 < j0 + n || (lineSide f && r.efmt ≠ efmtG8) then .error (0x0B, E, 0)
        else .ok (some t, BitVec.ofNat 64 (t.va + 128 * j0))
/-- The 4-byte accesses of the lanes of E in ascending line and lane, keyed from memKey on; a line is one request. -/
def lineAccs (E : W32) (n : Nat) (kind : AccKind) (t : Option ElemTile) (va : W64) : List LaneAcc :=
  (List.range n).flatMap fun j => (lanesOf E).map fun L =>
    { lane := L, key := memKey + j, va := va + BitVec.ofNat 64 (128 * j + 4 * L), n := 4, kind := kind, tile := t
      counted := L = lowestLane E }
/-- The side bytes of a line instruction: register line, granule, offset in the frame's side area. -/
def lineSides (f : LaneFields) (E : W32) : List (Nat × Nat × Nat) :=
  if lineSide f then
    (List.range (lineCount f)).flatMap fun j => ((List.range 4).filter fun g => (lanesOf E).any fun L => L / 8 = g).map fun g =>
      (j, g, 4 * (f.xf 13 10 + j) + g)
  else []
/-- The side area that a line load reads is poisoned (R172): every lane would consume it. -/
def sideGather (s : State) (d : Nat) (E : W32) (t : Option ElemTile) (va : W64) (g : Gather) : Gather :=
  match t.bind fun t => s.frame? d t.tile with
  | some f => if f.poison.getLsbD 32 then { g with poison := E, origin := if g.poison = 0 then f.porigin else g.origin
                                                   paddr := if g.poison = 0 then va else g.paddr } else g
  | none => g
/-- A line instruction up to where it is performed: as a whole. -/
def lineStart (i : Instr) (op : Nat) (f : LaneFields) (kind : AccKind) (first : Nat) (s : State)
    (k : State → Wave → MemGo → Out) : Out :=
  let regs := lineRegs f first
  let read := if kind = .load then [] else (regs.drop 1).map fun n => (n, (vNum f.b).2)
  let sh : Shape :=
    { op := op, f := f, srcs := (f.a, true) :: if kind = .load then [] else [(f.b, false)]
      dst := if kind = .load then [first] else [], dstMore := if kind = .load then regs.drop 1 else [], more := read
      noGroup := if lineSide f then regs else [] }
  laneOp i sh s fun s w E =>
    match lineTile s w f E with
    | .error (c, lanes, a) =>
      ((if c = 0x05 then faultyAccs s w i (lineAccs E (lineCount f) kind none a) else none)).getD (trapLane s w i c lanes a)
    | .ok (t, va) =>
      let accs := lineAccs E (lineCount f) kind t va
      match scanAccs s w i accs with
      | some o => o
      | none =>
        if (f.ord = 2 && releaseWaits s w f.scope5) || unfinBusy s w then stallLane s w
        else
          let srcRegs' := if kind = .load then [] else regs
          let s := if kind = .load && f.ord = 1 then refetchAt s w f.scope5 va t else s
          let (s, g) := accs.foldl (gatherOne w) (s, regPoison w E srcRegs')
          let g := if kind = .load && lineSide f then sideGather s (waveWho s w).d E t va g else g
          if g.accs.any fun p => p.2 = .waits then stallLane s w
          else memGo i s w E false 0 [] g fun s w x =>
            k s w { x with can := if x.failed.isEmpty then x.can else 0 }
/-- LDB (R372). -/
def execLdb (f : LaneFields) (s : State) : Out :=
  let d := f.dest.toNat
  let regs := lineRegs f d
  let m : MemForm := { op := 0x3B, f := f, kind := .load, width := 4, dst := regs }
  lineStart (.ldb f) 0x3B f .load d s fun s w g =>
    let words := (List.range (lineCount f)).flatMap fun j => (lanesOf g.can).map fun L =>
      (32 * (d + j) + L, ((mfind g.vals (32 * (memKey + j) + L)).getD 0).extractLsb' 0 32)
    let who := waveWho s w
    let area := match lineTile s w f g.E with
      | .ok (some t, _) => match s.frame? who.d t.tile with | some fr => fr.side | none => []
      | _ => []
    let side := (lineSides f g.can).map fun p => (4 * (d + p.1) + p.2.1, mget 0 area p.2.2)
    memEnd (.ldb f) m (f.ord = 1) g.E g.can g.failed 0 (landLanes s w regs { lanes := words, side := side } (g.can = g.E))
/-- STB (R372). -/
def execStb (f : LaneFields) (s : State) : Out :=
  let b := (vNum f.b).1
  let m : MemForm := { op := 0x3C, f := f, kind := .store, width := 4 }
  lineStart (.stb f) 0x3C f .store b s fun s w g =>
    if g.can ≠ g.E then memEnd (.stb f) m false g.E 0 g.failed 1 s
    else
      let side := (lineSides f g.E).map fun p => (2048 + p.2.2, mget 0 w.r.side (4 * (b + p.1) + p.2.1))
      let (s, w', _) := storeAll false (fun a => leBytes 4 (vread w (b + (a.key - memKey)) a.lane).toNat) side g.own (s, dropPrefetch w, 0)
      memEnd (.stb f) m false g.E g.E [] 1 (s.setWave s.focus w')

/-! ### Fences, context sync, lane barrier, stream skip (R376 to R381) -/

/-- LFENCE (R376): a full fence of its scope. -/
def execLfence (f : LaneFields) (s : State) : Out :=
  laneOp (.lfence f) { op := 0x40, f := f } s fun s w _ =>
    if releaseWaits s w f.scope5 || (f.scope5 ≠ 0 && unfinBusy s w) then stallLane s w else laneDone s (dropPrefetch w) []
/-- CTXSYNC (R377): after the wave's producers, its image is written. -/
def execCtxsync (f : LaneFields) (s : State) : Out :=
  laneOp (.ctxsync f) { op := 0x43, f := f } s fun s w _ =>
    if !w.landings.isEmpty || (w.c.unfin ≠ 0 && !w.c.intrap) || releaseWaits s w f.scope5 then stallLane s w
    else laneDone (if 2 ≤ scopeLevel s w f.scope5 then syncHere s s.focus w else syncImage s w) w []
/-- The arrival of a split at a barrier (R379). -/
def arriveBar (w : Wave) (n : Nat) (phase : Bool) : Wave :=
  let c := w.c
  if n = 4 then { w with c := { c with harv := true, haph := phase } }
  else { w with c := { c with
    arv := c.arv ||| BitVec.twoPow 4 n
    aph := if phase then c.aph ||| BitVec.twoPow 4 n else c.aph &&& ~~~(BitVec.twoPow 4 n) } }
/-- BAR (R378 to R380): arrive and wait at the BAR. -/
def execBar (f : LaneFields) (s : State) : Out :=
  laneOp (.bar f) { op := 0x41, f := f, srcs := [(f.a, false)] } s fun s w E =>
    if releaseWaits s w 1 then stallLane s w
    else
    let team := teamKey w.launch w.team
    let b := f.xf 5 0
    let m : W32 := (srcVal s w [] 0 f.a false (lowestLane E)).extractLsb' 0 32
    let n := popcount E
    let x := getBar s team b
    let y : Barrier := if x.opened then x
      else { x with opened := true, lane := true, arrived := m.extractLsb' 0 16, members := m.extractLsb' 16 16
                    remain := BitVec.ofNat 6 (popcount m) }
    if !y.lane || m ≠ laneM y || E &&& ~~~m ≠ 0 || y.remain.toNat < n then
      let s := mismatch (setBar s team b y) team b (instBits (.bar f))
      onWave s fun w => trapLane s w (.bar f) 0x07 (getSplit w s.split).mask (BitVec.ofNat 64 b)
    else
      let s := setBar s team b (evalBar { y with remain := y.remain - BitVec.ofNat 6 n })
      .next (s.setWave s.focus (arriveBar (unsuppress w s.split) s.split y.phase))
/-- QSKIP (R381). -/
def execQskip (f : LaneFields) (s : State) : Out :=
  laneOp (.qskip f) { op := 0x42, f := f } s fun s w E =>
    let q := f.xf 2 0
    if !(getStream w q).bound then trapLane s w (.qskip f) 0x0B E
    else laneDone s (setStream w q (skipStream (getStream w q) (f.xf 9 3 + 1))) []

end Sys2Proof.Machine
end

