-- ==== Sys2Proof/Machine/LaneTile.lean ====
section
/-! DEFINITION. Tile-cache and record instructions of the lanes (R382 to R389) with halo publication (R160), flushes (R170)
and generation bumps (R154). -/

namespace Sys2Proof.Machine

/-! ### Tiles by coordinate or address (R382) -/

def tcSlot (f : LaneFields) : Nat := f.xf 3 0
def tcFlat (f : LaneFields) : Bool := f.xf 4 4 = 1
/-- The tile operand of a lane. -/
def tcOperand (s : State) (w : Wave) (f : LaneFields) (L : Nat) : W64 := srcVal s w [] 0 f.a true L
/-- Where the tile of a lane is, for a read; none outside the tensor, untranslated, or in another package. -/
def tcPlace (s : State) (w : Wave) (f : LaneFields) (x : W64) : Option Placed :=
  let go (va : W64) (t : Option ElemTile) : Option Placed :=
    match place s (waveWho s w) .load va 1 t w.launch with
    | .ok q => some q
    | _ => none
  if tcFlat f then go x none
  else match slotOf s w (tcSlot f) with
    | none => none
    | some r => (r.packed? x).bind fun t => go (BitVec.ofNat 64 t.va) (some t)
/-- The tile a lane names, for a look at the frame: the tensor form needs no translation. -/
def tcTile (s : State) (w : Wave) (f : LaneFields) (x : W64) : Option TileId :=
  if tcFlat f then (tcPlace s w f x).map fun q => q.req.tile
  else (slotOf s w (tcSlot f)).bind fun r => (r.packed? x).map ElemTile.tile
/-- The slot of a tensor-form instruction has never been bound. -/
def tcUnbound (s : State) (w : Wave) (f : LaneFields) : Bool := !tcFlat f && (slotOf s w (tcSlot f)).isNone

/-- A frame of a tile that is resident and not stale; the home's frame of a package-coherent tile counts. -/
def residentFrame (s : State) (d : Nat) (t : TileId) : Option Frame :=
  (s.frames d).find? fun f => f.tile = t && !f.wb && f.st ≠ .mi && (f.st ≠ .i || (f.pcoh && f.home = d)) && s.fresh d f && !s.spent f
/-- The STATE code of TCLOOK (R383). -/
def cohCode : CohState → Nat
  | .i => 0 | .s => 1 | .e => 2 | .o => 3 | .m => 4 | _ => 5
/-- TCLOOK's word of a frame (R383). -/
def lookWord (f : Frame) : Nat :=
  1 + bb f.dirty 1 + bb f.ncown 2 + cohCode f.st * 2 ^ 3 + popcount f.sharers * 2 ^ 6 + f.pins.length * 2 ^ 13 +
    bb (f.poison ≠ 0) 19 + bb (f.fetchPins ≠ 0) 20

/-- TCLOOK (R383): a snapshot that acts as a load for full/empty bits. -/
def execTclook (f : LaneFields) (s : State) : Out :=
  let d := f.dest.toNat
  laneOp (.tclook f) { op := 0x4E, f := f, srcs := [(f.a, true)], dst := [d] } s fun s w E =>
    if tcUnbound s w f then trapLane s w (.tclook f) 0x0B E
    else
      let look (L : Nat) : W32 := match tcTile s w f (tcOperand s w f L) with
        | some t => match residentFrame s (waveWho s w).d t with
          | some fr => BitVec.ofNat 32 (lookWord fr)
          | none => 0
        | none => 0
      let words := (lanesOf E).map fun L => (32 * d + L, look L)
      .next (landLanes s (laneFinish s w []) [d] { lanes := words } true)

/-! ### Prefetch and pins (R384, R385) -/

/-- The coordinates within a radius of a tile, dimension by dimension. -/
def around (r : Record) (rad : Nat) (c : Nat → Nat) : List (List Nat) :=
  let axis (d : Nat) : List Nat :=
    if d < r.rank then (List.range (2 * rad + 1)).filterMap fun k => if rad ≤ c d + k then some (c d + k - rad) else none
    else [c d]
  (axis 0).flatMap fun a => (axis 1).flatMap fun b => (axis 2).flatMap fun x => (axis 3).map fun y => [a, b, x, y]
/-- The tiles that TCPF asks for in one lane. -/
def tcpfPlaces (s : State) (w : Wave) (f : LaneFields) (x : W64) : List Placed :=
  let rad (dflt : Nat) : Nat := if f.xf 7 7 = 1 then f.xf 6 5 else dflt
  let at' (va : W64) (t : Option ElemTile) : Option Placed :=
    match place s (waveWho s w) .load va 1 t w.launch with
    | .ok q => some q
    | _ => none
  if tcFlat f then
    let n := rad 0
    (List.range (2 * n + 1)).filterMap fun k => at' (x + BitVec.ofInt 64 (2048 * ((k : Int) - n))) none
  else match slotOf s w (tcSlot f) with
    | none => []
    | some r =>
      if (r.packed? x).isNone then []
      else
        let c (d : Nat) : Nat := bitsOf x.toNat (12 * d + 11) (12 * d)
        (around r (rad r.pfrad) c).filterMap fun l =>
          let c' (d : Nat) : Nat := l.getD d 0
          if r.inside c' then let t := r.tile c'; at' (BitVec.ofNat 64 t.va) (some t) else none
/-- Prefetches of a cluster that are outstanding: fills, and reads of package-coherent tiles. -/
def prefetches (s : State) (d c : Nat) : Nat :=
  (s.agenda.filter fun i => match i with
    | .tileFillComplete e q _ => e.val = d && q.cluster = c
    | _ => false).length +
  ((s.frames d).filter fun f => f.st = .is && !f.asked && f.prefetch = c + 1).length
/-- Ask for one tile: a package-coherent one by RDS, another by a fill; beyond 256 the request is dropped. -/
def prefetchTile (who : Who) (s : State) (q : Placed) : State :=
  if (residentFrame s who.d q.req.tile).isSome || fillFaulty s q.req || decide (256 ≤ prefetches s who.d who.cluster) then s
  else if q.req.pcoh then
    match touch s who.d q.req false with
    | .ok s | .wait s | .fault s => s.modFrame who.d q.req.tile fun f => { f with asked := false, prefetch := who.cluster + 1 }
  else s.push (.tileFillComplete (Fin.ofNat 8 who.d) { q.req with cluster := who.cluster } .good)
/-- TCPF (R384): it never waits. -/
def execTcpf (f : LaneFields) (s : State) : Out :=
  laneOp (.tcpf f) { op := 0x4F, f := f, srcs := [(f.a, true)] } s fun s w E =>
    if tcUnbound s w f then trapLane s w (.tcpf f) 0x0B E
    else
      let s := (lanesOf E).foldl (fun s L =>
        (tcpfPlaces s w f (tcOperand s w f L)).foldl (prefetchTile (waveWho s w)) s) s
      laneDone s w []

/-- The pin entries of a team (R385). -/
def pinEntries (s : State) (team : Nat) : Nat :=
  ((s.dies.flatMap fun d => d.2.cache.frames).map fun f => (f.pins.filter fun k => k = team).length).sum
/-- A pin is refused (R385). -/
def pinRefused (s : State) (d team : Nat) (f : Frame) : Bool :=
  decide (64 ≤ pinEntries s team) || decide (63 ≤ f.pins.length) ||
    (f.pins.isEmpty &&
      decide (16 ≤ ((s.frames d).filter fun g => tileHash g.tile = tileHash f.tile && !g.pins.isEmpty).length))
/-- Pin or unpin one lane's tile; `false` if its fill must wait. -/
def pinLane (f : LaneFields) (w : Wave) (x : State × W32) (L : Nat) : State × W32 :=
  let (s, done) := x
  let d := (waveWho s w).d
  let team := teamKey w.launch w.team
  let ok (s : State) : State × W32 := (s, done ||| BitVec.twoPow 32 L)
  let v := tcOperand s w f L
  if f.xf 5 5 = 1 then
    match tcTile s w f v with
    | some t => ok (s.modFrame d t fun g => { g with pins := g.pins.erase team })
    | none => ok s
  else match tcPlace s w f v with
    | none => ok s
    | some q =>
      if (residentFrame s d q.req.tile).isNone && fillFaulty s q.req then ok s
      else match touch s d q.req false with
        | .wait s => (s, done)
        | .fault s => ok s
        | .ok s => match residentFrame s d q.req.tile with
          | none => ok s
          | some g =>
            if pinRefused s d team g then ok s
            else ok (s.modFrame d g.tile fun h => { h with pins := h.pins ++ [team] })
/-- TCPIN (R385). -/
def execTcpin (f : LaneFields) (s : State) : Out :=
  laneOp (.tcpin f) { op := 0x52, f := f, srcs := [(f.a, true)] } s fun s w E =>
    if tcUnbound s w f then trapLane s w (.tcpin f) 0x0B E
    else if unfinBusy s w then stallLane s w
    else
      let (s', done) := (lanesOf E).foldl (pinLane f w) (s, 0)
      if done = E then laneDone s' w []
      else if !mayLeave s w then stallLane s w
      else laneLeft (.tcpin f) s' w 0 (E &&& ~~~done) [] []

/-! ### TCHALO (R160, R386) -/

/-- The bytes that a publication counts. -/
def haloBytes (r : Record) : Nat := ((List.range r.rank).map fun d => 2 * r.hw d * 2048 / r.ext d).sum
/-- The number by which a strip that stands for the start of its job is known. -/
def haloStartFace : Nat := 255
/-- Put a strip on its way. -/
def sendStrip (s : State) (d : Nat) (t : TileId) (face job : Nat) (bytes : List (Nat × Byte)) : State :=
  let n := (s.die d).cache.nextJob
  let s := s.modCache d fun c => { c with nextJob := n + 1, halo := c.halo ++ [⟨n, t, face, bytes, job⟩] }
  s.push (.haloStripLand (Fin.ofNat 8 d) n)
/-- The element positions of P that are adjacent to a face: low or high in dimension d, HW deep, in tile order. -/
def stripPositions (r : Record) (d : Nat) (low : Bool) : List Nat :=
  (List.range (2 ^ r.tileLog)).filter fun n =>
    let below := (List.range d).foldl (fun k e => k * r.ext e) 1
    let f := n / below % r.ext d
    if low then decide (f < r.hw d) else decide (r.ext d - r.hw d ≤ f)
/-- The strips that tile P sends: neighbour, the face of the neighbour, the bytes. -/
def haloStrips (r : Record) (c : Nat → Nat) (byte : Nat → Byte) : List (TileId × Nat × List (Nat × Byte)) :=
  let size := efmtBits r.efmt / 8
  (List.range r.rank).flatMap fun d =>
    if r.hw d = 0 then []
    else [true, false].filterMap fun low =>
      let c' (e : Nat) : Nat := if e = d then if low then c e - 1 else c e + 1 else c e
      if (low && c d = 0) || !r.inside c' then none
      else
        let data := (stripPositions r d low).flatMap fun n => (List.range size).map fun k => byte (n * size + k)
        some (⟨r.tid, packCoord c'⟩, 2 * d + if low then 1 else 0, putBytes [] (atOffsets 0 data))
/-- A halo job has nothing more to land: its barrier receives the bytes (R195). -/
def finishJob (s : State) (d id : Nat) : State :=
  match (s.die d).cache.jobs.find? fun j => j.id = id with
  | none => s
  | some j =>
    let s := s.modCache d fun c => { c with jobs := c.jobs.filter fun k => k.id ≠ id }
    match j.bar with
    | some b => countBar s j.team b j.bytes
    | none => s.modWave j.wave fun w => if w.wait = .bump id then { w with wait := .none } else w
/-- A job of the tile cache. -/
def addJob (s : State) (d : Nat) (j : CacheJob) : State × Nat :=
  let n := (s.die d).cache.nextJob
  (s.modCache d fun c => { c with nextJob := n + 1, jobs := c.jobs ++ [{ j with id := n }] }, n)
/-- TCHALO (R386): the command starts with a strip that stands for its own start. -/
def execTchalo (f : LaneFields) (s : State) : Out :=
  laneOp (.tchalo f) { op := 0x50, f := f, srcs := [(f.a, true)] } s fun s w E =>
    let who := waveWho s w
    match slotOf s w (tcSlot f) with
    | none => trapLane s w (.tchalo f) 0x0B E
    | some r =>
      match r.packed? (tcOperand s w f 0) with
      | none => trapLane s w (.tchalo f) 0x0B E
      | some t =>
        if !r.halo then trapLane s w (.tchalo f) 0x0B E
        else
          let (s, id) := addJob s who.d
            { id := 0, kind := 2, tid := r.tid, team := teamKey w.launch w.team, bar := some (f.xf 10 5), bytes := haloBytes r
              wave := s.focus, record := some r, inst := instBits (.tchalo f)
              tlpc := w.y.lanebase + (getSplit w s.split).lpc.zeroExtend 64 }
          laneDone (sendStrip s who.d t.tile haloStartFace id []) w []

/-! ### TCINV (R154, R387) -/

/-- The address of the generation of a tensor in its table. -/
def genAddr (s : State) (tid : BitVec 20) : Nat := s.tensorEntry tid + 12
/-- The frames of a tensor lose their pins; on a wrap of the generation they are invalidated (R154). -/
def unpinTensor (tid : BitVec 20) (wrap : Bool) (c : CacheState) : CacheState :=
  { c with
    frames := (c.frames.filter fun f => !(wrap && f.tile.tid = tid && !f.wb)).map fun (f : Frame) =>
      if f.tile.tid = tid then { f with pins := [] } else f }
/-- The frames of a tensor are stale: their near-cache copies and their annexes go (R154, R160). -/
def staleTensor (tid : BitVec 20) (c : CacheState) : CacheState :=
  { c with
    frames := c.frames.map fun (f : Frame) => if f.tile.tid = tid then { f with sharers := 0, ncown := false } else f
    annexes := c.annexes.filter fun a => a.tile.tid ≠ tid }
/-- Bump the generation of a tensor at its home and notify the other dies; the job counts their answers. -/
def bumpTensor (s : State) (tid : BitVec 20) (wave : Nat) : State × Nat :=
  let h := tensorHome tid
  let g := s.entryNat tid 12 2
  let new := (g + 1) % 4096
  let s := (List.range 8).foldl (fun s d => s.modCache d (unpinTensor tid (new = 0))) s
  let s := (s.unitWrite h (genAddr s tid) (leBytes 2 (g / 4096 * 4096 + new))).modCache h (staleTensor tid)
  let others := (List.range 8).filter fun d => d ≠ h
  let (s, id) := addJob s h { id := 0, kind := 0, tid := tid, acks := BitVec.ofNat 8 (255 - 2 ^ h), wave := wave }
  (others.foldl (fun s d => s.push (.bumpNotice (Fin.ofNat 8 d) (Fin.ofNat 8 h) tid (BitVec.ofNat 12 new))) s, id)
/-- A frame of a tensor is pinned by a fetch unit of the package (R144). -/
def fetchPinned (s : State) (tid : BitVec 20) : Bool :=
  s.dies.any fun d => d.2.cache.frames.any fun f => f.tile.tid = tid && f.fetchPins ≠ 0
/-- TCINV (R387): the wave waits until the bump is complete. -/
def execTcinv (f : LaneFields) (s : State) : Out :=
  laneOp (.tcinv f) { op := 0x51, f := f } s fun s w E =>
    match slotOf s w (tcSlot f) with
    | none => trapLane s w (.tcinv f) 0x0B E
    | some r =>
      if fetchPinned s r.tid then stallLane s w
      else
        let (s, id) := bumpTensor s r.tid s.focus
        laneDone s { w with wait := .bump id } []

/-! ### TCFLUSH (R170, R388) -/

/-- A packed coordinate lies componentwise between two. -/
def inRange (lo hi c : BitVec 48) : Bool :=
  dims.all fun d => decide (coordAt lo d ≤ coordAt c d) && decide (coordAt c d ≤ coordAt hi d)
/-- The dirty frames of a tensor's range that a die holds as its home. -/
def dirtyOf (s : State) (d : Nat) (tid : BitVec 20) (lo hi : BitVec 48) : List Frame :=
  (s.frames d).filter fun f => f.tile.tid = tid && inRange lo hi f.tile.coord && f.dirty && f.home = d && !f.wb && s.fresh d f
/-- Write them back; the frames stay, clean. -/
def flushHome (s : State) (d : Nat) (tid : BitVec 20) (lo hi : BitVec 48) : State :=
  (dirtyOf s d tid lo hi).foldl
    (fun s f => (writeBack s f).modFrame d f.tile fun g => { g with dirty := false, st := if g.st = .m && !g.pcoh then .e else g.st }) s
/-- TCFLUSH (R388), after the stores of the wave that are on their way (R194): dirty frames of the die go to memory; every other die that may hold the tensor is asked by FLREQ. -/
def execTcflush (f : LaneFields) (s : State) : Out :=
  let range := f.xf 4 4 = 1
  let srcs := if range then [(f.a, true), (f.b, true)] else []
  laneOp (.tcflush f) { op := 0x53, f := f, srcs := srcs } s fun s w E =>
    match slotOf s w (tcSlot f) with
    | none => trapLane s w (.tcflush f) 0x0B E
    | some r =>
      let d := (waveWho s w).d
      if pendingOf s d s.focus then stallLane s w
      else
      let a := if range then srcVal s w [] 0 f.a true 0 else 0
      let b := if range then srcVal s w [] 0 f.b true 0 else BitVec.ofNat 64 (2 ^ 48 - 1)
      let none' := a.toNat / 2 ^ 48 ≠ 0 || b.toNat / 2 ^ 48 ≠ 0
      let lo : BitVec 48 := if none' then BitVec.allOnes 48 else a.extractLsb' 0 48
      let hi : BitVec 48 := if none' then 0 else b.extractLsb' 0 48
      let mine := dirtyOf s d r.tid lo hi
      let s := flushHome s d r.tid lo hi
      let asked := if tensorPcoh s r.tid then [tensorHome r.tid] else (List.range 8).filter fun e => e ≠ d
      let (s, id) := addJob s d
        { id := 0, kind := 1, tid := r.tid, acks := asked.foldl (fun m e => m ||| BitVec.twoPow 8 e) 0
          team := teamKey w.launch w.team, bar := some (f.xf 10 5), bytes := 2048, wave := s.focus, strips := mine.length }
      let s := mine.foldl (fun s g => s.push (.homeWriteBackAck (Fin.ofNat 8 d) g.tile)) s
      let s := asked.foldl (fun s e => s.push (.flreq (Fin.ofNat 8 e) (Fin.ofNat 8 d) r.tid lo hi id)) s
      laneDone s w []

/-! ### RECBIND (R389) -/

/-- RECBIND (R389): read 128 bytes, check them, and bind the slot. -/
def execRecbind (f : LaneFields) (s : State) : Out :=
  laneOp (.recbind f) { op := 0x54, f := f, srcs := [(f.a, true)] } s fun s w E =>
    let a := tcOperand s w f 0
    let L := lowestLane E
    let accs := (List.range 16).map fun k =>
      ({ lane := L, key := memKey + k, va := a + BitVec.ofNat 64 (8 * k), n := 8, kind := .load, counted := k = 0 } : LaneAcc)
    if a.toNat % 64 ≠ 0 then (faultyAccs s w (.recbind f) accs).getD (trapLane s w (.recbind f) 0x05 E a)
    else match scanAccs s w (.recbind f) accs with
      | some o => o
      | none =>
        if unfinBusy s w then stallLane s w
        else
          let (s, g) := accs.foldl (gatherOne w) (s, {})
          memGo (.recbind f) s w E false 0 [] g fun s w x =>
            if x.can.getLsbD L then
              let bytes := (List.range 16).flatMap fun k => leBytes 8 ((mfind x.vals (32 * (memKey + k) + L)).getD 0).toNat
              let r := recordAt a bytes
              if r.ok && r.entryOk s (waveWho s w).pid then laneDone (setSlot s w (tcSlot f) r) w []
              else trapLane s w (.recbind f) 0x0B E a
            else laneLeft (.recbind f) s w 0 E (x.failed.flatMap fun y => (lanesOf E).map fun n => { y with lane := n }) []

end Sys2Proof.Machine
end

