-- ==== Sys2Proof/Machine/Engine.lean ====
section
/-! DEFINITION. What the two engines of a cluster share: tile reads and writes on behalf of a wave (R194, R403, R410), the
macro sequencer queue with its displacement and claims (R135, R145), and the end of a command (R397, R398, R406). -/

namespace Sys2Proof.Machine

/-! ### Reads and writes of tiles -/

def engWho (s : State) (wave : Nat) : Who := match s.wave? wave with | some w => waveWho s w | none => ⟨0, 0, 0, 0⟩
def engName (s : State) (wave : Nat) : List Byte := match s.wave? wave with | some w => waveName s w 0 none | none => zeros 16
/-- The launch of a wave by its key, and its priority. -/
def keyLaunch (wave : Nat) : Nat := wave / 2 ^ 24
def engPrio (s : State) (wave : Nat) : Nat := (s.team (wave / 16)).prio

/-- A tile that a step uses: the VA of its first byte, and its name unless it is one of tensor 0. -/
structure TileUse where
  va : Nat
  tile : Option ElemTile := none
  deriving DecidableEq, Repr
def ElemTile.use (t : ElemTile) : TileUse := ⟨t.va, some t⟩

/-- What stops a step at a tile: a page fault, a blocked range, a violation, a fill that is under way, a fill fault, an
addition that is refused. -/
inductive EngStop where
  | page (va reason : Nat)
  | blocked
  | frozen (pa : Nat)
  | wait
  | fill (va : Nat)
  | refused (va : Nat)
  deriving DecidableEq, Repr

/-- The bytes of a tile as a step reads it, with its poison. -/
structure TileRead where
  va : Nat
  payload : List (Nat × Byte)
  side : List (Nat × Byte) := []
  poison : BitVec 33 := 0
  porigin : W32 := 0
  deriving DecidableEq, Repr

/-- A tile read in another package or at a host: free bytes (assumption 4). -/
def awayTile (s : State) (d va : Nat) (x : Away) : State × TileRead :=
  let s := sendAway s d .load [] 0 x
  ({ s with draws := s.draws + 2048 }, { va := va, payload := freeBytes s 2048 })

/-- Read a tile through the tile cache of the die, after the atomics of the launch on it (R194); an owned near-cache copy is recalled
(R162). -/
def engRead (s : State) (who : Who) (access owner : Nat) (u : TileUse) : State × Except EngStop TileRead :=
  let va : W64 := BitVec.ofNat 64 u.va
  match place s who .load va 2048 u.tile owner with
  | .page r => (s, .error (.page u.va r))
  | .blocked => (s, .error .blocked)
  | .frozen pa => (s, .error (.frozen pa))
  | .foreign pkg pa => let (s, t) := awayTile s who.d u.va (.foreign pkg pa); (s, .ok t)
  | .host d c => let (s, t) := awayTile s who.d u.va (.host d c); (s, .ok t)
  | .door d off => (s, .ok { va := u.va, payload := putBytes [] (atOffsets 0 (doorBytes s d off 2048)) })
  | .ok q =>
    if fillFaultAt s who.d q then (s, .error (.fill u.va))
    else if (s.die who.d).cache.pend.any fun p => p.base = q.req.base && !p.atomic.isEmpty && keyLaunch p.wave = owner then (s, .error .wait)
    else
      let s := cachePage s who.d who.cluster who.pindex who.pid va
      match touch s who.d q.req false with
      | .fault s => (s, .error (.fill u.va))
      | .wait s => (s, .error .wait)
      | .ok s =>
        let s := s.modFrame who.d q.req.tile fun f => { f with ncown := false }
        let s := countAccess s who va access owner q
        match s.frame? who.d q.req.tile with
        | none => (s, .error .wait)
        | some f =>
          let mine := (s.die who.d).cache.pend.filter fun p => p.base = q.req.base && !f.nq4
          (s, .ok { va := u.va, payload := mine.foldl (fun m p => putBytes m (payPart p.bytes)) f.payload
                    side := mine.foldl (fun m p => putBytes m (sidePart p.bytes)) f.side
                    poison := f.poison, porigin := f.porigin })

/-- Read tiles in order, up to the first that stops the step. -/
def engReadAll (who : Who) (access owner : Nat) : List TileUse → State → State × Except EngStop (List TileRead)
  | [], s => (s, .ok [])
  | u :: l, s =>
    match engRead s who access owner u with
    | (s, .error e) => (s, .error e)
    | (s, .ok t) => match engReadAll who access owner l s with
      | (s, .error e) => (s, .error e)
      | (s, .ok ts) => (s, .ok (t :: ts))

/-- What a write gave: its remote write that is not acknowledged yet, its remote atomics, and what is left of it. -/
structure Wrote where
  pend : List (Nat × Nat) := []
  remote : Nat := 0
  left : Option EngWrite := none

/-- The elements of an addition: offset and the operand. -/
def addParts (width : Nat) (bytes : List (Nat × Byte)) : List (Nat × Nat) :=
  ((bytes.filter fun p => p.1 % width = 0).map Prod.fst).map fun o => (o, leNat (bytesAt bytes o width))

/-- Add elements to a tile homed on the die, each as an atomic (R193); what the replay log holds back is left (R130). -/
def addHere (who : Who) (wave : Nat) (q : Placed) (kind : AtomicKind) (width : Nat) :
    List (Nat × Nat) → State → State × List (Nat × Nat)
  | [], s => (s, [])
  | (o, v) :: l, s =>
    let (launch, team, idx) := match s.wave? wave with | some w => (w.launch, w.team, w.idx) | none => (0, 0, 0)
    match aolAdmit s who.d q.req.tile launch team idx with
    | none => (s, (o, v) :: l)
    | some s =>
      let s := bounce s who.d who.cluster q.req.tile
      addHere who wave q kind width l
        (atomicHere s who 0 { q with pa := q.req.base + o } width .add kind v 0 (atSlice s who.d q.req.tile)).1
/-- Send the elements of an addition to their home. -/
def addAway (s : State) (who : Who) (wave : Nat) (q : Placed) (kind : AtomicKind) (width : Nat) (dest : AtomicDest)
    (l : List (Nat × Nat)) : State :=
  l.foldl (fun s p => sendAtomic s who { q with pa := q.req.base + p.1 } width .add kind p.2 0 dest wave) s

/-- The bytes of a tile from the first to the last that a write touches: offset and length. -/
def writeSpan (l : List (Nat × Byte)) : Nat × Nat :=
  match payPart l with
  | [] => (0, 1)
  | p :: r => let lo := r.foldl (fun m q => min m q.1) p.1; (lo, r.foldl (fun m q => max m q.1) p.1 + 1 - lo)
/-- Make one write of a step; its stores are no wave's, so that no fence waits for them (R194). -/
def engWriteOne (s : State) (who : Who) (wave access owner : Nat) (dest : AtomicDest) (x : EngWrite) :
    State × Except EngStop Wrote :=
  let va : W64 := BitVec.ofNat 64 x.va
  let kind : AccKind := if x.add.isSome then .atomic else .store
  let (lo, n) := writeSpan x.bytes
  let own := mget 0 (s.die who.d).cache.pairOut who.d
  match place s who kind (va + BitVec.ofNat 64 lo) n x.tile owner with
  | .page r => (s, .error (.page x.va r))
  | .blocked => (s, .error .blocked)
  | .frozen pa => (s, .error (.frozen pa))
  | .foreign pkg pa => (sendAway s who.d kind (x.bytes.map Prod.snd) 0 (.foreign pkg pa), .ok { pend := [(who.d, own)] })
  | .host d c => if x.add.isSome then (s, .error (.refused x.va))
    else (sendAway s who.d .store (x.bytes.map Prod.snd) 0 (.host d c), .ok {})
  | .door d off => if x.add.isSome then (s, .error (.frozen (ctlBase d + off))) else (s, .ok {})
  | .ok q =>
    if fillFaults s kind who.d q then (s, .error (.fill x.va))
    else
      let s := cachePage s who.d who.cluster who.pindex who.pid va
      match bring s kind who.d q with
      | .fault s => (s, .error (.fill x.va))
      | .wait s => (s, .error .wait)
      | .ok s =>
        let s := countAccess s who (va + BitVec.ofNat 64 lo) access owner q
        let home := q.req.home.val
        match x.add with
        | none =>
          let seq := mget 0 (s.die who.d).cache.pairOut home
          let s := storeAt s who 0 q x.bytes x.poison x.porigin
          (s, .ok { pend := if home = who.d || q.req.pcoh then [] else [(home, seq)] })
        | some (k, w) =>
          let parts := addParts w x.bytes
          if home = who.d then
            let (s, l) := addHere who wave q k w parts s
            let s := s.poisonHome home q.req.base (cellOf s q.req.base) q.req.repl x.poison x.porigin
            if l.isEmpty then (s, .ok {})
            else (s, .ok { left := some { x with bytes := x.bytes.filter fun b => decide ((l.headD (0, 0)).1 ≤ b.1) } })
          else (addAway s who wave q k w dest parts, .ok { remote := parts.length })

/-- What a run of writes left: those still to make, what is not acknowledged, and what stopped it. -/
structure Writing where
  left : List EngWrite := []
  pend : List (Nat × Nat) := []
  remote : Nat := 0
  stop : Option EngStop := none
/-- Make the writes of a step in order. -/
def engWriteAll (who : Who) (wave access owner : Nat) (dest : AtomicDest) : List EngWrite → State → State × Writing
  | [], s => (s, {})
  | x :: l, s =>
    match engWriteOne s who wave access owner dest x with
    | (s, .error e) => (s, { left := x :: l, stop := some e })
    | (s, .ok r) => match r.left with
      | some y => (s, { left := y :: l, pend := r.pend, remote := r.remote, stop := some .wait })
      | none =>
        let (s, z) := engWriteAll who wave access owner dest l s
        (s, { z with pend := r.pend ++ z.pend, remote := r.remote + z.remote })

/-- The remote writes among these that are not acknowledged. -/
def unacked (s : State) (d : Nat) (l : List (Nat × Nat)) : List (Nat × Nat) :=
  l.filter fun p => (s.die d).cache.pend.any fun q => q.home = p.1 && q.seq = p.2

/-! ### Elements of a tensor -/

/-- The tile and the index in it of an element inside the tensor. -/
def Record.at? (r : Record) (e : Nat → Int) : Option (ElemTile × Nat) :=
  let c (d : Nat) : Nat := (e d).toNat / r.ext d
  if (dims.all fun d => decide (0 ≤ e d)) && r.inside c then
    some (r.tile c, r.index fun d => (e d).toNat % r.ext d)
  else none
/-- The element coordinates at the start of the tile that a packed coordinate names. -/
def elemBase (r : Record) (x : W64) (d : Nat) : Int := (bitsOf x.toNat (12 * d + 11) (12 * d) * r.ext d : Nat)
/-- Element (n, 0, 0, 0) of a list tensor. -/
def listAt? (r : Record) (n : Nat) : Option (ElemTile × Nat) := r.at? fun d => if d = 0 then (n : Int) else 0
/-- The bits of element i of a tile. -/
def elemBits (efmt i : Nat) (t : TileRead) : Nat :=
  if efmt = efmtNq4 then (mget 0 t.payload (i / 2)).toNat / 16 ^ (i % 2) % 16
  else leNat (bytesAt t.payload (i * efmtBits efmt / 8) (efmtBits efmt / 8))
/-- The float format of an EFMT. -/
def efmtFmt : Nat → Fmt
  | 0x09 => fp16 | 0x0A => bf16 | 0x0C => fp64 | 0x0D => e4m3 | 0x0E => e5m2 | 0x0F => e4m3 | _ => fp32
/-- The exact value of element i as the array uses it (R256): G8 with its scale, NQ4 as a codebook value. -/
def elemVal (efmt i : Nat) (t : TileRead) : FVal :=
  if efmt = efmtNq4 then nq4V (elemBits efmt i t)
  else if efmt = efmtG8 then g8V (elemBits efmt i t) (mget 0 t.side (i / 32)).toNat
  else fdecode (efmtFmt efmt) false (elemBits efmt i t)
/-- Element i of a tile is poisoned, or its scale is (R172). -/
def elemPoison (efmt i : Nat) (t : TileRead) : Bool :=
  t.poison.getLsbD (i * efmtBits efmt / 512) || ((efmt = efmtNq4 || efmt = efmtG8) && t.poison.getLsbD 32)
/-- The tiles of a list, each once, with what is read of them. -/
def usesOf (l : List (ElemTile × Nat)) : List TileUse := ((l.map Prod.fst).dedup).map ElemTile.use
def readOf (l : List TileRead) (t : ElemTile) : TileRead := (l.find? fun r => r.va = t.va).getD { va := t.va, payload := [] }

/-! ### The queue of the sequencer (R135, R145) -/

/-- The wave of a claim still waits at its instruction. -/
def claimHolds (s : State) (x : EngClaim) : Bool :=
  match s.wave? x.wave with
  | none => false
  | some w =>
    let p := getSplit w x.split
    w.running && !w.ended && (!w.c.halted || w.stepping = 1) && w.park.isNone && (w.c.intrap = (x.split = 4)) && p.valid && p.lpc = x.lpc
/-- The claims of an engine that hold, other than a wave's own, which go before a claimant of a priority: higher, or equal
and listed before it; those below a priority. -/
def claimsBefore (s : State) (k : Nat) (copy : Bool) (wave below : Nat) : Nat :=
  let l := (s.cluster k).claims.filter fun x => x.copy = copy && (x.wave = wave || (claimHolds s x && decide (engPrio s x.wave < below)))
  let p := engPrio s wave
  (l.filter fun x => x.wave ≠ wave && decide (p < engPrio s x.wave)).length +
    ((l.takeWhile fun x => x.wave ≠ wave).filter fun x => engPrio s x.wave = p).length
/-- The same, of any priority: levels are below 128. -/
def claimsAhead (s : State) (k : Nat) (copy : Bool) (wave : Nat) : Nat := claimsBefore s k copy wave 128
/-- Note that a wave waits for an engine; it is noted once. -/
def addClaim (s : State) (k : Nat) (x : EngClaim) : State :=
  s.modCluster k fun c => if c.claims.contains x then c
    else { c with claims := (c.claims.filter fun y => y.wave ≠ x.wave || y.copy ≠ x.copy) ++ [x] }
def dropClaim (s : State) (k wave : Nat) (copy : Bool) : State :=
  s.modCluster k fun c => { c with claims := c.claims.filter fun y => y.wave ≠ wave || y.copy ≠ copy }

/-- Put an entry into the queue at the end of its team's entries (R406). -/
def putEntry (s : State) (d c : Nat) (e : SeqEntry) : State :=
  let k := clusterKey d c
  let n := (s.cluster k).next
  let s := s.modCluster k fun x => { x with
    next := n + 1, seq := x.seq ++ [{ e with order := n, firstTry := if e.firstTry = 0 then n else e.firstTry }] }
  kickSeq s d c

/-- The entry that a claimant of a priority displaces (R145): not begun, of the lowest priority present and below it, the
most recently issued. -/
def displaced? (s : State) (k p : Nat) : Option SeqEntry :=
  let l := (s.cluster k).seq.filter fun e => !e.begun && decide (engPrio s e.wave < p)
  let low := l.foldl (fun m e => min m (engPrio s e.wave)) p
  (l.filter fun e => engPrio s e.wave = low).foldl (fun o e => match o with
    | none => some e
    | some x => if x.order < e.order then some e else some x) none

/-- Move an entry from the queue to its team's sequencer store (R116). -/
def storeEntry (s : State) (k : Nat) (e : SeqEntry) : State :=
  let s := s.modCluster k fun x => { x with seq := x.seq.filter fun y => y.order ≠ e.order }
  s.modTeam (e.wave / 16) fun t => { t with store := t.store ++ [{ e with started := false }] }

/-- Room for a claimant of the queue: the state with a free entry for it, if it gets one now. -/
def seqRoom (s : State) (d c wave : Nat) : Option State :=
  let k := clusterKey d c
  let free := Config.sequencerEntries - (s.cluster k).seq.length
  let ahead := claimsAhead s k false wave
  if ahead < free then some s
  else if free = 0 && ahead = 0 then (displaced? s k (engPrio s wave)).map (storeEntry s k)
  else none

/-- What may re-enter the queue by itself: displaced or stored entries of running teams, and their follow-ons whose copies have
landed, as (priority, rank within it, order, entry, copy). -/
def reentries (s : State) (d c : Nat) : List (Nat × Nat × Nat × SeqEntry × Option Nat) :=
  let k := clusterKey d c
  (s.teams.flatMap fun t =>
    if t.2.phase = .running && t.2.die = d && t.2.cluster = c then
      t.2.store.map fun e => (t.2.prio, 0, e.firstTry, e, none)
    else []) ++
  (s.cluster k).copies.filterMap fun x => match x.follow, x.landed with
    | some e, some n => if (s.team (x.wave / 16)).phase = .running then some (engPrio s x.wave, 1, n, e, some x.id) else none
    | _, _ => none
/-- Claimant a goes before b. -/
def entersBefore (a b : Nat × Nat × Nat × SeqEntry × Option Nat) : Bool :=
  decide (b.1 < a.1) || (a.1 = b.1 && (decide (a.2.1 < b.2.1) || (a.2.1 = b.2.1 && decide (a.2.2.1 ≤ b.2.2.1))))
def firstEntering : List (Nat × Nat × Nat × SeqEntry × Option Nat) → Option (Nat × Nat × Nat × SeqEntry × Option Nat)
  | [] => none
  | a :: l => match firstEntering l with
    | none => some a
    | some b => if entersBefore a b then some a else some b
/-- Free entries go to those that re-enter by themselves, unless a waiting wave of higher priority claims them (R145). -/
def refillSeqGo (d c : Nat) : Nat → State → State
  | 0, s => s
  | fuel + 1, s =>
    let k := clusterKey d c
    match firstEntering (reentries s d c) with
    | none => s
    | some (p, _, _, e, copy) =>
      let wants := ((s.cluster k).claims.filter fun x => !x.copy && claimHolds s x && decide (p < engPrio s x.wave)).length
      if (s.cluster k).seq.length + wants < Config.sequencerEntries then
        let s := match copy with
          | some id => putEntry (s.modCluster k fun x => { x with copies := x.copies.filter fun y => y.id ≠ id }) d c e
          | none =>
            let s := s.modTeam (e.wave / 16) fun t => { t with store := t.store.filter fun y => y.order ≠ e.order }
            kickSeq (s.modCluster k fun x => { x with seq := x.seq ++ [e] }) d c
        refillSeqGo d c fuel s
      else s
def refillSeq (s : State) (d c : Nat) : State := refillSeqGo d c Config.sequencerEntries s

/-! ### Held sources and the end of an instruction (R395, R397) -/

/-- The pairs that a sequencer instruction reads (R393). -/
def seqSrcs (op : Nat) (f : LaneFields) : List (Src × Bool) :=
  match op with
  | 0x58 => [(f.a, true)]
  | 0x5B => [(f.a, true), (f.b, true)] ++ if f.xf 11 11 = 1 then [(f.c, true)] else []
  | 0x5C => [(f.a, true), (f.b, true), (f.c, true)]
  | 0x5D => [(f.a, true)]
  | 0x5E => (f.a, true) :: if f.xf 7 7 = 1 then [(f.b, true)] else []
  | _ => []
/-- The v registers that it holds. -/
def heldOf (op : Nat) (f : LaneFields) : List Nat := ((seqSrcs op f).flatMap srcRegs).map Prod.fst
/-- The registers that TMOVV writes. -/
def tmovvRegs (f : LaneFields) : List Nat :=
  let n := (f.xf 15 12 + 1) * if f.ty = 3 then 2 else 1
  (List.range n).map fun k => f.dest.toNat + k
/-- The registers that an entry has marked empty. -/
def emptied (e : SeqEntry) : List Nat := if e.op = 0x5F then tmovvRegs e.f else heldOf e.op e.f

/-- Change an entry of the queue, or one that is in its team's store. -/
def modEntry (s : State) (k order : Nat) (g : SeqEntry → SeqEntry) : State :=
  s.modCluster k fun x => { x with seq := x.seq.map fun e => if e.order = order then g e else e }

/-- A K-block of a wave under a debugger's step has run: the wave is halted again (R125). -/
def stepRan (s : State) (d wave : Nat) : State :=
  match s.wave? wave with
  | none => s
  | some w => if w.stepping = 2 then kickPlace (s.setWave wave { w with stepping := 0 }) d else s
/-- An entry ends: it leaves the queue, and its registers become full. -/
def endEntry (s : State) (d c : Nat) (e : SeqEntry) : State :=
  let s := setPins s d e.pinned []
  let s := s.modCluster (clusterKey d c) fun x => { x with seq := x.seq.filter fun y => y.order ≠ e.order }
  let s := syncStopped (s.modWave e.wave fun w => (emptied e).foldl setFullV w) e.wave
  kickSeq (refillSeq (stepRan s d e.wave) d c) d c

/-- A report (R397): the wave takes an asynchronous trap with the bytes that are never counted. -/
def report (s : State) (wave cause reason : Nat) (origin : W32) (bytes : Nat) (inst : BitVec 96) (tlpc taddr : W64) : State :=
  syncStopped (s.modWave wave fun w => postAsync w
    { tcause := causeBits cause reason false true origin, inst := inst, tlpc := tlpc, tfmask := BitVec.ofNat 32 bytes, taddr := taddr }) wave

end Sys2Proof.Machine
end

