-- ==== Sys2Proof/Machine/LaneMatrix.lean ====
section
/-! DEFINITION. The sequencer instructions of the lanes (R392 to R409): their checks at issue (R396), held sources (R395),
entry into the queue and follow-ons (R406). What their entries do later is in `Matrix`. -/

namespace Sys2Proof.Machine

/-- The entry that an instruction of the split in focus makes. -/
def newEntry (s : State) (w : Wave) (i : Instr) (op : Nat) (f : LaneFields) (E : W32) : SeqEntry :=
  { inst := instBits i, op := op, f := f, wave := s.focus
    tlpc := w.y.lanebase + (getSplit w s.split).lpc.zeroExtend 64, lanes := E }

/-- The instruction is issued: the registers of its entry are marked empty, and the wave goes on. -/
def seqIssued (s : State) (w : Wave) (e : SeqEntry) : Out := laneDone s ((emptied e).foldl setEmptyV w) []

/-- Enter the queue, or wait for an entry (R135). -/
def seqEnter (s : State) (w : Wave) (e : SeqEntry) : Out :=
  let who := waveWho s w
  let k := clusterKey who.d who.cluster
  match seqRoom s who.d who.cluster s.focus with
  | none => stallLane (addClaim s k ⟨s.focus, s.split, (getSplit w s.split).lpc, false⟩) w
  | some t => seqIssued (putEntry (dropClaim t k s.focus false) who.d who.cluster e) w e

/-- The follow-on of an MMA with AFTER = 1 (R406): the copy it attaches to, if that is still in the engine. -/
def followOf (s : State) (w : Wave) : Option CopyCmd :=
  let who := waveWho s w
  (s.cluster (clusterKey who.d who.cluster)).copies.find? fun x => x.id = w.lastCopy && x.wave = s.focus && !x.discarded

/-- Issue a sequencer instruction: `bad` is its check at issue, with the cause. -/
def seqOp (i : Instr) (op : Nat) (f : LaneFields) (dst dstMore : List Nat) (s : State)
    (bad : State → Wave → Option Nat) : Out :=
  laneOp i { op := op, f := f, srcs := seqSrcs op f, dst := dst, dstMore := dstMore } s fun s w E =>
    match bad s w with
    | some cause => trapLane s w i cause E
    | none =>
      let e := newEntry s w i op f E
      match if (op = 0x5B || op = 0x5C) && f.xf 12 12 = 1 then followOf s w else none with
      | none => seqEnter s w e
      | some x =>
        if x.follow.isSome then stallLane s w
        else if x.landed.isSome then seqEnter s w e
        else
          let who := waveWho s w
          seqIssued (s.modCluster (clusterKey who.d who.cluster) fun c => { c with
            copies := c.copies.map fun y => if y.id = x.id then { y with follow := some e } else y }) w e

/-- Byte i of a shape word (R400). -/
def shapeByte (x : W64) (i : Nat) : Nat := bitsOf x.toNat (8 * i + 7) (8 * i)
/-- The configuration a shape byte stands for. -/
def shapeCfg (n : Nat) : AccCfg :=
  if bit n 0 then { en := true, f64 := bit n 1, rlog := bitsOf n 3 2, clog := bitsOf n 5 4 } else {}
/-- A byte of a shape word traps TCFG with cause 0x0C. -/
def shapeBad (tilemax i n : Nat) : Bool :=
  bitsOf n 7 6 ≠ 0 || (!bit n 0 && n ≠ 0) || (bit n 1 && bitsOf n 5 4 = 3) || (bit n 0 && decide (tilemax ≤ i))

/-- TCFG (R400). -/
def execTcfg (f : LaneFields) (s : State) : Out :=
  seqOp (.tcfg f) 0x58 f [] [] s fun s w =>
    let x := srcVal s w [] 0 f.a true 0
    if (List.range 8).any fun i => shapeBad (s.team (teamKey w.launch w.team)).tilemax i (shapeByte x i) then some 0x0C else none
/-- TREL (R401). -/
def execTrel (f : LaneFields) (s : State) : Out := seqOp (.trel f) 0x59 f [] [] s fun _ _ => none
/-- TZERO (R401). -/
def execTzero (f : LaneFields) (s : State) : Out := seqOp (.tzero f) 0x5A f [] [] s fun _ _ => none
/-- MMA (R402 to R404). -/
def execMma (f : LaneFields) (s : State) : Out := seqOp (.mma f) 0x5B f [] [] s fun _ _ => none
/-- MMAG (R405). -/
def execMmag (f : LaneFields) (s : State) : Out := seqOp (.mmag f) 0x5C f [] [] s fun _ _ => none
/-- TLDA (R407). -/
def execTlda (f : LaneFields) (s : State) : Out := seqOp (.tlda f) 0x5D f [] [] s fun _ _ => none
/-- TSTA (R408). -/
def execTsta (f : LaneFields) (s : State) : Out := seqOp (.tsta f) 0x5E f [] [] s fun _ _ => none
/-- TMOVV (R409). -/
def execTmovv (f : LaneFields) (s : State) : Out :=
  let d := pairOf (f.ty = 3) f.dest.toNat
  seqOp (.tmovv f) 0x5F f d ((tmovvRegs f).filter fun n => !d.contains n) s fun _ _ => none

end Sys2Proof.Machine
end

