-- ==== Sys2Proof/Machine/Matrix.lean ====
section
/-! DEFINITION. The macro sequencer at work (R143 to R145, R256, R257, R396 to R409): which entry starts, and the steps of
each instruction. -/

namespace Sys2Proof.Machine

/-! ### Accumulator tiles (R137, R400) -/

def accCfgOf (t : Team) (i : Nat) : AccCfg := mget {} t.accCfg i
def AccCfg.rows (c : AccCfg) : Nat := if c.en then 16 * 2 ^ c.rlog else 0
def AccCfg.cols (c : AccCfg) : Nat := if c.en then 16 * 2 ^ c.clog else 0
def AccCfg.size (c : AccCfg) : Nat := if c.f64 then 8 else 4
def AccCfg.fmt (c : AccCfg) : Fmt := if c.f64 then fp64 else fp32
/-- Element (r, j) of tile i. -/
def accGet (t : Team) (i r j : Nat) : Nat :=
  let e := (accCfgOf t i).size
  leNat (bytesAt t.acc (65536 * i + 512 * r + e * j) e)
/-- Row r of tile i takes new elements; its poison goes. -/
def accRow (i r : Nat) (vals : List Nat) (t : Team) : Team :=
  let e := (accCfgOf t i).size
  { t with
    acc := msplice t.acc (65536 * i + 512 * r) (e * vals.length) (putBytes [] (atOffsets 0 (vals.flatMap (leBytes e))))
    accPoison := mdel t.accPoison (128 * i + r) }
/-- Every element of tile i becomes +0, or its contents are discarded. -/
def accClear (i : Nat) (t : Team) : Team :=
  { t with acc := msplice t.acc (65536 * i) 65536 [], accPoison := t.accPoison.filter fun p => p.1 / 128 ≠ i }
/-- Tile i is configured with c (R400): a tile that has that configuration keeps its contents. -/
def accSet (i : Nat) (c : AccCfg) (t : Team) : Team :=
  if c.en && accCfgOf t i = c then t else let t := accClear i t; { t with accCfg := mput {} t.accCfg i c }
def rowPoison (t : Team) (i r : Nat) : Option W32 := mfind t.accPoison (128 * i + r)

/-! ### What can start (R145) -/

/-- The accumulator tiles that an entry names; TCFG names all. -/
def accNames (e : SeqEntry) : List Nat :=
  if e.op = 0x58 then List.range 8
  else if e.op = 0x59 || e.op = 0x5A then (List.range 8).filter fun i => bit (e.f.xf 7 0) i
  else [e.f.xf 2 0]
def isMma (e : SeqEntry) : Bool := e.op = 0x5B || e.op = 0x5C
def isMover (e : SeqEntry) : Bool := e.op = 0x5D || e.op = 0x5E || e.op = 0x5F

/-- The entries of the same team that come before e, in the queue and in the team's store. -/
def teamBefore (s : State) (k : Nat) (e : SeqEntry) : List SeqEntry :=
  ((s.cluster k).seq ++ (s.team (e.wave / 16)).store).filter fun x => x.wave / 16 = e.wave / 16 && decide (x.order < e.order)
/-- Entry e must wait for x of its own team: they share a tile, or e reconfigures. -/
def waitsFor (e x : SeqEntry) : Bool :=
  e.op = 0x58 || e.op = 0x59 || (accNames e).any fun i => (accNames x).contains i
/-- The wave of an entry may be served: its team runs and it is not halted (R114, R125). -/
def seqServed (s : State) (wave : Nat) : Bool :=
  (s.team (wave / 16)).phase = .running && !dieDown s (s.team (wave / 16)).die &&
    match s.wave? wave with | some w => !w.c.halted || w.stepping = 2 | none => false
/-- A tile that e names lies in a bank whose earlier contents are still being written out (R137). -/
def bankBusy (s : State) (k : Nat) (e : SeqEntry) : Bool :=
  (s.team (e.wave / 16)).banks.any fun p => (accNames e).contains p.1 && (s.cluster k).writeout.any fun q => q.1 = p.2
/-- The team of an entry has ended: a step of it that is in progress completes without counting (R119). -/
def teamOver (s : State) (e : SeqEntry) : Bool :=
  match s.team? (e.wave / 16) with | some t => t.phase = .ended || t.phase = .done | none => true
/-- Entry e can start: a step in progress goes on though its team has been stopped (R114, R117). -/
def seqCan (s : State) (k : Nat) (e : SeqEntry) : Bool :=
  let q := (s.cluster k).seq
  !e.started && e.hold = .none && (seqServed s e.wave || e.busy) && !bankBusy s k e &&
    (teamBefore s k e).all (fun x => (x.begun || x.hold ≠ .none) && !waitsFor e x) &&
    (if isMma e then q.all fun x => !(x.started && isMma x) || decide (engPrio s x.wave < engPrio s e.wave)
     else if isMover e then q.all fun x => !(x.started && isMover x) || (!x.busy && decide (engPrio s x.wave < engPrio s e.wave)) else true)
/-- Of the entries that can start: the highest priority, then the earliest. -/
def seqBest (s : State) : List SeqEntry → Option SeqEntry
  | [] => none
  | e :: l => match seqBest s l with
    | none => some e
    | some x =>
      if engPrio s x.wave < engPrio s e.wave || (engPrio s x.wave = engPrio s e.wave && e.order < x.order) then some e else some x

def pushStep (s : State) (d c order : Nat) : State :=
  s.push (.sequencerStepComplete (Fin.ofNat 8 d) (Fin.ofNat 64 c) order)
/-- An entry leaves the array or its unit between steps, with its progress. -/
def stopEntry (s : State) (d c : Nat) (e : SeqEntry) (h : EngHold) : State :=
  let s := setPins s d e.pinned []
  modEntry s (clusterKey d c) e.order fun x => { x with started := false, list := none, pinned := [], hold := h }
/-- SEQUENCER_ENTRY_START (R145): free entries are filled, and the best that can start does; an entry of lower priority in its unit stops
between its steps (R110). -/
def execSequencerEntryStart (d : DieId) (c : Fin 64) (s : State) : Out :=
  let k := clusterKey d.val c.val
  let s := refillSeq s d.val c.val
  match seqBest s ((s.cluster k).seq.filter (seqCan s k)) with
  | none => .next s
  | some e =>
    let unit (x : SeqEntry) : Bool := x.started && ((isMma e && isMma x) || (isMover e && isMover x))
    let s := match (s.cluster k).seq.find? unit with
      | some x => stopEntry s d.val c.val x .none
      | none => s
    let s := modEntry s k e.order fun x => { x with started := true, begun := true }
    .next (kickSeq (pushStep s d.val c.val e.order) d.val c.val)

/-! ### The end of steps -/

/-- The bytes that an entry has not counted (R397, R398). -/
def seqUncounted (s : State) (e : SeqEntry) : Nat :=
  let cfg := accCfgOf (s.team (e.wave / 16)) (e.f.xf 2 0)
  let n := cfg.rows * cfg.cols
  match e.op with
  | 0x5B => n * cfg.size
  | 0x5C => n * cfg.size
  | 0x5D => (n - 16 * e.step * cfg.cols) * cfg.size
  | 0x5E => (n - 16 * e.step * cfg.cols) * (match e.f.ty.toNat with | 3 => 8 | 2 => 4 | _ => 2)
  | _ => 0
def seqBar (e : SeqEntry) : Nat := if isMma e then e.f.xf 31 26 else e.f.xf 15 10

/-- An entry is reported (R397). -/
def seqReport (s : State) (d c : Nat) (e : SeqEntry) (cause : Nat) (taddr : Nat := 0) (origin : W32 := 0) (reason : Nat := 0) :
    State :=
  endEntry (report s e.wave cause reason origin (seqUncounted s e) e.inst e.tlpc (BitVec.ofNat 64 taddr)) d c e
/-- Something stops the step of an entry (R208, R399). -/
def seqStopped (s : State) (d c access : Nat) (e : SeqEntry) (x : EngStop) : State :=
  match x with
  | .wait => pushStep s d c e.order
  | x =>
  if teamOver s e then endEntry s d c e
  else match x with
  | .page va r =>
    let (s, fid) := raiseFault s d (.seq d c e.order) (engName s e.wave) (BitVec.ofNat 64 va) 0 r access
    let s := traceRec s d (engName s e.wave) 0x03 (leBytes 8 va)
    kickSeq (stopEntry s d c e (.fault fid)) d c
  | .blocked => kickSeq (stopEntry s d c e .blocked) d c
  | .frozen pa => stopEntry (freezeCluster s d c pa (engName s e.wave) e.wave) d c e .frozen
  | .wait => pushStep s d c e.order
  | .fill va => seqReport s d c e 0x0B va
  | .refused va => seqReport s d c e 0x0A va
/-- A step is done; `total` steps complete the instruction, and bytes may be counted now (R398). An entry of a higher priority may take
the unit before the next step. -/
def seqStepped (s : State) (d c : Nat) (e : SeqEntry) (total bytes : Nat) : State :=
  if teamOver s e then endEntry s d c e
  else
  let s := if bytes = 0 then s else countBar s (e.wave / 16) (seqBar e) bytes
  if total ≤ e.step + 1 then endEntry s d c e
  else
    let s := modEntry s (clusterKey d c) e.order fun x => { x with step := e.step + 1, busy := false }
    pushStep (kickSeq (stepRan s d e.wave) d c) d c e.order

/-! ### MMA and MMAG (R256, R257, R402 to R405) -/

/-- Lane 0's pair of a source, whatever its full/empty bit says (R395). -/
def seqWord (w : Wave) : Src → W64
  | .v n _ => vread64 w n.toNat 0
  | _ => 0

/-- The formats of a class (R402). -/
def classFormats (ty ea eb : Nat) : Bool :=
  match ty with
  | 0 => ea = efmtNq4 && eb = 0x0D
  | 1 => (ea = 0x0D || ea = 0x0E) && (eb = 0x0D || eb = 0x0E)
  | 2 => ea = efmtG8 && eb = efmtG8
  | 3 => ea = 0x0A && eb = 0x0A
  | 4 => ea = 0x09 && eb = 0x09
  | 5 => ea = 0x0B && eb = 0x0B
  | _ => ea = 0x0C && eb = 0x0C

/-- What an MMA works on at a step. -/
structure MmaPlan where
  ra : Record
  rb : Record
  a : W64
  b : W64
  kb : Nat
  kbs : Nat
  cfg : AccCfg
  gather : Option (Record × Nat) := none
  outlier : Option (Record × Nat) := none
  ocnt : Nat := 0

/-- Element (i, k) of A for row coordinate i, and element (k, j) of B. -/
def MmaPlan.atA (p : MmaPlan) (row : Int) (k : Nat) : Option (ElemTile × Nat) :=
  p.ra.at? fun d => if d = 0 then elemBase p.ra p.a 0 + k else if d = 1 then row else elemBase p.ra p.a d
def MmaPlan.atB (p : MmaPlan) (k j : Nat) : Option (ElemTile × Nat) :=
  p.rb.at? fun d => if d = 0 then elemBase p.rb p.b 0 + k else if d = 1 then elemBase p.rb p.b 1 + j else elemBase p.rb p.b d
/-- The row of A's tensor for row i of the accumulator: negative for an absent one. -/
def MmaPlan.row (p : MmaPlan) (list : List Nat) (i : Nat) : Int :=
  if p.gather.isSome then sgn 32 (list.getD i 0) else elemBase p.ra p.a 1 + i

/-- The list word's parts (R404). -/
def listSlot (s : State) (w : Wave) (used : Bool) (n : Nat) : Option (Option Record) :=
  if used then (slotOf s w n).map some else some none
/-- The checks of an MMA (R396, R402, R404, R405), or the cause that is reported: operand words and slots, then formats and
configuration, then tiles. -/
def mmaPlan (s : State) (w : Wave) (e : SeqEntry) : Except Nat MmaPlan :=
  let f := e.f
  let a := seqWord w f.a
  let b := seqWord w f.b
  let l := if f.xf 11 11 = 1 then (seqWord w f.c).toNat else 0
  let g := decide (e.op = 0x5C)
  let ocnt := bitsOf l 31 20
  match slotOf s w (f.xf 6 3), slotOf s w (f.xf 10 7), listSlot s w g (bitsOf l 59 56), listSlot s w (ocnt ≠ 0) (bitsOf l 35 32) with
  | some ra, some rb, some rg, some ro =>
    let ty := f.ty.toNat
    let cfg := accCfgOf (s.team (e.wave / 16)) (f.xf 2 0)
    let p : MmaPlan := { ra := ra, rb := rb, a := a, b := b, kb := f.xf 25 16 + 1, kbs := if ty = 0 then 64 else 32, cfg := cfg
                         gather := rg.map fun r => (r, bitsOf l 55 36), outlier := ro.map fun r => (r, bitsOf l 19 0), ocnt := ocnt }
    if a.toNat / 2 ^ 48 ≠ 0 || b.toNat / 2 ^ 48 ≠ 0 || bitsOf l 63 60 ≠ 0 || (!g && bitsOf l 59 36 ≠ 0) then .error 0x0B
    else if !cfg.en || cfg.f64 ≠ decide (ty = 6) || !classFormats ty ra.efmt rb.efmt ||
        (ty = 0 && ra.ext 0 % 64 ≠ 0) || (ty = 2 && (ra.ext 0 % 32 ≠ 0 || rb.ext 0 % 32 ≠ 0)) ||
        rg.any (fun r => r.efmt ≠ 0x06) || ro.any (fun r => r.efmt ≠ 0x07 && r.efmt ≠ 0x08) then .error 0x0C
    else if (!g && (p.atA (elemBase ra a 1 + (cfg.rows - 1)) (p.kb * p.kbs - 1)).isNone) ||
        (p.atB (p.kb * p.kbs - 1) (cfg.cols - 1)).isNone then .error 0x0B
    else .ok p
  | _, _, _, _ => .error 0x0B

/-- The k of a block at which a tile starts. -/
def tileStarts (base ext k0 n : Nat) : List Nat := (List.range n).filter fun k => k = 0 || (base + k0 + k) % ext = 0
/-- The tiles of A and of B that K-block n reads. -/
def MmaPlan.tilesA (p : MmaPlan) (list : List Nat) (n : Nat) : List (ElemTile × Nat) :=
  ((List.range p.cfg.rows).map (p.row list)).flatMap fun r =>
    if r < 0 then [] else (tileStarts 0 (p.ra.ext 0) (n * p.kbs) p.kbs).filterMap fun k => p.atA r (n * p.kbs + k)
def MmaPlan.tilesB (p : MmaPlan) (n : Nat) : List (ElemTile × Nat) :=
  (List.range p.cfg.cols).flatMap fun j => (tileStarts 0 (p.rb.ext 0) (n * p.kbs) p.kbs).filterMap fun k => p.atB (n * p.kbs + k) j
/-- The tiles of the next dense step that the fetch unit holds or fetches ahead: at most 16, those that it has read first (R144). -/
def MmaPlan.ahead (p : MmaPlan) (list : List Nat) (n : Nat) : List ElemTile :=
  let t (m : Nat) : List ElemTile := if m < p.kb then ((p.tilesA list m ++ p.tilesB m).map Prod.fst).dedup else []
  let next := t (n + 1)
  let held := next.filter fun x => (t n).any fun y => y.tile = x.tile
  (held ++ next.filter fun x => !held.contains x).take 16
/-- Fetch tiles ahead: those that can be read now come into the cache and are pinned. -/
def fetchAhead (who : Who) (owner : Nat) : List ElemTile → State → State × List TileId
  | [], s => (s, [])
  | t :: l, s =>
    let skip (s : State) := fetchAhead who owner l s
    match place s who .load (BitVec.ofNat 64 t.va) 2048 (some t) owner with
    | .ok q =>
      if fillFaultAt s who.d q then skip s
      else match touch s who.d q.req false with
        | .ok s => let (s, r) := skip s; (s, t.tile :: r)
        | .wait s => skip s
        | .fault s => skip s
    | _ => skip s

/-- The exact sum of products (R256, R257). -/
def sumV : List FVal → FVal
  | [] => .fin false 0 0
  | [x] => x
  | x :: l => faddV false x (sumV l)
/-- The value of an element, and whether it is poisoned, with the tile's address and origin. -/
def valAt (r : Record) (ts : List TileRead) (x : Option (ElemTile × Nat)) : FVal :=
  match x with | some (t, i) => elemVal r.efmt i (readOf ts t) | none => .nan
def badAt (r : Record) (ts : List TileRead) (x : Option (ElemTile × Nat)) : Option (Nat × W32) :=
  match x with
  | some (t, i) => if elemPoison r.efmt i (readOf ts t) then some (t.va, (readOf ts t).porigin) else none
  | none => none
/-- p of K-block n for row coordinate r and column j. -/
def MmaPlan.dot (p : MmaPlan) (ts : List TileRead) (n : Nat) (r : Int) (j : Nat) : FVal :=
  let v := sumV ((List.range p.kbs).map fun k => fmulV (valAt p.ra ts (p.atA r (n * p.kbs + k))) (valAt p.rb ts (p.atB (n * p.kbs + k) j)))
  if p.ra.efmt = efmtNq4 then
    match p.atA r (n * p.kbs) with
    | some (t, i) => fmulV v (fdecode fp32 false (leNat (bytesAt (readOf ts t).side (4 * (i / 64)) 4)))
    | none => v
  else v
/-- acc(r, ·) with one value added per column, rounded once (R256). -/
def addToRow (t : Team) (acc r : Nat) (p : Nat → FVal) : List Nat :=
  let cfg := accCfgOf t acc
  (List.range cfg.cols).map fun j =>
    fround cfg.fmt .rne false false (faddV false (fdecode cfg.fmt false (accGet t acc r j)) (p j))

/-- The poison that K-block n or an outlier step meets: operands first, then the rows. -/
def mmaPoison (t : Team) (acc : Nat) (rows : List Nat) (operands : List (Option (Nat × W32))) : Option (Nat × W32) :=
  match operands.filterMap id with
  | x :: _ => some x
  | [] => match rows.filterMap (rowPoison t acc) with
    | o :: _ => some (0, o)
    | [] => none

/-- Dense step n. -/
def mmaDense (s : State) (d c : Nat) (e : SeqEntry) (p : MmaPlan) (total : Nat) : State :=
  let who := engWho s e.wave
  let list := e.list.getD []
  let acc := e.f.xf 2 0
  let n := e.step
  match engReadAll who 5 (keyLaunch e.wave) (usesOf (p.tilesA list n ++ p.tilesB n)) s with
  | (s, .error x) => seqStopped s d c 5 e x
  | (s, .ok ts) =>
    let team := s.team (e.wave / 16)
    let rows := (List.range p.cfg.rows).filter fun i => decide (0 ≤ p.row list i)
    let ks := (List.range p.kbs).map fun k => n * p.kbs + k
    let bad := (rows.flatMap fun i => ks.map fun k => badAt p.ra ts (p.atA (p.row list i) k)) ++
      (List.range p.cfg.cols).flatMap fun j => ks.map fun k => badAt p.rb ts (p.atB k j)
    match mmaPoison team acc rows bad with
    | some (va, o) => seqReport s d c e 0x09 va o
    | none =>
      let team' := rows.foldl (fun t i => accRow acc i (addToRow t acc i (p.dot ts n (p.row list i))) t) team
      let s := s.modTeam (e.wave / 16) fun _ => team'
      let (s, keep) := fetchAhead who (keyLaunch e.wave) (p.ahead list n) s
      let s := modEntry (setPins s d e.pinned keep) (clusterKey d c) e.order fun x => { x with pinned := keep }
      let e := { e with pinned := keep }
      seqStepped s d c e total (if total = n + 1 then p.cfg.rows * p.cfg.cols * p.cfg.size else 0)

/-- Outlier step n (R404): one entry of the list. -/
def mmaOutlier (s : State) (d c : Nat) (e : SeqEntry) (p : MmaPlan) (ro : Record) (start total : Nat) : State :=
  let who := engWho s e.wave
  let acc := e.f.xf 2 0
  match listAt? ro (start + (e.step - p.kb)) with
  | none => seqReport s d c e 0x0B
  | some (t, i) =>
    match engRead s who 5 (keyLaunch e.wave) t.use with
    | (s, .error x) => seqStopped s d c 5 e x
    | (s, .ok l) =>
      if elemPoison ro.efmt i l then seqReport s d c e 0x09 t.va l.porigin
      else
        let x := elemBits ro.efmt i l
        let row := bitsOf x 15 0
        let col := bitsOf x 31 16
        if p.cfg.rows ≤ row || p.kb * p.kbs ≤ col then seqReport s d c e 0x0C
        else
          let bs := (List.range p.cfg.cols).map (p.atB col)
          match engReadAll who 5 (keyLaunch e.wave) (usesOf (bs.filterMap id)) s with
          | (s, .error x) => seqStopped s d c 5 e x
          | (s, .ok ts) =>
            let team := s.team (e.wave / 16)
            match mmaPoison team acc [row] (bs.map (badAt p.rb ts)) with
            | some (va, o) => seqReport s d c e 0x09 va o
            | none =>
              let v := fdecode fp32 false (bitsOf x 63 32)
              let vals := addToRow team acc row fun j => fmulV v (valAt p.rb ts (p.atB col j))
              let s := s.modTeam (e.wave / 16) (accRow acc row vals)
              seqStepped s d c e total (if total = e.step + 1 then p.cfg.rows * p.cfg.cols * p.cfg.size else 0)

/-- Read n s32 elements of a list tensor from `start` on, for an entry that keeps them; the step follows. -/
def readList (s : State) (d c : Nat) (e : SeqEntry) (r : Record) (start n : Nat) (ok : List Nat → Bool) : State :=
  let els := (List.range n).map fun i => listAt? r (start + i)
  if els.any Option.isNone then seqReport s d c e 0x0B
  else match engReadAll (engWho s e.wave) 5 (keyLaunch e.wave) (usesOf (els.filterMap id)) s with
    | (s, .error x) => seqStopped s d c 5 e x
    | (s, .ok ts) =>
      match (els.map (badAt r ts)).filterMap id with
      | (va, o) :: _ => seqReport s d c e 0x09 va o
      | [] =>
        let list := (els.filterMap id).map fun x => elemBits r.efmt x.2 (readOf ts x.1)
        if ok list then pushStep (modEntry s (clusterKey d c) e.order fun x => { x with list := some list }) d c e.order
        else seqReport s d c e 0x0B

/-- A step of an MMA or MMAG. -/
def mmaStep (s : State) (d c : Nat) (w : Wave) (e : SeqEntry) : State :=
  match mmaPlan s w e with
  | .error cause => seqReport s d c e cause
  | .ok p =>
    let total := p.kb + p.ocnt
    match p.gather, e.list, p.outlier with
    | some (r, start), none, _ =>
      readList s d c e r start p.cfg.rows fun l => l.all fun g =>
        decide (sgn 32 g < 0) || (p.atA (sgn 32 g) (p.kb * p.kbs - 1)).isSome
    | _, _, o =>
      if e.step < p.kb then mmaDense s d c e p total
      else match o with
        | some (ro, start) => mmaOutlier s d c e p ro start total
        | none => seqReport s d c e 0x0B

/-! ### TLDA and TSTA (R407, R408) -/

/-- Element (row, j) of the tensor of a TLDA or TSTA. -/
def moveAt (r : Record) (x : W64) (row : Int) (j : Nat) : Option (ElemTile × Nat) :=
  r.at? fun d => if d = 0 then elemBase r x 0 + j else if d = 1 then row else elemBase r x d

/-- A step of TLDA: 16 rows. -/
def tldaStep (s : State) (d c : Nat) (w : Wave) (e : SeqEntry) : State :=
  let x := seqWord w e.f.a
  let acc := e.f.xf 2 0
  let cfg := accCfgOf (s.team (e.wave / 16)) acc
  match slotOf s w (e.f.xf 6 3) with
  | none => seqReport s d c e 0x0B
  | some r =>
    let row (i : Nat) : Int := elemBase r x 1 + i
    if x.toNat / 2 ^ 48 ≠ 0 then seqReport s d c e 0x0B
    else if !cfg.en || cfg.f64 ≠ decide (e.f.ty = 3) || r.efmt ≠ (if e.f.ty = 3 then 0x0C else 0x0B) then seqReport s d c e 0x0C
    else if (moveAt r x (row (cfg.rows - 1)) (cfg.cols - 1)).isNone then seqReport s d c e 0x0B
    else
      let rows := (List.range 16).map fun i => 16 * e.step + i
      let els := rows.flatMap fun i => (List.range cfg.cols).map fun j => moveAt r x (row i) j
      match engReadAll (engWho s e.wave) 5 (keyLaunch e.wave) (usesOf (els.filterMap id)) s with
      | (s, .error y) => seqStopped s d c 5 e y
      | (s, .ok ts) =>
        match (els.map (badAt r ts)).filterMap id with
        | (va, o) :: _ => seqReport s d c e 0x09 va o
        | [] =>
          let vals (i : Nat) : List Nat := (List.range cfg.cols).map fun j => match moveAt r x (row i) j with
            | some (t, n) => elemBits r.efmt n (readOf ts t)
            | none => 0
          let s := s.modTeam (e.wave / 16) fun t => rows.foldl (fun t i => accRow acc i (vals i) t) t
          seqStepped s d c e (cfg.rows / 16) (16 * cfg.cols * cfg.size)

/-- The destination format of TSTA. -/
def tstaEfmt : Nat → Nat
  | 2 => 0x0B | 3 => 0x0C | 4 => 0x09 | _ => 0x0A
/-- The writes of one row of the accumulator, tile by tile, with its poison. -/
def tstaRow (t : Team) (acc : Nat) (r : Record) (x : W64) (add : Bool) (i : Nat) (row : Int) : List EngWrite :=
  let cfg := accCfgOf t acc
  let size := efmtBits r.efmt / 8
  let els := (List.range cfg.cols).filterMap fun j => (moveAt r x row j).map fun p => (p, j)
  let word (j : Nat) : Nat := fround (efmtFmt r.efmt) .rne false false (fdecode cfg.fmt false (accGet t acc i j))
  let given (j : Nat) : Nat := if add then accGet t acc i j else word j
  ((els.map fun p => p.1.1).dedup).map fun tile =>
    let mine := els.filter fun p => p.1.1 = tile
    { va := tile.va, tile := some tile
      bytes := mine.flatMap fun p => atOffsets (p.1.2 * size) (leBytes size (given p.2))
      poison := match rowPoison t acc i with
        | some _ => mine.foldl (fun m p => m ||| BitVec.twoPow 33 (p.1.2 * size / 64)) 0
        | none => 0
      porigin := (rowPoison t acc i).getD 0
      add := if add then some (.f32, 4) else none }
/-- A step of TSTA: the writes of 16 rows are formed, then made, then counted when they have landed. -/
def tstaStep (s : State) (d c : Nat) (w : Wave) (e : SeqEntry) : State :=
  let f := e.f
  let x := seqWord w f.a
  let sw := if f.xf 7 7 = 1 then (seqWord w f.b).toNat else 0
  let acc := f.xf 2 0
  let team := s.team (e.wave / 16)
  let cfg := accCfgOf team acc
  let k := clusterKey d c
  match slotOf s w (f.xf 6 3), listSlot s w (f.xf 7 7 = 1) (bitsOf sw 23 20) with
  | some r, some rl =>
    if e.busy then
      let dest : AtomicDest := .engine k false e.order
      let (s, z) := engWriteAll (engWho s e.wave) e.wave 13 (keyLaunch e.wave) dest e.writes s
      let s := modEntry s k e.order fun y => { y with writes := z.left, pend := y.pend ++ z.pend, remote := y.remote + z.remote }
      let now := ((s.cluster k).seq.find? fun y => y.order = e.order).getD e
      match z.stop with
      | some y => seqStopped s d c 13 now y
      | none =>
        if !(unacked s d now.pend).isEmpty || now.remote ≠ 0 then pushStep s d c e.order
        else
          let s := modEntry s k e.order fun y => { y with pend := [] }
          seqStepped s d c now (cfg.rows / 16) (16 * cfg.cols * (efmtBits (tstaEfmt f.ty.toNat) / 8))
    else if x.toNat / 2 ^ 48 ≠ 0 || sw / 2 ^ 24 ≠ 0 then seqReport s d c e 0x0B
    else if !cfg.en || cfg.f64 ≠ decide (f.ty = 3) || r.efmt ≠ tstaEfmt f.ty.toNat || rl.any (fun l => l.efmt ≠ 0x06) then
      seqReport s d c e 0x0C
    else match rl, e.list with
      | some l, none => readList s d c e l (bitsOf sw 19 0) cfg.rows fun _ => true
      | _, list =>
        let rows := (List.range 16).map fun i => 16 * e.step + i
        let row (i : Nat) : Int := match list with | some l => sgn 32 (l.getD i 0) | none => elemBase r x 1 + i
        let live := rows.filter fun i => decide (0 ≤ row i)
        if live.any fun i => (moveAt r x (row i) (cfg.cols - 1)).isNone then seqReport s d c e 0x0B
        else if f.xf 9 9 = 1 && releaseWaits { s with focus := e.wave } w (f.xf 20 16) then pushStep s d c e.order
        else
          let ws := live.flatMap fun i => tstaRow team acc r x (f.xf 8 8 = 1) i (row i)
          pushStep (modEntry s k e.order fun y => { y with writes := ws, busy := true }) d c e.order
  | _, _ => seqReport s d c e 0x0B

/-! ### TMOVV, TZERO, TCFG, TREL (R400, R401, R409) -/

/-- TMOVV: the bits of n rows go to n lines or pairs in the lanes of E; poison goes with them. -/
def tmovvStep (s : State) (d c : Nat) (e : SeqEntry) : State :=
  let f := e.f
  let team := s.team (e.wave / 16)
  let acc := f.xf 2 0
  let cfg := accCfgOf team acc
  let n := f.xf 15 12 + 1
  let row := f.xf 9 3
  let col := 32 * f.xf 11 10
  let wide := decide (f.ty = 3)
  if !cfg.en || cfg.f64 ≠ wide || cfg.rows < row + n || cfg.cols ≤ col + 31 then seqReport s d c e 0x0C
  else
    let line (w : Wave) (j : Nat) : Wave :=
      let reg := f.dest.toNat + j * if wide then 2 else 1
      let w := (lanesOf e.lanes).foldl (fun w L => writeV wide reg L (BitVec.ofNat 64 (accGet team acc (row + j) (col + L))) w) w
      match rowPoison team acc (row + j) with
      | none => cleanGranules w (pairOf wide reg) e.lanes
      | some o => (pairOf wide reg).foldl (fun w n => (lanesOf e.lanes).foldl (fun w L =>
          { w with r := { w.r with poison := mset w.r.poison (4 * viewLine w n L + L / 8) o } }) w) w
    endEntry (s.modWave e.wave fun w => (List.range n).foldl line w) d c e
/-- TZERO. -/
def tzeroStep (s : State) (d c : Nat) (e : SeqEntry) : State :=
  if (accNames e).any fun i => !(accCfgOf (s.team (e.wave / 16)) i).en then seqReport s d c e 0x0C
  else endEntry (s.modTeam (e.wave / 16) fun t => (accNames e).foldl (fun t i => accClear i t) t) d c e
/-- TCFG. -/
def tcfgStep (s : State) (d c : Nat) (w : Wave) (e : SeqEntry) : State :=
  let x := seqWord w e.f.a
  endEntry (s.modTeam (e.wave / 16) fun t => (List.range 8).foldl (fun t i => accSet i (shapeCfg (shapeByte x i)) t) t) d c e
/-- TREL. -/
def trelStep (s : State) (d c : Nat) (e : SeqEntry) : State :=
  endEntry (s.modTeam (e.wave / 16) fun t => (accNames e).foldl (fun t i => accSet i {} t) t) d c e

/-- SEQUENCER_STEP_COMPLETE (R399): the next step of an entry that is started; one whose team or wave has stopped leaves at
this boundary, unless its writes have yet to land. -/
def execSequencerStepComplete (d : DieId) (c : Fin 64) (order : Nat) (s : State) : Out :=
  let k := clusterKey d.val c.val
  match (s.cluster k).seq.find? fun e => e.order = order && e.started with
  | none => .next s
  | some e => match s.wave? e.wave with
    | none => .next s
    | some w =>
      if teamOver s e && !e.busy then .next (endEntry s d.val c.val e)
      else if !seqServed s e.wave && !e.busy then
        let s := stopEntry s d.val c.val e .none
        .next (if (s.team (e.wave / 16)).phase = .running then s else storeEntry s k { e with list := none, pinned := [] })
      else .next (match e.op with
        | 0x58 => tcfgStep s d.val c.val w e
        | 0x59 => trelStep s d.val c.val e
        | 0x5A => tzeroStep s d.val c.val e
        | 0x5D => tldaStep s d.val c.val w e
        | 0x5E => tstaStep s d.val c.val w e
        | 0x5F => tmovvStep s d.val c.val e
        | _ => mmaStep s d.val c.val w e)

end Sys2Proof.Machine
end

