-- ==== Sys2Proof/Machine/Copy.lean ====
section
/-! DEFINITION. The copy engine (R146, R410 to R413): CPY, CPYG and COLL at issue, and the tiles, rows and ranks that a
command moves one at a time. -/

namespace Sys2Proof.Machine

/-! ### Slots and issue (R135, R146, R396) -/

/-- The highest priority of a team running on a cluster. -/
def topPrio (s : State) (d c : Nat) : Nat :=
  s.teams.foldl (fun m t => if t.2.phase = .running && t.2.die = d && t.2.cluster = c then max m t.2.prio else m) 0
/-- A command slot is granted to a wave: one is free beside those that go to earlier claims, and commands below the highest running
priority hold fewer than 24, with those of earlier claims (R135, R146). -/
def copyRoom (s : State) (d c wave : Nat) : Bool :=
  let k := clusterKey d c
  let l := (s.cluster k).copies
  let top := topPrio s d c
  decide (claimsAhead s k true wave < Config.copySlots - l.length) &&
    (decide (top ≤ engPrio s wave) ||
      decide ((l.filter fun x => decide (engPrio s x.wave < top)).length + claimsBefore s k true wave top < Config.copySlotsLow))

/-- What a copy instruction names. -/
def copySrcs (f : LaneFields) (c : Bool) : List (Src × Bool) := [(f.a, true), (f.b, true)] ++ if c then [(f.c, true)] else []
def copyVal (s : State) (w : Wave) (x : Src) : W64 := srcVal s w [] 0 x true 0
/-- The record of a side: none for a flat side, and no answer for a slot that has never been bound. -/
def copyRec (s : State) (w : Wave) (flat : Bool) (slot : Nat) : Option (Option Record) :=
  if flat then some none else (slotOf s w slot).map some
/-- A tile of a tensor by coordinates. -/
def tileAt (r : Record) (c : Nat → Nat) : Option ElemTile := if r.inside c then some (r.tile c) else none
def coordOf (x : W64) (d : Nat) : Nat := bitsOf x.toNat (12 * d + 11) (12 * d)
/-- Tile n of a side of CPY, for boxes of N0 tiles in a row (R411). -/
def cpyTile (r : Option Record) (x : W64) (n0 n : Nat) : Option TileUse :=
  match r with
  | none => some ⟨(x.toNat + 2048 * n) % 2 ^ 64, none⟩
  | some r => (tileAt r fun d => coordOf x d + if d = 0 then n % n0 else if d = 1 then n / n0 else 0).map ElemTile.use

/-- Bytes that a command will touch (R396): what it does to them, the first VA and the length. -/
structure Touched where
  kind : AccKind
  va : Nat
  n : Nat
/-- A tile that moves whole, with its scale bytes if `side`. -/
def touchTile (k : AccKind) (side : Bool) (u : TileUse) : List Touched :=
  ⟨k, u.va, 2048⟩ :: match u.tile with | some t => if side && t.side ≠ 0 then [⟨k, t.side, 64⟩] else [] | none => []
/-- Elements of tiles, by tile. -/
def touchEls (k : AccKind) (size : Nat) (l : List (ElemTile × Nat)) : List Touched :=
  ((l.map Prod.fst).dedup).map fun t =>
    let is := (l.filter fun x => x.1 = t).map Prod.snd
    let lo := is.foldl min (is.headD 0)
    ⟨k, t.va + lo * size, (is.foldl max 0 + 1 - lo) * size⟩
/-- Both sides of a command hold G8 tiles, whose scales move too (R157). -/
def bothG8 (a b : Option Record) : Bool := match a, b with | some p, some q => p.efmt = efmtG8 && q.efmt = efmtG8 | _, _ => false
/-- A watch entry matches a command (R122, R396): the lowest byte of all it touches decides. -/
def watchCopy (s : State) (w : Wave) (i : Instr) (E : W32) (l : List Touched) : Option Out :=
  watchAccs s w i (l.map fun u => { lane := lowestLane E, key := 0, va := BitVec.ofNat 64 u.va, n := u.n, kind := u.kind }) (some E)

/-- Issue a copy command: what traps at issue, then the slot, then the command. -/
def copyIssue (s : State) (w : Wave) (i : Instr) (E : W32) (uses : List Touched) (x : CopyCmd) : Out :=
  match watchCopy s w i E uses with
  | some o => o
  | none =>
    let who := waveWho s w
    let k := clusterKey who.d who.cluster
    if !copyRoom s who.d who.cluster s.focus then
      stallLane (addClaim s k ⟨s.focus, s.split, (getSplit w s.split).lpc, true⟩) w
    else
      let n := (s.cluster k).next
      let x := { x with
        id := n, order := n, inst := instBits i, wave := s.focus
        tlpc := w.y.lanebase + (getSplit w s.split).lpc.zeroExtend 64, level := scopeLevel s w (x.f.xf 20 16) }
      let s := (dropClaim s k s.focus true).modCluster k fun c => { c with next := n + 1, copies := c.copies ++ [x] }
      laneDone (kickCopy s who.d who.cluster)
        { w with pendCopies := w.pendCopies ++ [n], lastCopy := if x.op = 0x57 then w.lastCopy else n } []
def newCopy (op : Nat) (f : LaneFields) : CopyCmd := { id := 0, inst := 0, op := op, f := f, wave := 0, tlpc := 0 }

/-- CPY (R411). -/
def execCpy (f : LaneFields) (s : State) : Out :=
  let i : Instr := .cpy f
  laneOp i { op := 0x55, f := f, srcs := copySrcs f true } s fun s w E =>
    let a := copyVal s w f.a
    let b := copyVal s w f.b
    let c := (copyVal s w f.c).toNat
    let sf := f.xf 4 4 = 1
    let df := f.xf 9 9 = 1
    let n0 := bitsOf c 11 0 + 1
    let n := n0 * (bitsOf c 23 12 + 1)
    match copyRec s w sf (f.xf 3 0), copyRec s w df (f.xf 8 5) with
    | some ra, some rb =>
      let differ := match ra, rb with | some x, some y => x.efmt ≠ y.efmt | _, _ => false
      if c / 2 ^ 24 ≠ 0 || 65536 < n || differ || (!sf && a.toNat / 2 ^ 48 ≠ 0) || (!df && b.toNat / 2 ^ 48 ≠ 0) ||
          (cpyTile ra a n0 (n - 1)).isNone || (cpyTile rb b n0 (n - 1)).isNone then trapLane s w i 0x0B E
      else if sf && a.toNat % 2048 ≠ 0 then trapLane s w i 0x05 E a
      else if df && b.toNat % 2048 ≠ 0 then trapLane s w i 0x05 E b
      else
        let uses := (List.range n).flatMap fun m =>
          (cpyTile ra a n0 m).toList.flatMap (touchTile .load (bothG8 ra rb)) ++ (cpyTile rb b n0 m).toList.flatMap (touchTile .store (bothG8 ra rb))
        copyIssue s w i E uses { newCopy 0x55 f with
          a := a, b := b, c := BitVec.ofNat 64 c, src := ra, dst := rb, steps := n, size := 2048 }
    | _, _ => trapLane s w i 0x0B E

/-- Element m of row g of a CPYG side. -/
def cpygAt (r : Record) (x : W64) (row : Int) (m : Nat) : Option (ElemTile × Nat) :=
  r.at? fun d => if d = 0 then elemBase r x 0 + m else if d = 1 then row else elemBase r x d
/-- CPYG (R412): the list is read at issue. -/
def execCpyg (f : LaneFields) (s : State) : Out :=
  let i : Instr := .cpyg f
  laneOp i { op := 0x56, f := f, srcs := copySrcs f true } s fun s w E =>
    let a := copyVal s w f.a
    let b := copyVal s w f.b
    let c := (copyVal s w f.c).toNat
    let n0 := bitsOf c 42 31 + 1
    let nr := bitsOf c 30 24 + 1
    let L := lowestLane E
    match slotOf s w (f.xf 3 0), slotOf s w (f.xf 8 5), slotOf s w (bitsOf c 23 20) with
    | some ra, some rb, some rl =>
      let len := n0 * ra.ext 0
      let els := (List.range nr).map fun r => listAt? rl (bitsOf c 19 0 + r)
      if c / 2 ^ 43 ≠ 0 || a.toNat / 2 ^ 48 ≠ 0 || b.toNat / 2 ^ 48 ≠ 0 || rl.efmt ≠ 0x06 || ra.efmt ≠ rb.efmt ||
          ra.efmt = efmtG8 || ra.efmt = efmtNq4 || els.any Option.isNone then trapLane s w i 0x0B E
      else
        let accs := (els.filterMap id).mapIdx fun r x =>
          ({ lane := L, key := memKey + r, va := BitVec.ofNat 64 (x.1.va + 4 * x.2), n := 4, kind := .load, tile := some x.1 } : LaneAcc)
        match scanAccs s w i accs with
        | some o => o
        | none =>
          if unfinBusy s w then stallLane s w
          else
            let (s, g) := accs.foldl (gatherOne w) (s, {})
            memGo i s w E false 0 [] g fun s w x =>
              if !x.can.getLsbD L then
                laneLeft i s w 0 E (x.failed.flatMap fun y => (lanesOf E).map fun n => { y with lane := n }) []
              else
                let list := (List.range nr).map fun r => ((mfind x.vals (32 * (memKey + r) + L)).getD 0).toNat
                let live := (List.range nr).filter fun r => decide (0 ≤ sgn 32 (list.getD r 0))
                let ends (r : Nat) : List (Option (ElemTile × Nat)) :=
                  [cpygAt ra a (sgn 32 (list.getD r 0)) (len - 1), cpygAt rb b (elemBase rb b 1 + r) (len - 1)]
                if (live.flatMap ends).any Option.isNone then trapLane s w i 0x0B E
                else
                  let size := efmtBits ra.efmt / 8
                  let tiles (r : Nat) : List Touched :=
                    touchEls .load size ((List.range len).filterMap fun m => cpygAt ra a (sgn 32 (list.getD r 0)) m) ++
                      touchEls .store size ((List.range len).filterMap fun m => cpygAt rb b (elemBase rb b 1 + r) m)
                  copyIssue s w i E (live.flatMap tiles) { newCopy 0x56 f with
                    a := a, b := b, src := some ra, dst := some rb, list := list, steps := nr
                    size := len * (efmtBits ra.efmt / 8), c := BitVec.ofNat 64 len }
    | _, _, _ => trapLane s w i 0x0B E

/-- The kind and width of an addition in a format (R413). -/
def collKind : Nat → Option (AtomicKind × Nat)
  | 0x05 => some (.unsigned, 4) | 0x06 => some (.signed, 4) | 0x07 => some (.unsigned, 8) | 0x08 => some (.signed, 8)
  | 0x0B => some (.f32, 4) | 0x0C => some (.f64, 8) | _ => none
/-- The tile of the destination of COLL for rank n: the addition has one. -/
def collTile (r : Record) (x : W64) (n : Nat) : Option ElemTile := tileAt r fun d => coordOf x d + if d = 3 then n else 0
/-- COLL (R413). -/
def execColl (f : LaneFields) (s : State) : Out :=
  let i : Instr := .coll f
  laneOp i { op := 0x57, f := f, srcs := copySrcs f false } s fun s w E =>
    let a := copyVal s w f.a
    let b := copyVal s w f.b
    let op := f.xf 23 22
    let who := waveWho s w
    let mask := if op = 0 then 0 else namedMask s w (f.xf 20 16 - 16)
    let own := 64 * who.d + who.cluster
    let rank := popcount (mask &&& (BitVec.twoPow 512 own - 1))
    let first := if op = 1 then rank else 0
    let n := if op = 2 then popcount mask else 1
    match slotOf s w (f.xf 3 0), slotOf s w (f.xf 8 5) with
    | some ra, some rb =>
      let dests := (List.range n).map fun k => collTile rb b (first + k)
      if a.toNat / 2 ^ 48 ≠ 0 || b.toNat / 2 ^ 48 ≠ 0 || ra.efmt ≠ rb.efmt || (op = 0 && (collKind ra.efmt).isNone) ||
          (tileAt ra (coordOf a)).isNone || dests.any Option.isNone then trapLane s w i 0x0B E
      else
        let g8 := op ≠ 0 && bothG8 ra rb
        let uses := ((tileAt ra (coordOf a)).toList.flatMap fun t => touchTile .load g8 t.use) ++
          (dests.filterMap id).flatMap fun t => touchTile (if op = 0 then .atomic else .store) g8 t.use
        copyIssue s w i E uses { newCopy 0x57 f with
          a := a, b := b, src := some ra, dst := some rb, rank := first, steps := n, size := 2048 }
    | _, _ => trapLane s w i 0x0B E

/-! ### Commands at work -/

def pushCopy (s : State) (d c id : Nat) : State := s.push (.copyStepLand (Fin.ofNat 8 d) (Fin.ofNat 64 c) id)
def modCopy (s : State) (k id : Nat) (g : CopyCmd → CopyCmd) : State :=
  s.modCluster k fun x => { x with copies := x.copies.map fun y => if y.id = id then g y else y }
def copyFrozen (s : State) (d c : Nat) : Bool := (s.ctl d 0x5E20).getLsbD c || dieDown s d

/-- The command of the highest priority, then the earliest issued. -/
def copyBest (s : State) : List CopyCmd → Option CopyCmd
  | [] => none
  | e :: l => match copyBest s l with
    | none => some e
    | some x =>
      if engPrio s x.wave < engPrio s e.wave || (engPrio s x.wave = engPrio s e.wave && e.order < x.order) then some e else some x
/-- COPY_COMMAND_START (R146): the best command that has not started; the next follows. -/
def execCopyCommandStart (d : DieId) (c : Fin 64) (s : State) : Out :=
  let k := clusterKey d.val c.val
  if copyFrozen s d.val c.val then .next s
  else match copyBest s ((s.cluster k).copies.filter fun x => !x.started && x.landed.isNone) with
    | none => .next s
    | some x => .next (kickCopy (pushCopy (modCopy s k x.id fun y => { y with started := true }) d.val c.val x.id) d.val c.val)

/-- A command leaves the engine, complete or discarded: its batch counts it (R303). A follow-on that it carries and that
still has to be entered keeps its slot (R146, R406). -/
def copyLeaves (s : State) (d c : Nat) (x : CopyCmd) (keep : Bool) : State :=
  let k := clusterKey d c
  let s := syncStopped (s.modWave x.wave fun w => copyDone w x.id) x.wave
  if keep && x.follow.isSome then
    let n := (s.cluster k).next
    let s := modCopy (s.modCluster k fun y => { y with next := n + 1 }) k x.id fun y => { y with landed := some n }
    kickCopy (kickSeq (refillSeq s d c) d c) d c
  else
    let s := match x.follow with
      | some e => s.modWave x.wave fun w => (emptied e).foldl setFullV w
      | none => s
    kickCopy (s.modCluster k fun y => { y with copies := y.copies.filter fun z => z.id ≠ x.id }) d c

/-- A command is reported with the bytes that it and its follow-on never count (R397). -/
def copyReport (s : State) (d c : Nat) (x : CopyCmd) (cause : Nat) (taddr : Nat) (reason : Nat := 0) (origin : W32 := 0) : State :=
  let more := match x.follow with | some e => seqUncounted s e | none => 0
  let s := if x.discarded then s
    else report s x.wave cause reason origin ((x.steps - x.step) * x.size + more) x.inst x.tlpc (BitVec.ofNat 64 taddr)
  copyLeaves s d c x false

/-- Something stops the step of a command (R208, R410): it keeps its slot. -/
def copyStopped (s : State) (d c access : Nat) (x : CopyCmd) : EngStop → State
  | .page va r =>
    let (s, fid) := raiseFault s d (.copy d c x.id) (engName s x.wave) (BitVec.ofNat 64 va) 0 r access
    let s := traceRec s d (engName s x.wave) 0x03 (leBytes 8 va)
    modCopy s (clusterKey d c) x.id fun y => { y with hold := .fault fid }
  | .blocked => modCopy s (clusterKey d c) x.id fun y => { y with hold := .blocked }
  | .frozen pa => modCopy (freezeCopy s d c pa (engName s x.wave) x.id) (clusterKey d c) x.id fun y => { y with hold := .frozen }
  | .wait => pushCopy s d c x.id
  | .fill va => copyReport s d c x 0x0B va
  | .refused va => copyReport s d c x 0x0A va

/-- The offsets and bytes of a tile that is moved whole, with its 64 scale bytes if `side`. -/
def wholeTile (t : TileRead) (side : Bool) : List (Nat × Byte) :=
  atOffsets 0 (bytesAt t.payload 0 2048) ++ if side then atOffsets 2048 (bytesAt t.side 0 64) else []
/-- The poison that goes with it. -/
def wholePoison (t : TileRead) (side : Bool) : BitVec 33 := if side then t.poison else t.poison &&& ~~~(BitVec.twoPow 33 32)

/-- The tiles that a step reads and the writes it makes of what it has read; a skipped row makes none. -/
def copyPlan (x : CopyCmd) : List TileUse × (List TileRead → List EngWrite) :=
  let g8 := bothG8 x.src x.dst
  match x.op with
  | 0x55 =>
    let n0 := bitsOf x.c.toNat 11 0 + 1
    match cpyTile x.src x.a n0 x.step, cpyTile x.dst x.b n0 x.step with
    | some u, some v => ([u], fun ts => ts.map fun t =>
        { va := v.va, tile := v.tile, bytes := wholeTile t g8, poison := wholePoison t g8, porigin := t.porigin })
    | _, _ => ([], fun _ => [])
  | 0x56 =>
    match x.src, x.dst with
    | some ra, some rb =>
      let g := sgn 32 (x.list.getD x.step 0)
      let size := efmtBits ra.efmt / 8
      let els := if g < 0 then [] else (List.range x.c.toNat).filterMap fun m =>
        match cpygAt ra x.a g m, cpygAt rb x.b (elemBase rb x.b 1 + x.step) m with
        | some p, some q => some (p, q)
        | _, _ => none
      (usesOf (els.map Prod.fst), fun ts => ((els.map fun p => p.2.1).dedup).map fun tile =>
        let mine := els.filter fun p => p.2.1 = tile
        { va := tile.va, tile := some tile
          bytes := mine.flatMap fun p => atOffsets (p.2.2 * size) (leBytes size (elemBits ra.efmt p.1.2 (readOf ts p.1.1)))
          poison := mine.foldl (fun m p => if elemPoison ra.efmt p.1.2 (readOf ts p.1.1) then m ||| BitVec.twoPow 33 (p.2.2 * size / 64) else m) 0
          porigin := ((mine.find? fun p => elemPoison ra.efmt p.1.2 (readOf ts p.1.1)).map fun p => (readOf ts p.1.1).porigin).getD 0 })
    | _, _ => ([], fun _ => [])
  | _ =>
    match x.src, x.dst with
    | some ra, some rb => match tileAt ra (coordOf x.a), collTile rb x.b (x.rank + x.step) with
      | some u, some v =>
        let add := if x.f.xf 23 22 = 0 then collKind ra.efmt else none
        ([u.use], fun ts => ts.map fun t =>
          { va := v.va, tile := some v, bytes := wholeTile t (g8 && add.isNone), poison := wholePoison t (g8 && add.isNone)
            porigin := t.porigin, add := add })
      | _, _ => ([], fun _ => [])
    | _, _ => ([], fun _ => [])

/-- The writes of a step have landed: its bytes are counted, and the next step follows (R398, R410). -/
def copyCounted (s : State) (d c : Nat) (x : CopyCmd) : State :=
  let s := if x.discarded then s else countBar s (x.wave / 16) (x.f.xf 15 10) x.size
  if x.steps ≤ x.step + 1 then copyLeaves s d c { x with step := x.step + 1 } true
  else pushCopy (modCopy s (clusterKey d c) x.id fun y => { y with step := x.step + 1, busy := false, pend := [] }) d c x.id

/-- Another started command of a higher priority can use the engine now. -/
def copyYields (s : State) (k : Nat) (x : CopyCmd) : Bool :=
  (s.cluster k).copies.any fun y => y.started && y.hold = .none && y.landed.isNone && !(y.busy && y.writes.isEmpty) &&
    decide (engPrio s x.wave < engPrio s y.wave)

/-- COPY_STEP_LAND (R410): a command reads the source of its step, makes its writes, and counts them when they have
landed. -/
def execCopyStepLand (d : DieId) (c : Fin 64) (id : Nat) (s : State) : Out :=
  let k := clusterKey d.val c.val
  match (s.cluster k).copies.find? fun x => x.id = id && x.started && x.landed.isNone && x.hold = .none with
  | none => .next s
  | some x => match s.wave? x.wave with
    | none => .next s
    | some w =>
      if copyFrozen s d.val c.val then .next (modCopy s k id fun y => { y with started := false })
      else if copyYields s k x && !(x.busy && x.writes.isEmpty) then .next (pushCopy s d.val c.val id)
      else if x.busy then
        let (s, z) := engWriteAll (engWho s x.wave) x.wave 7 (keyLaunch x.wave) (.engine k true id) x.writes s
        let s := modCopy s k id fun y => { y with writes := z.left, pend := y.pend ++ z.pend, remote := y.remote + z.remote }
        let now := ((s.cluster k).copies.find? fun y => y.id = id).getD x
        match z.stop with
        | some y => .next (copyStopped s d.val c.val 7 now y)
        | none =>
          if !(unacked s d.val now.pend).isEmpty || now.remote ≠ 0 then .next (pushCopy s d.val c.val id)
          else .next (copyCounted s d.val c.val now)
      else if x.f.xf 21 21 = 1 && levelWaits s d.val x.level && !w.ended then .next (pushCopy s d.val c.val id)
      else
        let (uses, make) := copyPlan x
        match engReadAll (engWho s x.wave) 6 (keyLaunch x.wave) uses s with
        | (s, .error y) => .next (copyStopped s d.val c.val 6 x y)
        | (s, .ok ts) =>
          .next (pushCopy (modCopy s k id fun y => { y with writes := make ts, busy := true }) d.val c.val id)

end Sys2Proof.Machine
end

