-- ==== Sys2Proof/Machine/Coherence.lean ====
section
/-! DEFINITION. The messages of the tile caches: the home of a package-coherent tile (R165 to R167), requesting and owning
dies (R168), flushes (R170), generation bumps (R154), halo strips (R160), and what causal tiles send (R163, R187). -/

namespace Sys2Proof.Machine

/-! ### The home (R167) -/

/-- What a fill of a tile would need, as a die's frame has it. -/
def reqOf (f : Frame) : FillReq :=
  { tile := f.tile, base := f.base, home := fin8 f.home, enc := false, pcoh := f.pcoh, repl := f.repl, nq4 := f.nq4
    side := f.sideBase, owner := f.owner }
/-- Make sure that the home has a frame for the tile that die x asks for; `false` if its fill must wait, the state unchanged if the
request is no longer wanted. -/
def ensureHome (s : State) (h x : Nat) (t : TileId) : State × Bool :=
  match homeFrame s h t with
  | some _ => (s, true)
  | none => match (s.frames x).find? fun f => f.tile = t && !f.wb && s.fresh x f with
    | none => (s, true)
    | some f => allocate s h (newFrame s h { reqOf f with region := codeRegion? s h f.base } .i)

/-- A request reaches the home: it is queued in a transient state and served in a stable one. -/
def homeRequest (i : Instr) (kind : Nat) (h x : Nat) (t : TileId) (s : State) : Out :=
  if dieDown s h then .next s
  else match ensureHome s h x t with
  | (s, false) => .next (s.push i)
  | (s, true) => .next (queueHome s h t kind x)
/-- RDS (R167). -/
def execRds (home src : DieId) (t : TileId) (s : State) : Out := homeRequest (.rds home src t) 0 home.val src.val t s
/-- RDX (R167). -/
def execRdx (home src : DieId) (t : TileId) (s : State) : Out := homeRequest (.rdx home src t) 1 home.val src.val t s
/-- UPG (R167). -/
def execUpg (home src : DieId) (t : TileId) (s : State) : Out := homeRequest (.upg home src t) 2 home.val src.val t s

/-- Absorb written-back data into the home frame (R167), written through where the page has replicas (R169). -/
def absorbData (s : State) (h : Nat) (t : TileId) (data : Option TileData) : State :=
  match data with
  | none => s
  | some x =>
    let s := s.modFrame h t fun f => { f with payload := x.payload, side := x.side, poison := x.poison, porigin := x.porigin, dirty := true }
    match homeFrame s h t with
    | some f => if f.repl = 0 then s else (writeBack s f).modFrame h t fun f => { f with dirty := false }
    | none => s
/-- WB (R167): one that carries data carries the owner's clock (R187). -/
def execWb (home src : DieId) (t : TileId) (keep : Bool) (written : Option (TileData × Clock)) (s : State) : Out :=
  let h := home.val
  let o := src.val
  let s := match written with | some (_, c) => s.absorb h c | none => s
  let data := written.map Prod.fst
  let g (s : State) (k : Frame → Frame) : State := s.modFrame h t k
  let leave (always : Bool) (f : Frame) : Frame := noOwner (if always || !keep then { f with dsharers := f.dsharers &&& ~~~(bit8 o) } else f)
  match homeFrame s h t with
  | none => .next (sendWback s h o t)
  | some f =>
    let mine := ownerOf f = some o
    match f.wait with
    | .fwdPend x 1 => .next (g s fun f => setOwner x { f with heldWback := some o })
    | .fwdPend _ 0 => .next (settleHome h t 32 (g (absorbData s h t data) fun f => { leave false f with heldWback := some o }))
    | .fwdPend _ _ =>
      let s := g (absorbData s h t data) fun f => { leave false f with wait := .none }
      .next (settleHome h t 32 (flushServed (sendWback s h o t) h t))
    | .wbPend x kind =>
      let s := g (absorbData s h t data) fun f => { leave true f with wait := .none, queue := (kind, x) :: f.queue }
      .next (settleHome h t 32 (sendWback s h o t))
    | _ =>
      if mine then .next (sendWback (g (absorbData s h t data) (leave true)) h o t) else .next (sendWback s h o t)
/-- ACK (R167). -/
def execAck (home src : DieId) (t : TileId) (clock : Clock) (s : State) : Out :=
  let s := s.absorb home.val clock
  .next (settleHome home.val t 32 (s.modFrame home.val t fun f => { f with acks := f.acks &&& ~~~(bit8 src.val) }))
/-- DONE (R167). -/
def execDone (home _src : DieId) (t : TileId) (clock : Clock) (s : State) : Out :=
  let s := s.absorb home.val clock
  .next (settleHome home.val t 32 (s.modFrame home.val t fun f => { f with done := true }))

/-! ### Requesting and owning dies (R168) -/

/-- A die's frame of a tile, and its write-back buffer. -/
def dieFrame (s : State) (d : Nat) (t : TileId) : Option Frame := (s.frames d).find? fun f => f.tile = t && !f.wb && f.pcoh
def bufferFrame (s : State) (d : Nat) (t : TileId) : Option Frame := (s.frames d).find? fun f => f.tile = t && f.wb && f.st = .mi
/-- The copy is dropped: the home keeps its frame with the directory. -/
def dropCopy (s : State) (d : Nat) (f : Frame) : State :=
  if f.home = d then s.modFrame d f.tile fun f => { f with st := .i, sharers := 0, ncown := false, answered := false, once := 0 } else s.dropFrame d f.tile
/-- The state of a copy; its clusters own it only while the die holds E or M (R162). -/
def setState (s : State) (d : Nat) (t : TileId) (st : CohState) : State :=
  s.modFrame d t fun f => { f with st := st, ncown := f.ncown && (st = .e || st = .m) }
/-- Owned data is held back until the access that asked for it has had its turn. -/
def inGrace (s : State) (f : Frame) : Bool := decide (s.ticks < f.grace)

/-- INV (R168): answered at once, but a frame that the fetch unit pins waits (R144). -/
def execInv (d home : DieId) (t : TileId) (s : State) : Out :=
  let ack (s : State) : Out :=
    let c := s.clock d.val
    .next ((s.sendClock d.val).push (.ack home d t c))
  match dieFrame s d.val t with
  | none => ack s
  | some f =>
    if f.fetchPins ≠ 0 then .next (s.push (.inv d home t))
    else match f.st with
      | .is => ack (s.modFrame d.val t fun f => { f with answered := true })
      | .sm => ack (setState s d.val t .im)
      | .s => ack (dropCopy s d.val f)
      | _ => ack s

/-- An owner writes back with KEEP. -/
def keepBack (s : State) (d h : Nat) (f : Frame) (clean : Bool) : State :=
  if clean then s.push (.wb (fin8 h) (fin8 d) f.tile true none)
  else (s.sendClock d).push (.wb (fin8 h) (fin8 d) f.tile true (some (tileData f, s.clock d)))
/-- A forward waits for a pending request of the die: kind 0 FWDS, 1 FWDX, 2 FLUSH. -/
def holdFwd (s : State) (d : Nat) (t : TileId) (kind r : Nat) : State :=
  s.modFrame d t fun f => { f with heldFwd := f.heldFwd ++ [(kind, r)] }
/-- FWDS (R168). -/
def execFwds (d home requester : DieId) (t : TileId) (s : State) : Out :=
  match bufferFrame s d.val t, dieFrame s d.val t with
  | some b, _ => .next (sendData s d.val requester.val t 0 (tileData b))
  | none, none => .next s
  | none, some f =>
    let give (s : State) : State := sendData s d.val requester.val t 0 (tileData f)
    if f.fetchPins ≠ 0 || (f.st = .m && inGrace s f) then .next (s.push (.fwds d home requester t))
    else match f.st with
      | .m => .next (give (setState s d.val t .o))
      | .o => .next (give s)
      | .om => .next (give s)
      | .e => .next (keepBack (give (setState s d.val t .s)) d.val home.val f true)
      | .sm => .next (holdFwd s d.val t 0 requester.val)
      | .im => .next (holdFwd s d.val t 0 requester.val)
      | _ => .next s
/-- FWDX (R168). -/
def execFwdx (d home requester : DieId) (t : TileId) (s : State) : Out :=
  match bufferFrame s d.val t, dieFrame s d.val t with
  | some b, _ => .next (sendData s d.val requester.val t 2 (tileData b))
  | none, none => .next s
  | none, some f =>
    let give (s : State) : State := sendData s d.val requester.val t 2 (tileData f)
    if f.fetchPins ≠ 0 || (f.st = .m && inGrace s f) then .next (s.push (.fwdx d home requester t))
    else match f.st with
      | .m => .next (give (dropCopy s d.val f))
      | .o => .next (give (dropCopy s d.val f))
      | .e => .next (give (dropCopy s d.val f))
      | .om => .next (give (setState s d.val t .im))
      | .sm => .next (holdFwd s d.val t 1 requester.val)
      | .im => .next (holdFwd s d.val t 1 requester.val)
      | _ => .next s
/-- FLUSH (R168). -/
def execFlush (d home : DieId) (t : TileId) (s : State) : Out :=
  match bufferFrame s d.val t, dieFrame s d.val t with
  | some _, _ => .next s
  | none, none => .next s
  | none, some f =>
    let clean (s : State) (st : CohState) : State := s.modFrame d.val t fun f => { f with st := st, ncown := false, dirty := false }
    if f.st = .m && inGrace s f then .next (s.push (.flush d home t))
    else match f.st with
      | .m => .next (keepBack (clean s .s) d.val home.val f false)
      | .o => .next (keepBack (clean s .s) d.val home.val f false)
      | .e => .next (keepBack (clean s .s) d.val home.val f true)
      | .om => .next (keepBack (clean s .sm) d.val home.val f false)
      | .sm => .next (holdFwd s d.val t 2 0)
      | .im => .next (holdFwd s d.val t 2 0)
      | _ => .next s

/-- The steps for which a store that asked for ownership goes before a forward (R168). -/
def graceSteps : Nat := 64
/-- A granted copy: DONE goes to the home if the data came from another die, and held forwards are answered. -/
def granted (s : State) (d src : Nat) (t : TileId) (st : CohState) (data : Option TileData) (clock : Clock) : State :=
  let s := s.absorb d clock
  match dieFrame s d t with
  | none => s
  | some f =>
    let s := s.modFrame d t fun f =>
      let f := match data with
        | some x => { f with payload := x.payload, side := x.side, poison := x.poison, porigin := x.porigin }
        | none => f
      { f with st := st, heldFwd := [], once := 0, bounce := if data.isSome then 0 else f.bounce, grace := if st = .m then s.ticks + graceSteps else 0, dirty := decide (st = .m) && f.home ≠ d || f.dirty }
    let s := if data.isSome && src ≠ f.home then
        let c := s.clock d
        (s.sendClock d).push (.done (fin8 f.home) (fin8 d) t c)
      else s
    f.heldFwd.foldl (fun s p => s.push (match p.1 with
      | 0 => .fwds (fin8 d) (fin8 f.home) (fin8 p.2) t
      | 1 => .fwdx (fin8 d) (fin8 f.home) (fin8 p.2) t
      | _ => .flush (fin8 d) (fin8 f.home) t)) s
/-- DATA (R168): a copy whose INV was answered serves its pending read only; without one, as for a prefetch, it is dropped at once. -/
def execData (d src : DieId) (t : TileId) (x : TileData) (clock : Clock) (s : State) : Out :=
  let s := granted s d.val src.val t .s (some x) clock
  match dieFrame s d.val t with
  | some f => .next (if f.answered && !f.asked then dropCopy s d.val f else s)
  | none => .next s
/-- DATAE (R168). -/
def execDatae (d src : DieId) (t : TileId) (x : TileData) (clock : Clock) (s : State) : Out :=
  .next (granted (s.modFrame d.val t fun f => { f with answered := false }) d.val src.val t .e (some x) clock)
/-- DATAX (R168). -/
def execDatax (d src : DieId) (t : TileId) (x : TileData) (clock : Clock) (s : State) : Out :=
  .next (granted (s.modFrame d.val t fun f => { f with answered := false }) d.val src.val t .m (some x) clock)
/-- UPGACK (R168). -/
def execUpgack (d home : DieId) (t : TileId) (clock : Clock) (s : State) : Out :=
  .next (granted s d.val home.val t .m none clock)
/-- WBACK (R168): the write-back buffer is freed. -/
def execWback (d _home : DieId) (t : TileId) (clock : Clock) (s : State) : Out :=
  .next ((s.absorb d.val clock).modCache d.val fun c => { c with frames := c.frames.filter fun f => !(f.tile = t && f.wb && f.st = .mi) })

/-! ### Flushes, bumps, write-backs (R154, R161, R170) -/

/-- FLREQ (R170): a tensor that is not package-coherent is flushed here; of one that is, every tile that another die owns. -/
def execFlreq (home src : DieId) (tid : BitVec 20) (lo hi : BitVec 48) (ticket : Nat) (s : State) : Out :=
  let h := home.val
  let flack (s : State) : Out :=
    let c := s.clock h
    .next ((s.sendClock h).push (.flack src home tid ticket c))
  if !tensorPcoh s tid then flack (flushHome s h tid lo hi)
  else
    let l := (s.frames h).filter fun f => f.tile.tid = tid && inRange lo hi f.tile.coord && !f.wb && f.home = h && s.fresh h f &&
      (f.wait ≠ .none || match ownerOf f with | some o => o ≠ h | none => false)
    if l.isEmpty then flack s
    else
      let s := s.modCache h fun c => { c with flushes := c.flushes ++ [⟨src.val, tid, ticket, l.map fun f => f.tile.coord⟩] }
      .next (l.foldl (fun s f => queueHome s h f.tile 3 h) s)

/-- A flush job of a die has nothing more to wait for. -/
def flushEnds (s : State) (d id : Nat) : State :=
  match (s.die d).cache.jobs.find? fun j => j.id = id with
  | some j => if j.acks = 0 && j.strips = 0 then finishJob s d id else s
  | none => s
/-- FLACK (R170). -/
def execFlack (d home : DieId) (_tid : BitVec 20) (ticket : Nat) (clock : Clock) (s : State) : Out :=
  let s := (s.absorb d.val clock).modCache d.val fun c => { c with jobs := c.jobs.map fun j =>
    if j.id = ticket then { j with acks := j.acks &&& ~~~(bit8 home.val) } else j }
  .next (flushEnds s d.val ticket)
/-- HOME_WRITE_BACK_ACK (R161): the write-back buffer is freed, and a flush that waits for the tile counts it. -/
def execHomeWriteBackAck (d : DieId) (t : TileId) (s : State) : Out :=
  let s := s.modCache d.val fun c => { c with frames := c.frames.filter fun f => !(f.tile = t && f.wb && f.st ≠ .mi) }
  match (s.die d.val).cache.jobs.find? fun j => j.kind = 1 && j.tid = t.tid && j.strips ≠ 0 with
  | none => .next s
  | some j =>
    let s := s.modCache d.val fun c => { c with jobs := c.jobs.map fun k => if k.id = j.id then { k with strips := k.strips - 1 } else k }
    .next (flushEnds s d.val j.id)

/-- BUMP_NOTICE (R154): the tensor's annexes go with its stale frames (R160). -/
def execBumpNotice (d home : DieId) (tid : BitVec 20) (gen : BitVec 12) (s : State) : Out :=
  let s := s.modCache d.val fun c => { c with
    mirror := (mset c.mirror tid.toNat gen).take 1024
    annexes := c.annexes.filter fun a => a.tile.tid ≠ tid
    frames := c.frames.map fun (f : Frame) => if f.tile.tid = tid then { f with sharers := 0, ncown := false } else f }
  .next ((s.sendClock d.val).push (.bumpAck home d ⟨tid, s.clock d.val⟩))
/-- BUMP_ACK (R154): the bump completes with the last. -/
def execBumpAck (home src : DieId) (ack : BumpAck) (s : State) : Out :=
  let s := s.absorb home.val ack.clock
  match (s.die home.val).cache.jobs.find? fun j => j.kind = 0 && j.tid = ack.tid && j.acks.getLsbD src.val with
  | none => .next s
  | some j =>
    let left := j.acks &&& ~~~(bit8 src.val)
    let s := s.modCache home.val fun c => { c with jobs := c.jobs.map fun k => if k.id = j.id then { k with acks := left } else k }
    .next (if left = 0 then finishJob s home.val j.id else s)
/-- GENERATION_MIRROR_FILL (R154). -/
def execGenerationMirrorFill (d : DieId) (tid : BitVec 20) (gen : BitVec 12) (s : State) : Out :=
  .next (s.modCache d.val fun c => { c with mirror := (mset c.mirror tid.toNat gen).take 1024 })
/-- BOUNCE_DECAY (R163). -/
def execBounceDecay (d : DieId) (t : TileId) (s : State) : Out :=
  .next (s.modFrame d.val t fun f => { f with bounce := 0 })

/-! ### Halo strips (R160, R386) -/

/-- The annex of a tile takes a strip; the slice drops its least recently attached annex when none is free. -/
def attachStrip (s : State) (d : Nat) (x : HaloStrip) : State :=
  let c := (s.die d).cache
  match c.annexes.find? fun a => a.tile = x.tile with
  | some _ => s.modCache d fun c => { c with annexes := c.annexes.map fun a =>
      if a.tile = x.tile then { a with strips := mset a.strips x.face x.bytes } else a }
  | none =>
    let slice (t : TileId) : Nat := tileHash t % 64
    let mine := c.annexes.filter fun a => slice a.tile = slice x.tile
    let old := mine.foldl (fun m a => min m a.used) c.used
    let keep := if mine.length < 64 then c.annexes else c.annexes.filter fun a => !(slice a.tile = slice x.tile && a.used = old)
    s.modCache d fun c => { c with used := c.used + 1, annexes := keep ++ [{ tile := x.tile, strips := [(x.face, x.bytes)], used := c.used }] }

def dropStrip (s : State) (d id : Nat) : State := s.modCache d fun c => { c with halo := c.halo.filter fun x => x.id ≠ id }
def modJob (s : State) (d id : Nat) (g : CacheJob → CacheJob) : State :=
  s.modCache d fun c => { c with jobs := c.jobs.map fun j => if j.id = id then g j else j }

/-- A publication starts: tile P is read on behalf of its wave and its strips go to the neighbours. -/
def haloStart (s : State) (d : Nat) (x : HaloStrip) (j : CacheJob) (r : Record) (again : State → State) : State :=
  let c (k : Nat) : Nat := coordAt x.tile.coord k
  let who := engWho s j.wave
  let gone (s : State) : State := modJob (dropStrip s d x.id) d j.id fun k => { k with bar := none }
  match engRead s who 8 (keyLaunch j.wave) (r.tile c).use with
  | (s, .ok t) =>
    let l := haloStrips r c fun n => mget 0 t.payload n
    let s := modJob (dropStrip s d x.id) d j.id fun k => { k with strips := l.length }
    let s := l.foldl (fun s p => sendStrip s d p.1 p.2.1 j.id p.2.2) s
    if l.isEmpty then finishJob s d j.id else s
  | (s, .error (.page va reason)) => (raiseFault s d (.halo d x.id) (engName s j.wave) (BitVec.ofNat 64 va) 0 reason 5).1
  | (s, .error (.frozen pa)) => gone (freezeCluster s d who.cluster pa (engName s j.wave) j.wave)
  | (s, .error (.fill va)) => finishJob (gone (report s j.wave 0x0B 0 0 j.bytes j.inst j.tlpc (BitVec.ofNat 64 va))) d j.id
  | (s, .error _) => again s
/-- HALO_STRIP_LAND (R386): a strip is written into the annex of a resident neighbour, or skipped; with the last one the
barrier receives the bytes of every face. -/
def execHaloStripLand (d : DieId) (id : Nat) (s : State) : Out :=
  match (s.die d.val).cache.halo.find? fun x => x.id = id with
  | none => .next s
  | some x =>
    match (s.die d.val).cache.jobs.find? fun j => j.id = x.job with
    | none => .next (dropStrip s d.val id)
    | some j =>
      if x.face = haloStartFace then
        match j.record with
        | none => .next (dropStrip s d.val id)
        | some r => .next (haloStart s d.val x j r fun s => s.push (.haloStripLand d id))
      else
        let s := if (s.frame? d.val x.tile).isSome then attachStrip s d.val x else s
        let s := modJob (dropStrip s d.val id) d.val j.id fun k => { k with strips := k.strips - 1 }
        .next (if j.strips ≤ 1 then finishJob s d.val j.id else s)

/-! ### Causal tiles (R163, R187, R189) -/

/-- A message of a pair is applied in its turn (R187). -/
def pairTurn (s : State) (h src seq : Nat) : Bool := mget 0 (s.die h).cache.pairIn src = seq
def pairNext (s : State) (h src : Nat) : State :=
  s.modCache h fun c => { c with pairIn := mset c.pairIn src (mget 0 c.pairIn src + 1) }
/-- REMOTE_WRITE (R187); one from a lost die is discarded (R75). -/
def execRemoteWrite (home : DieId) (q : RemoteWrite) (s : State) : Out :=
  let h := home.val
  if dieDown s h || fromLost s h (s.dieIndex q.src) then .next s
  else if !pairTurn s h q.src.val q.seq then .next (s.push (.remoteWrite home q))
  else
    let cell := cellOf s q.base
    let s := (pairNext s h q.src.val).absorb h q.clock
    let s := s.writeSide h q.base q.side q.repl q.bytes
    let s := (s.writeHome h q.base cell q.repl q.bytes).poisonHome h q.base cell q.repl q.poison q.porigin
    let s := (recallAll (markModified s h q.tile) h q.tile).advanceClock h
    let c := s.clock h
    .next ((s.sendClock h).push (.remoteWriteAck q.src home q.seq c))
/-- REMOTE_WRITE_ACK (R187). -/
def execRemoteWriteAck (d home : DieId) (seq : Nat) (clock : Clock) (s : State) : Out :=
  .next ((s.absorb d.val clock).modCache d.val fun c => { c with pend := c.pend.filter fun p => !(p.home = home.val && p.seq = seq) })

/-- The old value of an atomic reaches its destination: a landing, or the command that waits. -/
def deliverOld (s : State) (dest : AtomicDest) (old : Nat) : State :=
  let land (s : State) (wave n : Nat) (g : Landing → Landing) : State :=
    match s.wave? wave with
    | none => s
    | some w => match mfind w.landings n with
      | none => s
      | some l =>
        let l := { g l with need := l.need - 1 }
        let s := s.setWave wave { w with landings := mset w.landings n l }
        if l.need = 0 then s.push (.loadResultLand wave n) else s
  match dest with
  | .none => s
  | .scalar wave n d => land s wave n fun l => { l with scalar := some (d, BitVec.ofNat 64 old) }
  | .lane wave n reg L => land s wave n fun l => { l with lanes := l.lanes ++ wordsAt l.wide reg L (BitVec.ofNat 64 old) }
  | .engine k false id => modEntry s k id fun e => { e with remote := e.remote - 1 }
  | .engine k true id => modCopy s k id fun e => { e with remote := e.remote - 1 }
  | .host d pasid => hostDone s d pasid 0 (leBytes 8 old)
  | .core d k => coreDone s d k 0 (leBytes 8 old)
/-- The home has applied an atomic of a die: it is pending there no longer. -/
def atomicLanded (s : State) (src home seq : Nat) : State :=
  s.modCache src fun c => { c with pend := c.pend.filter fun p => !(p.home = home && p.seq = seq) }
/-- REMOTE_ATOMIC (R163, R187): executed at the home's slice in its turn; it waits for a package-coherent tile to come to
the home, and for its turn in a replay (R130). A fill that faults now, which did not when the atomic was sent, leaves memory as it is:
the old value is then free, and the fault is reported. -/
def execRemoteAtomic (home : DieId) (q : AtomicReq) (s : State) : Out :=
  let h := home.val
  let again (s : State) : Out := .next (s.push (.remoteAtomic home q))
  let answer (s : State) (old : Nat) : State :=
    let c := s.clock h
    deliverOld (atomicLanded ((s.sendClock h).absorb q.src.val c) q.src h q.seq) q.dest old
  if fromLost s h (s.dieIndex q.src) then .next s
  else if dieDown s h || !pairTurn s h q.src.val q.seq then again s
  else
    let region := codeRegion? s h q.base
    let req : FillReq := { tile := q.tile, base := q.base, home := home, enc := region.isSome, pcoh := tensorPcoh s q.tile.tid
                           repl := q.repl, nq4 := false, side := 0, owner := keyLaunch q.wave, region := region }
    match touch s h req true with
    | .wait s => again s
    | .fault s =>
      let (s, v) := foreignValue (pairNext s h q.src.val) q.width
      .next (report (answer s v) q.wave 0x0B 0 0 0 0 0 (BitVec.ofNat 64 q.off))
    | .ok s =>
      match aolAdmit s h q.tile (keyLaunch q.wave) (q.wave / 16 % 2 ^ 20) (q.wave % 16) with
      | none => again s
      | some s =>
        let s := (pairNext s h q.src.val).absorb h q.clock
        let p : Placed := { pa := q.base + q.off, req := req, leaf := 0 }
        let (s, old) := atomicHere s ⟨h, 0, 0, 0⟩ 0 p q.width q.op q.kind q.operand.toNat q.compare.toNat true
        .next (answer s old)

/-- UNCACHED_READ (R192): served at its home, and answered on the channel to the reader's package. -/
def execUncachedRead (home : DieId) (src : BitVec 9) (pa width : Nat) (s : State) : Out :=
  .next { s with outbox := s.outbox ++ [⟨home.val, 7, src.toNat, leBytes 8 pa ++ s.peekBytes home.val pa width⟩] }

/-! ### Fills (R159, R210, R211) -/

/-- TILE_FILL_COMPLETE (R159): a prefetch returns from the home. A transient error is recorded; a lasting one poisons the
sectors of the tile (R210, R211). -/
def execTileFillComplete (d : DieId) (q : FillReq) (r : ReadResult) (s : State) : Out :=
  if (s.frame? d.val q.tile).isSome then .next s
  else
    let s := match r with
      | .good => s
      | .transient => (errorRec s q.home.val 1 2 q.base [] (lpddrChannel q.base) 0).1
      | .lasting =>
        let (s, n) := errorRec s q.home.val 2 2 q.base [] (lpddrChannel q.base) 1
        s.poisonHome q.home.val q.base (cellOf s q.base) q.repl (BitVec.ofNat 33 (2 ^ 32 - 1)) (BitVec.ofNat 32 n)
    match completeFill s d.val q with
    | .ok s => .next s
    | .fault s => .next s
    | .wait s => .next (s.push (.tileFillComplete d q .good))

end Sys2Proof.Machine
end

