-- ==== Sys2Proof/Machine/Pages.lean ====
section
/-! DEFINITION. The page tables of a die as its instance changes them (R65, R198, R206), and the contents and cached tiles of pages that
move (R63, R77, R206). -/

namespace Sys2Proof.Machine

def modImage (s : State) (d : Nat) (f : ImageState → ImageState) : State := s.modDie d fun x => { x with image := f x.image }

/-! ### Entries -/

/-- The root of a process's tables on a die. -/
def rootOf (s : State) (d : Nat) (pid : W32) : Option Nat :=
  (findProcess s d pid).map fun i => s.tableNat d (s.ctlBits d 0x5D00 51 16 * 65536 + 16 * i + 8) 8
/-- Where the entry of an address stands, whether it is the level 2 entry of a large page, and the home package of the page. -/
structure EntryAt where
  at_ : Nat
  large : Bool
  pkg : Nat
  deriving DecidableEq, Repr
def entryAddr (s : State) (d root va : Nat) : Option EntryAt :=
  let e1 := s.tableNat d (root + 8 * bitsOf va 54 42) 8
  if !bit e1 0 then none
  else
    let a2 := tableAddr d e1 + 8 * bitsOf va 41 29
    let e2 := s.tableNat d a2 8
    if !bit e2 0 then none
    else if bitsOf e2 4 1 ≠ 0 then some ⟨a2, true, bitsOf e1 18 13⟩
    else some ⟨tableAddr d e2 + 8 * bitsOf va 28 16, false, bitsOf e2 18 13⟩
/-- A leaf with k added to its frame number (R204). -/
def leafPlus (leaf k : Nat) : Nat := setBits leaf 49 21 (bitsOf leaf 49 21 + k)
/-- Write an 8-byte table entry of a die. -/
def putEntry8 (s : State) (d a v : Nat) : State := s.unitWrite d a (leBytes 8 v)
/-- A free frame of the die for a table, from the top of its memory below the firmware area down (assumption 26). -/
def tableFrame (s : State) (d : Nat) : State × Nat :=
  let n := (s.die d).image.tables
  let a := lpddrBase d + firmwareOff - 65536 * (n + 1)
  (modImage { s with mem := msplice s.mem a 65536 [] } d fun x => { x with tables := n + 1 }, a)
/-- A pointer entry to a table of the die (R198). -/
def pointerTo (d a pkg : Nat) : Nat := 1 + pkg * 2 ^ 13 + (a - lpddrBase d) / 65536 * 2 ^ 21
/-- The table below an entry, made if it is missing; the entry then names the home package. -/
def tableBelow (s : State) (d a pkg : Nat) : State × Nat :=
  let e := s.tableNat d a 8
  if bit e 0 then (putEntry8 s d a (setBits e 18 13 pkg), tableAddr d e)
  else
    let (s, t) := tableFrame s d
    (putEntry8 s d a (pointerTo d t pkg), t)
/-- The large page of a level 2 entry is cut into its 8,192 pages, which keep their places and rights, so that some of them can change. -/
def splitLarge (s : State) (d a pkg : Nat) : State :=
  let e := s.tableNat d a 8
  let (s, t) := tableFrame s d
  let s := s.unitWrite d t ((List.range 8192).flatMap fun k => leBytes 8 (leafPlus e k))
  putEntry8 s d a (pointerTo d t pkg)
/-- A run of n pages from an address on holds the whole large page of va. -/
def wholeLarge (first n va : Nat) : Bool :=
  let base := va / 2 ^ 29 * 2 ^ 29
  decide (first ≤ base) && decide (base + 2 ^ 29 ≤ first + 65536 * n)

/-! ### Tiles of a page -/

/-- The frames of a die that hold tiles of a page, or whose side area is in it. -/
def inPage (pa size a : Nat) : Bool := decide (pa ≤ a) && decide (a < pa + size)
def pageFrames (s : State) (d pa size : Nat) : List Frame := (s.frames d).filter fun f => inPage pa size f.base || (f.sideBase ≠ 0 && inPage pa size f.sideBase)
/-- A frame that holds what its home's storage does not: dirty at the home, or an owned copy (R165). -/
def ahead (d : Nat) (f : Frame) : Bool :=
  !f.wb && if f.home = d then f.dirty && hasData f else f.st = .m || f.st = .o || f.st = .om
/-- Every copy that a die holds of a page's tiles goes; a tile of another page whose side area moves is written back first. -/
def dropPageTiles (s : State) (d pa size : Nat) : State :=
  (pageFrames s d pa size).foldl (fun s f =>
    let s := if inPage pa size f.base || !ahead d f then s else writeBack s { f with sideBase := 0 }
    dropAnnex (replaceFrame s d f none) d f.tile) s
/-- What the dies hold of a page beyond its storage is written there. -/
def gatherPage (s : State) (pa size : Nat) : State :=
  (List.range 8).foldl (fun s d =>
    ((pageFrames s d pa size).filter (ahead d)).foldl (fun s f =>
      let s := writeBack s f
      if f.home = d then replaceFrame s d f (some { f with dirty := false }) else s) s) s
/-- Put the bytes of a tile at a physical address, with the poison they carry. -/
def putTile (s : State) (pa : Nat) (repl : BitVec 8) (data : List (Nat × Byte)) (poison : BitVec 33) (origin : W32) : State :=
  match s.locate pa with
  | .cached h c =>
    ((s.spliceHome h pa c repl 0 2048 data).poisonHome h pa c repl poison origin).advanceClock h
  | .host e c => sendForeign s e 5 0 (leBytes 16 c ++ bytesAt data 0 2048)
  | _ => s
/-- The bytes of a tile at a physical address as its home has them, and their poison. -/
def takeTile (s : State) (pa : Nat) : State × List (Nat × Byte) × BitVec 33 × W32 :=
  match s.locate pa with
  | .cached h c =>
    let q := (flatPlaced s h pa 0).req
    if hostFill s q then (askHost s q, freeBytes s 2048, 0, 0)
    else
      let (po, og) := homePoison s h pa c
      (s, s.homeTile h pa c, po, og)
  | .host e c => ({ sendForeign s e 4 0 (leBytes 16 c) with draws := s.draws + 2048 }, freeBytes s 2048, 0, 0)
  | _ => (s, [], 0, 0)
/-- Copy a page to another place, tile by tile (R206), after `gatherPage`. -/
def copyPage (s : State) (pa size place : Nat) (repl : BitVec 8) : State :=
  (List.range (size / 2048)).foldl (fun s k =>
    let (s, data, po, og) := takeTile s (pa + 2048 * k)
    putTile s (place + 2048 * k) repl data (BitVec.ofNat 33 (po.toNat % 2 ^ 32)) og) s

end Sys2Proof.Machine
end

