-- ==== Sys2Proof/Machine/WaveEvents.lean ====
section
/-! DEFINITION. Events of a wave: results that land (R218), stream prefetches (R181, R228), asynchronous traps (R237) and the
flip that a split at a BAR observes (R379). -/

namespace Sys2Proof.Machine

/-- The landing n of a wave is applied. Registers that it would mark full are left to another landing of the wave that still
has to write them. -/
def landNow (w : Wave) (n : Nat) (l : Landing) : Wave :=
  let rest := mdel w.landings n
  match rest.find? fun p => p.2.regs.any fun r => l.fullV.contains r with
  | none => applyLanding { w with landings := rest } l
  | some (m, x) =>
    applyLanding { w with landings := mset rest m { x with fullV := x.fullV ++ l.fullV } } { l with fullV := [] }
/-- LOAD_RESULT_LAND (R218): the last lane of a producer has landed. -/
def execLoadResultLand (wave landing : Nat) (s : State) : Out :=
  match s.wave? wave with
  | none => .next s
  | some w => match mfind w.landings landing with
    | none => .next s
    | some l => if l.need = 0 then .next (syncStopped (s.setWave wave (landNow w landing l)) wave) else .next s

/-- The step of a stream that can be prefetched next: at most 4 ahead of POS. -/
def prefetchStep (q : Stream) : Option Nat :=
  ((List.range 5).map fun k => q.pos.toNat + k).find? fun p => decide (p < q.count.toNat) && !(q.pre.any fun e => e.1 = p)
/-- Read one element ahead; a lane whose element cannot be read now is left out. -/
def prefetchLane (key : Nat) (qn p : Nat) (s : State) (L : Nat) : State :=
  match s.wave? key with
  | none => s
  | some w =>
    let q := getStream w qn
    let who := waveWho s w
    let n := if streamWide q then 8 else 4
    let va := streamVa { q with pos := BitVec.ofNat 32 p } L
    if va.toNat % n ≠ 0 || (ownImage w va).isSome then s
    else match place s who .load va n none w.launch with
      | .ok x =>
        if fillFaultAt s who.d x then s
        else match touch s who.d x.req false with
          | .ok s =>
            if (loadPoison s who.d x 0 n).isSome then s
            else
              let v : W64 := BitVec.ofNat 64 (leNat (loadBytes s who.d x 0 n))
              s.modWave key fun w => setStream w qn { getStream w qn with pre := (getStream w qn).pre ++ [(p, L, v)] }
          | .wait s => s
          | .fault s => s
      | _ => s
/-- STREAM_PREFETCH (R181, R228): it never faults and never moves POS. -/
def execStreamPrefetch (wave : Nat) (q : BitVec 3) (s : State) : Out :=
  match s.wave? wave with
  | none => .next s
  | some w =>
    let x := getStream w q.toNat
    if !x.bound || x.dir || !w.running || w.ended then .next s
    else match prefetchStep x with
      | none => .next s
      | some p => .next ((List.range 32).foldl (prefetchLane wave q.toNat p) s)

/-- ASYNC_TRAP_TAKE (R237). -/
def execAsyncTrapTake (wave : Nat) (s : State) : Out := .next (takeAsync s wave)

/-- BAR_FLIP_OBSERVE (R379). -/
def execBarFlipObserve (wave : Nat) (split : Fin 5) (s : State) : Out :=
  match s.wave? wave with
  | none => .next s
  | some w => if w.running && !w.ended then .next (s.setWave wave (observeBar s w split.val)) else .next s

end Sys2Proof.Machine
end

