-- ==== Sys2Proof/Machine/Confluence.lean ====
section
/-! DEFINITION. The Confluence channel (R40 to R45): messages, groups and their sequencer, mailboxes, heartbeats. -/

namespace Sys2Proof.Machine

/-! ### Messages (R40) -/

def msgBits (m : W512) (hi lo : Nat) : Nat := bitsOf m.toNat hi lo
def msgType (m : W512) : Nat := msgBits m 7 0
def msgBox (m : W512) : Nat := msgBits m 11 8
def msgMulti (m : W512) : Bool := bit m.toNat 12
def msgSeq (m : W512) : Nat := msgBits m 95 64
def msgTag (m : W512) : W32 := m.extractLsb' 96 32
def msgBody (m : W512) : Body := m.extractLsb' 128 384
def setMsg (m : W512) (hi lo v : Nat) : W512 := BitVec.ofNat 512 (setBits m.toNat hi lo v)
/-- A die index pkg × 8 + die from a package-then-die field (package in the low 6 bits), and back. -/
def indexOfField (f : Nat) : Nat := f % 64 * 8 + f / 64 % 8
def fieldOfIndex (n : Nat) : Nat := n / 8 % 64 + n % 8 * 64
/-- The sender of a message, as a die index. -/
def msgFrom (m : W512) : Nat := indexOfField (msgBits m 24 16)
/-- The destination of a point-to-point message, as a die index; of a multicast, the group. -/
def msgTo (m : W512) : Nat := indexOfField (msgBits m 40 32)
def msgGroup (m : W512) : Nat := msgBits m 39 32
/-- A message: its type, mailbox, form, destination (a die index or a group), tag, body and sender. -/
def makeMsg (type box : Nat) (multi : Bool) (dest : Nat) (tag : W32) (body : Body) (src : Nat) : W512 :=
  BitVec.ofNat 512 (type + box * 2 ^ 8 + bb multi 12 + fieldOfIndex src * 2 ^ 16 +
    (if multi then dest % 256 else fieldOfIndex dest) * 2 ^ 32 + tag.toNat * 2 ^ 96 + body.toNat * 2 ^ 128)
/-- n bytes of a body from byte k on, as a number. -/
def bodyNat (b : Body) (k n : Nat) : Nat := b.toNat / 2 ^ (8 * k) % 2 ^ (8 * n)
/-- A body from bytes. -/
def bodyOf (l : List Byte) : Body := BitVec.ofNat 384 (leNat (l.take 48))

/-! ### Dies, groups, mailboxes -/

/-- The members of a group as a die's endpoint reads them (R43). -/
def groupMask (s : State) (d group : Nat) : W512 := BitVec.ofNat 512 (s.peekNat d (groupAddr s d group) 64)
/-- The members of a mask as die indexes, and those of this package as dies. -/
def maskDies (m : W512) : List Nat := (List.range 512).filter fun n => m.getLsbD n
def ownDies (s : State) (l : List Nat) : List Nat := (l.filter fun n => n / 8 = s.pkg).map fun n => n % 8

def boxCfg (box : Nat) : Nat := 0x4800 + 0x20 * box
def boxIdx (box : Nat) : Nat := 0x4808 + 0x20 * box
def boxOn (s : State) (d box : Nat) : Bool := s.ctlBits d (boxCfg box) 0 0 = 1
/-- Messages in a mailbox ring. -/
def boxUsed (s : State) (d box : Nat) : Nat := (s.ctlBits d (boxIdx box) 22 16 + 128 - s.ctlBits d (boxIdx box) 6 0) % 128
/-- A point-to-point message is for a die of another package. -/
def goesAbroad (s : State) (m : W512) : Bool := !msgMulti m && msgTo m / 8 ≠ s.pkg
/-- Messages of a mailbox that are on their way or held. -/
def boxComing (s : State) (d box : Nat) : Nat :=
  (s.agenda.filter fun i => match i with
    | .mailboxDeliver e b m _ => e.val = d && b.val = box && !goesAbroad s m
    | _ => false).length + ((s.die d).conf.heldMsgs.filter fun p => p.1 = box).length
/-- Intents that a directory has open or is about to receive (R205). -/
def intentsOpen (s : State) (d : Nat) : Nat :=
  (s.die d).tr.shoots.length + (s.agenda.filter fun i => match i with
    | .unmapIntent e _ _ _ _ => e.val = d
    | .mailboxDeliver e _ m _ => e.val = d && msgType m = 2
    | _ => false).length
/-- A member has room for a multicast (R43, R205); of a die that is down its last known ring counts (assumption 42). -/
def hasRoom (s : State) (d : Nat) (m : W512) : Bool :=
  decide (boxUsed s d (msgBox m) + boxComing s d (msgBox m) < 64) &&
    (msgType m ≠ 2 || decide (intentsOpen s d < 16))

/-- An interrupt to a core of a die. -/
def interrupt (s : State) (d core : Nat) : State := { s with outbox := s.outbox ++ [⟨d, 12, core, []⟩] }

/-! ### Messages to other packages -/

/-- A message of die index src to a die of another package, on CHAN 0. -/
def relayAbroad (s : State) (d src dst : Nat) (m : W512) : State := sendFlit s d (makeFlit 0 1 src dst (leBytes 64 m.toNat))
def sendAbroad (s : State) (d dst : Nat) (m : W512) : State := relayAbroad s d (s.dieIndex d) dst m
/-- Hand a message to the endpoint of a die, in this package or another. -/
def carry (s : State) (d dst : Nat) (m : W512) (core : Option (DieId × Fin 16)) : State :=
  if dst / 8 = s.pkg then s.push (.mailboxDeliver (Fin.ofNat 8 dst) (Fin.ofNat 16 (msgBox m)) m core)
  else sendAbroad s d dst m
/-- A unit of a die sends a point-to-point message. -/
def unitSend (s : State) (d type box dst : Nat) (tag : W32) (body : Body) : State :=
  carry s d dst (makeMsg type box false dst tag body (s.dieIndex d)) none

/-! ### Sending (R41, R45) -/

def sendSet (k : Nat) : Nat := 0x4000 + 0x80 * k
/-- A send of a core completes: RESULT, and the GSEQ of a multicast; nothing if the core is not sending. -/
def sendDone (s : State) (d k result : Nat) (seq : Option Nat) : State :=
  if (mfind (s.die d).conf.sending k).isSome then
    let s := s.modDie d fun x => { x with conf := { x.conf with sending := mdel x.conf.sending k } }
    let s := (s.setCtlBits d (sendSet k + 0x40) 3 1 result).setCtlBits d (sendSet k + 0x40) 0 0 0
    match seq with
    | some g => s.setCtlBits d (sendSet k + 0x40) 63 32 g
    | none => s
  else s
/-- The same, only if this message is the one that the core sends; an instance's own sends are not. -/
def sendDoneOf (s : State) (d k result : Nat) (seq : Option Nat) (m : W512) : State :=
  if (mfind (s.die d).conf.sending k).any fun x => setMsg x 95 64 0 = setMsg m 95 64 0 then sendDone s d k result seq else s
/-- The same for the sender of a message, if it is a die of this package. -/
def sendDoneBy (s : State) (core : Option (DieId × Fin 16)) (result : Nat) : State :=
  match core with
  | some (d, k) => sendDone s d.val k.val result none
  | none => s

/-- The message may be sent by core k in this form (R41): else RESULT 2. -/
def msgAllowed (m : W512) (k : Nat) : Bool :=
  let sup := decide (k < 8)
  (match msgType m with
    | 2 => sup && msgMulti m
    | 4 => sup && msgMulti m
    | 5 => sup && msgMulti m
    | 6 => sup
    | 7 => true
    | _ => false) &&
  msgBits m 63 48 = 0 && msgBits m 31 25 = 0 && msgBits m 15 13 = 0 &&
    (if msgMulti m then msgBits m 47 40 = 0 else msgBits m 47 41 = 0)
/-- A master is core k of its die (R45). -/
def isCore (m : Master) (k : Nat) : Bool := match m with
  | .sup n => n.val = k
  | .fw n => n.val + 8 = k
  | _ => false

/-- A message of a core goes out: point-to-point to its destination, a multicast to the group's sequencer. A sequencer of another
package may refuse it (RESULT 4), which is a free value (assumption 37). -/
def dispatchMsg (s : State) (d k : Nat) (m : W512) : State :=
  let me := s.dieIndex d
  if msgMulti m then
    let g := msgGroup m
    if !(groupMask s d g).getLsbD me then sendDone s d k 5 none
    else if groupSeq s d g / 8 = s.pkg then
      s.push (.gseqAssign (Fin.ofNat 8 (groupSeq s d g)) (BitVec.ofNat 8 g) m (BitVec.ofNat 9 me) (Fin.ofNat 16 k))
    else
      let (s, v) := foreignValue (sendAbroad s d (groupSeq s d g) m) 1
      if v % 2 = 0 then s else sendDone s d k 4 none
  else
    if msgTo m / 8 = s.pkg then carry s d (msgTo m) m (some (Fin.ofNat 8 d, Fin.ofNat 16 k))
    else (sendAbroad s d (msgTo m) m).push (.mailboxDeliver (Fin.ofNat 8 d) (Fin.ofNat 16 (msgBox m)) m (some (Fin.ofNat 8 d, Fin.ofNat 16 k)))
/-- An intent or commit is void (R204). -/
def shootVoid (b : Body) (commit : Bool) : Bool :=
  let kind := bodyNat b 0 1
  let first := bodyNat b 8 8
  let count := bodyNat b 16 4
  !(kind = 1 || kind = 2) || bodyNat b 1 1 ≠ 0 || bodyNat b 20 4 ≠ 0 || bodyNat b 32 16 ≠ 0 ||
    (!(commit && kind = 2) && bodyNat b 24 8 ≠ 0) || first % 65536 ≠ 0 || decide (2 ^ 55 ≤ first) ||
    count = 0 || decide (2 ^ 20 < count)
/-- The pages that the commit of a move moves: their old and new places and the new leaf. -/
def movedPages (s : State) (d : Nat) (b : Body) : List (Nat × Nat) :=
  let first := bodyNat b 8 8
  match rootOf s d (BitVec.ofNat 32 (bodyNat b 4 4)) with
  | none => []
  | some root => (List.range (bodyNat b 16 4)).filterMap fun k =>
    match entryAddr s d root (first + 65536 * k) with
    | none => none
    | some x =>
      let old := s.tableNat d x.at_ 8
      if x.pkg = s.pkg && bit old 0 then
        some (frameAddr old + if x.large then 65536 * ((first / 65536 + k) % 8192) else 0, leafPlus (bodyNat b 24 8) k)
      else none
/-- Before the commit of a move is sent, the memory core of the die copies the pages to their new places (R206). -/
def copyMoved (s : State) (d : Nat) (b : Body) : State :=
  if bodyNat b 0 1 ≠ 2 || shootVoid b true || !fwUp s d 2 then s
  else
    let l := movedPages s d b
    let s := l.foldl (fun s x => gatherPage s x.1 65536) s
    l.foldl (fun s x => copyPage s x.1 65536 (frameAddr x.2) (BitVec.ofNat 8 (bitsOf x.2 18 11))) s
/-- CONFLUENCE_SEND (R45). -/
def execConfluenceSend (d : DieId) (k : Fin 16) (m : Master) (s : State) : Out :=
  let off := sendSet k.val
  if masterStopped s d m then .next s
  else if !isCore m k.val then .next (violation s d m (ctlBase d + off + 0x40))
  else if s.ctlBits d (off + 0x40) 0 0 = 1 then .next s
  else
    let raw : W512 := BitVec.ofNat 512 ((List.range 8).foldl (fun a w => a + (s.ctl d (off + 8 * w)).toNat * 2 ^ (64 * w)) 0)
    let msg := setMsg (setMsg raw 24 16 (fieldOfIndex (s.dieIndex d))) 95 64 0
    let s := s.modDie d fun x => { x with conf := { x.conf with sending := mset x.conf.sending k msg } }
    let s := s.setCtlBits d (off + 0x40) 0 0 1
    if !msgAllowed msg k.val then .next (sendDone s d k 2 none)
    else .next (dispatchMsg (if msgType msg = 4 then copyMoved s d (msgBody msg) else s) d k msg)

/-- What the members of a group in other packages say to a multicast: 0 there is room, 1 a mailbox is disabled, 2 there is no room
now. It is a free value (assumption 37); without such members there is room. -/
def membersAbroad (s : State) (l : List Nat) : State × Nat :=
  if l.all fun n => n / 8 = s.pkg then (s, 0)
  else
    let (s, v) := foreignValue s 1
    (s, v % 3)
/-- The result of a multicast of another package, to its sender. -/
def resultAbroad (s : State) (d sender result gseq : Nat) (m : W512) : State :=
  { s with outbox := s.outbox ++ [⟨d, 18, sender, leBytes 1 result ++ leBytes 4 gseq ++ leBytes 64 m.toNat⟩] }
/-- GSEQ_ASSIGN (R43): none of the members receives the message if a mailbox is disabled; it waits until every member has
room, and then goes to each with the next number. While the sequencer itself is down the message waits with its sender. -/
def execGseqAssign (d : DieId) (group : BitVec 8) (msg : W512) (sender : BitVec 9) (core : Fin 16) (s : State) : Out :=
  let l := maskDies (groupMask s d group.toNat)
  let own := ownDies s l
  let ends (s : State) (result : Nat) (seq : Option Nat) : State :=
    if sender.toNat / 8 = s.pkg then sendDoneOf s (sender.toNat % 8) core.val result seq msg
    else resultAbroad s d sender.toNat result (seq.getD 0) msg
  let (s, abroad) := membersAbroad s l
  if fromLost s d sender.toNat then .next s
  else if dieDown s d then .next (s.push (.gseqAssign d group msg sender core))
  else if abroad = 1 || own.any fun x => !dieDown s x && !boxOn s x (msgBox msg) then .next (ends s 4 none)
  else if abroad = 2 || own.any fun x => !hasRoom s x msg then .next (s.push (.gseqAssign d group msg sender core))
  else
    let n : W32 := mget 0 (s.die d).conf.seqNext group.toNat + 1
    let s := s.modDie d fun x => { x with conf := { x.conf with seqNext := mset x.conf.seqNext group.toNat n } }
    let m := setMsg msg 95 64 n.toNat
    .next (ends (l.foldl (fun s x => carry s d x m none) s) 0 (some n.toNat))

/-- SEND_UNDELIVERABLE_TIMEOUT of a send of core k: the message that it still waits to send is discarded, with RESULT 3. -/
def sendTimeout (d : DieId) (k : Fin 16) (s : State) : State :=
  if s.ctlBits d (sendSet k.val + 0x40) 0 0 = 0 then s
  else
    let mine (c : Option (Nat × Nat)) : Bool := c = some (d.val, k.val)
    let me := s.dieIndex d
    let s := { s with
      agenda := s.agenda.filter fun i => match i with
        | .mailboxDeliver _ _ _ (some (e, c)) => !(e = d && c = k)
        | .gseqAssign _ _ m x c => !(x.toNat = me && c = k && (mfind (s.die d).conf.sending k.val).any fun y => setMsg y 95 64 0 = setMsg m 95 64 0)
        | _ => true
      dies := s.dies.map fun (p : Nat × Die) => (p.1, { p.2 with conf := { p.2.conf with
        heldMsgs := p.2.conf.heldMsgs.filter fun q => !mine q.2.2 } }) }
    sendDone s d k 3 none

/-! ### Delivery (R42, R43) -/

/-- What a delivered message makes a unit of the die do: the directory takes intents and commits (R205, R206), the
instance agreement messages (R66), the security core attestation requests (R73). -/
def received (s : State) (d : DieId) (box : Nat) (m : W512) : State :=
  let src : BitVec 9 := BitVec.ofNat 9 (msgFrom m)
  let b := msgBody m
  match msgType m with
  | 2 => s.push (.unmapIntent d src (BitVec.ofNat 4 (msgBox m)) (msgTag m) b)
  | 4 => s.push (.unmapCommit d src b)
  | 5 => match bodyNat b 0 1 with
    | 1 => s.push (.form d (msgTag m) b)
    | 2 => s.push (.join d (msgTag m) b)
    | 3 => s.push (.lost d (msgTag m) b)
    | 4 => s.push (.resync d src b)
    | 5 => s.push (.map d (msgTag m) b)
    | 6 => s.push (.procstart d (msgTag m) b)
    | 7 => s.push (.procend d (msgTag m) b)
    | 8 => s.push (.ttset d (msgTag m) b)
    | _ => s.modDie d fun x => { x with image := { x.image with voids := x.image.voids + 1 } }
  | 7 => if box = 14 then s.push (.attestationRequest d b) else s
  | _ => s
/-- A held message can be placed now: in the order of its group, with room in the ring. -/
def canPlace (s : State) (d box : Nat) (m : W512) : Bool :=
  boxOn s d box && decide (boxUsed s d box < 64) &&
    (!msgMulti m || msgSeq m = (mget 0 (s.die d).conf.seqSeen (msgGroup m)).toNat + 1)
/-- Write a message into its slot, advance TAIL, interrupt the owner, and complete the send. -/
def placeMsg (s : State) (d : DieId) (box : Nat) (m : W512) (core : Option (DieId × Fin 16)) : State :=
  let t := s.ctlBits d (boxIdx box) 22 16
  let s := s.unitWrite d (s.ctlBits d (boxCfg box) 51 12 * 4096 + 64 * (t % 64)) (leBytes 64 m.toNat)
  let s := s.setCtlBits d (boxIdx box) 22 16 ((t + 1) % 128)
  let s := if msgMulti m then s.modDie d fun x =>
      { x with conf := { x.conf with seqSeen := mset x.conf.seqSeen (msgGroup m) (BitVec.ofNat 32 (msgSeq m)) } }
    else s
  let s := interrupt s d (s.ctlBits d (boxCfg box) 8 5)
  let s := if msgType m = 5 && msgFrom m = s.dieIndex d then s.modDie d fun x =>
      { x with image := { x.image with sends := x.image.sends.erase (msgTag m, msgBody m) } }
    else s
  let s := if msgMulti m && msgFrom m = s.dieIndex d then
      match (s.die d).conf.sending.find? fun p => setMsg p.2 95 64 0 = setMsg m 95 64 0 with
      | some p => sendDone s d p.1 0 (some (msgSeq m))
      | none => s
    else s
  received (sendDoneBy s core 0) d box m
/-- One pass over the messages that a die holds: a message of a sender to a mailbox waits for the earlier ones. -/
def drainGo (d : DieId) : List (Nat × W512 × Option (Nat × Nat)) → List (Nat × Nat) → State → State
  | [], _, s => s
  | (box, m, c) :: l, blocked, s =>
    let core := c.map fun p => ((Fin.ofNat 8 p.1 : DieId), (Fin.ofNat 16 p.2 : Fin 16))
    let drop (s : State) : State := s.modDie d fun x => { x with conf := { x.conf with
      heldMsgs := x.conf.heldMsgs.erase (box, m, c) } }
    if blocked.contains (box, msgFrom m) && !msgMulti m then drainGo d l blocked s
    else if !boxOn s d box && !msgMulti m then drainGo d l blocked (sendDoneBy (drop s) core 4)
    else if canPlace s d box m then drainGo d l blocked (placeMsg (drop s) d box m core)
    else drainGo d l ((box, msgFrom m) :: blocked) s
/-- Place what can be placed of the messages that a die holds. -/
def drainPasses (d : DieId) : Nat → State → State
  | 0, s => s
  | n + 1, s => drainPasses d n (drainGo d (s.die d).conf.heldMsgs [] s)
def drainBoxes (s : State) (d : DieId) : State := drainPasses d (s.die d).conf.heldMsgs.length s
/-- What the endpoint of another package does with a point-to-point message of core k of a die: it places it, its mailbox is
disabled, or there is no room yet, which is a free value (assumption 37). -/
def placeAbroad (s : State) (d : DieId) (box : Fin 16) (msg : W512) (core : Option (DieId × Fin 16)) : State :=
  let (s, v) := foreignValue s 1
  match v % 3 with
  | 0 => sendDoneBy s core 0
  | 1 => sendDoneBy s core 4
  | _ => s.push (.mailboxDeliver d box msg core)
/-- MAILBOX_DELIVER (R42). -/
def execMailboxDeliver (d : DieId) (box : Fin 16) (msg : W512) (core : Option (DieId × Fin 16)) (s : State) : Out :=
  if goesAbroad s msg then .next (placeAbroad s d box msg core)
  else if fromLost s d (msgFrom msg) then .next s
  else
    let s := s.modDie d fun x => { x with conf := { x.conf with
      heldMsgs := x.conf.heldMsgs ++ [(box.val, msg, core.map fun p => (p.1.val, p.2.val))] } }
    .next (if dieDown s d then s else drainBoxes s d)

/-- Who may write the mailbox registers (R45). -/
def boxMaster (m : Master) (box : Nat) : Bool := match m with
  | .sup _ => decide (box < 8)
  | .fw n => n.val + 8 = box
  | _ => false
/-- MBIDX_HEAD_WRITE (R45). -/
def execMbidxHeadWrite (d : DieId) (box : Fin 16) (head : BitVec 7) (m : Master) (s : State) : Out :=
  let off := boxIdx box.val
  if masterStopped s d m then .next s
  else if !boxMaster m box.val then .next (violation s d m (ctlBase d + off))
  else if 64 < (s.ctlBits d off 22 16 + 128 - head.toNat) % 128 then .next s
  else .next (drainBoxes (s.setCtlBits d off 6 0 head.toNat) d)

/-! ### Heartbeats (R44) -/

/-- HEARTBEAT_SEND: to every die of the system image, without a sequencer, once phase 4 has started the endpoint (R23). -/
def execHeartbeatSend (d : DieId) (s : State) : Out :=
  if dieDown s d || decide (bootPhase s d < 4) then .next s
  else
    let me := s.dieIndex d
    let s := s.modDie d fun x => { x with conf := { x.conf with beat := x.conf.beat + 1 } }
    let x := (s.die d).image
    let l := maskDies (if x.formed then x.view else groupMask s d 0)
    .next (l.foldl (fun s n =>
      if n / 8 = s.pkg then s.push (.heartbeat (Fin.ofNat 8 n) (BitVec.ofNat 9 me))
      else sendAbroad s d n (makeMsg 1 0 false n 0 0 me)) s)
/-- HEARTBEAT: the silence timer of the sender starts again. -/
def execHeartbeat (d : DieId) (about : BitVec 9) (s : State) : Out :=
  if dieDown s d || fromLost s d about.toNat then .next s
  else .next (s.modDie d fun x => { x with conf := { x.conf with
    heard := about.toNat :: x.conf.heard.filter (· ≠ about.toNat), silent := x.conf.silent.filter (· ≠ about.toNat) } })

end Sys2Proof.Machine
end

