-- ==== Sys2Proof/Machine/HostPort.lean ====
section
/-! DEFINITION. Requests of host clients (R81, R82), the binding of PASIDs, snoops of imported memory (R84), and the
mapping windows of a port (R57, R83). -/

namespace Sys2Proof.Machine

/-! ### Host clients (R81, R82) -/

/-- The process that a PASID of a die is bound to, and whether the client is frozen. -/
def pasidOf (s : State) (d pasid : Nat) : Option (W32 × Bool) :=
  ((s.die d).host.pasids.find? fun p => p.1 = pasid).map Prod.snd
/-- A host client breaks a rule: its request is not performed and completes with Completer Abort. -/
def hostBreaks (s : State) (d pasid pa : Nat) : State := hostDone (violation s d (.host pasid) pa) d pasid 1 []

/-- The bytes a request touches. -/
def hostLen : HostKind → Nat
  | .read n => n
  | .write l => l.length
  | .atomic _ _ _ => 8
  | .fence _ _ _ _ => 0
/-- What a request is, as the access rights and the places of R46 see it. -/
def hostAcc : HostKind → AccKind
  | .read _ => .load
  | .write _ => .store
  | .atomic _ _ _ => .atomic
  | .fence _ _ _ _ => .load
/-- A request of a client that leaves the package: its data is free (assumption 4). -/
def hostAway (s : State) (d pasid : Nat) (q : HostKind) (x : Away) : State :=
  match q with
  | .read n =>
    let s := sendAway s d .load [] 0 x
    hostDone { s with draws := s.draws + n } d pasid 0 (bytesAt (freeBytes s n) 0 n)
  | .write l => hostDone (sendAway s d .store l 0 x) d pasid 0 []
  | .atomic _ a b =>
    let (s, v) := foreignValue (sendAway s d .atomic (leBytes 8 a.toNat ++ leBytes 8 b.toNat) 0 x) 8
    hostDone s d pasid 0 (leBytes 8 v)
  | .fence _ _ _ _ => hostDone s d pasid 0 []
/-- Hold a request: for a fault, or until a blocked range is free or its home answers. -/
def hostHold (s : State) (d pasid : Nat) (pid : W32) (va : W64) (q : HostKind) (reason : Option Nat) : State :=
  let n := (s.die d).tr.nextTicket
  let (s, fid) := match reason with
    | none => (s, none)
    | some r =>
      let (s, f) := raiseFault s d (.host n) (joinedName pid.toNat 0 0 0 0 0 none) va 0 r (if writes (hostAcc q) then 11 else 10)
      (s, some f)
  s.modTr d fun x => { x with nextTicket := n + 1, hostWaits := x.hostWaits ++ [⟨n, pasid, va, q, fid⟩] }
/-- A request whose page is known is served by its home. A fill fault (R53) completes with Completer Abort (assumption 50). -/
def hostServe (s : State) (d pasid : Nat) (pid : W32) (va : W64) (q : HostKind) (pa : Nat) (leaf : W64) (pkg : Nat) : State :=
  if pkg ≠ s.pkg then hostAway s d pasid q (.foreign pkg pa)
  else match s.locate pa with
    | .hole => hostBreaks s d pasid pa
    | .ctl e off =>
      if off < 0x800000 then hostBreaks s d pasid pa
      else match q with
        | .read n => hostDone s d pasid 0 (doorBytes s e off n)
        | .write l =>
          if !doorGranted s e off pid then hostBreaks s d pasid pa
          else
            hostDone (if l.length = 8 && off % 8 = 0 && leNat l < 2 ^ 32 then
                s.push (.wakeStore (Fin.ofNat 8 e) (BitVec.ofNat 20 ((off - 0x800000) / 8)) (BitVec.ofNat 64 (leNat l)) (.host (Fin.ofNat 8 d) pasid))
              else s) d pasid 0 []
        | _ => hostBreaks s d pasid pa
    | .host e c => match q with
      | .atomic _ _ _ => hostDone s d pasid 1 []
      | _ => if dieDown s e then hostHold s d pasid pid va q none else hostAway s d pasid q (.host e c)
    | .cached home _ =>
      let n := hostLen q
      if inFirmware pa || (writes (hostAcc q) && readOnlySpan s home pa n) then hostBreaks s d pasid pa
      else if dieDown s home then hostHold s d pasid pid va q none
      else
        let p := flatPlaced s home pa leaf
        if fillFaultAt s home p then hostDone s d pasid 1 []
        else match q with
          | .read n =>
            let (t, l) := storageRead s home home pa n leaf
            hostDone t d pasid (if storagePoison s pa n then 2 else 0) l
          | .write l => hostDone (storageWrite s home home pa leaf l) d pasid 0 []
          | .atomic op a b => sendAtomic s ⟨d, 0, 0, 0⟩ p 8 op .unsigned a.toNat b.toNat (.host d pasid) 0
          | .fence _ _ _ _ => hostDone s d pasid 0 []
/-- Serve a request of a client, hold it, or refuse it: a request that was held when its client was frozen goes on (R82). A die that is
down answers nothing. -/
def hostTry (s : State) (d pasid : Nat) (va : W64) (q : HostKind) (held : Bool) : State :=
  if dieDown s d then s
  else match pasidOf s d pasid with
  | none => hostBreaks s d pasid va.toNat
  | some (pid, frozen) =>
    if frozen && !held then hostDone s d pasid 1 []
    else match findProcess s d pid with
    | none => hostHold s d pasid pid va q (some 1)
    | some i => match translate s d 64 i pid va (needOf (hostAcc q)) with
      | .blocked => hostHold s d pasid pid va q none
      | .ok pa leaf pkg => hostServe s d pasid pid va q pa leaf pkg
      | .fail r => if r = 2 || r = 3 then hostBreaks s d pasid va.toNat else hostHold s d pasid pid va q (some r)
/-- Try a held request again. -/
def hostAgain (s : State) (d : Nat) (x : HostWait) : State :=
  hostTry (s.modTr d fun t => { t with hostWaits := t.hostWaits.filter fun y => y.ticket ≠ x.ticket }) d x.pasid x.va x.kind true
/-- PASID_BIND (R82): the binding also ends a frozen state; a die binds at most 4,096 PASIDs. -/
def execPasidBind (d : DieId) (pasid : Nat) (pid : W32) (s : State) : Out :=
  let l := (s.die d).host.pasids
  let others := l.filter fun p => p.1 ≠ pasid
  if others.length < 4096 then
    .next (s.modDie d fun x => { x with host := { x.host with pasids := others ++ [(pasid, pid, false)] } })
  else .next s

/-! ### Snoops of imported memory (R84) -/

/-- A host snoops a line of a coherent import range: its tile frames are recalled, written back and kept shared or invalidated, and the
snoop is answered. An invalidation lets the host write: the home's clock advances, so that read copies elsewhere age (R187). Copies of a
package-coherent tile are gathered by its home first, as for an eviction. -/
def snoop (s : State) (d pa : Nat) (keep : Bool) : State :=
  let base := pa / 2048 * 2048
  match s.locate pa with
  | .cached home c =>
    if home ≠ d || !isHostCell c || dieDown s d then s
    else
      let l := (s.frames d).filter fun f => f.base = base && !f.wb
      let s := l.foldl (fun s f => if f.dirty && hasData f then writeBack s f else s) s
      let shared (f : Frame) : Frame :=
        { f with sharers := 0, ncown := false, dirty := false, st := if f.st = .m || f.st = .e then .s else f.st }
      let s := l.foldl (fun s f =>
        if keep then replaceFrame s d f (some (shared f))
        else if copiesOut d f then queueHome s d f.tile 4 d
        else dropAnnex (replaceFrame s d f none) d f.tile) s
      hostLine (if keep then s else s.advanceClock d) d 3 (c / 64 * 64) []
  | _ => s
/-- SNPINV (R84). -/
def execSnpinv (d : DieId) (pa : Nat) (s : State) : Out := .next (snoop s d pa false)
/-- SNPDATA (R84). -/
def execSnpdata (d : DieId) (pa : Nat) (s : State) : Out := .next (snoop s d pa true)

/-! ### Windows (R57, R83) -/

def isSup : Master → Bool
  | .sup _ => true
  | _ => false
/-- An enabled window: offset and length. -/
def windowOf (win : W64) (hiS loS hiO : Nat) : Option (Nat × Nat) :=
  if wbits win 63 63 = 1 then some (wbits win hiO 0, wbits win hiS loS) else none
/-- Entry n may hold `win`: not empty, inside the window, and apart from the other enabled entries. -/
def windowOk (s : State) (d base n : Nat) (win : W64) (hiS loS hiO limit : Nat) : Bool :=
  match windowOf win hiS loS hiO with
  | none => true
  | some (o, z) =>
    z ≠ 0 && decide (o + z ≤ limit) && (List.range 16).all fun k =>
      k = n || match windowOf (s.ctl d (base + 0x10 * k)) hiS loS hiO with
        | none => true
        | some (p, y) => decide (o + z ≤ p) || decide (p + y ≤ o)
/-- POOLMAP_WRITE (R57). -/
def execPoolmapWrite (d : DieId) (n : Fin 16) (word : Fin 2) (value : W64) (m : Master) (s : State) : Out :=
  let off := 0x6100 + 0x10 * n.val + 8 * word.val
  if masterStopped s d m then .next s
  else if !isSup m then .next (violation s d m (ctlBase d + off))
  else if word = 0 then
    let v := BitVec.ofNat 64 (value.toNat &&& (fieldMask 63 63 + fieldMask 45 32 + fieldMask 12 0))
    .next (if windowOk s d 0x6100 n v 45 32 12 8192 then s.setCtl d off v else s)
  else .next (s.setCtl d off (BitVec.ofNat 64 (value.toNat &&& (fieldMask 51 40 + fieldMask 33 0))))
/-- IMPMAP_WRITE (R83): COH reads 0 in PCIe endpoint mode. -/
def execImpmapWrite (d : DieId) (n : Fin 16) (word : Fin 2) (value : W64) (m : Master) (s : State) : Out :=
  let off := 0x6200 + 0x10 * n.val + 8 * word.val
  if masterStopped s d m then .next s
  else if !isSup m then .next (violation s d m (ctlBase d + off))
  else if word = 0 then
    let coh := if s.cxl d then fieldMask 62 62 else 0
    let v := BitVec.ofNat 64 (value.toNat &&& (fieldMask 63 63 + coh + fieldMask 58 32 + fieldMask 25 0))
    .next (if windowOk s d 0x6200 n v 58 32 25 (2 ^ 26) then s.setCtl d off v else s)
  else .next (s.setCtl d off (BitVec.ofNat 64 (value.toNat &&& fieldMask 63 21)))

end Sys2Proof.Machine
end

