-- ==== Sys2Proof/Machine/Shoot.lean ====
section
/-! DEFINITION. Shoot-downs (R204 to R207, R419), the answers to fault records (R209), and the release of frozen masters
(R212). -/

namespace Sys2Proof.Machine

/-! ### Intents and commits (R204, R205) -/

/-- The acknowledgement of an intent: SDID and the die's index, to the sender's mailbox, with the intent's TAG (R419). -/
def sendShootAck (s : State) (d src : Nat) (box : Nat) (tag : W32) (sdid : Nat) : State :=
  unitSend s d 3 box src tag (bodyOf ([0, 0] ++ leBytes 2 sdid ++ leBytes 2 (s.dieIndex d)))
/-- The remote writes and atomics of a die that are not acknowledged. -/
def unfinished (s : State) (d : Nat) : List (Nat × Nat) :=
  ((s.die d).cache.pend.map fun p => (p.home, p.seq)) ++ s.agenda.filterMap fun i => match i with
    | .remoteAtomic h q => if q.src.val = d then some (h.val, q.seq) else none
    | _ => none
/-- The clusters of a die that have work. -/
def dieClusters (s : State) (d : Nat) : List (Nat × Cluster) := s.clusters.filter fun p => p.1 / 64 = d
/-- Stop the MMA, MMAG and TSTA of a process between their steps (R205). A stop changes no result, so that the model stops
every one of the process. -/
def stopMatrix (s : State) (d : Nat) (pid : W32) : State :=
  (dieClusters s d).foldl (fun s p =>
    let l := p.2.seq.filter fun e =>
      e.started && !e.busy && (isMma e || e.op = 0x5E) && (s.launch (keyLaunch e.wave)).pid = pid
    let s := l.foldl (fun s e => stopEntry s d (p.1 % 64) e .none) s
    if l.isEmpty then s else kickSeq s d (p.1 % 64)) s
/-- UNMAP_INTENT (R205): the range is blocked, its translations go, matrix instructions stop, and the acknowledgement
follows when what used them has drained. A void intent, or one of a process without a table here, is only acknowledged. -/
def execUnmapIntent (d : DieId) (src : BitVec 9) (box : BitVec 4) (tag : W32) (body : Body) (s : State) : Out :=
  let sdid := bodyNat body 2 2
  let pid : W32 := BitVec.ofNat 32 (bodyNat body 4 4)
  let ack (s : State) : Out := .next (sendShootAck s d src.toNat box.toNat tag sdid)
  if shootVoid body false then ack (errorRec s d 3 8 0 [] src.toNat 0).1
  else if (findProcess s d pid).isNone then ack s
  else
    let x : ShootDown :=
      { src := src, sdid := BitVec.ofNat 16 sdid, kind := bodyNat body 0 1, pid := pid, first := bodyNat body 8 8
        count := bodyNat body 16 4, box := box, tag := tag, acked := false, commit := false, drain := unfinished s d }
    let s := s.modTr d fun t => { t with
      shoots := t.shoots ++ [x]
      cache := t.cache.filter fun e => !(e.pid = pid && shootCovers x pid e.va e.size) }
    .next ((stopMatrix s d pid).push (.shootDownAcknowledgement d src (BitVec.ofNat 16 sdid)))
/-- SHOOT_DOWN_ACKNOWLEDGEMENT (R205): sent when every access that used an invalidated translation has completed. -/
def execShootDownAcknowledgement (d : DieId) (src : BitVec 9) (sdid : BitVec 16) (s : State) : Out :=
  match (s.die d).tr.shoots.find? fun x => x.src = src && x.sdid = sdid && !x.acked with
  | none => .next s
  | some x =>
    let left := unfinished s d
    if x.drain.any fun p => left.contains p then .next (s.push (.shootDownAcknowledgement d src sdid))
    else
      let s := s.modTr d fun t => { t with shoots := t.shoots.map fun y => if y = x then { y with acked := true } else y }
      .next (sendShootAck s d src.toNat x.box.toNat x.tag sdid.toNat)

/-! ### Page tables (R206) -/

/-- Rewrite the valid entries of n pages from page k of `all` on: an unmap makes each invalid, a move gives it the new leaf, and the
tiles that the die holds of the old place go (assumption 51). A large page that is not wholly in the range is cut first. -/
def rewriteRange (d root first all : Nat) (leaf : Option Nat) : Nat → Nat → State → State
  | 0, _, s => s
  | n + 1, k, s =>
    let va := first + 65536 * k
    let s := match entryAddr s d root va with
      | some x => if x.large && bit (s.tableNat d x.at_ 8) 0 && !wholeLarge first all va then splitLarge s d x.at_ x.pkg else s
      | none => s
    let s := match entryAddr s d root va with
      | none => s
      | some x =>
        let old := s.tableNat d x.at_ 8
        if bit old 0 && (!x.large || va % 2 ^ 29 = 0) then match leaf with
          | none => putEntry8 s d x.at_ 0
          | some e =>
            let s := if x.pkg = s.pkg then dropPageTiles s d (frameAddr old) (if x.large then 2 ^ 29 else 65536) else s
            putEntry8 s d x.at_ (leafPlus e k)
        else s
    rewriteRange d root first all leaf n (k + 1) s

/-! ### The end of a shoot-down (R206, R207) -/

/-- Waves of a die that wait for blocked ranges, engines and host requests walk again, and teams that could not be placed are looked at. -/
def unblock (s : State) (d : Nat) : State :=
  let s := { s with waves := s.waves.map fun (p : Nat × Wave) =>
    match p.2.park with
    | some x =>
      if x.blocked && (waveWho s p.2).d = d then
        (p.1, if x.records.isEmpty then unpark p.2 else { p.2 with park := some { x with blocked := false } })
      else p
    | none => p }
  let s := (dieClusters s d).foldl (fun s p =>
    let c := p.1 % 64
    let held := p.2.copies.filter fun x => x.hold = .blocked
    let s := s.modCluster p.1 fun y => { y with
      seq := y.seq.map fun e => if e.hold = .blocked then { e with hold := .none } else e
      copies := y.copies.map fun x => if x.hold = .blocked then { x with hold := .none } else x }
    kickSeq (held.foldl (fun s x => pushCopy s d c x.id) s) d c) s
  let s := { s with teams := s.teams.map fun (p : Nat × Team) =>
    if p.2.die = d then (p.1, { p.2 with store := p.2.store.map fun (e : SeqEntry) => if e.hold = EngHold.blocked then { e with hold := .none } else e })
    else p }
  let s := ((s.die d).tr.hostWaits.filter fun (x : HostWait) => x.fault.isNone).foldl (fun s x => hostAgain s d x) s
  kickPlace s d
/-- The shoot-down of a sender and id closes, if its commit has been delivered (R206). -/
def closeShoot (s : State) (d src sdid : Nat) : State :=
  if (s.die d).tr.shoots.any fun x => x.src.toNat = src && x.sdid.toNat = sdid && x.commit then
    unblock (s.modTr d fun t => { t with shoots := t.shoots.filter fun x => !(x.src.toNat = src && x.sdid.toNat = sdid && x.commit) }) d
  else s
/-- UNMAP_COMMIT (R206): the instance rewrites its entries and writes SDDONE. -/
def execUnmapCommit (d : DieId) (src : BitVec 9) (body : Body) (s : State) : Out :=
  let sdid := bodyNat body 2 2
  let pid : W32 := BitVec.ofNat 32 (bodyNat body 4 4)
  if shootVoid body true then .next s
  else match rootOf s d pid, (s.die d).tr.shoots.find? fun x => x.src = src && x.sdid.toNat = sdid with
    | some root, some x =>
      let s := rewriteRange d root (bodyNat body 8 8) (bodyNat body 16 4)
        (if bodyNat body 0 1 = 2 then some (bodyNat body 24 8) else none) (bodyNat body 16 4) 0 s
      let s := s.modTr d fun t => { t with shoots := t.shoots.map fun y => if y = x then { y with commit := true } else y }
      .next (closeShoot s d src.toNat sdid)
    | _, _ => .next s
/-- SDDONE_WRITE (R206): only supervisor cores write the directory's registers. -/
def execSddoneWrite (d : DieId) (value : W64) (m : Master) (s : State) : Out :=
  if masterStopped s d m then .next s
  else if !isSup m then .next (violation s d m (ctlBase d + 0x5D28))
  else .next (closeShoot s d (wbits value 24 16) (wbits value 15 0))

/-! ### Answers to faults (R209) -/

/-- The cached translations of the page that failed are dropped (R203). -/
def dropFaultPage (s : State) (d : Nat) (who : Who) (f : FaultRec) : State := dropPage s d who.cluster who.pindex who.pid f.va
/-- A type 0x04 trace record: 0 serviced, 1 refused. -/
def traceAnswer (s : State) (d : Nat) (f : FaultRec) (refused : Bool) : State :=
  traceRec s d (f.record.take 16) 0x04 (leBytes 1 (bb refused 0))
def heldBy (fid : Nat) (h : EngHold) : Bool := h = .fault fid
/-- A fault of a sequencer entry is answered: it may issue again, wherever its team has taken it meanwhile. -/
def freeSeq (s : State) (d fid : Nat) : State :=
  let g (e : SeqEntry) : SeqEntry := if heldBy fid e.hold then { e with hold := .none } else e
  let here := (dieClusters s d).filter fun p => p.2.seq.any fun e => heldBy fid e.hold
  let s := here.foldl (fun s p => s.modCluster p.1 fun x => { x with seq := x.seq.map g }) s
  let s := { s with teams := s.teams.map fun (p : Nat × Team) => if p.2.die = d then (p.1, { p.2 with store := p.2.store.map g }) else p }
  here.foldl (fun s p => kickSeq s d (p.1 % 64)) s
/-- The entry that a fault holds: the cluster whose queue has it, or its team's store. -/
def heldEntry (s : State) (d fid : Nat) : Option (Option Nat × SeqEntry) :=
  let queued := (dieClusters s d).flatMap fun p => (p.2.seq.filter fun e => heldBy fid e.hold).map fun e => (some (p.1 % 64), e)
  let stored := (s.teams.filter fun p => p.2.die = d).flatMap fun p => (p.2.store.filter fun e => heldBy fid e.hold).map fun e => (none, e)
  (queued ++ stored).head?
/-- FAULT_REPLAY (R209): the instruction goes on once all its records are answered. -/
def replayFault (s : State) (d : Nat) (f : FaultRec) : State :=
  let s := traceAnswer (dropFaults s d fun g => g.fid = f.fid) d f false
  match f.owner with
  | .wave key => match s.wave? key with
    | none => s
    | some w =>
      if w.wait = .syscall f.fid then s.setWave key { w with wait := .served true }
      else match w.park with
        | none => s
        | some x =>
          let s := dropFaultPage s d (waveWho s w) f
          let x := { x with records := x.records.filter fun r => r.1 ≠ f.fid }
          syncStopped (s.setWave key (if x.records.isEmpty && !x.blocked then unpark w else { w with park := some x })) key
  | .seq _ _ _ =>
    freeSeq (match heldEntry s d f.fid with | some (_, e) => dropFaultPage s d (engWho s e.wave) f | none => s) d f.fid
  | .copy _ c id =>
    let k := clusterKey d c
    let s := match (s.cluster k).copies.find? fun x => x.id = id with
      | some x => dropFaultPage s d (engWho s x.wave) f
      | none => s
    pushCopy (modCopy s k id fun x => { x with hold := .none }) d c id
  | .host ticket => match (s.die d).tr.hostWaits.find? fun x => x.ticket = ticket with
    | some x => hostAgain s d x
    | none => s
  | .context l t => match f.again with
    | some i => (s.modTeam (teamKey l t) fun x => { x with fault := none }).push i
    | none => s
  | _ => match f.again with
    | some i => s.push i
    | none => s
/-- The unanswered fault that an answer names. -/
def answered? (s : State) (d fid : Nat) : Option FaultRec := (s.die d).tr.faults.find? fun f => f.fid = fid
/-- FAULT_REPLAY (R209). -/
def execFaultReplay (d : DieId) (fid : BitVec 16) (m : Master) (s : State) : Out :=
  if masterStopped s d m then .next s
  else if !isSup m then .next (violation s d m (ctlBase d + 0x5D20))
  else match answered? s d fid.toNat with
    | none => .next s
    | some f => .next (replayFault s d f)

/-- The refusal of a wave's fault: it traps with cause 0x0A; its other records are abandoned. -/
def refuseWave (s : State) (d key : Nat) (w : Wave) (x : Park) (f : FaultRec) : State :=
  let s := dropFaults s d fun g => g.owner = .wave key
  let split := if x.lane then x.split else 7
  let p := getSplit w x.split
  let w := unpark w
  let w := { x.fullV.foldl setFullV (x.fullS.foldl setFullS w) with unfinFull := if x.fullV.isEmpty then w.unfinFull else [] }
  enterTrap (s.setWave key w) key
    { tcause := causeBits 0x0A f.reason (!x.lane) false 0, tspc := w.c.pc
      tlpc := if x.lane then w.y.lanebase + p.lpc.zeroExtend 64 else 0
      tamask := if x.lane then p.mask else 0
      tfmask := if !x.lane then 0 else if x.fetch then p.mask else f.mask
      inst := x.inst, taddr := f.va, split := split }
/-- What the refusal of an access that no wave or engine makes does is said with that access (R431). -/
abbrev OtherRefusal := State → FaultRec → State
/-- FAULT_REFUSE (R209, R397). -/
def refuseFault (other : OtherRefusal) (s : State) (d : Nat) (f : FaultRec) : State :=
  let s := traceAnswer (dropFaults s d fun g => g.fid = f.fid) d f true
  match f.owner with
  | .wave key => match s.wave? key with
    | none => s
    | some w =>
      if w.wait = .syscall f.fid then s.setWave key { w with wait := .served false }
      else match w.park with
        | none => s
        | some x => syncStopped (refuseWave s d key w x f) key
  | .seq _ c _ =>
    match heldEntry s d f.fid with
    | some (some c, e) => seqReport s d c e 0x0A f.va.toNat 0 f.reason
    | some (none, e) =>
      let s := s.modTeam (e.wave / 16) fun t => { t with store := t.store.filter fun y => y ≠ e }
      seqReport s d c e 0x0A f.va.toNat 0 f.reason
    | none => s
  | .copy _ c id => match (s.cluster (clusterKey d c)).copies.find? fun x => x.id = id with
    | some x => copyReport s d c x 0x0A f.va.toNat f.reason
    | none => s
  | .host ticket => match (s.die d).tr.hostWaits.find? fun x => x.ticket = ticket with
    | some x =>
      hostDone (s.modTr d fun t => { t with hostWaits := t.hostWaits.filter fun y => y.ticket ≠ ticket }) d x.pasid 1 []
    | none => s
  | .halo _ id => match (s.die d).cache.halo.find? fun x => x.id = id with
    | some x => match (s.die d).cache.jobs.find? fun j => j.id = x.job with
      | some j =>
        let s := modJob (dropStrip s d id) d j.id fun k => { k with bar := none }
        finishJob (report s j.wave 0x0A f.reason 0 j.bytes j.inst j.tlpc f.va) d j.id
      | none => dropStrip s d id
    | none => s
  | _ => other s f

/-! ### Release of frozen masters (R212) -/

/-- FRZCL_RELEASE: the teams of the violating waves are killed with STATUS 2; the others resume. -/
def releaseCluster (s : State) (d c : Nat) : State :=
  let mine := (s.die d).tr.violators.filter fun p => p.1 = c
  let s := s.setCtl d 0x5E18 (s.ctl d 0x5E18 &&& ~~~(BitVec.twoPow 64 c))
  let s := s.modTr d fun t => { t with violators := t.violators.filter fun p => p.1 ≠ c }
  let s := mine.foldl (fun s p => if p.2 = 0 then s else killTeam s (p.2 / 16) 2) s
  kickCopy (kickSeq (refillSeq s d c) d c) d c
def execFrzclRelease (d : DieId) (value : W64) (m : Master) (s : State) : Out :=
  if masterStopped s d m then .next s
  else if !isSup m then .next (violation s d m (ctlBase d + 0x5E18))
  else .next (((List.range 64).filter fun c => value.getLsbD c && (s.ctl d 0x5E18).getLsbD c).foldl (fun s c => releaseCluster s d c) s)
/-- FRZCE_RELEASE: the violating command is discarded without byte counts; the others resume. -/
def releaseCopy (s : State) (d c : Nat) : State :=
  let k := clusterKey d c
  let mine := (s.die d).tr.violators.filter fun p => p.1 = 64 + c
  let s := s.setCtl d 0x5E20 (s.ctl d 0x5E20 &&& ~~~(BitVec.twoPow 64 c))
  let s := s.modTr d fun t => { t with violators := t.violators.filter fun p => p.1 ≠ 64 + c }
  let s := mine.foldl (fun s p => match (s.cluster k).copies.find? fun x => x.id = p.2 with
    | some x => copyLeaves s d c x false
    | none => s) s
  kickCopy s d c
def execFrzceRelease (d : DieId) (value : W64) (m : Master) (s : State) : Out :=
  if masterStopped s d m then .next s
  else if !isSup m then .next (violation s d m (ctlBase d + 0x5E20))
  else .next (((List.range 64).filter fun c => value.getLsbD c && (s.ctl d 0x5E20).getLsbD c).foldl (fun s c => releaseCopy s d c) s)

end Sys2Proof.Machine
end

