-- ==== Sys2Proof/Machine/Teams.lean ====
section
/-! DEFINITION. What the parse core and the dispatcher do with launches and teams: their accesses to a process's memory
(R431), context blocks (R107, R116), completion events (R97, R98), and the launch time record (R131). -/

namespace Sys2Proof.Machine

/-! ### Accesses on behalf of a process (R431) -/

/-- The parse core of a die does not run: its work waits (R69, R71). -/
def parseStopped (s : State) (d : Nat) : Bool := !fwUp s d 0
/-- The schedule core of a die runs (R69, R71). -/
def scheduleUp (s : State) (d : Nat) : Bool := fwUp s d 1
/-- Raise a fault for such an access; `again` is tried on a replay. -/
def raiseAgain (s : State) (d : Nat) (owner : FaultOwner) (name : List Byte) (va reason access : Nat) (again : Instr) : State × Nat :=
  let (s, fid) := raiseFault s d owner name (BitVec.ofNat 64 va) 0 reason access
  (s.modTr d fun t => { t with faults := t.faults.map fun f => if f.fid = fid then { f with again := some again } else f }, fid)
/-- An access of a unit breaks an access window (R46, R212): for a context block the team's cluster is frozen, and the team is killed at
its release; else the parse core is frozen, and what it was to do waits for its restart. -/
def unitBreaks (s : State) (d : Nat) (owner : FaultOwner) (name : List Byte) (pa : Nat) (again : Instr) : State :=
  match owner with
  | .context l t =>
    let key := teamKey l t
    let c := (s.team key).cluster
    if (s.die d).tr.violators.contains (c, 16 * key) then s else freezeCluster s d c pa name (16 * key)
  | _ => (freezeFw s d 8 pa).push again
/-- Do `go` if a range is accessible; else raise a fault, or try again later. -/
def withRange (s : State) (who : Who) (va n : Nat) (k : AccKind) (owner : FaultOwner) (name : List Byte) (access : Nat)
    (again : Instr) (go : State → State) : State :=
  match rangeCheck s who va n k with
  | .ok => go s
  | .blocked => s.push again
  | .frozen pa => unitBreaks s who.d owner name pa again
  | .fail a r => (raiseAgain s who.d owner name a r access again).1
/-- The parse core's message to its instance (R432). -/
def instanceMsg (s : State) (d code q : Nat) (pid : W32) (field errcode va : Nat) : State :=
  unitSend s d 7 0 (s.dieIndex d) 0
    (bodyOf (leBytes 4 code ++ leBytes 4 q ++ leBytes 4 pid.toNat ++ leBytes 4 field ++ leBytes 2 errcode ++ zeros 6 ++ leBytes 8 va))

/-! ### Packets (R94) and teams -/

/-- n bytes of a packet from byte k. -/
def packNat (p : BitVec 1024) (k n : Nat) : Nat := p.toNat / 2 ^ (8 * k) % 2 ^ (8 * n)
def Launch.pk (l : Launch) (k n : Nat) : Nat := packNat l.packet k n
/-- n bytes of the kernel descriptor from byte k (R93). -/
def Launch.kd (l : Launch) (k n : Nat) : Nat := leNat (bytesAt l.kernel k n)
/-- The register window of wave w of a packet: its role's. -/
def packWindow (p : BitVec 1024) (w : Nat) : Nat := if w < packNat p 34 1 then packNat p 36 2 else packNat p 38 2
def packWaves (p : BitVec 1024) : Nat := packNat p 34 1 + packNat p 35 1
def sumNat (l : List Nat) : Nat := l.foldl (· + ·) 0
/-- The register lines of a team, in bytes (R104). -/
def packLines (p : BitVec 1024) : Nat := sumNat ((List.range (packWaves p)).map fun w => packWindow p w * 132)
/-- The context block of a team, in bytes (R104). -/
def packBlock (p : BitVec 1024) (tilemax : Nat) : Nat :=
  1024 + tilemax * 65536 + sumNat ((List.range (packWaves p)).map fun w => 2048 + packWindow p w * 132)
/-- The offset of wave w's image in the context block (R116). -/
def imageOff (p : BitVec 1024) (tilemax w : Nat) : Nat :=
  1024 + tilemax * 65536 + sumNat ((List.range w).map fun v => 2048 + packWindow p v * 132)
def Team.key (t : Team) : Nat := teamKey t.launch t.t
/-- The lane-store need of a team (R104). -/
def Team.need (t : Team) : Nat := t.regBytes + t.tilemax * 65536
def Team.who (t : Team) (l : Launch) : Who := unitWho t.die l.pindex l.pid
def teamName (l : Launch) (t : Nat) : List Byte := joinedName l.pid.toNat 0 l.id t 0 0 none
/-- A trace record of types 0x05 to 0x08 about a team. -/
def traceTeam (s : State) (t : Team) (type : Nat) : State :=
  traceRec s t.die (teamName (s.launch t.launch) t.t) type (leBytes 2 (t.die * 64 + t.cluster))
/-! ### Context blocks (R107, R116, R117) -/

/-- The pool of a team's region: its address and length (R100). -/
def poolOf (s : State) (d : Nat) (l : Launch) : Nat × Nat :=
  let v := regionEff (regionTable s d l.pid) l.region 7
  (v % 2 ^ 64, v / 2 ^ 64)
/-- The blocks carved in a process's memory: address and length. -/
def carvedBlocks (s : State) (pid : W32) : List (Nat × Nat) :=
  s.teams.filterMap fun p => if p.2.carved && (s.launch p.2.launch).pid = pid then some (p.2.ctx.toNat, p.2.ctxBytes) else none
/-- Carve a team's block from its pool, at the lowest place that has room (assumption 23). -/
def carve (s : State) (key : Nat) : Option State :=
  match s.team? key with
  | none => none
  | some t =>
    if t.carved then some s
    else
      let l := s.launch t.launch
      let (base, size) := poolOf s t.die l
      let used := carvedBlocks s l.pid
      let starts := base :: used.map fun b => b.1 + b.2
      let free := starts.filter fun a => decide (base ≤ a) && decide (a + t.ctxBytes ≤ base + size) &&
        used.all fun b => decide (a + t.ctxBytes ≤ b.1) || decide (b.1 + b.2 ≤ a)
      match free with
      | [] => none
      | a :: rest => some (s.modTeam key fun t => { t with carved := true, ctx := BitVec.ofNat 64 (rest.foldl min a) })

def barBytes (x : Barrier) : List Byte :=
  leBytes 8 x.pending.toNat ++ leBytes 2 x.arrived.toNat ++ leBytes 2 x.members.toNat ++
    leBytes 1 (bb x.phase 0 + bb x.opened 1 + bb x.lane 2) ++ leBytes 1 x.remain.toNat
def readBar (b : List Byte) : Barrier :=
  let f := blockNat b 12 1
  { pending := blockBV b 0 8 64, arrived := blockBV b 8 2 16, members := blockBV b 10 2 16
    phase := bit f 0, opened := bit f 1, lane := bit f 2, remain := blockBV b 13 1 6 }
def seqBytes (e : SeqEntry) : List Byte :=
  leBytes 12 e.inst.toNat ++ leBytes 2 e.step ++ leBytes 1 (e.wave % 16 + 128) ++ [0]
/-- The barrier objects and sequencer entries of a team's block. -/
def blockHead (t : Team) : List Byte :=
  (List.range 64).flatMap (fun b => barBytes (mget {} t.bars b)) ++
    (List.range 8).flatMap (fun k => match t.store[k]? with | some e => seqBytes e | none => zeros 16)
/-- Write accumulator tile i into its space of the block. -/
def saveTile (s : State) (t : Team) (i : Nat) : State :=
  writeVirtual (t.who (s.launch t.launch)) (t.ctx.toNat + 1024 + 65536 * i) 65536 (mslice t.acc (65536 * i) 65536) s
/-- Load accumulator tile i from its space of the block, as far as its shape reaches (R116, R137). -/
def loadTile (s : State) (key i : Nat) : State :=
  let t := s.team key
  let c := accCfgOf t i
  if !c.en then s
  else
    let (s, l) := readVirtual (t.who (s.launch t.launch)) (t.ctx.toNat + 1024 + 65536 * i) 65536 s
    let here := l.filterMap fun p => if p.1 / 512 < c.rows && p.1 % 512 < c.cols * c.size then some (p.1, p.2) else none
    s.modTeam key fun t => { t with acc := msplice t.acc (65536 * i) 65536 (putBytes [] here) }
/-- Write the whole block of a team (R117): images, tiles that have not been written out (R137), barriers and entries. -/
def saveBlock (s : State) (key : Nat) : State :=
  match s.team? key with
  | none => s
  | some t =>
    let s := (teamWaves s key).foldl (fun s p => if p.2.ended then s else syncImage s p.2) s
    let held := (List.range t.tilemax).filter fun i => !(accCfgOf t i).en || t.banks.any fun b => b.1 = i
    let s := held.foldl (fun s i => saveTile s t i) s
    writeVirtual (t.who (s.launch t.launch)) t.ctx.toNat 1024 (putBytes [] (atOffsets 0 (blockHead t))) s
/-- Sequencer entry k as the block has it; what the block does not hold is kept from the saved entry. -/
def readSeq (b : List Byte) (key k : Nat) (e : SeqEntry) : Option SeqEntry :=
  let o := 896 + 16 * k
  if bit (blockNat b (o + 14) 1) 7 then
    let inst : BitVec 96 := blockBV b o 12 96
    some { e with inst := inst, step := blockNat b (o + 12) 2, wave := key * 16 + blockNat b (o + 14) 1 % 16 }
  else none
/-- Restore a team from its block (R117): waves, tiles as far as their shapes reach, barriers and entries. -/
def restoreBlock (s : State) (key : Nat) : State :=
  match s.team? key with
  | none => s
  | some t =>
    let who := t.who (s.launch t.launch)
    let (s, head) := readVirtual who t.ctx.toNat 1024 s
    let b := bytesAt (putBytes [] head) 0 1024
    let s := (List.range t.tilemax).foldl (fun s i => loadTile s key i) (s.modTeam key fun t => { t with acc := [] })
    let s := s.modTeam key fun t => { t with
      bars := (List.range 64).foldl (fun m n => mput {} m n (readBar (b.drop (14 * n)))) []
      store := (t.store.take 8).mapIdx (fun k e => readSeq b key k e) |>.filterMap id }
    (teamWaves s key).foldl (fun s p =>
      if p.2.ended then s
      else
        let W := p.2.winsize
        let va := p.2.ctxbase.toNat
        let (s, block) := readVirtual who (va + W * 132) 2048 s
        let (s, lines) := readVirtual who va (W * 128) s
        let (s, side) := readVirtual who (va + W * 128) (W * 4) s
        let w := restoreWave p.2 (bytesAt (putBytes [] block) 0 2048) (putBytes [] lines) (putBytes [] side)
        s.setWave p.1 { w with
          asyncs := if w.c.apend then w.asyncs else []
          park := if w.c.parked then w.park else none }) s

/-! ### Completion events (R97, R98) -/

/-- The rank of a status in the grid's worst: 4, 6, 3, 2, 5, 1. -/
def statusRank (n : Nat) : Nat := match n with | 4 => 6 | 6 => 5 | 3 => 4 | 2 => 3 | 5 => 2 | 1 => 1 | _ => 0
def worseOf (a b : W16) : W16 := if statusRank a.toNat < statusRank b.toNat then b else a
/-- The 16 bytes of an event. -/
def eventBytes (s : State) (l : Launch) (status : Nat) : List Byte :=
  leBytes 4 (l.pk 4 4) ++ leBytes 2 status ++ zeros 2 ++ leBytes 8 s.time
/-- Write an event of a launch, with a fault serviced as R431 lays down; then `k`. -/
def writeEvent (s : State) (d : Nat) (l : Launch) (addr status t : Nat) (again : Instr) (k : State → State) : State :=
  if addr = 0 then k s
  else
    let who := unitWho d l.pindex l.pid
    withRange s who addr 16 .store (.event l.id t) (teamName l (t % 2 ^ 20)) 15 again fun s =>
      k (writeVirtual who addr 16 (putBytes [] (atOffsets 0 (eventBytes s l status))) s)
/-- A team's event is written or dropped: its block is freed, and the grid event follows the last. What the team's die has seen goes with
it to the die that writes the grid event, which is a release of the whole grid's accesses (R98). -/
def teamDone (s : State) (team : Nat) : State :=
  match s.team? team with
  | none => s
  | some t =>
    let s := s.modTeam team fun t => { t with phase := .done, carved := false }
    let s := s.modLaunch t.launch fun l => { l with done := l.done + 1, worst := worseOf l.worst t.status }
    let l := s.launch t.launch
    let d := if t.die < 8 then t.die else l.die
    let s := traceRec s d (teamName l t.t) 0x09 (leBytes 2 t.status.toNat)
    let e := if dieDown s l.die then d else l.die
    let s := if e = d then s else (s.sendClock d).absorb e (s.clock d)
    kickPlace (if l.done = l.teams then s.push (.gridEventWrite (Fin.ofNat 8 e) l.id) else s) d
/-- Copies or stores of a team, or sequencer steps that it has begun, are still on their way (R119). -/
def teamBusy (s : State) (t : Team) (key : Nat) : Bool :=
  let c := s.cluster (clusterKey t.die t.cluster)
  t.die < 8 && (c.copies.any fun x => x.wave / 16 = key) || (c.seq.any fun e => e.wave / 16 = key) ||
    (s.die t.die).cache.pend.any fun p => p.wave / 16 = key
/-- The event of a die is a release at system scope: every write and atomic that the die has sent is acknowledged (R98, R176). -/
def mayRelease (s : State) (d : Nat) : Bool := (s.die d).cache.pend.isEmpty
/-- TEAM_EVENT_WRITE (R98). The die of another package writes its team's event itself and tells the launch's die: when it does, and with
what status, is a free value (assumption 4). -/
def execTeamEventWrite (d : DieId) (team : Nat) (s : State) : Out :=
  match s.team? team with
  | none => .next s
  | some t =>
    if t.phase = .away then
      let (s, v) := foreignValue s 1
      if v % 2 = 0 then .next (s.push (.teamEventWrite d team))
      else .next (teamDone (s.modTeam team fun t => { t with status := BitVec.ofNat 16 ([1, 2, 3, 4, 6].getD (v / 2 % 5) 1) }) team)
    else if t.phase ≠ .ended then .next s
    else if parseStopped s d || teamBusy s t team || !mayRelease s d then .next (s.push (.teamEventWrite d team))
    else
      let l := s.launch t.launch
      let base := l.pk 40 8
      .next (writeEvent s d l (if base = 0 then 0 else base + 16 * t.t) t.status.toNat t.t (.teamEventWrite d team) fun s => teamDone s team)

/-! ### The launch time record (R131) -/

def fullRecord : Nat := 2 ^ 48 - 1
/-- A record gets ns more of class n (1 fault, 2 storage, 3 engine, 4 queueing, 5 system call); one that is full is closed, with its sum
listed after those before it. -/
def addClassGo (n : Nat) : Nat → Nat → List (Nat × Nat) × List (List (Nat × Nat)) → List (Nat × Nat) × List (List (Nat × Nat))
  | 0, _, r => r
  | fuel + 1, ns, (m, parts) =>
    let room := fullRecord - sumNat (m.map Prod.snd)
    let put (k : Nat) : List (Nat × Nat) := mput 0 m n (mget 0 m n + k)
    if ns ≤ room then (put ns, parts) else addClassGo n fuel (ns - room) ([], parts ++ [put room])
def addClass (l : Launch) (n ns : Nat) : Launch :=
  let r := addClassGo n (ns / fullRecord + 2) ns (l.classes, l.parts)
  { l with classes := r.1, parts := r.2 }
/-- The class of the time that passes for a launch now. -/
def classNow (s : State) (l : Launch) : Nat :=
  let mine := s.waves.filter fun p => p.2.launch = l.id
  let inIo (p : Nat × Wave) : Bool := match p.2.wait with
    | .syscall fid => Config.ioWait s.ticks fid
    | _ => false
  if mine.any fun p => (match p.2.park with | some x => !x.records.isEmpty | none => false) then 1
  else if ((s.die l.die).host.pages.any fun p => p.reading && p.queues.contains l.queue) || mine.any inIo then 2
  else if l.started then 3
  else 4
/-- What passes in a step is charged to every open launch. -/
def chargeTime (s : State) (ns : Nat) : State :=
  { s with launches := s.launches.map fun (p : Nat × Launch) =>
    (p.1, addClass p.2 (classNow s p.2) (if p.2.gridDone then 0 else ns)) }
/-- The machine's own step counter goes on, and time with it (R215). -/
def tick (s : State) : State :=
  let ns := Config.elapsed s.ticks
  let s := chargeTime s ns
  { s with ticks := s.ticks + 1, now := s.now + ns }
/-- The records of a launch: T0 in the place of the time, and the five counts. Each full record takes 2^48 − 1 ns, and the next one's T0
follows on. The trace core writes them. -/
def timeRecord (s : State) (d : Nat) (l : Launch) : State :=
  (l.parts ++ [l.classes]).foldl (fun (r : State × Nat) m =>
    let (s, t) := r
    let s := if s.ctlBits d 0x5A00 0 0 = 1 && s.ctlBits d 0x5A00 2 2 = 1 && fwUp s d 7 then
        let n := (s.die d).dbg.traceSeq
        let s := s.modDie d fun x => { x with dbg := { x.dbg with traceSeq := (n + 1) % 2 ^ 32 } }
        ringPutOrDrop s d trcRing (joinedName l.pid.toNat 0 l.id 0 0 0 none ++ leBytes 8 t ++ leBytes 2 0x0C ++
          leBytes 2 (s.dieIndex d) ++ leBytes 4 n ++ ([5, 4, 1, 2, 3].flatMap (fun n => leBytes 6 (mget 0 m n)) ++ zeros 32).take 32)
      else s
    (s, t + fullRecord)) (s, l.t0) |>.1
/-- What follows the grid event, written or not: the interrupt to the host, and the time record. -/
def gridDone (s : State) (d : Nat) (l : Launch) : State :=
  let s := s.modLaunch l.id fun l => { l with gridDone := true }
  let s := if bit (l.pk 56 2) 15 then { s with outbox := s.outbox ++ [⟨d, 13, l.pk 56 2 % 2 ^ 11, []⟩] } else s
  timeRecord s d (s.launch l.id)
/-- GRID_EVENT_WRITE (R98, R131). -/
def execGridEventWrite (d : DieId) (launch : Nat) (s : State) : Out :=
  match mfind s.launches launch with
  | none => .next s
  | some l =>
    if l.gridDone || l.done < l.teams then .next s
    else if parseStopped s d || !mayRelease s d then .next (s.push (.gridEventWrite d launch))
    else .next (writeEvent s d l (l.pk 48 8) l.worst.toNat (2 ^ 20) (.gridEventWrite d launch) fun s => gridDone s d l)

end Sys2Proof.Machine
end

