-- ==== Sys2Proof/Machine/Sched.lean ====
section
/-! DEFINITION. The scheduler (R100 to R120): region tables, readiness, placement, pre-emption, suspension, moves, slices. -/

namespace Sys2Proof.Machine

/-! ### Room (R104, R105, R421) -/

def teamsOf (s : State) (d c : Nat) (p : TeamPhase → Bool) : List (Nat × Team) :=
  s.teams.filter fun t => t.2.die = d && t.2.cluster = c && p t.2.phase
def isRunning (p : TeamPhase) : Bool := p = .running
def isStopped (p : TeamPhase) : Bool := p = .suspended || p = .moving
/-- The teams that run on a cluster, but for those to be suspended. -/
def runningOn (s : State) (d c : Nat) (without : List Nat) : List (Nat × Team) :=
  (teamsOf s d c isRunning).filter fun t => !without.contains t.1
/-- The slots that a team takes in a quadrant. -/
def quadNeed (t : Team) (q : Nat) : Nat := ((List.range t.waves).filter fun w => w % 4 = q).length
/-- Cluster c has room for a team beside the running teams (R104); it tracks 128 waves, of which a team on its way off holds back none
(R109). -/
def fits (s : State) (d c : Nat) (t : Team) (without : List Nat) : Bool :=
  let l := (runningOn s d c without).map Prod.snd
  let here := if isStopped t.phase && t.cluster = c then 0 else t.waves
  (List.range 4).all (fun q => decide (sumNat (l.map fun x => quadNeed x q) + quadNeed t q ≤ Config.slotsPerQuadrant)) &&
    decide (sumNat (l.map fun x => x.regBytes) + t.regBytes ≤ Config.registerBytes) &&
    decide (sumNat (l.map fun x => x.tilemax * 65536) + t.tilemax * 65536 ≤ Config.tileBytes) &&
    decide (sumNat ((teamsOf s d c fun p => isRunning p || p = .suspended).map fun x => x.2.waves) + here ≤ Config.trackedWaves)
/-- The budgets of the regions on the team's path allow it on cluster c (R105). -/
def budgetOk (s : State) (d c : Nat) (t : Team) (without : List Nat := []) : Bool :=
  let l := s.launch t.launch
  let tab := regionTable s d l.pid
  (launchPath s d l).all fun i =>
    let mine := s.teams.filter fun x => x.2.die = d && isRunning x.2.phase && !without.contains x.1 && inSubtree s d l (s.launch x.2.launch) i
    let cs := (c :: mine.map fun x => x.2.cluster).dedup
    decide (cs.length ≤ regionEff tab i 3) && decide (sumNat (mine.map fun x => x.2.need) + t.need ≤ regionEff tab i 4)
/-- The cluster is in dispatch: not fenced, its island neither gated nor off, the die alive (R21, R211). -/
def clusterOpen (s : State) (d c : Nat) : Bool :=
  !(s.cluster (clusterKey d c)).fenced && s.ctlBits d (0x1000 + 8 * (c / 4)) 4 4 = 0 && !(s.die d).power.off.getLsbD (c / 4) &&
    !dieDown s d
def canPlaceOn (s : State) (d c : Nat) (t : Team) (without : List Nat := []) : Bool :=
  clusterOpen s d c && fits s d c t without && budgetOk s d c t without
/-- A suspended team may resume where its registers are: room is all it needs (R108). -/
def canResume (s : State) (d : Nat) (t : Team) (without : List Nat := []) : Bool := clusterOpen s d t.cluster && fits s d t.cluster t without

/-! ### Lists (R96, R108) -/

/-- A team has a wave that is neither halted nor ended; one that has never been placed has no such wave (R108). -/
def teamAwake (s : State) (key : Nat) : Bool :=
  let l := teamWaves s key
  l.isEmpty || l.any fun p => (!p.2.c.halted || p.2.stepping ≠ 0) && !p.2.ended
/-- The level of a team: fixed at its first placement, before that as the region table has it (R96). -/
def levelOf (s : State) (t : Team) : Nat :=
  if t.fixedPrio then t.prio
  else
    let l := s.launch t.launch
    min (l.pk 2 1 % 128) (regionEff (regionTable s t.die l.pid) l.region 0)
def readyList (s : State) (d : Nat) : List Nat := (s.die d).sched.ready
def setReady (s : State) (d : Nat) (l : List Nat) : State := s.modDie d fun x => { x with sched := { x.sched with ready := l } }
def joinBack (s : State) (d key : Nat) : State := setReady s d ((readyList s d).filter (· ≠ key) ++ [key])
def joinFront (s : State) (d key : Nat) : State := setReady s d (key :: (readyList s d).filter (· ≠ key))
def leaveList (s : State) (d key : Nat) : State := setReady s d ((readyList s d).filter (· ≠ key))
/-- Waiting teams whose level has changed join the back of their new list. -/
def refreshLevels (s : State) (d : Nat) : State :=
  (readyList s d).foldl (fun s key =>
    let t := s.team key
    let p := levelOf s t
    if p = t.prio then s else joinBack (s.modTeam key fun t => { t with prio := p }) d key) s
/-- The ready teams, from the highest level down, front to back. -/
def inOrder (s : State) (d : Nat) : List Nat :=
  (List.range 128).flatMap fun n => (readyList s d).filter fun key => (s.team key).prio = 127 - n

/-! ### Tile banks (R137) -/

/-- The lowest bank of 24 to 39 that no running team holds. -/
def freeBank (s : State) (d c : Nat) (mine : List (Nat × Nat)) : Nat :=
  let held := (mine ++ (runningOn s d c []).flatMap fun t => t.2.banks).map Prod.snd
  (((List.range 16).map (· + 24)).find? fun b => !held.contains b).getD 39
/-- Reserve banks for tiles of a team beside those in `mine`; what a suspended team has in one is written out first. -/
def reserveBanks (d c key : Nat) : List Nat → List (Nat × Nat) → State → State
  | [], mine, s => s.modTeam key fun t => { t with banks := mine }
  | i :: l, mine, s =>
    let b := freeBank s d c mine
    let owners := (teamsOf s d c isStopped).flatMap fun t =>
      if t.1 = key then [] else (t.2.banks.filter fun p => p.2 = b).map fun p => (t.1, p.1)
    let s := owners.foldl (fun s o =>
      let s := s.modTeam o.1 fun t => { t with banks := t.banks.filter fun p => p.2 ≠ b }
      let s := s.modCluster (clusterKey d c) fun x => { x with writeout := x.writeout ++ [(b, o.1, o.2)] }
      s.push (.tileBankWriteoutComplete (Fin.ofNat 8 d) (Fin.ofNat 64 c) b)) s
    reserveBanks d c key l (mine ++ [(i, b)]) s
/-- TILE_BANK_WRITEOUT_COMPLETE (R137). -/
def execTileBankWriteoutComplete (d : DieId) (cluster : Fin 64) (bank : Nat) (s : State) : Out :=
  let k := clusterKey d cluster
  match (s.cluster k).writeout.find? fun w => w.1 = bank with
  | none => .next s
  | some (b, key, i) =>
    let t := s.team key
    let l := s.launch t.launch
    let fin (s : State) : State :=
      kickSeq (s.modCluster k fun x => { x with writeout := x.writeout.filter fun w => w ≠ (b, key, i) }) d cluster
    if isStopped t.phase && (accCfgOf t i).en then
      .next (withRange s (t.who l) (t.ctx.toNat + 1024 + 65536 * i) 65536 .store (.context t.launch t.t) (teamName l t.t) 16
        (.tileBankWriteoutComplete d cluster bank) fun s => kickPlace (fin (saveTile s t i)) d)
    else .next (fin s)

/-! ### Placement (R96, R108) -/

/-- The lowest active slot of a quadrant that is free on a cluster. -/
def freeSlot (s : State) (d c q : Nat) : Nat :=
  let used := (s.waves.filter fun p => p.2.running && p.2.idx % 4 = q &&
    (let t := s.team (p.1 / 16); t.die = d && t.cluster = c)).map fun p => p.2.slot
  ((List.range 12).find? fun n => !used.contains n).getD 0
/-- A wave of a launch at its start (R96): s1 holds ARGP, its role's window and entry, and the descriptor's registers. -/
def freshWave (s : State) (l : Launch) (t : Team) (w : Nat) : Wave :=
  let feed := decide (w < l.pk 34 1)
  { launch := t.launch, team := t.t, idx := w, feed := feed, running := true, prio := t.prio
    ctxbase := t.ctx + BitVec.ofNat 64 (imageOff l.packet t.tilemax w), winsize := packWindow l.packet w
    slot := freeSlot s t.die t.cluster (w % 4)
    r := { s := mput 0 [] 1 (BitVec.ofNat 64 (l.pk 16 8)) }
    y := { lanebase := BitVec.ofNat 64 (l.kd 16 8), tvec := BitVec.ofNat 64 (l.kd 24 8), fpmode := BitVec.ofNat 64 (l.kd 40 8) }
    c := { pc := BitVec.ofNat 64 (if feed then l.kd 8 8 else l.kd 0 8) } }
/-- The stored entries of a team that comes from another cluster take their numbers on this one. -/
def renumber (s : State) (k key : Nat) : State :=
  let n := (s.cluster k).next
  let l := (s.team key).store
  let s := s.modCluster k fun x => { x with next := n + l.length }
  s.modTeam key fun t => { t with store := l.mapIdx fun i e => { e with order := n + i, firstTry := n + i } }
/-- Put a team on a cluster: the state of R96 at its first placement, the saved one after a move. -/
def putTeam (s : State) (d c key : Nat) : State :=
  let n := (s.die d).sched.placements
  let s := s.modDie d fun x => { x with sched := { x.sched with placements := n + 1 } }
  let s := leaveList s d key
  let old := s.team key
  let s := s.modTeam key fun t => { t with phase := .running, cluster := c, placedAt := n, since := s.time, fixedPrio := true }
  let t := s.team key
  let l := s.launch t.launch
  let s := s.modLaunch t.launch fun l => { l with started := true }
  let s := reserveBanks d c key (List.range t.tilemax) [] s
  let s := if old.phase = .saved then
      let s := renumber (restoreBlock s key) (clusterKey d c) key
      (teamWaves s key).foldl (fun s p => if p.2.ended then s
        else s.setWave p.1 { p.2 with running := true, slot := freeSlot s d c (p.2.idx % 4) }) s
    else (List.range t.waves).foldl (fun s w => s.setWave (key * 16 + w) (freshWave s l t w)) s
  kickPlace (kickSeq (refillSeq (traceTeam s t 5) d c) d c) d
/-- A team that is to be placed on a cluster needs its context block, carved and accessible; else it waits, for room in its pool, for the
answer to a fault, or for the end of a shoot-down (R107). -/
def tryBlock (s : State) (d c key : Nat) : State × Bool :=
  match carve s key with
  | none => (s, false)
  | some s =>
    let t := s.team key
    let l := s.launch t.launch
    match rangeCheck s (t.who l) t.ctx.toNat t.ctxBytes .atomic with
    | .ok => (s, true)
    | .blocked => (s, false)
    | .frozen pa => (unitBreaks (s.modTeam key fun t => { t with cluster := c }) d (.context t.launch t.t) (teamName l t.t) pa (.placementDecision (Fin.ofNat 8 d)), false)
    | .fail a r =>
      let (s, fid) := raiseAgain s d (.context t.launch t.t) (teamName l t.t) a r 16 (.placementDecision (Fin.ofNat 8 d))
      (s.modTeam key fun t => { t with fault := some fid }, false)

/-! ### Suspension and resumption (R114, R109, R118) -/

/-- A move of a suspended team starts (R117). -/
def startMove (s : State) (key : Nat) : State :=
  let t := s.team key
  if t.phase = .suspended then
    (s.modTeam key fun t => { t with phase := .moving }).push (.teamMoveComplete (Fin.ofNat 8 t.die) key)
  else s
/-- At most 80 waves of a cluster may be suspended: the teams suspended longest are moved (R109). -/
def limitGo (d c : Nat) : Nat → State → State
  | 0, s => s
  | fuel + 1, s =>
  let l := teamsOf s d c (· = .suspended)
  if sumNat (l.map fun t => t.2.waves) ≤ Config.suspendedWaves then s
  else
    let first := l.foldl (fun (o : Option (Nat × Team)) x => match o with
      | none => some x
      | some y => if x.2.suspendedAt < y.2.suspendedAt then some x else some y) none
    match first with
    | some x => limitGo d c fuel (startMove s x.1)
    | none => s
def limitSuspended (s : State) (d c : Nat) : State := limitGo d c (teamsOf s d c (· = .suspended)).length s
/-- Suspend a running team: its waves stop, prefetches go (R416), entries between steps leave the queue, images are written
back, slots and reservations are released. -/
def suspendTeam (s : State) (key : Nat) (front : Bool) : State :=
  let t := s.team key
  let d := t.die
  let k := clusterKey d t.cluster
  let s := (teamWaves s key).foldl (fun s p =>
    if p.2.ended then s
    else
      let w := { dropPrefetch p.2 with running := false, stallS := false, stallL := 0 }
      syncImage (s.setWave p.1 w) w) s
  let s := ((s.cluster k).seq.filter fun e => e.wave / 16 = key && !e.busy).foldl (fun s e =>
    storeEntry (setPins s d e.pinned []) k { e with list := none, pinned := [] }) s
  let s := s.modTeam key fun x => { x with phase := .suspended, suspendedAt := s.ticks }
  let s := if front then joinFront s d key else joinBack s d key
  kickPlace (kickSeq (limitSuspended (traceTeam s t 6) d t.cluster) d t.cluster) d
/-- The tiles of a suspended team whose banks have been claimed (R137). -/
def lostTiles (t : Team) : List Nat := (List.range t.tilemax).filter fun i => !(t.banks.any fun b => b.1 = i)
/-- A suspended team is to run again on its own cluster: tiles that were written out can be read back, or a fault is raised and the team
waits (R137, R431). -/
def tryResume (s : State) (key : Nat) : State × Bool :=
  let t := s.team key
  let l := s.launch t.launch
  if t.fault.isSome || (s.cluster (clusterKey t.die t.cluster)).writeout.any (fun w => w.2.1 = key) then (s, false)
  else (lostTiles t).foldl (fun (r : State × Bool) i =>
    if !r.2 then r
    else match rangeCheck r.1 (t.who l) (t.ctx.toNat + 1024 + 65536 * i) 65536 .load with
      | .ok => r
      | .blocked => (r.1, false)
      | .frozen pa => (unitBreaks r.1 t.die (.context t.launch t.t) (teamName l t.t) pa (.placementDecision (Fin.ofNat 8 t.die)), false)
      | .fail a x =>
        let (s, fid) := raiseAgain r.1 t.die (.context t.launch t.t) (teamName l t.t) a x 16 (.placementDecision (Fin.ofNat 8 t.die))
        (s.modTeam key fun t => { t with fault := some fid }, false)) (s, true)
/-- A suspended team runs again on its own cluster: tiles that were written out are loaded into free banks. -/
def resumeTeam (s : State) (key : Nat) : State :=
  let t := s.team key
  let d := t.die
  let s := leaveList s d key
  let lost := lostTiles t
  let s := s.modTeam key fun x => { x with phase := .running, since := s.time }
  let s := lost.foldl (fun s i => loadTile s key i) s
  let s := reserveBanks d t.cluster key lost t.banks s
  let s := (teamWaves s key).foldl (fun s p => if p.2.ended then s
    else s.setWave p.1 { p.2 with running := true, slot := freeSlot s d t.cluster (p.2.idx % 4) }) s
  kickPlace (kickSeq (refillSeq (traceTeam s t 7) d t.cluster) d t.cluster) d

/-! ### Pre-emption (R113) -/

/-- The running teams of a cluster below a level, lowest level first, then latest placement first. -/
def victims (s : State) (d c p : Nat) : List Nat :=
  let l := (teamsOf s d c isRunning).filter fun t => t.2.prio < p
  (List.range 128).flatMap fun n =>
    let same := l.filter fun t => t.2.prio = n
    (same.mergeSort fun a b => decide (b.2.placedAt ≤ a.2.placedAt)).map Prod.fst
/-- The shortest run of victims whose suspension gives a team room. -/
def victimsFor (s : State) (d c : Nat) (t : Team) : Option (List Nat) :=
  let v := victims s d c t.prio
  ((List.range (v.length + 1)).map fun n => v.take n).find? fun l => fits s d c t l
/-- The cluster to pre-empt on. Budgets never cause pre-emption. -/
def preemptOn (s : State) (d : Nat) (t : Team) : Option (Nat × List Nat) :=
  firstOf (fun c => if clusterOpen s d c && budgetOk s d c t then (victimsFor s d c t).map fun l => (c, l) else none) 64 0

/-! ### The placement decision (R108) -/

/-- Try the ready teams in order; a decision that changes something is followed by another. A team whose block cannot be accessed now
holds nobody back. -/
def decideGo (d : Nat) : List Nat → State → State
  | [], s => s
  | key :: l, s =>
    let t := s.team key
    if !teamAwake s key then decideGo d l s
    else match t.phase with
      | .suspended =>
        if canResume s d t then
          match tryResume s key with
          | (s, true) => resumeTeam s key
          | (s, false) => decideGo d l s
        else decideGo d l (startMove s key)
      | .ready | .saved =>
        let room : Option (Nat × List Nat) := match firstOf (fun c => if canPlaceOn s d c t then some c else none) 64 0 with
          | some c => some (c, [])
          | none => preemptOn s d t
        if t.fault.isSome then decideGo d l s
        else match room with
          | none => decideGo d l s
          | some (c, v) => match tryBlock s d c key with
            | (s, false) => decideGo d l s
            | (s, true) => putTeam (v.foldl (fun s k => suspendTeam s k true) s) d c key
      | _ => decideGo d l s
/-- Running teams whose waves are all halted or ended are suspended at once (R118). -/
def suspendHalted (s : State) (d : Nat) : State :=
  (s.teams.filter fun t => t.2.die = d && isRunning t.2.phase && !teamAwake s t.1).foldl (fun s t => suspendTeam s t.1 false) s
/-- One placement decision. -/
def decide1 (s : State) (d : Nat) : State :=
  let s := suspendHalted (refreshLevels s d) d
  decideGo d (inOrder s d) s
/-- PLACEMENT_DECISION (R108). -/
def execPlacementDecision (d : DieId) (s : State) : Out :=
  if dieDown s d then .next s else .next (decide1 s d)

/-! ### Readiness (R97, R107) -/

/-- The events that a dependence entry names for team t: addresses. -/
def depAddrs (p : BitVec 1024) (n t : Nat) : List Nat :=
  let o := 64 + 16 * n
  let a := packNat p o 8
  let k := packNat p (o + 13) 1
  match packNat p (o + 12) 1 % 4 with
  | 1 => [a]
  | 2 => [a + 16 * (t / 2 ^ k)]
  | 3 => (List.range (2 ^ k)).map fun i => a + 16 * (t * 2 ^ k + i)
  | _ => []
/-- What the dependences of a team say: 0 not yet, 1 satisfied, 2 failed, or a range that cannot be read. The events are read at their
homes (R431). -/
def depState (s : State) (who : Who) (p : BitVec 1024) (t : Nat) : State × Except RangeCheck Nat :=
  let all := (List.range 4).flatMap fun n => (depAddrs p n t).map fun a => (n, a)
  match (all.map fun x => rangeCheck s who x.2 16 .load).find? fun r => r ≠ .ok with
  | some r => (s, .error r)
  | none =>
    let look (s : State) (x : Nat × Nat) : State × Nat :=
      let o := 64 + 16 * x.1
      let (s, token) := virtualNat s who x.2 4
      let (s, status) := virtualNat s who (x.2 + 4) 2
      (s, if token ≠ packNat p (o + 8) 4 then 0
        else if bit (packNat p (o + 12) 1) 7 || status = 1 then 1
        else 2)
    let r := all.foldl (fun (r : State × List Nat) x => let (s, n) := look r.1 x; (s, r.2 ++ [n])) (s, [])
    (r.1, .ok (if r.2.contains 2 then 2 else if r.2.contains 0 then 0 else 1))
/-- A launch may begin dispatch (R94, R96): SERIAL waits for the grid events of all earlier launches of its queue, else those
have begun; one whose teams are all in other packages begins there. -/
def mayBegin (s : State) (l : Launch) : Bool :=
  s.launches.all fun p =>
    let x := p.2
    let away := (s.teams.filter fun t => t.2.launch = x.id).all fun t => t.2.phase = .away || t.2.phase = .done
    !(x.die = l.die && x.queue = l.queue && x.index < l.index) || x.gridDone || (!l.serial && (x.started || x.done = x.teams || away))
/-- A team is ready now: it joins the back of its list, and its block is carved (R107, R108). -/
def becomeReady (s : State) (d key : Nat) : State :=
  let s := s.modTeam key fun t => { t with phase := .ready, prio := levelOf s t }
  let s := joinBack s d key
  (carve s key).getD s
/-- The waiting teams of a die that are ready as soon as a team is, in the order of R108: by acceptance of their launches, then by t. -/
def readyWith (s : State) (d : Nat) : State × List Nat :=
  let l := s.teams.filter fun x => x.2.die = d && x.2.phase = .waiting
  let at_ (x : Nat × Team) : Nat := (s.launch x.2.launch).index * 2 ^ 20 + x.2.t
  (l.mergeSort fun a b => decide (at_ a ≤ at_ b)).foldl (fun (r : State × List Nat) x =>
    let launch := r.1.launch x.2.launch
    match depState r.1 (unitWho d launch.pindex launch.pid) launch.packet x.2.t with
    | (s, .ok 1) => (s, if mayBegin s launch then r.2 ++ [x.1] else r.2)
    | (s, _) => (s, r.2)) (s, [])
/-- TEAM_DEPENDENCE_RESOLVED (R97): the team becomes ready, or completes with STATUS 6; while neither, it waits. -/
def execTeamDependenceResolved (d : DieId) (team : Nat) (s : State) : Out :=
  match s.team? team with
  | none => .next s
  | some t =>
    if t.phase ≠ .waiting then .next s
    else
      let l := s.launch t.launch
      let who := unitWho d l.pindex l.pid
      let again : Instr := .teamDependenceResolved d team
      match depState s who l.packet t.t with
      | (s, .error (.fail a r)) => .next (raiseAgain s d (.event t.launch t.t) (teamName l t.t) a r 14 again).1
      | (s, .error (.frozen pa)) => .next (unitBreaks s d (.event t.launch t.t) (teamName l t.t) pa again)
      | (s, .error _) => .next (s.push again)
      | (s, .ok 2) => .next (releaseTeam s team 6)
      | (s, .ok n) =>
        if n = 0 || !mayBegin s l then .next (s.push again)
        else
          let (s, all) := readyWith s d
          .next (kickPlace (all.foldl (fun s k => becomeReady s d k) s) d)

/-! ### Moves (R117) -/

/-- TEAM_MOVE (R117): the schedule core's order to move a running team suspends it first; one for a team that moves has no effect. -/
def execTeamMove (d : DieId) (team : Nat) (s : State) : Out :=
  match s.team? team with
  | none => .next s
  | some t =>
    if t.die ≠ d.val || !scheduleUp s d then .next s
    else if t.phase = .running then .next (startMove (suspendTeam s team true) team)
    else .next (startMove s team)
/-- TEAM_MOVE_COMPLETE (R117): after the drain the block is written, and the team is ready again. A follow-on whose copy has
landed goes with the team's entries. -/
def execTeamMoveComplete (d : DieId) (team : Nat) (s : State) : Out :=
  match s.team? team with
  | none => .next s
  | some t =>
    if t.phase ≠ .moving then .next s
    else if draining s t team then .next (s.push (.teamMoveComplete d team))
    else if t.killed then .next (releaseTeam s team t.status)
    else
      let l := s.launch t.launch
      .next (withRange s (t.who l) t.ctx.toNat t.ctxBytes .atomic (.context t.launch t.t) (teamName l t.t) 16
        (.teamMoveComplete d team) fun s =>
          let k := clusterKey d t.cluster
          let mine (e : SeqEntry) : Bool := e.wave / 16 = team
          let ons := (s.cluster k).copies.filterMap fun x => if x.wave / 16 = team then x.follow else none
          let queued := (s.cluster k).seq.filter mine
          let s := s.modCluster k fun x => { x with
            seq := x.seq.filter fun e => !mine e
            copies := x.copies.filter fun y => y.wave / 16 ≠ team
            writeout := x.writeout.filter fun y => y.2.1 ≠ team
            claims := x.claims.filter fun y => y.wave / 16 ≠ team }
          let s := s.modTeam team fun t => { t with store := t.store ++ queued ++ ons }
          let s := saveBlock s team
          let s := s.modTeam team fun t => { t with phase := .saved, banks := [] }
          kickPlace (traceTeam s t 8) d)

/-! ### Slices, kills, region tables (R112, R119, R102) -/

/-- A ready team of T's priority that waits for room on the die, which T's suspension would give it within R105. -/
def sliceWaiter (s : State) (d : Nat) (key : Nat) (t : Team) : Option Nat :=
  (readyList s d).find? fun k =>
    let x := s.team k
    x.prio = t.prio && teamAwake s k && x.fault.isNone && match x.phase with
      | .suspended => x.cluster = t.cluster && !canResume s d x && canResume s d x [key]
      | .ready | .saved =>
        !((List.range 64).any fun c => canPlaceOn s d c x) && canPlaceOn s d t.cluster x [key]
      | _ => false
/-- A running team has used up its slice, having run for `ran` µs, and another would take its place. -/
def sliceDue (s : State) (d key : Nat) (t : Team) (ran : Nat) : Bool :=
  let l := s.launch t.launch
  let slice := regionEff (regionTable s d l.pid) l.region 1
  t.phase = .running && t.die = d && slice ≠ 0 && decide (slice ≤ ran) && (sliceWaiter s d key t).isSome
/-- Of several teams whose slices are over the one goes first that has run longest since its placement: one before `key`, if any. -/
def longerRun (s : State) (d key ran : Nat) : Option Nat :=
  let us (t : Team) : Nat := (s.time - t.since) / 1000
  let l := s.teams.filter fun x => x.1 ≠ key && decide (ran < us x.2) && sliceDue s d x.1 x.2 (us x.2)
  (l.foldl (fun (o : Option (Nat × Team)) x => match o with
    | none => some x
    | some y => if us y.2 < us x.2 then some x else some y) none).map Prod.fst
/-- The rotation of R112: the team is suspended to the back of its list, and the waiting team takes its place. -/
def rotate (s : State) (d key : Nat) : State :=
  let t := s.team key
  match sliceWaiter s d key t with
  | none => s
  | some k =>
    if (s.team k).phase = .suspended then
      match tryResume s k with
      | (s, true) => kickPlace (resumeTeam (suspendTeam s key false) k) d
      | (s, false) => s
    else match tryBlock s d t.cluster k with
      | (s, true) => kickPlace (putTeam (suspendTeam s key false) d t.cluster k) d
      | (s, false) => s
/-- The rotations due up to that of the named team, the longest run first (R112). -/
def rotateUpTo (d key ran : Nat) : Nat → State → State
  | 0, s => if sliceDue s d key (s.team key) ran then rotate s d key else s
  | f + 1, s =>
    if !sliceDue s d key (s.team key) ran then s
    else match longerRun s d key ran with
      | some k => rotateUpTo d key ran f (rotate s d k)
      | none => rotate s d key
/-- TIME_SLICE_EXPIRE (R112): the schedule core rotates a team that has run for its slice. A pre-emption that is due goes first (R120), and
so does a team that has run longer. -/
def execTimeSliceExpire (d : DieId) (team : Nat) (ranUs : Nat) (s : State) : Out :=
  if !scheduleUp s d then .next s
  else match s.team? team with
  | none => .next s
  | some t =>
    if !sliceDue s d team t ranUs then .next s
    else
      let s := decide1 s d
      .next (rotateUpTo d team ranUs (s.teams.length + 1) s)
/-- TEAM_KILL (R119). -/
def execTeamKill (d : DieId) (team : Nat) (status : BitVec 16) (s : State) : Out :=
  match s.team? team with
  | none => .next s
  | some t => if t.die = d.val && t.phase ≠ .ended && t.phase ≠ .done then .next (killTeam s team status) else .next s
/-- REGION_TABLE_READ (R102): the schedule core reads the table that the instance keeps for the process. -/
def execRegionTableRead (d : DieId) (pid : W32) (s : State) : Out :=
  if !scheduleUp s d then .next s
  else match (s.die d).image.regionBase.find? fun r => r.1 = pid.toNat with
  | none => .next s
  | some (_, base, n) =>
    let tab := s.peekBytes d base (256 * n)
    .next (kickPlace (s.modDie d fun x => { x with sched := { x.sched with regions := mset x.sched.regions pid.toNat tab } }) d)

end Sys2Proof.Machine
end

