-- ==== Sys2Proof/Machine/Queue.lean ====
section
/-! DEFINITION. Queues and launches (R87 to R99, R106, R107): wake stores, hardware slots, the spillway, the parse of a
packet, LAUNCH requests, and what the refusal of the parse core's faults does (R431). -/

namespace Sys2Proof.Machine

/-! ### Queues -/

def modHost (s : State) (d : Nat) (f : HostState → HostState) : State := s.modDie d fun x => { x with host := f x.host }
def queuePid (s : State) (d q : Nat) : W32 := BitVec.ofNat 32 (queueNat s d q 12 4)
def queueState (s : State) (d q : Nat) : Nat := queueNat s d q 10 1
def queueHead (s : State) (d q : Nat) : Nat := queueNat s d q 16 4
def queueTail (s : State) (d q : Nat) : Nat := queueNat s d q 20 4
def queueEn (s : State) (d q : Nat) : Bool := bit (queueNat s d q 9 1) 0
def queueFed (s : State) (d q : Nat) : Bool := bit (queueNat s d q 9 1) 1
/-- Packets in the ring that have not been consumed. -/
def queueLeft (s : State) (d q : Nat) : Nat := (queueTail s d q + 2 ^ 32 - queueHead s d q) % 2 ^ 32
/-- The address of ring entry n. -/
def ringEntry (s : State) (d q n : Nat) : Nat := (queueNat s d q 0 8 + 128 * (n % 2 ^ queueNat s d q 8 1)) % 2 ^ 64
def queueSlot (s : State) (d q : Nat) : Option QueueSlot := (s.die d).host.slots.find? fun x => x.q = q
def pageOfQueue (s : State) (d q : Nat) : Option SavePage := (s.die d).host.pages.find? fun p => p.queues.contains q
/-- A descriptor is bad (R87): a reserved byte, LOG2N, the alignment of RING and SAVE, the place of SAVE, or a STATE that
no slot or save page bears out (R92). -/
def badDescriptor (s : State) (d q : Nat) : Bool :=
  let n (off k : Nat) : Nat := queueNat s d q off k
  let save := n 32 8
  n 9 1 / 8 ≠ 0 || n 11 1 / 2 ≠ 0 || n 30 2 ≠ 0 || n 40 24 ≠ 0 || decide (n 8 1 < 4) || decide (16 < n 8 1) || n 0 8 % 128 ≠ 0 ||
    save % 512 ≠ 0 || decide (save < lpddrBase d) || decide (lpddrBase d + lpddrSize ≤ save) ||
    !(match n 10 1 with
      | 0 => true
      | 1 => (queueSlot s d q).isSome
      | 2 => (pageOfQueue s d q).isSome
      | _ => false)
/-- A message or completion is not put on its way twice. -/
def pushOnce (s : State) (i : Instr) : State := if s.agenda.contains i then s else s.push i
def kickParse (s : State) (d q : Nat) : State := pushOnce s (.packetParse (Fin.ofNat 8 d) (BitVec.ofNat 20 q))
/-- An access of the parse core for the queue waits for the answer to a fault. -/
def queueFault (s : State) (d q : Nat) : Bool := (s.die d).tr.faults.any fun f => f.owner = .queue q

/-- Take a slot for a queue (R90). -/
def takeSlot (s : State) (d q : Nat) : State :=
  let t := mget 0 (s.die d).host.woken q
  let s := modHost s d fun h => { h with slots := h.slots ++ [{ q := q, woken := t, since := s.time }], waking := h.waking.filter (· ≠ q) }
  kickParse (setQueue s d q 10 [1]) d q
/-- A queue leaves its slot. -/
def leaveSlot (s : State) (d q : Nat) : State :=
  if (queueSlot s d q).isSome then
    setQueue (modHost s d fun h => { h with slots := h.slots.filter fun x => x.q ≠ q }) d q 10 [0]
  else s
/-- The slot that an arriving queue takes: the least recently woken queue without packets leaves it. -/
def idleSlot (s : State) (d : Nat) : Option Nat :=
  (((s.die d).host.slots.filter fun x => queueLeft s d x.q = 0).foldl (fun (o : Option QueueSlot) x => match o with
    | none => some x
    | some y => if x.woken < y.woken then some x else some y) none).map QueueSlot.q
/-- Map a resident queue to a free slot, or to an idle queue's; else it goes on waiting. -/
def mapQueue (s : State) (d q : Nat) : State :=
  if (s.die d).host.slots.length < Config.queueSlots then takeSlot s d q
  else match idleSlot s d with
    | some x => takeSlot (leaveSlot s d x) d q
    | none => s
/-- The resident queues that wait for a slot, in the order of their wake stores (R90). -/
def slotWaiters (s : State) (d : Nat) : List Nat := (s.die d).host.waking.filter fun q => queueState s d q = 0
/-- The queues that wait for a slot take what they can. -/
def grantSlots (s : State) (d : Nat) : State := (slotWaiters s d).foldl (fun s q => mapQueue s d q) s
/-- A queue waits for a slot and there is none for it. -/
def slotsShort (s : State) (d : Nat) : Bool := decide (Config.queueSlots ≤ (s.die d).host.slots.length) && !(slotWaiters s d).isEmpty
/-- A queue is taken out of its save page. -/
def dropFromPage (s : State) (d q : Nat) : State :=
  modHost s d fun h => { h with pages := (h.pages.map fun p => { p with queues := p.queues.filter (· ≠ q) }).filter fun p => !p.queues.isEmpty }

/-- The parse core writes the status of a packet that failed its queue into its grid event, if it can (R92). -/
def failEvent (s : State) (d q : Nat) : State :=
  match findProcess s d (queuePid s d q) with
  | none => s
  | some i =>
    let who := unitWho d i (queuePid s d q)
    let va := ringEntry s d q (queueHead s d q)
    if queueLeft s d q = 0 || rangeCheck s who va 128 .load ≠ .ok then s
    else
      let (s, n) := virtualNat s who va 128
      let p : BitVec 1024 := BitVec.ofNat 1024 n
      let ev := packNat p 48 8
      if ev = 0 || ev % 16 ≠ 0 || rangeCheck s who ev 16 .store ≠ .ok then s
      else writeVirtual who ev 16 (putBytes [] (atOffsets 0 (eventBytes s { packet := p } 5))) s
/-- A queue fails (R92): HEAD stays at the packet, its slot and its place in a save page are given up, the instance is told, and the
packet's grid event gets STATUS 5. -/
def failQueue (s : State) (d q code : Nat) : State :=
  let head := queueHead s d q
  let s := dropFromPage (modHost s d fun h => { h with slots := h.slots.filter fun x => x.q ≠ q, waking := h.waking.filter (· ≠ q) }) d q
  let s := setQueue (setQueue (setQueue s d q 10 [3]) d q 24 (leBytes 4 head)) d q 28 (leBytes 2 code)
  let s := instanceMsg s d 0x201 q (queuePid s d q) head code 0
  grantSlots (failEvent s d q) d

/-! ### Wake stores (R88, R89, R99) -/

/-- An accepted wake: TAIL, the time, and the work it starts by the queue's STATE (R90); the write-out of its save page is abandoned for the
queue (R91). -/
def startQueue (s : State) (d q v t0 : Nat) : State :=
  let now := s.time
  let s := setQueue s d q 20 (leBytes 4 v)
  let s := modHost s d fun h => { h with
    woken := mset h.woken q now
    wakes := h.wakes ++ [(q, v, now, t0)]
    slots := h.slots.map fun x => if x.q = q then { x with woken := now } else x }
  if (queueSlot s d q).isSome then kickParse s d q
  else
    let s := if queueState s d q = 0 then dropFromPage s d q else s
    let s := modHost s d fun h => { h with waking := if h.waking.contains q then h.waking else h.waking ++ [q] }
    pushOnce s (.queueMap (Fin.ofNat 8 d) (BitVec.ofNat 20 q))
/-- A wake store that R88 lets through: a bad descriptor fails the queue; R89 accepts the value or sets BADWAKE. -/
def wakeQueue (s : State) (d q v t0 : Nat) : State :=
  if badDescriptor s d q then failQueue s d q 1
  else
    let size := 2 ^ queueNat s d q 8 1
    if (v + 2 ^ 32 - queueHead s d q) % 2 ^ 32 ≤ size && (v + 2 ^ 32 - queueTail s d q) % 2 ^ 32 < 2 ^ 31 then startQueue s d q v t0
    else setQueue s d q 11 [1]
/-- The binding of a host client at the die of its port (R82). -/
def wakePasid (s : State) : WakeWriter → Option (W32 × Bool)
  | .host p n => pasidOf s p n
  | _ => none
/-- The writer may store to the page of queue q (R88): a wave or a host client whose process it is granted to. A client without a process
has no such page; supervisor cores and LAUNCH are not held to the grant. -/
def mayWake (s : State) (d q : Nat) (w : WakeWriter) : Bool :=
  let ok (pid : W32) : Bool := pageOwner s d (q / 512) = some pid
  match w with
  | .wave key => (s.wave? key).all fun x => ok (waveWho s x).pid
  | .host _ _ => (wakePasid s w).any fun x => ok x.1
  | _ => true
/-- A store to a page that is not granted is an access-window violation of its writer (R88, R212). -/
def wakeBreaks (s : State) (d q : Nat) (w : WakeWriter) : State :=
  let pa := ctlBase d + 0x800000 + 8 * q
  match w with
  | .wave key => match s.wave? key with
    | some x => let who := waveWho s x; freezeCluster s who.d who.cluster pa (waveName s x 0 none) key
    | none => s
  | .host p n => freezeHost s p n pa
  | _ => s
/-- The process that a page of the window is granted to is kept (assumption 24). -/
def noteGrant (s : State) (d page : Nat) : State :=
  match pageOwner s d page with
  | some p => modHost s d fun h => { h with grants := mset h.grants page p }
  | none => s
/-- A wake store waits with the later ones to its queue, in their order (R89). -/
def deferWake (s : State) (d : DieId) (q : BitVec 20) (i : Instr) : State :=
  let mine (x : Instr) : Bool := match x with | .wakeStore e p _ _ => e = d && p = q | _ => false
  { s with agenda := s.agenda.filter (fun x => !mine x) ++ [i] ++ s.agenda.filter mine }
/-- WAKE_STORE (R88, R89). A supervisor's launch began with its system call (R131, assumption 52). -/
def execWakeStore (d : DieId) (q : BitVec 20) (value : W64) (w : WakeWriter) (s : State) : Out :=
  let n := q.toNat
  if (wakePasid s w).any Prod.snd then .next s
  else if !mayWake s d n w then .next (wakeBreaks s d n w)
  else
    let s := noteGrant s d (n / 512)
    if 2 ^ 32 ≤ value.toNat || !queueEn s d n || queueState s d n = 3 then .next s
    else if parseStopped s d then .next (deferWake s d q (.wakeStore d q value w))
    else if queueFed s d n && w ≠ .launch then .next (setQueue s d n 11 [1])
    else .next (wakeQueue s d n value.toNat (if w = .supervisor then s.time - Config.syscallNs s.ticks else s.time))

/-! ### Slots and the spillway (R90, R91) -/

/-- QUEUE_MAP (R90). -/
def execQueueMap (d : DieId) (q : BitVec 20) (s : State) : Out :=
  let n := q.toNat
  if parseStopped s d then .next (s.push (.queueMap d q))
  else if (queueSlot s d n).isSome || !queueEn s d n then .next s
  else match queueState s d n with
    | 0 => .next (grantSlots s d)
    | 2 => match pageOfQueue s d n with
      | some p =>
        .next (modHost s d fun h => { h with pages := h.pages.map fun x =>
          if x.page = p.page && !x.reading then { x with reading := true, retried := false, since := s.time } else x })
      | none => .next (failQueue s d n 1)
    | 3 => .next s
    | _ => .next (failQueue s d n 1)
/-- QUEUE_SLOT_TIMEOUT (R90): a queue without packets leaves its slot at once, another after its current packet. -/
def execQueueSlotTimeout (d : DieId) (q : BitVec 20) (s : State) : Out :=
  let n := q.toNat
  if !slotsShort s d || (queueSlot s d n).isNone then .next s
  else if queueLeft s d n = 0 then .next (grantSlots (leaveSlot s d n) d)
  else .next (modHost s d fun h => { h with slots := h.slots.map fun x => if x.q = n then { x with leaving := true } else x })
/-- A queue may be spilled (R91): it has not been woken for 1 s. -/
def maySpill (s : State) (d q : Nat) : Bool :=
  decide (mget 0 (s.die d).host.woken q + 10 ^ 9 ≤ s.time) &&
  queueState s d q = 0 && !bit (queueNat s d q 9 1) 2 && queueLeft s d q = 0 && !badDescriptor s d q &&
    (pageOfQueue s d q).isNone && !(s.die d).host.waking.contains q
/-- The die whose NVMe port serves the spillway of a die: the other one if that port is down (R91). -/
def spillPort (s : State) (d : Nat) : Nat :=
  let p := if d < 4 then 0 else 4
  if s.ctlBits p 0x6000 7 6 = 3 then 4 - p else p
/-- QUEUE_SPILL (R91): 128 queues that may be spilled go out as one save page with its trailer. -/
def execQueueSpill (d : DieId) (qs : List (BitVec 20)) (s : State) : Out :=
  let l := qs.map BitVec.toNat
  if parseStopped s d || l.length ≠ 128 || !decide l.Nodup || !l.all (maySpill s d) then .next s
  else
    let bytes := l.flatMap fun q => s.peekBytes d (queueNat s d q 32 8) 512
    let n := (s.die d).host.nextPage
    let s := modHost s d fun h => { h with nextPage := n + 1, pages := h.pages ++ [{ page := n, queues := l, bytes := bytes }] }
    .next { s with outbox := s.outbox ++ [⟨d, 15, spillPort s d, leBytes 8 n ++ bytes ++ leBytes 8 (crc64 bytes).toNat ++ zeros 56⟩] }
/-- SAVE_PAGE_WRITE_OUT_COMPLETE (R91). -/
def execSavePageWriteOutComplete (d : DieId) (page : Nat) (s : State) : Out :=
  match (s.die d).host.pages.find? fun p => p.page = page && !p.written with
  | none => .next s
  | some p =>
    let s := modHost s d fun h => { h with pages := h.pages.map fun x => if x.page = page then { x with written := true } else x }
    .next (p.queues.foldl (fun s q => if queueState s d q = 0 then setQueue s d q 10 [2] else s) s)
/-- The woken queues of a page that has been read back are resident again, and wait for their slots. -/
def pageBack (s : State) (d : Nat) (p : SavePage) : State :=
  let woken := p.queues.filter fun q => (s.die d).host.waking.contains q
  let at? (q : Nat) : List Byte := (p.bytes.drop (512 * p.queues.idxOf q)).take 512
  let s := modHost s d fun h => { h with
    pages := (h.pages.map fun x => if x.page = p.page then
        { x with reading := false, queues := x.queues.filter fun q => !woken.contains q
                 bytes := (x.queues.filter fun q => !woken.contains q).flatMap at? } else x).filter fun x => !x.queues.isEmpty
    reads := h.reads ++ woken.map fun q => (q, p.since, s.time) }
  grantSlots (woken.foldl (fun s q => setQueue (s.unitWrite d (queueNat s d q 32 8) (at? q)) d q 10 [0]) s) d
/-- QUEUE_READBACK_COMPLETE (R91): one retry; then the queues of the page fail with ERRCODE 4. -/
def execQueueReadbackComplete (d : DieId) (page : Nat) (readOk : Bool) (s : State) : Out :=
  match (s.die d).host.pages.find? fun p => p.page = page && p.reading with
  | none => .next s
  | some p =>
    if readOk then .next (pageBack s d p)
    else if !p.retried then
      .next (modHost s d fun h => { h with pages := h.pages.map fun x => if x.page = page then { x with retried := true } else x })
    else
      let s := modHost s d fun h => { h with pages := h.pages.filter fun x => x.page ≠ page }
      let s := (errorRec s d 2 9 0 [] 8 0).1
      .next (p.queues.foldl (fun s q => failQueue s d q 4) s)

/-! ### The packet (R93 to R96, R106, R107) -/

/-- A dependence entry breaks R97. -/
def badDep (p : BitVec 1024) (n : Nat) : Bool :=
  let o := 64 + 16 * n
  let mode := packNat p (o + 12) 1 % 4
  if mode = 0 then packNat p o 16 ≠ 0
  else packNat p o 8 % 16 ≠ 0 || packNat p (o + 12) 1 / 4 % 32 ≠ 0 || packNat p (o + 14) 2 ≠ 0 || decide (19 < packNat p (o + 13) 1)
/-- A register window is outside its limits. -/
def badWindow (w : Nat) : Bool := decide (w < 16) || decide (1024 < w) || w % 16 ≠ 0
def gridTeams (p : BitVec 1024) : Nat := (packNat p 28 2 + 1) * (packNat p 30 2 + 1) * (packNat p 32 2 + 1)
/-- A packet is bad by itself (R95). -/
def badPacket (p : BitVec 1024) : Bool :=
  let n := packNat p
  let roles := bit (n 1 1) 0
  let feed := n 34 1
  n 0 1 ≠ 1 || n 1 1 / 4 ≠ 0 || bit (n 2 1) 7 || n 3 1 ≠ 0 || bitsOf (n 56 2) 14 11 ≠ 0 || n 58 6 ≠ 0 ||
    decide (2 ^ 20 < gridTeams p) || roles = (feed = 0) || decide (15 < feed) || n 35 1 = 0 || decide (16 < feed + n 35 1) ||
    (if feed = 0 then n 36 2 ≠ 0 else badWindow (n 36 2)) || badWindow (n 38 2) || n 8 8 % 64 ≠ 0 || n 40 8 % 16 ≠ 0 ||
    n 48 8 % 16 ≠ 0 || (List.range 4).any (badDep p)
/-- A packet is bad by its kernel descriptor (R95, R216). -/
def badKernel (p : BitVec 1024) (k : List Byte) : Bool :=
  let n (off m : Nat) : Nat := leNat ((k.drop off).take m)
  (bit (packNat p 1 1) 0 && n 8 8 = 0) || decide (8 < n 32 1) || n 33 7 ≠ 0 || n 48 16 ≠ 0 || n 40 8 / 16 ≠ 0

/-- The dies of the leaf's place mask that are in the view, as indexes (R107). -/
def placeDies (s : State) (d : Nat) (tab : List Byte) (region : Nat) : List Nat :=
  maskDies (BitVec.ofNat 512 (regionEff tab region 6) &&& (s.die d).image.view)
/-- A launch is rejected (R106). -/
def rejects (s : State) (d : Nat) (pid : W32) (p : BitVec 1024) (tilemax : Nat) : Bool :=
  let tab := regionTable s d pid
  let r := packNat p 24 4
  decide (regionCount tab ≤ r) || !bit (regionNat tab r 15 1) 0 || !regionsValid tab || decide (Config.registerBytes < packLines p) ||
    ((regionPath tab (regionCount tab) r).any fun i => decide (regionEff tab i 4 < packLines p + tilemax * 65536)) ||
    decide (regionEff tab r 7 / 2 ^ 64 < packBlock p tilemax) || (placeDies s d tab r).isEmpty

/-- The first wake that covers the packet at HEAD, for the time record: its time and its launch's start (R131). -/
def wakeOf (s : State) (d q head : Nat) : Nat × Nat :=
  match (s.die d).host.wakes.find? fun w => w.1 = q && w.2.1 ≠ head with
  | some (_, _, t, t0) => (t, t0)
  | none => (s.time, s.time)
/-- The time before a launch was accepted: system call, storage wait, queueing (R131). -/
def chargeBefore (s : State) (d q wake t0 : Nat) (l : Launch) : Launch :=
  let read := sumNat (((s.die d).host.reads.filter fun r => r.1 = q).map fun r => r.2.2 - max r.2.1 wake)
  addClass (addClass (addClass l 5 (wake - t0)) 2 read) 4 (s.time - wake - read)
/-- The launch id that comes next: never 0, and none that has been given (R121). -/
def newLaunchId (s : State) (d : Nat) : Nat :=
  let id (n : Nat) : Nat := (n * 512 + s.dieIndex d) % 2 ^ 32
  let n := (s.die d).host.nextLaunch
  id (n + ((List.range (s.launches.length + 1)).find? fun k => id (n + k) ≠ 0 && (mfind s.launches (id (n + k))).isNone).getD 0)
/-- Team t of an accepted launch, assigned to its die; a rejected one only has its event to come. -/
def newTeam (s : State) (d id : Nat) (p : BitVec 1024) (tilemax : Nat) (dies : List Nat) (rejected : Bool) (t : Nat) : Team :=
  let n := dies.getD (t % dies.length) 0
  { launch := id, t := t, die := if rejected then d else if n / 8 = s.pkg then n % 8 else 8 + n
    phase := if rejected then .ended else if n / 8 = s.pkg then .waiting else .away
    waves := packWaves p, tilemax := tilemax, regBytes := packLines p, ctxBytes := packBlock p tilemax
    status := if rejected then 5 else 0 }
/-- A team's first event: its dependences, its completion if it is rejected, or its way to another package. -/
def startTeam (s : State) (d : Nat) (team : Nat) : State :=
  let t := s.team team
  match t.phase with
  | .ended => s.push (.teamEventWrite (Fin.ofNat 8 d) team)
  | .away =>
    let s : State := { s with outbox := s.outbox ++ [⟨d, 16, t.die - 8, leBytes 8 team⟩] }
    s.push (.teamEventWrite (Fin.ofNat 8 d) team)
  | _ => s.push (.teamDependenceResolved (Fin.ofNat 8 t.die) team)
/-- A packet is accepted: the launch, its teams, and HEAD. -/
def acceptPacket (s : State) (d q pindex : Nat) (p : BitVec 1024) (k : List Byte) : State :=
  let pid := queuePid s d q
  let head := queueHead s d q
  let id := newLaunchId s d
  let tilemax := leNat ((k.drop 32).take 1)
  let bad := rejects s d pid p tilemax
  let (wake, t0) := wakeOf s d q head
  let n := gridTeams p
  let l : Launch := chargeBefore s d q wake t0
    { id := id, packet := p, die := d, queue := q, pid := pid, pindex := pindex, kernel := atOffsets 0 k
      region := packNat p 24 4, prio := packNat p 2 1 % 128, teams := n, waves := packWaves p, serial := bit (packNat p 1 1) 1
      rejected := bad, t0 := t0, accepted := s.time, index := s.launches.length }
  let dies := placeDies s d (regionTable s d pid) l.region
  let next := (head + 1) % 2 ^ 32
  let s := setQueue s d q 16 (leBytes 4 next)
  let s := modHost s d fun h => { h with
    nextLaunch := id / 512 + 1
    wakes := h.wakes.filter fun w => !(w.1 = q && w.2.1 = next) }
  let s := { s with launches := mset s.launches id l }
  let s := (List.range n).foldl (fun s t => { s with teams := mset s.teams (teamKey id t) (newTeam s d id p tilemax dies bad t) }) s
  (List.range n).foldl (fun s t => startTeam s d (teamKey id t)) s
/-- After a packet: the queue leaves its slot if it must, or reads on. -/
def afterPacket (s : State) (d q : Nat) : State :=
  let left := queueLeft s d q
  if slotsShort s d && (left = 0 || (queueSlot s d q).any QueueSlot.leaving) then
    let s := leaveSlot s d q
    let s := if left = 0 then s else modHost s d fun h => { h with waking := h.waking ++ [q] }
    grantSlots s d
  else if left = 0 then s
  else kickParse s d q
/-- PACKET_PARSE (R95). -/
def execPacketParse (d : DieId) (q : BitVec 20) (s : State) : Out :=
  let n := q.toNat
  if parseStopped s d then .next (s.push (.packetParse d q))
  else if (queueSlot s d n).isNone || !queueEn s d n || queueLeft s d n = 0 || queueFault s d n then .next s
  else
    let pid := queuePid s d n
    match findProcess s d pid with
    | none => .next (failQueue s d n 3)
    | some i =>
      let who := unitWho d i pid
      let name := joinedName pid.toNat 0 0 0 0 0 none
      let va := ringEntry s d n (queueHead s d n)
      .next (withRange s who va 128 .load (.queue n) name 14 (.packetParse d q) fun s =>
        let (s, v) := virtualNat s who va 128
        let p : BitVec 1024 := BitVec.ofNat 1024 v
        if badPacket p then failQueue s d n 2
        else withRange s who (packNat p 8 8) 64 .load (.queue n) name 14 (.packetParse d q) fun s =>
          let (s, l) := readVirtual who (packNat p 8 8) 64 s
          let k := bytesAt (putBytes [] l) 0 64
          if badKernel p k then failQueue s d n 2
          else afterPacket (acceptPacket s d n i p k) d n)

/-! ### LAUNCH (R99) -/

/-- The code of a LAUNCH returns to its wave. -/
def launchCode (s : State) (r : LaunchReq) (code : Nat) : State :=
  s.modWave r.wave fun w => if w.wait = .launch r.landing then { w with wait := .launched (BitVec.ofNat 64 code) } else w
/-- LAUNCH_REQUEST_RECEIVE (R99). -/
def execLaunchRequestReceive (d : DieId) (r : LaunchReq) (s : State) : Out :=
  let q := r.queue.toNat
  let i := Instr.launchRequestReceive d r
  let s := if r.src = d then s else s.absorb d r.clock
  if parseStopped s d then .next (s.push i)
  else if !queueEn s d q || !queueFed s d q || queuePid s d q ≠ r.pid then .next (launchCode s r 2)
  else if queueState s d q = 3 then .next (launchCode s r 3)
  else if badDescriptor s d q then .next (launchCode (failQueue s d q 1) r 3)
  else if 2 ^ queueNat s d q 8 1 ≤ queueLeft s d q then .next (launchCode s r 1)
  else match findProcess s d r.pid with
    | none => .next (launchCode (failQueue s d q 3) r 3)
    | some x =>
      let who := unitWho d x r.pid
      let va := ringEntry s d q (queueTail s d q)
      .next (withRange s who va 128 .store (.launchWrite r.wave) (joinedName r.pid.toNat 0 0 0 0 0 none) 15 i fun s =>
        let s := writeVirtual who va 128 (putBytes [] (atOffsets 0 (leBytes 128 r.packet.toNat))) s
        launchCode (startQueue s d q ((queueTail s d q + 1) % 2 ^ 32) r.t0) r 0)

/-! ### Refused faults of the parse core and the dispatcher (R431) -/

/-- A completion event that is not written (R431, R432). -/
def eventLost (s : State) (d launch t : Nat) : State :=
  let l := s.launch launch
  let grid := decide (2 ^ 20 ≤ t)
  let va := if grid then l.pk 48 8 else l.pk 40 8 + 16 * t
  let s := instanceMsg s d 0x202 l.queue l.pid (l.pk 4 4) 0 va
  if grid then gridDone s d l else teamDone s (teamKey launch t)
/-- What a refusal does that concerns no wave and no engine. The refused read of a dependence leaves its team waiting. -/
def refuseOther (s : State) (f : FaultRec) (d : Nat) : State :=
  match f.owner with
  | .queue q => if queueState s d q = 3 then s else failQueue s d q 3
  | .event l t => match f.again with
    | some (.teamDependenceResolved _ _) => s
    | _ => eventLost s d l t
  | .context l t => releaseTeam s (teamKey l t) 4
  | .launchWrite _ => match f.again with
    | some (.launchRequestReceive _ r) =>
      let q := r.queue.toNat
      launchCode (if queueState s d q = 3 then s else failQueue s d q 3) r 3
    | _ => s
  | _ => s
end Sys2Proof.Machine
end

