-- ==== Sys2Proof/Machine/Agreement.lean ====
section
/-! DEFINITION. The system image (R64 to R68, R75 to R78, R80): agreement messages as an instance sends and applies them,
the loss of a die, the recovery of a lost sequencer, re-homing, region outcomes, and withdrawal. What an instance does here
its software does on the supervisor cores; the model does it when the message or event comes (assumption 25). -/

namespace Sys2Proof.Machine

/-! ### Agreement messages (R66) -/

def agreeOp (b : Body) : Nat := bodyNat b 0 1
def agreeEpoch (b : Body) : Nat := bodyNat b 4 4
def agreeSubject (b : Body) : Nat := bodyNat b 8 8
/-- A body: OP, EPOCH, SUBJECT and the OPERAND's bytes. -/
def agreeBody (op epoch subject : Nat) (operand : List Byte) : Body :=
  bodyOf (leBytes 1 op ++ zeros 3 ++ leBytes 4 epoch ++ leBytes 8 subject ++ (operand ++ zeros 32).take 32)
/-- A reserved byte or unused bit of a body is not zero (R67). -/
def agreeReserved (b : Body) : Bool :=
  let n (k m : Nat) : Bool := bodyNat b k m ≠ 0
  n 1 3 || match agreeOp b with
    | 1 => n 8 8 || n 16 32
    | 2 => decide (512 ≤ agreeSubject b) || n 16 32
    | 3 => decide (512 ≤ agreeSubject b) || n 16 32
    | 4 => n 8 8 || n 24 24
    | 5 => decide (2 ^ 32 ≤ agreeSubject b) || decide (64 ≤ bodyNat b 28 1) || n 29 3 || n 40 8
    | 6 => decide (2 ^ 32 ≤ agreeSubject b) || n 16 32
    | 7 => decide (2 ^ 32 ≤ agreeSubject b) || n 16 32
    | _ => bitsOf (agreeSubject b) 31 20 ≠ 0 || bitsOf (agreeSubject b) 63 38 ≠ 0
/-- A message is void at a member (R67). -/
def agreeVoid (s : State) (d : Nat) (b : Body) : Bool :=
  let x := (s.die d).image
  agreeEpoch b ≠ x.epoch.toNat || agreeReserved b || (agreeOp b = 3 && !x.view.getLsbD (agreeSubject b))
/-- An instance multicasts a message on group 0, to mailbox 0 of the members: the spec names no mailbox (assumption 43). -/
def agreeSend (s : State) (d : Nat) (tag : W32) (body : Body) : State :=
  let me := s.dieIndex d
  let m := makeMsg 5 0 true 0 tag body me
  let q := groupSeq s d 0
  if !(groupMask s d 0).getLsbD me then s
  else
    let s := modImage s d fun x => { x with sends := x.sends ++ [(tag, body)] }
    if q / 8 = s.pkg then s.push (.gseqAssign (Fin.ofNat 8 q) 0 m (BitVec.ofNat 9 me) 0)
    else sendAbroad s d q m
/-- The same for an OP at the instance's epoch. -/
def agreeOpSend (s : State) (d op subject : Nat) (operand : List Byte) : State :=
  agreeSend s d 0 (agreeBody op (s.die d).image.epoch.toNat subject operand)
/-- A body at another epoch. -/
def atEpoch (b : Body) (epoch : Nat) : Body := BitVec.ofNat 384 (setBits b.toNat 63 32 epoch)
/-- Write a die's group 0 entry: its members, and the lowest of them as the sequencer (R66). It stands at CFGRPBASE, also while that
still holds its reset value in phase 2 (assumption 43). -/
def writeGroup0 (s : State) (d : Nat) (mask : W512) : State :=
  let q := ((maskDies mask).head?).getD 0
  s.unitWrite d (groupAddr s d 0) (leBytes 64 mask.toNat ++ leBytes 1 (q / 8) ++ leBytes 1 (q % 8))
/-- A new sequencer numbers from GSEQ 1; the members expect number 1. -/
def restartGroup0 (s : State) (d : Nat) (mask : W512) : State :=
  let s := writeGroup0 s d mask
  s.modDie d fun x =>
    let seen := (mget 0 x.conf.seqSeen 0).toNat
    { x with conf := { x.conf with
      seqSeen := mset x.conf.seqSeen 0 0
      seqNext := mset x.conf.seqNext 0 0
      heldMsgs := x.conf.heldMsgs.filter fun p => !(msgMulti p.2.1 && msgGroup p.2.1 = 0 && decide (seen < msgSeq p.2.1)) } }

/-! ### Applying a message (R67) -/

/-- Count an applied message and keep the last 256. -/
def noteApplied (s : State) (d : Nat) (b : Body) : State :=
  modImage s d fun x =>
    let n := x.applied + 1
    let l := x.log ++ [(n.truncate 32, b)]
    { x with applied := n, log := l.drop (l.length - 256) }
/-- LOST for every silent die of the view. -/
def sendLost (s : State) (d : Nat) : State :=
  ((s.die d).conf.silent.filter fun x => (s.die d).image.view.getLsbD x).foldl (fun s x => agreeOpSend s d 3 x []) s
/-- The recovery is over: LOST follows, and then what returned RESULT 3 meanwhile is sent again (R76). -/
def endRecovery (s : State) (d : Nat) : State :=
  let again := (s.die d).image.failed
  let s := sendLost (modImage s d fun x => { x with recover := none, failed := [] }) d
  again.foldl (fun s b => agreeSend s d 0 (atEpoch b (s.die d).image.epoch.toNat)) s
/-- All messages that were sent again have been delivered. -/
def recovered (s : State) (d : Nat) : State :=
  let x := (s.die d).image
  if x.recover.isSome && x.resent = 0 && x.resyncSeen.isEmpty then endRecovery s d else s
/-- What the instance of a die does with a message: nothing if the die is down, and it waits while its supervisor cores are not
released (R23). -/
def instanceDo (s : State) (d : Nat) (i : Instr) (k : Out) : Out :=
  if dieDown s d then .next s else if bootPhase s d < 6 then .next (s.push i) else k
/-- Apply a message i unless it is void; while a recovery is open, one sent again carries its index as TAG and is applied only in
its turn (R76). -/
def agree (i : Instr) (d : DieId) (tag : W32) (b : Body) (apply : State → State) (s : State) : Out :=
  instanceDo s d i <|
  let x := (s.die d).image
  let again := tag ≠ 0 && x.recover.isSome
  let s := if again then modImage s d fun x => { x with resent := x.resent - 1 } else s
  let after (s : State) : State := if again then recovered s d else s
  if again && tag.toNat ≠ x.applied.toNat + 1 then .next (after s)
  else if agreeVoid s d b then .next (after (modImage s d fun x => { x with voids := x.voids + 1 }))
  else .next (after (apply (noteApplied s d b)))
/-- The image epoch rises: the clock carries it, and every read copy of the die is dropped (R190). -/
def raiseEpoch (s : State) (d : Nat) (n : W32) : State :=
  let s := modImage s d fun x => { x with epoch := n }
  s.modCache d fun c => { c with
    clock := { c.clock with epoch := n }
    frames := c.frames.filter fun f => !(f.home ≠ d && !f.pcoh && !f.wb) }

/-! ### Forming the image (R68) -/

/-- The instance is that of the sequencer of its group 0. -/
def sequences (s : State) (d : Nat) : Bool := groupSeq s d 0 = s.dieIndex d
/-- The dies of the package that have halted in a boot phase; with two or more the package does not complete phase 6 (R24). -/
def haltedDies (s : State) : Nat := ((List.range 8).filter fun d => s.ctlBits d 0x20 8 8 = 1).length
def mayForm (s : State) : Bool := decide (haltedDies s < 2)
def sendJoin (s : State) (d : Nat) : State := if mayForm s then agreeSend s d 0 (agreeBody 2 0 (s.dieIndex d) []) else s
def sendForm (s : State) (d : Nat) : State :=
  if !mayForm s then s else modImage (agreeSend s d 0 (agreeBody 1 0 0 [])) d fun x => { x with formSent := true }
/-- The sequencer's instance sends FORM when every expected die has joined. -/
def formReady (s : State) (d : Nat) : State :=
  let x := (s.die d).image
  let mask := groupMask s d 0
  if !x.formed && !x.formSent && sequences s d && mask &&& ~~~x.joined = 0 then sendForm s d else s
/-- JOIN. -/
def execJoin (d : DieId) (tag : W32) (body : Body) (s : State) : Out :=
  agree (.join d tag body) d tag body
    (fun s => formReady (modImage s d fun x => { x with joined := x.joined ||| BitVec.twoPow 512 (agreeSubject body) }) d) s
/-- The time of the system image starts at the first FORM that a die of the package applies (R215). -/
def formTime (s : State) : State := if (List.range 8).any fun e => (s.die e).image.formed then s else { s with formAt := s.now }
/-- FORM: the view is formed of the dies that have joined, and the fused minimum SVN is burned (R72). A die of a package with two
halted dies forms no image (R24). -/
def execForm (d : DieId) (tag : W32) (body : Body) (s : State) : Out :=
  agree (.form d tag body) d tag body (fun s =>
    let view := (s.die d).image.joined
    if !mayForm s then s
    else
    let s := modImage (formTime s) d fun x => { x with view := view, formed := true }
    let s := s.modDie d fun x => { x with fw := { x.fw with minSvn := max x.fw.minSvn x.fw.svn } }
    raiseEpoch (writeGroup0 s d view) d ((s.die d).image.epoch + 1)) s
/-- FORM_TIMEOUT (R68): 5 s after the sequencer delivered its own JOIN. -/
def execFormTimeout (d : DieId) (s : State) : Out :=
  let x := (s.die d).image
  if !x.formed && !x.formSent && sequences s d && x.joined.getLsbD (s.dieIndex d) && !dieDown s d then .next (sendForm s d)
  else .next s

/-! ### Processes and tensors -/

/-- PROCSTART and PROCEND: the processes of the image. -/
def execProcstart (d : DieId) (tag : W32) (body : Body) (s : State) : Out :=
  agree (.procstart d tag body) d tag body (fun s => modImage s d fun x => { x with procs := mset x.procs (agreeSubject body) body }) s
def execProcend (d : DieId) (tag : W32) (body : Body) (s : State) : Out :=
  agree (.procend d tag body) d tag body (fun s => modImage s d fun x => { x with procs := mdel x.procs (agreeSubject body) }) s
/-- TTSET (R153): the home instance writes the entry, every instance drops its mirror entry. -/
def execTtset (d : DieId) (tag : W32) (body : Body) (s : State) : Out :=
  agree (.ttset d tag body) d tag body (fun s =>
    let n := agreeSubject body
    let tid : BitVec 20 := BitVec.ofNat 20 n
    let s := if tensorHome tid = d.val && bitsOf n 37 32 = s.pkg then s.unitWrite d (s.tensorEntry tid) (leBytes 32 (bodyNat body 16 32)) else s
    s.modCache d fun c => { c with mirror := mdel c.mirror tid.toNat }) s

/-! ### Page-table changes (R65, R77) -/

/-- A page as a table has it: first address, size, entry's address, leaf, home package. -/
structure PageEntry where
  va : Nat
  size : Nat
  at_ : Nat
  leaf : Nat
  pkg : Nat
  deriving DecidableEq, Repr
/-- The pages that a root's tables map. -/
def allPages (s : State) (d root : Nat) : List PageEntry :=
  (List.range 8192).flatMap fun i =>
    let e1 := s.tableNat d (root + 8 * i) 8
    if !bit e1 0 then []
    else (List.range 8192).flatMap fun j =>
      let a2 := tableAddr d e1 + 8 * j
      let e2 := s.tableNat d a2 8
      let va := i * 2 ^ 42 + j * 2 ^ 29
      if !bit e2 0 then []
      else if bitsOf e2 4 1 ≠ 0 then [⟨va, 2 ^ 29, a2, e2, bitsOf e1 18 13⟩]
      else (List.range 8192).filterMap fun k =>
        let a3 := tableAddr d e2 + 8 * k
        let e3 := s.tableNat d a3 8
        if bit e3 0 then some ⟨va + k * 65536, 65536, a3, e3, bitsOf e2 18 13⟩ else none
/-- The die that a page homed on a lost die passes to: the lowest surviving one of its replica mask. -/
def heir (view : W512) (p : PageEntry) : Option Nat :=
  (List.range 8).find? fun h => bit (bitsOf p.leaf 18 11) h && view.getLsbD (p.pkg * 8 + h)
/-- The entry of a page at its new home (R77). Neither the lost die nor the new home stays in the replica mask (assumption 53). -/
def heirLeaf (leaf h lost : Nat) : Nat :=
  setBits (setBits leaf 10 8 h) 18 11 (bitsOf leaf 18 11 &&& (255 - 2 ^ h - (if h = lost then 0 else 2 ^ lost)))
/-- Where a side area stands once the page that holds it is re-homed; 0 if that page is lost. -/
def heirSide (s : State) (d root side : Nat) : Nat :=
  let view := (s.die d).image.view
  match (allPages s d root).find? fun p => p.pkg = s.pkg && inPage (frameAddr p.leaf) p.size side with
  | none => side
  | some p =>
    if view.getLsbD (p.pkg * 8 + bitsOf p.leaf 10 8) then side
    else match heir view p with
      | some h => frameAddr (heirLeaf p.leaf h (bitsOf p.leaf 10 8)) + (side - frameAddr p.leaf)
      | none => 0
/-- A tile that a die holds beyond its home's storage is written to the page's new home, its side area to its own (R77). -/
def carryTile (s : State) (d root leaf pa : Nat) (f : Frame) : State :=
  let repl := BitVec.ofNat 8 (bitsOf leaf 18 11)
  let s := putTile s (frameAddr leaf + (f.base - pa)) repl f.payload (BitVec.ofNat 33 (f.poison.toNat % 2 ^ 32)) f.porigin
  let side := if f.sideBase = 0 then 0 else heirSide s d root f.sideBase
  if side = 0 then s else sideBack s { f with home := homeOfPa side, repl := repl, sideBase := side }
/-- A page leaves its place: translations of it go, and every copy of its tiles; with a new leaf, what the die holds in M or O is written
to the new home first (R77). A tile of another page whose side area moves keeps it. -/
def pageMoves (s : State) (d : Nat) (pid : W32) (root va size pa : Nat) (new : Option Nat) : State :=
  let s := (pageFrames s d pa size).foldl (fun s f =>
    if inPage pa size f.base then
      let s := match new with
        | some leaf => if ahead d f then carryTile s d root leaf pa f else s
        | none => s
      dropAnnex (replaceFrame s d f none) d f.tile
    else if ahead d f then
      replaceFrame s d f (some { f with sideBase := match new with | some leaf => frameAddr leaf + (f.sideBase - pa) | none => 0 })
    else replaceFrame s d f none) s
  s.modTr d fun t => { t with cache := t.cache.filter fun e => !(e.pid = pid && decide (e.va < va + size) && decide (va < e.va + e.size)) }
/-- Write one leaf into a die's tables. -/
def putLeaf (s : State) (d : Nat) (pid : W32) (root a va size leaf : Nat) : State :=
  let old := s.tableNat d a 8
  let s := if bit old 0 && (bitsOf old 51 21 ≠ bitsOf leaf 51 21 || bitsOf old 10 8 ≠ bitsOf leaf 10 8) then
      pageMoves s d pid root va size (frameAddr old) (some leaf)
    else s
  putEntry8 s d a leaf
/-- Give n of all pages their entries, from page k on (R66). A large page that is wholly in the range, with a frame for one, keeps its level 2
entry; another is cut first. -/
def mapPages (d : Nat) (pid : W32) (root first leaf pkg all : Nat) : Nat → Nat → State → State
  | 0, _, s => s
  | n + 1, k, s =>
    let va := first + 65536 * k
    let (s, t2) := tableBelow s d (root + 8 * bitsOf va 54 42) pkg
    let a2 := t2 + 8 * bitsOf va 41 29
    let e2 := s.tableNat d a2 8
    let large := bit e2 0 && bitsOf e2 4 1 ≠ 0
    let base := leafPlus leaf ((va / 2 ^ 29 * 2 ^ 29 - first) / 65536)
    let s := if large && wholeLarge first all va && bitsOf base 33 21 = 0 then
        if va % 2 ^ 29 = 0 then putLeaf s d pid root a2 va (2 ^ 29) base else s
      else
        let s := if large then splitLarge s d a2 pkg else s
        let (s, t3) := tableBelow s d a2 pkg
        putLeaf s d pid root (t3 + 8 * bitsOf va 28 16) va 65536 (leafPlus leaf k)
    mapPages d pid root first leaf pkg all n (k + 1) s
/-- MAP (R65): every instance that holds the process's tables gives the pages their entries. -/
def execMap (d : DieId) (tag : W32) (body : Body) (s : State) : Out :=
  agree (.map d tag body) d tag body (fun s =>
    let pid : W32 := BitVec.ofNat 32 (agreeSubject body)
    match rootOf s d pid with
    | none => s
    | some root =>
      let n := min (2 ^ 20) (bodyNat body 24 4)
      mapPages d pid root (bodyNat body 16 8) (bodyNat body 32 8) (bodyNat body 28 1) n n 0 s) s

/-- The processes with a table on a die: pid and root. -/
def dieProcesses (s : State) (d : Nat) : List (W32 × Nat) :=
  let pt := s.ctlBits d 0x5D00 51 16 * 65536
  (List.range 4096).filterMap fun i =>
    if bit (s.tableNat d (pt + 16 * i + 4) 1) 0 then some (BitVec.ofNat 32 (s.tableNat d (pt + 16 * i) 4), s.tableNat d (pt + 16 * i + 8) 8)
    else none
/-- Join a page to the runs of pages with consecutive addresses and frames that take one MAP. -/
def joinRun (runs : List (PageEntry × Nat)) (p : PageEntry) : List (PageEntry × Nat) :=
  match runs with
  | (q, n) :: l =>
    if p.size = 65536 && q.size = 65536 && p.pkg = q.pkg && n < 2 ^ 20 && p.va = q.va + 65536 * n && p.leaf = leafPlus q.leaf n then
      (q, n + 1) :: l
    else (p, p.size / 65536) :: runs
  | [] => [(p, p.size / 65536)]
/-- Re-home the pages of a lost die (R77): the heir's instance sends MAP; a page without an heir is lost. -/
def rehome (s : State) (d lost : Nat) : State :=
  (dieProcesses s d).foldl (fun s pr =>
    let pages := (allPages s d pr.2).filter fun p => p.pkg * 8 + bitsOf p.leaf 10 8 = lost
    let view := (s.die d).image.view
    let mine := pages.filter fun p => p.pkg = s.pkg && heir view p = some d
    let s := (mine.foldl joinRun []).reverse.foldl (fun s r =>
      agreeOpSend s d 5 pr.1.toNat (leBytes 8 r.1.va ++ leBytes 4 r.2 ++ leBytes 4 r.1.pkg ++ leBytes 8 (heirLeaf r.1.leaf d (lost % 8)))) s
    (pages.filter fun p => (heir view p).isNone).foldl (fun s p =>
      let s := if p.pkg = s.pkg then pageMoves s d pr.1 pr.2 p.va p.size (frameAddr p.leaf) none else s
      let s := modImage (putEntry8 s d p.at_ 0) d fun x => { x with lost := x.lost ++ [(pr.1.toNat, p.va, p.size)] }
      ((s.die d).tr.faults.filter fun f => leNat (f.record.take 4) = pr.1.toNat && decide (p.va ≤ f.va.toNat) && decide (f.va.toNat < p.va + p.size)).foldl
        (fun s f => s.push (refusal s d f.fid)) s) s) s

/-! ### The loss of a die (R75, R78) -/

/-- A team on a lost die completes with STATUS 3 (R107): what it had on the die is gone, its event is written by die d. -/
def loseTeam (s : State) (d key : Nat) : State :=
  match s.team? key with
  | none => s
  | some t =>
    if t.phase = .ended || t.phase = .done then s
    else
      let s := { s with waves := s.waves.map fun (p : Nat × Wave) => if p.1 / 16 = key then (p.1, endWave p.2) else p }
      let s := s.modTeam key fun t => { t with
        phase := .ended, status := 3, banks := [], bars := [], accCfg := [], acc := [], accPoison := [], slots := [], store := []
        fault := none }
      s.push (.teamEventWrite (Fin.ofNat 8 d) key)
/-- What a die of the package still had in its clusters and on the way is gone. -/
def dropDie (s : State) (x : Nat) : State :=
  let s := { s with clusters := s.clusters.map fun (p : Nat × Cluster) =>
    if p.1 / 64 = x then (p.1, { p.2 with seq := [], copies := [], claims := [], writeout := [] }) else p }
  s.modCache x fun c => { c with pend := [] }
/-- The atomics of a die that a lost home has not performed have no result: the value that lands is free (assumption 27). -/
def freeAtomics (s : State) (d x : Nat) : State :=
  let mine (i : Instr) : Bool := match i with | .remoteAtomic h q => h.val = x && q.src.val = d | _ => false
  let gone := s.agenda.filter mine
  gone.foldl (fun s i => match i with
    | .remoteAtomic _ q => let (s, v) := foreignValue s q.width; deliverOld s q.dest v
    | _ => s) { s with agenda := s.agenda.filter fun i => !mine i }
/-- The directory of a home forgets a lost die: it is no sharer, owner or requester any more (assumption 27). -/
def forgetDie (s : State) (d x : Nat) : State :=
  let bitX := bit8 x
  let fix (f : Frame) : Frame :=
    if !(f.pcoh && f.home = d) then f
    else
      let wasOwner := ownerOf f = some x
      let f := { f with
        dsharers := f.dsharers &&& ~~~bitX, acks := f.acks &&& ~~~bitX
        queue := f.queue.filter fun p => p.2 ≠ x, heldFwd := f.heldFwd.filter fun p => p.2 ≠ x }
      let f := if wasOwner then noOwner f else f
      match f.wait with
      | .none => f
      | .upgWait y => if y = x then { f with wait := .none, acks := 0 } else f
      | .rdxWait y => if y = x then { f with wait := .none, acks := 0 } else f
      | .fwdPend y kind =>
        if y = x && kind < 2 then { f with wait := .none, acks := 0, done := false, heldWback := none, downer := if kind = 1 then 0 else f.downer }
        else if wasOwner then { f with wait := .none, acks := 0, done := false, heldWback := none, queue := (if kind = 2 then 3 else kind, y) :: f.queue }
        else f
      | .wbPend y _ => if y = x then { f with wait := .none } else f
      | .evictWait => f
  let s := s.modCache d fun c => { c with
    frames := c.frames.map fix
    pend := c.pend.filter fun p => p.home ≠ x
    flushes := c.flushes.filter fun j => j.src ≠ x
    jobs := c.jobs.map fun (j : CacheJob) => { j with acks := j.acks &&& ~~~bitX } }
  let s := ((s.frames d).filter fun f => f.pcoh && f.home = d).foldl (fun s f => settleHome d f.tile 32 s) s
  ((s.die d).cache.jobs.filter fun j => j.acks = 0 && j.strips = 0 && j.kind < 2).foldl (fun s j => finishJob s d j.id) s
/-- The teams of a lost die: those of a launch that this die has parsed, or the lowest die of the view if its own is gone. -/
def lostTeams (s : State) (d lost : Nat) : List Nat :=
  let lowest := ((maskDies (s.die d).image.view).filter fun n => n / 8 = s.pkg).head?
  (s.teams.filter fun t =>
    let on := if t.2.phase = .away then t.2.die - 8 else s.dieIndex t.2.die
    let by_ := (s.launch t.2.launch).die
    on = lost && (by_ = d || (dieDown s by_ && lowest = some (s.dieIndex d)))).map Prod.fst
/-- The instance asks for routes around X (R75): its security core within the package, its link core between packages. Routes that led
through X go, and what waits for one looks for another. -/
def rerouteAround (s : State) (d x : Nat) : State :=
  let here := x / 8 = s.pkg
  let s : State := { s with outbox := s.outbox ++ [⟨d, 11, if here then 14 else 12, leBytes 2 x⟩] }
  let s := s.modDie d fun y => { y with conf := { y.conf with routes := y.conf.routes.filter fun r => !(here && r.2.1 = x % 8) } }
  retryStuck s d
/-- Supervisor-core threads on X end; every process that had one gets a signal that names X (R78). -/
def endThreads (s : State) (d x : Nat) : State :=
  if x / 8 = s.pkg then ((s.die (x % 8)).image.threads.map Prod.snd).dedup.foldl (fun s pid => processSignal s d pid none (some x)) s
  else s
/-- The shoot-downs of a lost sender close: its commit never comes (assumption 27). -/
def dropShoots (s : State) (d x : Nat) : State := s.modTr d fun t => { t with shoots := t.shoots.filter fun y => y.src.toNat ≠ x }
/-- The effects of LOST(X) at a member. -/
def applyLost (s : State) (d x : Nat) : State :=
  let view := (s.die d).image.view &&& ~~~(BitVec.twoPow 512 x)
  let s := modImage s d fun i => { i with view := view }
  let s := s.modDie d fun y => { y with conf := { y.conf with
    silent := y.conf.silent.filter (· ≠ x), heard := y.conf.heard.filter (· ≠ x) } }
  let s := raiseEpoch (writeGroup0 s d view) d ((s.die d).image.epoch + 1)
  let s := if x / 8 = s.pkg then freeAtomics (forgetDie (dropDie s (x % 8)) d (x % 8)) d (x % 8) else s
  let hit := (s.teams.filter fun t => t.2.phase ≠ .done &&
    (if t.2.phase = .away then t.2.die - 8 else s.dieIndex t.2.die) = x).map fun t => t.2.launch
  let s := (lostTeams s d x).foldl (fun s k => loseTeam s d k) s
  let s := hit.dedup.foldl (fun s l => regionOutcome s d (s.launch l)) s
  unblock (rehome (rerouteAround (endThreads (dropShoots s d x) d x) d x) d x) d
/-- LOST (R75). -/
def execLost (d : DieId) (tag : W32) (body : Body) (s : State) : Out :=
  agree (.lost d tag body) d tag body (fun s => applyLost s d (agreeSubject body)) s

/-! ### Silence and the recovery of the sequencer (R68, R76) -/

/-- Start a recovery: the group without its silent members, and RESYNC with the instance's APPLIED. -/
def startRecovery (s : State) (d x : Nat) : State :=
  let out := (s.die d).conf.silent
  let mask := out.foldl (fun m n => m &&& ~~~(BitVec.twoPow 512 n)) (groupMask s d 0)
  let s := restartGroup0 s d mask
  let s := modImage s d fun i => { i with recover := some x, resent := 0, resyncSeen := [] }
  agreeOpSend s d 4 0 (leBytes 8 (s.die d).image.applied.toNat)
/-- Every member has reported: the one with the highest APPLIED, the lowest die on ties, sends again what the lowest lacks. -/
def resyncAll (s : State) (d : Nat) : State :=
  let x := (s.die d).image
  let l := x.resyncSeen
  let hi := l.foldl (fun m p => max m p.2.toNat) 0
  let lo := l.foldl (fun m p => min m p.2.toNat) hi
  let first := l.foldl (fun m (p : Nat × W64) => if p.2.toNat = hi then min m p.1 else m) 512
  let s := modImage s d fun x => { x with resyncSeen := [], resent := hi - lo }
  let s := if first = s.dieIndex d then
      (x.log.filter fun p => decide (lo < p.1.toNat)).foldl (fun s p => agreeSend s d p.1 p.2) s
    else s
  if hi = lo then endRecovery s d else s
/-- RESYNC (R76). -/
def execResync (d : DieId) (src : BitVec 9) (body : Body) (s : State) : Out :=
  instanceDo s d (.resync d src body) <|
  if agreeVoid s d body then .next (modImage s d fun x => { x with voids := x.voids + 1 })
  else
    let s := modImage s d fun x => { x with resyncSeen := mset x.resyncSeen src.toNat (BitVec.ofNat 64 (bodyNat body 16 8)) }
    let x := (s.die d).image
    if x.recover.isSome && (maskDies (groupMask s d 0)).all fun n => (mfind x.resyncSeen n).isSome then .next (resyncAll s d)
    else .next s
/-- A group 0 entry without the silent dies that come before its lowest other member (R68): a silent die that would be the next
sequencer is passed over too. -/
def passOver (silent : List Nat) (mask : W512) : W512 :=
  ((maskDies mask).takeWhile fun n => silent.contains n).foldl (fun m n => m &&& ~~~(BitVec.twoPow 512 n)) mask
/-- SEND_UNDELIVERABLE_TIMEOUT (R43, R68, R76): the message that a core still waits to send is discarded, with RESULT 3. Of the
agreement messages that the instance's core 0 waits to send, a JOIN before the image is formed is sent again under the current group 0
entry, and one that fails during a recovery is kept for its end. -/
def execSendUndeliverableTimeout (d : DieId) (k : Fin 16) (s : State) : Out :=
  let s := sendTimeout d k s
  let x := (s.die d).image
  let me := s.dieIndex d
  let mine (i : Instr) : Option Body := match i with
    | .gseqAssign _ _ m y _ => if y.toNat = me && msgType m = 5 && x.sends.contains (msgTag m, msgBody m) then some (msgBody m) else none
    | _ => none
  let l := s.agenda.filterMap mine
  if k ≠ 0 || l.isEmpty then .next s
  else
    let s := { s with agenda := s.agenda.filter fun i => (mine i).isNone }
    let s := modImage s d fun x => { x with sends := x.sends.filter fun p => !l.contains p.2 }
    if x.recover.isSome then .next (modImage s d fun x => { x with failed := x.failed ++ l.filter fun b => agreeOp b ≠ 3 && agreeOp b ≠ 4 })
    else if !x.formed && l.any fun b => agreeOp b = 2 then .next (sendJoin s d)
    else .next s
/-- DIE_SILENT (R44, R68, R75, R76): the endpoint tells the error core, and that its instance. -/
def execDieSilent (d : DieId) (about : BitVec 9) (s : State) : Out :=
  let x := about.toNat
  let i := (s.die d).image
  let member := if i.formed then i.view.getLsbD x else (groupMask s d 0).getLsbD x
  if dieDown s d || !member || (s.die d).conf.silent.contains x then .next s
  else
    let s := s.modDie d fun y => { y with conf := { y.conf with silent := y.conf.silent ++ [x], heard := y.conf.heard.filter (· ≠ x) } }
    if !i.formed then
      if groupSeq s d 0 = x then
        let s := restartGroup0 s d (passOver (s.die d).conf.silent (groupMask s d 0))
        .next (sendJoin (modImage s d fun i => { i with joined := 0, formSent := false }) d)
      else .next s
    else if groupSeq s d 0 = x then .next (startRecovery s d x)
    else if i.recover.isSome then .next s
    else .next (agreeOpSend s d 3 x [])

/-! ### Withdrawal (R80) -/

/-- DIE_WITHDRAW: the die hears fewer than half of the view, or half of it without its lowest die; or R71 requires it. -/
def execDieWithdraw (d : DieId) (s : State) : Out :=
  let x := s.die d
  let view := maskDies x.image.view
  let heard := (x.conf.heard.filter fun n => x.image.view.getLsbD n).length
  let cut := x.image.formed && (decide (2 * heard < view.length) ||
    (2 * heard = view.length && !(match view with | n :: _ => x.conf.heard.contains n | [] => false)))
  if !dieDown s d && (cut || mustWithdraw x) then .next (withdrawDie s d) else .next s

/-- FAULT_REFUSE (R209). -/
def execFaultRefuse (d : DieId) (fid : BitVec 16) (m : Master) (s : State) : Out :=
  if masterStopped s d m then .next s
  else if !isSup m then .next (violation s d m (ctlBase d + 0x5D20))
  else match answered? s d fid.toNat with
    | none => .next s
    | some f => .next (refuseFault (fun s f => refuseOther s f d) s d f)

end Sys2Proof.Machine
end

