-- ==== Sys2Proof/Machine/Aes.lean ====
section
/-! DEFINITION. AES-256 (FIPS 197) and AES-GCM (SP 800-38D) with a 96-bit nonce, which R35 uses. -/

namespace Sys2Proof.Machine

/-! ### AES-256 -/

/-- Times x in AES's field. -/
def aesX (b : Byte) : Byte := (b <<< 1) ^^^ if b.getLsbD 7 then 0x1B else 0
/-- The product of two bytes in AES's field, bit by bit of b. -/
def aesMul (a b : Byte) : Byte :=
  ((List.range 8).foldl (fun (r : Byte × Byte) i => (if b.getLsbD i then r.1 ^^^ r.2 else r.1, aesX r.2)) (0, a)).1
/-- The S-box: the inverse, which is the 254th power, and the affine map. -/
def aesSboxOf (b : Byte) : Byte :=
  let sq (x : Byte) : Byte := aesMul x x
  let p2 := sq b
  let p4 := sq p2
  let p8 := sq p4
  let p16 := sq p8
  let p32 := sq p16
  let p64 := sq p32
  let p128 := sq p64
  let v := aesMul (aesMul (aesMul p2 p4) (aesMul p8 p16)) (aesMul (aesMul p32 p64) p128)
  v ^^^ v.rotateLeft 1 ^^^ v.rotateLeft 2 ^^^ v.rotateLeft 3 ^^^ v.rotateLeft 4 ^^^ 0x63
def aesSboxTable : List Byte := (List.range 256).map fun n => aesSboxOf (BitVec.ofNat 8 n)
def aesSbox (b : Byte) : Byte := aesSboxTable.getD b.toNat 0
def xorBytes (a b : List Byte) : List Byte := a.zipWith (· ^^^ ·) b
/-- The 60 words of the key schedule, 4 bytes each, in reverse order of making. -/
def aesSchedule (key : List Byte) : List (List Byte) :=
  let start := (List.range 8).map fun k => (key.drop (4 * k)).take 4
  ((List.range 52).foldl (fun (w : List (List Byte)) k =>
    let i := k + 8
    let t := w.getD 0 []
    let t := if i % 8 = 0 then
        let s := (t.drop 1 ++ t.take 1).map aesSbox
        xorBytes s [(List.range (i / 8 - 1)).foldl (fun r _ => aesX r) 1, 0, 0, 0]
      else if i % 8 = 4 then t.map aesSbox
      else t
    xorBytes (w.getD 7 []) t :: w) start.reverse).reverse
/-- Round key n. -/
def aesRoundKey (w : List (List Byte)) (n : Nat) : List Byte := ((w.drop (4 * n)).take 4).flatten
def aesShiftRows (b : List Byte) : List Byte := (List.range 16).map fun k => b.getD ((k + 4 * (k % 4)) % 16) 0
def aesMixColumn (c : List Byte) : List Byte :=
  (List.range 4).map fun k =>
    let g (n : Nat) : Byte := c.getD ((k + n) % 4) 0
    aesMul (g 0) 2 ^^^ aesMul (g 1) 3 ^^^ g 2 ^^^ g 3
def aesMixColumns (b : List Byte) : List Byte := (List.range 4).flatMap fun k => aesMixColumn ((b.drop (4 * k)).take 4)
/-- Encrypt a block under a key schedule. -/
def aesBlock (w : List (List Byte)) (b : List Byte) : List Byte :=
  let s := (List.range 13).foldl (fun s k =>
    xorBytes (aesMixColumns (aesShiftRows (s.map aesSbox))) (aesRoundKey w (k + 1))) (xorBytes b (aesRoundKey w 0))
  xorBytes (aesShiftRows (s.map aesSbox)) (aesRoundKey w 14)

/-! ### GCM -/

/-- The number that bytes stand for, the highest first. -/
def beNat (l : List Byte) : Nat := leNat l.reverse
def beBytes (n v : Nat) : List Byte := (leBytes n v).reverse
/-- The product in GCM's field: bit 127 of a block is its first. -/
def gcmMul (x y : BitVec 128) : BitVec 128 :=
  ((List.range 128).foldl (fun (r : BitVec 128 × BitVec 128) i =>
    (if x.getLsbD (127 - i) then r.1 ^^^ r.2 else r.1,
     (r.2 >>> 1) ^^^ if r.2.getLsbD 0 then (0xE1 : BitVec 128) <<< 120 else 0)) (0, y)).1
/-- The blocks of a string of whole or padded blocks. -/
def blocks16 (l : List Byte) : List (BitVec 128) :=
  (List.range ((l.length + 15) / 16)).map fun k => BitVec.ofNat 128 (beNat (((l.drop (16 * k)).take 16 ++ List.replicate 16 0).take 16))
def gHash (h : BitVec 128) (aad ct : List Byte) : BitVec 128 :=
  let len : BitVec 128 := BitVec.ofNat 128 (aad.length * 8 * 2 ^ 64 + ct.length * 8)
  (blocks16 aad ++ blocks16 ct ++ [len]).foldl (fun y x => gcmMul (y ^^^ x) h) 0
/-- Counter block n of a nonce. -/
def gcmCounter (nonce : List Byte) (n : Nat) : List Byte := nonce ++ beBytes 4 n
/-- Encrypt or decrypt with the counter stream. -/
def gcmStream (w : List (List Byte)) (nonce l : List Byte) : List Byte :=
  (List.range ((l.length + 15) / 16)).flatMap fun k => xorBytes ((l.drop (16 * k)).take 16) (aesBlock w (gcmCounter nonce (k + 2)))
def gcmTag (w : List (List Byte)) (nonce aad ct : List Byte) : List Byte :=
  let h : BitVec 128 := BitVec.ofNat 128 (beNat (aesBlock w (List.replicate 16 0)))
  xorBytes (beBytes 16 (gHash h aad ct).toNat) (aesBlock w (gcmCounter nonce 1))
/-- AES-GCM-256: ciphertext and tag. -/
def gcmSeal (key nonce aad pt : List Byte) : List Byte × List Byte :=
  let w := aesSchedule key
  let ct := gcmStream w nonce pt
  (ct, gcmTag w nonce aad ct)
/-- The plaintext, if the tag is right. -/
def gcmOpen (key nonce aad ct tag : List Byte) : Option (List Byte) :=
  let w := aesSchedule key
  if gcmTag w nonce aad ct = tag then some (gcmStream w nonce ct) else none

end Sys2Proof.Machine
end

