-- ==== Sys2Proof/Machine/Keccak.lean ====
section
/-! DEFINITION. SHAKE256 (FIPS 202), which R72 to R74 use. -/

namespace Sys2Proof.Machine

/-- Lane (x, y) of a Keccak state is at x + 5 y. -/
abbrev Lanes1600 := List W64
def laneAt (a : Lanes1600) (k : Nat) : W64 := a.getD k 0
/-- θ. -/
def keccakTheta (a : Lanes1600) : Lanes1600 :=
  let c (x : Nat) : W64 := (List.range 5).foldl (fun v y => v ^^^ laneAt a (x % 5 + 5 * y)) 0
  let cs := (List.range 5).map c
  (List.range 25).map fun k => laneAt a k ^^^ cs.getD ((k + 4) % 5) 0 ^^^ (cs.getD ((k + 1) % 5) 0).rotateLeft 1
/-- The offset by which ρ rotates the lane that its walk reaches in step t. -/
def rhoOffset (t : Nat) : Nat := (t + 1) * (t + 2) / 2 % 64
/-- The lanes in the order of the walk (x, y) → (y, 2x + 3y) from (1, 0). -/
def rhoWalk : Nat → Nat → Nat → List Nat
  | 0, _, _ => []
  | n + 1, x, y => (x + 5 * y) :: rhoWalk n y ((2 * x + 3 * y) % 5)
/-- ρ and π: the lane at step t moves to the place of step t + 1. -/
def keccakRhoPi (a : Lanes1600) : Lanes1600 :=
  let w := rhoWalk 25 1 0
  (List.range 25).map fun k =>
    if k = 0 then laneAt a 0
    else
      let t := w.idxOf k
      let t := if t = 0 then 24 else t
      (laneAt a (w.getD (t - 1) 0)).rotateLeft (rhoOffset (t - 1))
/-- χ. -/
def keccakChi (a : Lanes1600) : Lanes1600 :=
  (List.range 25).map fun k =>
    let y := k / 5 * 5
    laneAt a k ^^^ (~~~(laneAt a (y + (k + 1 - y) % 5)) &&& laneAt a (y + (k + 2 - y) % 5))
/-- The constants of ι. -/
def keccakRc : List W64 :=
  [0x0000000000000001, 0x0000000000008082, 0x800000000000808A, 0x8000000080008000, 0x000000000000808B, 0x0000000080000001,
   0x8000000080008081, 0x8000000000008009, 0x000000000000008A, 0x0000000000000088, 0x0000000080008009, 0x000000008000000A] ++
  [0x000000008000808B, 0x800000000000008B, 0x8000000000008089, 0x8000000000008003, 0x8000000000008002, 0x8000000000000080,
   0x000000000000800A, 0x800000008000000A, 0x8000000080008081, 0x8000000000008080, 0x0000000080000001, 0x8000000080008008]
/-- Keccak-f[1600]. -/
def keccakF (a : Lanes1600) : Lanes1600 :=
  keccakRc.foldl (fun a rc => match keccakChi (keccakRhoPi (keccakTheta a)) with
    | x :: l => (x ^^^ rc) :: l
    | [] => []) a

/-- Absorb a block of 136 bytes. -/
def keccakAbsorb (a : Lanes1600) (block : List Byte) : Lanes1600 :=
  keccakF ((List.range 25).map fun k => if k < 17 then laneAt a k ^^^ BitVec.ofNat 64 (leNat ((block.drop (8 * k)).take 8)) else laneAt a k)
def absorbAll : Nat → List Byte → Lanes1600 → Lanes1600
  | 0, _, a => a
  | n + 1, l, a => absorbAll n (l.drop 136) (keccakAbsorb a (l.take 136))
/-- Squeeze n blocks of 136 bytes. -/
def squeeze : Nat → Lanes1600 → List Byte
  | 0, _ => []
  | n + 1, a => (a.take 17).flatMap (fun x => leBytes 8 x.toNat) ++ squeeze n (keccakF a)
/-- SHAKE256 of a message, n bytes. -/
def shake256 (msg : List Byte) (n : Nat) : List Byte :=
  let blocks := msg.length / 136 + 1
  let padded := msg ++ [0x1F] ++ List.replicate (136 * blocks - msg.length - 1) 0
  let padded := padded.set (136 * blocks - 1) (padded.getD (136 * blocks - 1) 0 ||| 0x80)
  (squeeze (n / 136 + 1) (absorbAll blocks padded (List.replicate 25 0))).take n

end Sys2Proof.Machine
end

