-- ==== Sys2Proof/Machine/Curve448.lean ====
section
/-! DEFINITION. X448 (RFC 7748) and Ed448 in its pure form (RFC 8032), which R72 to R74 use. -/

namespace Sys2Proof.Machine

/-! ### The field -/

def p448 : Nat := 2 ^ 448 - 2 ^ 224 - 1
def fAdd (a b : Nat) : Nat := (a + b) % p448
def fSub (a b : Nat) : Nat := (a + p448 - b) % p448
def fMul (a b : Nat) : Nat := a * b % p448
/-- b to the power e, whose bits are read from bit n − 1 down. -/
def fPow (b e : Nat) : Nat → Nat
  | 0 => 1
  | n + 1 => let r := fPow b (e / 2) n; let r := fMul r r; if e % 2 = 1 then fMul r b else r
def fInv (a : Nat) : Nat := fPow a (p448 - 2) 448

/-! ### X448 -/

/-- A point of the ladder: x2, z2, x3, z3, and whether the pairs are swapped. -/
structure Ladder where
  x2 : Nat
  z2 : Nat
  x3 : Nat
  z3 : Nat
  swap : Bool
  deriving DecidableEq, Repr
def ladderSwap (l : Ladder) : Ladder := { l with x2 := l.x3, z2 := l.z3, x3 := l.x2, z3 := l.z2 }
/-- One step for a bit of the scalar. -/
def ladderStep (u : Nat) (l : Ladder) (k : Bool) : Ladder :=
  let m := if l.swap != k then ladderSwap l else l
  let a := fAdd m.x2 m.z2
  let aa := fMul a a
  let b := fSub m.x2 m.z2
  let bb := fMul b b
  let e := fSub aa bb
  let da := fMul (fSub m.x3 m.z3) a
  let cb := fMul (fAdd m.x3 m.z3) b
  let x3 := fMul (fAdd da cb) (fAdd da cb)
  let z3 := fMul u (fMul (fSub da cb) (fSub da cb))
  { x2 := fMul aa bb, z2 := fMul e (fAdd aa (fMul 39081 e)), x3 := x3, z3 := z3, swap := k }
/-- X448 of a scalar and a u-coordinate. -/
def x448 (scalar u : Nat) : Nat :=
  let k := setBits (scalar % 2 ^ 448 / 4 * 4) 447 447 1
  let u := u % 2 ^ 448 % p448
  let l := (List.range 448).foldl (fun l i => ladderStep u l (bit k (447 - i))) ⟨1, 0, u, 1, false⟩
  let l := if l.swap then ladderSwap l else l
  fMul l.x2 (fInv l.z2)

/-! ### Ed448 -/

/-- The order of the base point. -/
def l448 : Nat := 2 ^ 446 - 13818066809895115352007386748515426880336692474882178609894547503885
/-- −d of the curve x² + y² = 1 + d x² y². -/
def negD : Nat := 39081
/-- A point, projective. -/
structure EdPoint where
  x : Nat
  y : Nat
  z : Nat
  deriving DecidableEq, Repr
def edZero : EdPoint := ⟨0, 1, 1⟩
def edBase : EdPoint :=
  ⟨224580040295924300187604334099896036246789641632564134246125461686950415467406032909029192869357953282578032075146446173674602635247710,
   298819210078481492676017930443930673437544040154080242095928241372331506189835876003536878655418784733982303233503462500531545062832660, 1⟩
def edAdd (p q : EdPoint) : EdPoint :=
  let a := fMul p.z q.z
  let b := fMul a a
  let c := fMul p.x q.x
  let d := fMul p.y q.y
  let e := fSub 0 (fMul negD (fMul c d))
  let f := fSub b e
  let g := fAdd b e
  let h := fMul (fAdd p.x p.y) (fAdd q.x q.y)
  ⟨fMul a (fMul f (fSub (fSub h c) d)), fMul a (fMul g (fSub d c)), fMul f g⟩
/-- n times a point; `fuel` bounds the bits of n. -/
def edMul (p : EdPoint) : Nat → Nat → EdPoint
  | 0, _ => edZero
  | fuel + 1, n =>
    let q := edMul p fuel (n / 2)
    let q := edAdd q q
    if n % 2 = 1 then edAdd q p else q
def edEq (p q : EdPoint) : Bool := fMul p.x q.z = fMul q.x p.z && fMul p.y q.z = fMul q.y p.z
/-- The 57 bytes of a point. -/
def edEncode (p : EdPoint) : List Byte :=
  let zi := fInv p.z
  leBytes 56 (fMul p.y zi) ++ leBytes 1 (fMul p.x zi % 2 * 128)
/-- The point that 57 bytes stand for. -/
def edDecode (l : List Byte) : Option EdPoint :=
  let y := leNat (l.take 56)
  let top := leNat ((l.drop 56).take 1)
  if l.length ≠ 57 || top % 128 ≠ 0 || p448 ≤ y then none
  else
    let yy := fMul y y
    let u := fSub yy 1
    let v := fSub (fSub 0 (fMul negD yy)) 1
    let u3v := fMul (fMul u (fMul u u)) v
    let u5v3 := fMul (fMul u3v (fMul u u)) (fMul v v)
    let x := fMul u3v (fPow u5v3 ((p448 - 3) / 4) 448)
    if fMul v (fMul x x) ≠ u then none
    else if x = 0 && top = 128 then none
    else some ⟨if x % 2 = top / 128 then x else p448 - x, y, 1⟩

/-- SHAKE256 behind the prefix of Ed448's pure form with an empty context, 114 bytes as a number. -/
def edHash (l : List Byte) : Nat :=
  leNat (shake256 ([0x53, 0x69, 0x67, 0x45, 0x64, 0x34, 0x34, 0x38, 0, 0] ++ l) 114)
/-- The scalar and the prefix of a 57-byte secret key. -/
def edSecret (sk : List Byte) : Nat × List Byte :=
  let h := shake256 sk 114
  (setBits (leNat (h.take 56) / 4 * 4) 447 447 1, h.drop 57)
def edPublic (sk : List Byte) : List Byte := edEncode (edMul edBase 448 (edSecret sk).1)
/-- Sign a message: 114 bytes. -/
def edSign (sk msg : List Byte) : List Byte :=
  let (a, prefix_) := edSecret sk
  let pub := edPublic sk
  let r := edHash (prefix_ ++ msg) % l448
  let rb := edEncode (edMul edBase 448 r)
  let k := edHash (rb ++ pub ++ msg) % l448
  rb ++ leBytes 57 ((r + k * a) % l448)
/-- Verify a signature. -/
def edVerify (pub msg sig : List Byte) : Bool :=
  match edDecode pub, edDecode (sig.take 57) with
  | some a, some r =>
    let n := leNat (sig.drop 57)
    let k := edHash (sig.take 57 ++ pub ++ msg) % l448
    let four (p : EdPoint) : EdPoint := edMul p 3 4
    sig.length = 114 && decide (n < l448) && edEq (four (edMul edBase 448 n)) (four (edAdd r (edMul a 448 k)))
  | _, _ => false

end Sys2Proof.Machine
end

