-- ==== Sys2Proof/Machine/Firmware.lean ====
section
/-! DEFINITION. The firmware cores (R69 to R73): their hardware mailboxes, watchdogs and restarts, the firmware image set,
identity keys and attestation reports. -/

namespace Sys2Proof.Machine

def modFw (s : State) (d : Nat) (f : FwState → FwState) : State := s.modDie d fun x => { x with fw := f x.fw }
/-- The master is firmware core 8 + k. -/
def isFw (m : Master) (k : Nat) : Bool := match m with
  | .fw n => n.val = k
  | _ => false

/-! ### Hardware mailboxes (R70) -/

def fwBlock (k : Nat) : Nat := 0x7000 + 0x80 * k
def inboxOf (s : State) (d k : Nat) : List (BitVec 256) := mget [] (s.die d).fw.inbox k
def fwDest (s : State) (d k : Nat) : Nat := s.ctlBits d (fwBlock k + 0x20) 11 8 - 8
/-- COUNT and FULL of every core follow the queues. -/
def refreshBoxes (s : State) (d : Nat) : State :=
  (List.range 8).foldl (fun s k =>
    let c := fwBlock k + 0x20
    (s.setCtlBits d c 35 32 (inboxOf s d k).length).setCtlBits d c 1 1 (if 8 ≤ (inboxOf s d (fwDest s d k)).length then 1 else 0)) s
/-- n words of a block from an offset. -/
def fwWords (s : State) (d off : Nat) : BitVec 256 :=
  BitVec.ofNat 256 ((List.range 4).foldl (fun v n => v + (s.ctl d (off + 8 * n)).toNat * 2 ^ (64 * n)) 0)
/-- SEND: FWOUT goes into the DEST queue, unless that is full. -/
def fwSend (s : State) (d k : Nat) : State :=
  let q := fwDest s d k
  if 8 ≤ (inboxOf s d q).length then s
  else refreshBoxes (modFw s d fun x => { x with inbox := mset x.inbox q (mget [] x.inbox q ++ [fwWords s d (fwBlock k)]) }) d
/-- RECV: the oldest inbound message moves into FWIN; without one FWIN reads as zero. -/
def fwRecv (s : State) (d k : Nat) : State :=
  let l := inboxOf s d k
  let v := l.headD 0
  let s := (List.range 4).foldl (fun s n => s.setCtl d (fwBlock k + 0x28 + 8 * n) (v.extractLsb' (64 * n) 64)) s
  refreshBoxes (modFw s d fun x => { x with inbox := mset x.inbox k (l.drop 1) }) d
/-- FWMBCTL_SEND (R70). -/
def execFwmbctlSend (d : DieId) (k : Fin 8) (m : Master) (s : State) : Out :=
  if masterStopped s d m then .next s
  else if !isFw m k then .next (violation s d m (ctlBase d + fwBlock k + 0x20))
  else .next (fwSend s d k)
/-- FWMBCTL_RECV (R70). -/
def execFwmbctlRecv (d : DieId) (k : Fin 8) (m : Master) (s : State) : Out :=
  if masterStopped s d m then .next s
  else if !isFw m k then .next (violation s d m (ctlBase d + fwBlock k + 0x20))
  else .next (fwRecv s d k)

/-! ### Watchdogs and restarts (R71) -/

/-- FIRMWARE_WATCHDOG_EXPIRE (R71). -/
def execFirmwareWatchdogExpire (d : DieId) (k : Fin 8) (s : State) : Out :=
  if !fwUp s d k then .next s else .next (freezeFw s d (8 + k.val) 0)
/-- FIRMWARE_CORE_RESTART (R71): queue slots, rings and buffers keep their contents. The link core sets the routes that
traffic waits for. -/
def execFirmwareCoreRestart (d : DieId) (k : Fin 8) (s : State) : Out :=
  if dieDown s d then .next s
  else
    let s := modFw s d fun x => { x with frozen := x.frozen &&& ~~~(BitVec.twoPow 8 k.val) }
    .next (if k = 4 then retryStuck s d else s)

/-! ### The firmware image set (R72) -/

/-- n bytes of a list from byte k, as a number. -/
def listNat (l : List Byte) (k n : Nat) : Nat := leNat ((l.drop k).take n)
/-- The bytes of an image set from an offset, if it holds them all. -/
def setPart (l : List Byte) (off len : Nat) : Option (List Byte) :=
  if off + len ≤ l.length then some ((l.drop off).take len) else none
/-- A part of the image set has a digest of n bytes. -/
def partOk (l : List Byte) (off len n : Nat) (digest : List Byte) : Bool := (setPart l off len).any fun b => shake256 b n = digest
/-- The manifest that an image set opens with. -/
def manifestOf (l : List Byte) : List Byte := l.take 706
/-- The four checks of R72, and the magic. The fused digest of the signing key has 64 bytes (assumption 46). -/
def imageSetOk (r : BootReport) (keyDigest : List Byte) (minSvn : Nat) : Bool :=
  let m := manifestOf r.images
  m.length = 706 && listNat m 0 4 = 0x4B4E3346 && shake256 r.signer 64 = keyDigest && edVerify r.signer (m.take 592) (m.drop 592) &&
    (List.range 8).all (fun k =>
      partOk r.images (listNat m (16 + 64 * k) 8) (listNat m (16 + 64 * k + 8) 8) 48 ((m.drop (16 + 64 * k + 16)).take 48)) &&
    partOk r.images (listNat m 8 8) r.manifestLen 64 ((m.drop 528).take 64) && decide (minSvn ≤ listNat m 4 4)

/-! ### Identity and attestation (R73) -/

/-- The private identity key of a die: 57 bytes of SHAKE256 over its fused seed of 32 bytes (assumption 46). -/
def identityKey (d : Nat) : List Byte := shake256 (leBytes 32 (Config.identitySeed d).toNat) 57
/-- The 320-byte attestation report over a nonce. -/
def attestReport (s : State) (d : Nat) (nonce : List Byte) : List Byte :=
  let x := (s.die d).fw
  let body := leBytes 4 1 ++ leBytes 4 x.svn ++ leBytes 8 (s.ctl d 0).toNat ++ (nonce ++ zeros 32).take 32 ++ (x.digest ++ zeros 64).take 64 ++
    edPublic (identityKey d) ++ zeros 7
  body ++ edSign (identityKey d) body ++ zeros 30
/-- ATTESTATION_REQUEST (R73): eight messages to the reply die and mailbox; a mailbox above 15 discards the request, and the upper bits
of the reply die are not used (assumption 46). -/
def execAttestationRequest (d : DieId) (body : Body) (s : State) : Out :=
  let box := bodyNat body 6 1
  if !fwUp s d 6 || bodyNat body 0 4 ≠ 1 || bodyNat body 7 1 ≠ 0 || bodyNat body 40 8 ≠ 0 || 16 ≤ box then .next s
  else
    let rep := attestReport s d (leBytes 32 (bodyNat body 8 32))
    .next ((List.range 8).foldl (fun s p =>
      unitSend s d 7 box (bodyNat body 4 2 % 512) 0 (bodyOf (leBytes 4 0x81 ++ leBytes 1 p ++ zeros 3 ++ (rep.drop (40 * p)).take 40))) s)

end Sys2Proof.Machine
end

