-- ==== Sys2Proof/Machine/Attach.lean ====
section
/-! DEFINITION. The memory attach beside fills: scrubbing (R48), format regions (R49, R50, R52), samples (R60, R62), the
index registers of the rings (R61), and the time limit of a replay (R130). -/

namespace Sys2Proof.Machine

/-- LPDDR6_SCRUB (R48): the errors that the controller of a channel corrects in a scrub of its range, by the offsets of their
sectors in the die's range, are counted; a sector of another channel is none of its own (R47). -/
def execLpddr6Scrub (d : DieId) (channel : Fin 64) (corrected : List Nat) (s : State) : Out :=
  let own := corrected.filter fun o => lpddrChannel o = channel.val
  .next (s.modDie d fun x =>
    { x with attach := { x.attach with corrected := mput 0 x.attach.corrected channel.val (mget 0 x.attach.corrected channel.val + own.length) } })

/-! ### Format regions (R49, R50) -/

def frBase (n : Nat) : Nat := 0x5000 + 0x20 * n
/-- The RW fields of the four words. -/
def frMask : Nat → Nat
  | 0 => fieldMask 51 16 + fieldMask 7 6 + fieldMask 3 1 + fieldMask 0 0
  | 1 => fieldMask 51 16
  | 2 => fieldMask 51 6
  | _ => fieldMask 51 2
/-- The three spans of an entry whose FRCTL is `ctl`: first address and length of the code range, the block scales and the
superscales. -/
def frSpans (s : State) (d n : Nat) (ctl : W64) : List (Nat × Nat) :=
  let base := wbits ctl 51 16 * 65536
  let len := s.ctlBits d (frBase n + 8) 51 16 * 65536 + 65536 - base
  [(base, len), (s.ctlBits d (frBase n + 0x10) 51 6 * 64, len / 2048 * 64), (s.ctlBits d (frBase n + 0x18) 51 2 * 4, len / 2048)]
def spansApart (a b : Nat × Nat) : Bool := decide (a.1 + a.2 ≤ b.1) || decide (b.1 + b.2 ≤ a.1)
def spanInside (d : Nat) (a : Nat × Nat) : Bool := decide (lpddrBase d ≤ a.1) && decide (a.1 + a.2 ≤ lpddrBase d + lpddrSize)
/-- Entry n may be enabled with `ctl` (R50). -/
def frEnableOk (s : State) (d n : Nat) (ctl : W64) : Bool :=
  let l := frSpans s d n ctl
  wbits ctl 3 1 = 1 && wbits ctl 7 6 = 0 && decide (wbits ctl 51 16 ≤ s.ctlBits d (frBase n + 8) 51 16) && l.all (spanInside d) &&
    (List.range 3).all (fun i => (List.range 3).all fun k => decide (k ≤ i) || spansApart (l.getD i (0, 0)) (l.getD k (0, 0))) &&
    (List.range 32).all fun k => k = n || wbits (s.ctl d (frBase k)) 0 0 = 0 ||
      (frSpans s d k (s.ctl d (frBase k))).all fun b => l.all fun a => spansApart a b
/-- Write a word of an entry: ignored with ERR set where R50 says so, else stored, which clears ERR. -/
def writeFr (s : State) (d n word : Nat) (value : W64) : State :=
  let v := BitVec.ofNat 64 (value.toNat &&& frMask word)
  let on := wbits (s.ctl d (frBase n)) 0 0 = 1
  let ok := if word = 0 then (if bit value.toNat 0 then !on && frEnableOk s d n v else true) else !on
  if ok then (s.setCtl d (frBase n + 8 * word) v).setCtlBits d (frBase n) 9 9 0
  else s.setCtlBits d (frBase n) 9 9 1
/-- A write of a word of an entry by a master. -/
def frWrite (s : State) (d n word : Nat) (value : W64) (m : Master) : State :=
  if masterStopped s d m then s
  else if !isSup m then violation s d m (ctlBase d + frBase n + 8 * word)
  else writeFr s d n word value
/-- FMTRGN_WRITE (R50): any of the four words. -/
def execFmtrgnWrite (d : DieId) (n : Fin 32) (word : Fin 4) (value : W64) (m : Master) (s : State) : Out :=
  .next (frWrite s d n word value m)
/-- FRCTL_ENABLE (R50): a write of FRCTL with EN set. -/
def execFrctlEnable (d : DieId) (n : Fin 32) (value : W64) (m : Master) (s : State) : Out :=
  .next (frWrite s d n 0 (value ||| 1) m)
/-- FRCTL_DISABLE (R50, R52): a write of FRCTL with EN clear; resident frames stay as they are. -/
def execFrctlDisable (d : DieId) (n : Fin 32) (value : W64) (m : Master) (s : State) : Out :=
  .next (frWrite s d n 0 (value &&& ~~~1#64) m)

/-! ### Samples (R60, R62) -/

/-- A sample record. -/
def sampleBytes (q : SampleReq) (seq : Nat) : List Byte :=
  leBytes 8 (q.va.toNat % 2 ^ 55) ++ leBytes 8 q.time ++
    leBytes 8 (q.cluster % 512 + q.kind % 16 * 2 ^ 16 + q.tier % 8 * 2 ^ 20 + q.launch % 2 ^ 32 * 2 ^ 32) ++
    leBytes 8 (q.pa % 2 ^ 52 + seq % 4096 * 2 ^ 52)
/-- ACCESS_SAMPLE (R59, R60, R62): the record is written or dropped; the memory core is interrupted as the ring passes half
full. -/
def execAccessSample (d : DieId) (q : SampleReq) (s : State) : Out :=
  let n := (s.die d).attach.smpSeq
  let half := 2 ^ (ringLog s d smpRing - 1)
  let s := s.modDie d fun x => { x with attach := { x.attach with smpSeq := (n + 1) % 4096 } }
  let t := ringPutOrDrop s d smpRing (sampleBytes q n)
  .next (if ringUsed s d smpRing ≤ half && half < ringUsed t d smpRing then interrupt t d 10 else t)

/-! ### Index registers (R61, R128, R129, R209, R213) -/

/-- The ring with an index register at an offset, and whether a master may write it. -/
def ringAt (off : Nat) (m : Master) : Option (Ring × Bool) :=
  match off with
  | 0x5810 => some (smpRing, isFw m 2)
  | 0x5A10 => some (trcRing, isFw m 7)
  | 0x5B10 => some (aolRing, isSup m)
  | 0x5D10 => some (fltRing, isSup m)
  | 0x5E10 => some (errRing, isFw m 3)
  | _ => none
/-- RING_HEAD_WRITE (R61): a HEAD that would leave too many records is ignored; fault records that wait for room follow. -/
def execRingHeadWrite (d : DieId) (off : Nat) (head : BitVec 21) (m : Master) (s : State) : Out :=
  if masterStopped s d m then .next s
  else match ringAt off m with
    | some (r, true) =>
      if ringHeadOk s d r head.toNat then
        let s := s.setCtlBits d off 20 0 head.toNat
        .next (if off = 0x5D10 then flushFaults s d else s)
      else .next s
    | _ => .next (violation s d m (ctlBase d + off))

/-- REPLAY_HOLD_TIMEOUT (R130). -/
def execReplayHoldTimeout (d : DieId) (tile : TileId) (s : State) : Out :=
  if s.ctlBits d 0x5B00 1 0 = 2 && aolKnows s d tile && !(s.die d).dbg.aolFree.contains tile then .next (aolDiverge s d tile)
  else .next s

end Sys2Proof.Machine
end

