-- ==== Sys2Proof/Machine/Debug.lean ====
section
/-! DEFINITION. The debugger's commands (R125): halt, resume and step; and the samples of program counters (R128). -/

namespace Sys2Proof.Machine

/-! ### The command register -/

/-- The wave that a command names. -/
def dbgTarget (v : W64) : Nat := waveKey (wbits v 63 32) (wbits v 31 12) (wbits v 11 8)
/-- The fields of DBGCMD that stay; OP is write-only. -/
def dbgFields (v : W64) : W64 := BitVec.ofNat 64 (v.toNat &&& fieldMask 63 8)
def dbgBusy (s : State) (d : Nat) : Bool := s.ctlBits d 0x9008 0 0 = 1
/-- DBGSTAT: RESULT and BUSY. -/
def dbgStat (s : State) (d result busy : Nat) : State := s.setCtl d 0x9008 (BitVec.ofNat 64 (result * 2 + busy))
/-- Start a command: only a supervisor core may, and only while none is in progress. A team that is not on the die answers 1, a
wave that has ended 3. A wave that has never been placed has no state to act on: nothing is done. -/
def dbgCommand (s : State) (d : Nat) (v : W64) (m : Master) (k : State → Nat → Wave → State) : State :=
  if masterStopped s d m then s
  else if !isSup m then violation s d m (ctlBase d + 0x9000)
  else if dbgBusy s d then s
  else
    let s := s.setCtl d 0x9000 (dbgFields v)
    let key := dbgTarget v
    match s.team? (key / 16) with
    | none => dbgStat s d 1 0
    | some t =>
      if t.die ≠ d || t.phase = .away then dbgStat s d 1 0
      else match s.wave? key with
        | none => dbgStat s d (if t.phase = .ended || t.phase = .done then 3 else 0) 0
        | some w => if w.ended then dbgStat s d 3 0 else k s key w
/-- A change of a wave's halt is recorded in its image when the wave is not in a slot. -/
def dbgRecord (s : State) (key : Nat) (w : Wave) : State :=
  let s := s.setWave key w
  if w.running then s else syncImage s w

/-! ### Halt -/

/-- A matrix instruction of the wave is inside a K-block. -/
def inKBlock (s : State) (key : Nat) : Bool :=
  let t := s.team (key / 16)
  (s.cluster (clusterKey t.die t.cluster)).seq.any fun e => e.wave = key && e.started && (isMma e || e.op = 0x5E)
/-- DEBUG_HALT (R125): the wave issues nothing more; what is unfinished of an instruction that faulted is still replayed. -/
def execDebugHalt (d : DieId) (value : W64) (m : Master) (s : State) : Out :=
  .next (dbgCommand s d value m fun s key w =>
    if w.c.halted then dbgStat s d 2 0
    else
      let n := if w.c.unfin ≠ 0 then 3 else 0
      let s := dbgRecord s key { w with stepping := n, c := { w.c with halted := true } }
      if w.running then (dbgStat s d 0 1).push (.debugHaltComplete d) else dbgStat s d 0 0)
/-- DEBUG_HALT_COMPLETE (R125): every split stands at an instruction boundary and no matrix instruction is inside a K-block. A
step is complete likewise once its instruction has issued. -/
def execDebugHaltComplete (d : DieId) (s : State) : Out :=
  if !dbgBusy s d then .next s
  else
    let key := dbgTarget (s.ctl d 0x9000)
    let going := match s.wave? key with
      | some w => !w.ended && (w.stepping = 1 || w.stepping = 2 || inKBlock s key)
      | none => false
    .next (if going then s.push (.debugHaltComplete d) else kickPlace (dbgStat s d 0 0) d)

/-! ### Resume and step -/

/-- DEBUG_RESUME (R125): the wave may issue again. -/
def execDebugResume (d : DieId) (value : W64) (m : Master) (s : State) : Out :=
  .next (dbgCommand s d value m fun s key w =>
    if !w.c.halted then dbgStat s d 2 0
    else
      let s := dbgRecord s key { w with stepping := 0, c := { w.c with halted := false } }
      kickPlace (kickSeq (dbgStat s d 0 0) d (s.team (key / 16)).cluster) d)
/-- DEBUG_STEP (R125): a halted wave issues exactly one instruction. -/
def execDebugStep (d : DieId) (value : W64) (m : Master) (s : State) : Out :=
  .next (dbgCommand s d value m fun s key w =>
    if !w.c.halted || w.stepping ≠ 0 then dbgStat s d 2 0
    else kickPlace ((dbgStat (s.setWave key { w with stepping := 1 }) d 0 1).push (.debugHaltComplete d)) d)

/-! ### Samples of program counters (R127, R128) -/

/-- The wave that issued on a cluster in the current cycle, in the lowest-numbered of its quadrants. -/
def issuedOn (s : State) (d c : Nat) : Option Wave :=
  let l := s.issued.filter fun p => p.1 / 4 = d * 64 + c
  (l.find? fun p => l.all fun q => decide (p.1 ≤ q.1)).bind fun p => s.wave? p.2
/-- PC_SAMPLE (R128): a cycle without issue yields no sample, nor does PCLOG 0. -/
def execPcSample (d : DieId) (cluster : Fin 64) (s : State) : Out :=
  match issuedOn s d.val cluster.val with
  | none => .next s
  | some w =>
    if s.ctlBits d 0x5A00 11 8 = 0 || dieDown s d then .next s
    else .next (traceRec s d (waveName s w 7 none) 0x0A
      (leBytes 8 w.c.pc.toNat ++ leBytes 8 (w.y.lanebase + (getSplit w 0).lpc.zeroExtend 64).toNat))

end Sys2Proof.Machine
end

