-- ==== Sys2Proof/Machine/Links.lean ====
section
/-! DEFINITION. The links of a die (R25 to R39): flits with their FEC and integrity, replay and ordering, lane retirement and
faults, key slots, sleep and wake, and the key exchange (R74). -/

namespace Sys2Proof.Machine

/-! ### Ports -/

def portBase (p : Nat) : Nat := 0x3000 + 0x100 * p
def portOf (s : State) (d p : Nat) : Port := mget {} (s.die d).ports p
def modPort (s : State) (d p : Nat) (f : Port → Port) : State :=
  s.modDie d fun x => { x with ports := mset x.ports p (f (mget {} x.ports p)) }
def isReach (p : Nat) : Bool := decide (4 ≤ p)
def linkState (s : State) (d p : Nat) : Nat := s.ctlBits d (portBase p) 15 14
def setLinkState (s : State) (d p v : Nat) : State := s.setCtlBits d (portBase p) 15 14 v
def linkFenced (s : State) (d p : Nat) : Bool := s.ctlBits d (portBase p) 16 16 = 1
def curSlot (s : State) (d p : Nat) : Nat := s.ctlBits d (portBase p) 13 13
def oldBusy (s : State) (d p : Nat) : Bool := s.ctlBits d (portBase p) 12 12 = 1
def keyExpired (s : State) (d p : Nat) : Bool := s.ctlBits d (portBase p) 10 10 = 1
/-- The index of the die at the other end. -/
def peerOf (s : State) (d p : Nat) : Nat := s.ctlBits d (portBase p) 27 22 * 8 + s.ctlBits d (portBase p) 21 19
/-- LINKID of a reach port of a die index (R35). -/
def linkId (index p : Nat) : Nat := index / 8 % 64 * 2 ^ 10 + index % 8 * 2 ^ 7 + p % 2 * 2 ^ 6
def wireOut (s : State) (d p : Nat) (wire : List Byte) : State := { s with outbox := s.outbox ++ [⟨d, 10, p, wire⟩] }
/-- Every queued flit tries to go. -/
def pushTx (s : State) (d p : Nat) : State :=
  (portOf s d p).txq.foldl (fun s _ => s.push (.flitTransmit (Fin.ofNat 8 d) (Fin.ofNat 6 p))) s

/-! ### Key slots (R36) -/

/-- This end still uses a slot. -/
def slotUsed (s : State) (d p n : Nat) : Bool :=
  let x := portOf s d p
  curSlot s d p = n || oldBusy s d p || x.rxSlot = n || x.rxOld.any fun o => o.1 = n
/-- A slot that both sides of the end are done with is zeroized, with the words of its key. -/
def zeroizeSlot (s : State) (d p n : Nat) : State :=
  if slotUsed s d p n then s
  else modPort s d p fun x => { x with keys := mdel x.keys n, keyWords := x.keyWords.filter fun w => w.1 / 4 ≠ n }
/-- The transmit side retires its old slot when no flit under it is buffered. -/
def retireSlot (s : State) (d p : Nat) : State :=
  let old := 1 - curSlot s d p
  if oldBusy s d p && !((portOf s d p).replay.any fun f => f.slot = old) then
    zeroizeSlot (s.setCtlBits d (portBase p) 12 12 0) d p old
  else s
/-- The receive side releases its old slot when every flit before the first under the new one is delivered. -/
def releaseSlot (s : State) (d p : Nat) : State :=
  match (portOf s d p).rxOld with
  | some (n, count) =>
    if count ≤ (portOf s d p).rxNext then zeroizeSlot (modPort s d p fun x => { x with rxOld := none }) d p n else s
  | none => s
/-- The 32 bytes of a key slot. -/
def slotKey (s : State) (d p n : Nat) : Option (List Byte) := (mfind (portOf s d p).keys n).map fun k => leBytes 32 k.toNat
/-- A word of KEY(n) is written: refused while this end uses the slot; the last word makes the key of the four. The register itself
reads as zero (R7), so the words stand beside it. -/
def writeKey (s : State) (d p n word : Nat) (value : W64) : State :=
  if slotUsed s d p n then s.setCtlBits d (portBase p) 11 11 1
  else
    let s := modPort (s.setCtlBits d (portBase p) 11 11 0) d p fun x => { x with keyWords := mset x.keyWords (4 * n + word) value }
    if word ≠ 3 then s
    else modPort s d p fun x =>
      let key := (List.range 4).foldl (fun v w => v + (mget 0 x.keyWords (4 * n + w)).toNat * 2 ^ (64 * w)) 0
      { x with keys := mset x.keys n (BitVec.ofNat 256 key) }
/-- ROLL would succeed: the other slot holds a key and the transmit side has retired it. -/
def rollReady (s : State) (d p : Nat) : Bool := isReach p && !oldBusy s d p && (slotKey s d p (1 - curSlot s d p)).isSome
/-- ROLL (R36, R37): the other slot becomes current for every new flit; else the write is ignored. The bit itself is not kept
(assumption 45). -/
def rollKey (s : State) (d p : Nat) : State :=
  if !rollReady s d p then s
  else
    let n := 1 - curSlot s d p
    let b := portBase p
    let s := ((s.setCtlBits d b 13 13 n).setCtlBits d b 12 12 1).setCtlBits d b 10 10 0
    let s := modPort s d p fun x => { x with sent := mdel x.sent n, keySet := true }
    pushTx (retireSlot s d p) d p

/-! ### The end of a key exchange (R74) -/

/-- A link-control flit of the exchange to the other end. -/
def sendLinkMsg (s : State) (d p kind part : Nat) (b : List Byte) : State :=
  queueFlit s d p (makeFlit 7 2 (s.dieIndex d) (peerOf s d p) (leBytes 2 kind ++ leBytes 2 part ++ zeros 4 ++ b))
/-- The link core works. -/
def linkCoreUp (s : State) (d : Nat) : Bool := fwUp s d 4
/-- The derived key is installed in the slot that is not current, as soon as this end no longer uses it; KEYREADY follows. -/
def installKey (s : State) (d p : Nat) : State :=
  let n := 1 - curSlot s d p
  match (portOf s d p).wanted with
  | none => s
  | some k =>
    if slotUsed s d p n then s
    else
      let s := (List.range 4).foldl (fun s w => writeKey s d p n w (k.extractLsb' (64 * w) 64)) s
      let s := modPort s d p fun x => { x with wanted := none, ready := true }
      sendLinkMsg s d p 3 0 (leBytes 8 (portOf s d p).rolls)
/-- Both ends have the key: the port rolls to it, and the exchange is over. -/
def finishExchange (s : State) (d p : Nat) : State :=
  let x := portOf s d p
  if x.ready && x.peerReady && rollReady s d p then
    rollKey (modPort s d p fun x => { x with kxOn := false, ready := false, peerReady := false, rolls := x.rolls + 1 }) d p
  else s
/-- What the link core can do now for an exchange under way. -/
def keyProgress (s : State) (d p : Nat) : State := if linkCoreUp s d then finishExchange (installKey s d p) d p else s

/-! ### Faults (R33, R34) -/

/-- The port that a flit of a die leaves by: the next hop of a path inside the package, or the exit to another package. -/
def portFor (s : State) (d : Nat) (l : List Byte) : Option (Nat × Nat) :=
  if flitTo l / 8 = s.pkg then
    match (pathOf s d (flitTo l % 8)).map List.reverse with
    | some (_ :: y :: _) => (bridgePort s d y).map fun p => (d, p)
    | _ => none
  else routeFor s d (flitTo l / 8)
/-- Put flits at the head of the queues of their new routes, in their order; those without a route wait for one. -/
def reroute (s : State) (d : Nat) (flits : List (List Byte)) : State :=
  flits.reverse.foldl (fun s l =>
    match portFor s d l with
    | some (e, q) =>
      let s := if flitTo l / 8 = s.pkg then s else keepRoute s d (flitTo l / 8) (e, q)
      (modPort s e q fun x => { x with txq := l :: x.txq }).push (.flitTransmit (Fin.ofNat 8 e) (Fin.ofNat 6 q))
    | none => s.modDie d fun x => { x with conf := { x.conf with stuck := l :: x.conf.stuck } }) s
/-- A link fault: the link is fenced and goes down (assumption 45), and the data flits that its replay buffer and queue hold go on
the new route, in order and before newer flits. -/
def linkFault (s : State) (d p : Nat) : State :=
  if linkFenced s d p then s
  else
    let s := (errorRec s d 2 1 0 [] p 2).1
    let s := setLinkState (s.setCtlBits d (portBase p) 16 16 1) d p 0
    let x := portOf s d p
    let flits := (x.replay.map SentFlit.plain ++ x.txq).filter fun l => listNat l 1 1 % 8 = 1
    reroute (modPort s d p fun x => { x with replay := [], txq := [], training := false }) d flits
/-- A link fault that the security core is told of. -/
def linkFaultSecure (s : State) (d p : Nat) : State :=
  let s := linkFault s d p
  { s with outbox := s.outbox ++ [⟨d, 11, 14, leBytes 1 p⟩] }
/-- A flit of a count has failed twice: a located error retires its quarter of the link (assumption 5), another is a fault. -/
def lastingFlit (s : State) (d p : Nat) (located : Bool) : State :=
  if !located then linkFaultSecure s d p
  else
    let q := Config.quarterOf s.draws
    let retired := (portOf s.draw d p).retired ||| BitVec.twoPow 4 q.val
    let n := ((List.range 4).filter fun k => retired.getLsbD k).length
    if 2 < n then linkFault s.draw d p
    else
      let s := (errorRec s.draw d 2 1 0 [] p 0).1
      let s := modPort s d p fun x => { x with retired := retired, training := true }
      s.setCtlBits d (portBase p) 18 17 n
/-- LINK_RETRAIN_COMPLETE (R33): the buffered flits are sent again, and held traffic goes on. -/
def execLinkRetrainComplete (d : DieId) (p : Fin 6) (s : State) : Out :=
  let x := portOf s d p
  if !x.training then .next s
  else
    let s := modPort s d p fun x => { x with training := false, fails := [] }
    .next (pushTx (x.replay.foldl (fun s f => wireOut s d p f.wire) s) d p)

/-! ### Transmission (R28, R30, R31, R35) -/

/-- The 256 bytes of a flit: header and payload, integrity, FEC. -/
def sealFlit (s : State) (d p slot count : Nat) (l : List Byte) : List Byte :=
  let hdr := l.take 16
  let pay := l.drop 16
  if isReach p then
    let nonce := leBytes 2 (linkId (s.dieIndex d) p) ++ zeros 4 ++ leBytes 6 count
    let (ct, tag) := gcmSeal ((slotKey s d p slot).getD []) nonce hdr pay
    fecEncode (hdr ++ ct ++ tag)
  else fecEncode (l ++ leBytes 8 (crc64 l).toNat ++ zeros 8)
/-- The header of a queued flit, completed for its transmission: FCOUNT, KIDX, ACKSEQ and a NAK. -/
def finishHeader (x : Port) (slot : Nat) (hdr : Nat) : Nat :=
  hdr + x.txCount % 2 ^ 48 * 2 ^ 16 + slot * 2 ^ 7 + x.rxNext % 2 ^ 16 * 2 ^ 112 +
    (match x.naks with | n :: _ => 2 ^ 6 + n % 2 ^ 16 * 2 ^ 96 | [] => 0)
/-- A queued flit may go: with an expired key only idle flits, and no data before a reach link has its first key. -/
def mayGo (s : State) (d p : Nat) (x : Port) (l : List Byte) : Bool :=
  let type := listNat l 1 1 % 8
  !(keyExpired s d p && type ≠ 0) && !(isReach p && !x.keySet && type = 1)
/-- The next queued flit that may go. -/
def nextFlit (s : State) (d p : Nat) (x : Port) : Option (List Byte) := x.txq.find? fun l => mayGo s d p x l
/-- FLIT_TRANSMIT (R31): a flit for a sleeping link starts a wake (R38). Every flit that goes, an idle one too, takes its place in
the replay buffer (assumption 45). -/
def execFlitTransmit (d : DieId) (p : Fin 6) (s : State) : Out :=
  let x := portOf s d p
  if dieDown s d || linkFenced s d p || x.txq.isEmpty then .next s
  else if linkState s d p = 2 then .next (modPort (setLinkState s d p 3) d p fun x => { x with tries := 1 })
  else if linkState s d p ≠ 1 || x.training || Config.replayFlits ≤ x.replay.length then .next s
  else match nextFlit s d p x with
    | none => .next s
    | some l =>
      let slot := if isReach p then curSlot s d p else 0
      let hdr := finishHeader x slot (listNat l 0 16)
      let plain := leBytes 16 hdr ++ l.drop 16
      let wire := sealFlit s d p slot x.txCount plain
      let n := mget 0 x.sent slot + 1
      let s := modPort s d p fun x => { x with
        txCount := x.txCount + 1, txq := x.txq.erase l, naks := x.naks.drop 1, sent := mset x.sent slot n
        replay := x.replay ++ [⟨x.txCount, slot, l, wire⟩] }
      let s := if isReach p && decide (2 ^ 40 ≤ n) then s.setCtlBits d (portBase p) 10 10 1 else s
      .next (wireOut s d p wire)
/-- REPLAY_TIMEOUT_RESEND (R31): the oldest unacknowledged flit goes out again, as it was. -/
def execReplayTimeoutResend (d : DieId) (p : Fin 6) (s : State) : Out :=
  if linkState s d p ≠ 1 || linkFenced s d p then .next s
  else match (portOf s d p).replay with
    | f :: _ => .next (wireOut s d p f.wire)
    | [] => .next s

/-! ### Reception (R29 to R34) -/

def chanOrdered (c : Nat) : Bool := c = 0 || c = 1 || c = 4 || c = 7
/-- What is wrong with a received flit: nothing (its 208 plain bytes), an uncorrectable codeword, or another failure. -/
inductive Received where
  | good (l : List Byte)
  | uncorrectable
  | failed (count : Nat)
  deriving DecidableEq, Repr
/-- Correct and check a received flit (R30). -/
def openFlit (s : State) (d p : Nat) (bytes : List Byte) : Received :=
  if bytes.length ≠ 256 then .uncorrectable
  else match fecDecode bytes with
    | none => .uncorrectable
    | some (l, _) =>
      let h := listNat l 0 16
      let count := bitsOf h 63 16
      let hdr := l.take 16
      let pay : Option (List Byte) :=
        if isReach p then
          match slotKey s d p (bitsOf h 7 7) with
          | none => none
          | some k => gcmOpen k (leBytes 2 (linkId (peerOf s d p) p) ++ zeros 4 ++ leBytes 6 count) hdr ((l.drop 16).take 192) ((l.drop 208).take 16)
        else if listNat l 208 8 = (crc64 (l.take 208)).toNat && listNat l 216 8 = 0 && bitsOf h 7 7 = 0 then some ((l.drop 16).take 192)
        else none
      match pay with
      | none => .failed count
      | some b =>
        if 3 ≤ bitsOf h 10 8 || 8 ≤ bitsOf h 15 11 || bitsOf h 77 64 ≠ 0 || bitsOf h 5 0 ≠ 0 then .failed count
        else .good (hdr ++ b)
/-- The highest count that a port has received, plus one. -/
def rxTop (x : Port) : Nat := x.rxGot.foldl (fun m n => max m (n + 1)) x.rxNext
/-- A count has been received. -/
def gotCount (x : Port) (n : Nat) : Bool := decide (n < x.rxNext) || x.rxGot.contains n
/-- The counts that a flit without a readable count can have: one that is missing, one beyond them that has failed, or the next
new one. -/
def failedCounts (x : Port) : List Nat :=
  let top := rxTop x
  let missing := ((List.range (top - x.rxNext)).map fun k => x.rxNext + k).filter fun n => !x.rxGot.contains n
  let beyond := (x.fails.map Prod.fst).filter fun n => decide (top ≤ n)
  missing ++ beyond ++ [beyond.foldl (fun m n => max m (n + 1)) top]
/-- The count that a failed flit has: its own where it can be read, nothing if that has been received; which of the possible
counts an unreadable flit had is a free value (assumption 28). -/
def failedCount (s : State) (d p : Nat) (own : Option Nat) : State × Option Nat :=
  let x := portOf s d p
  match own with
  | some n => (s, if gotCount x n then none else some n)
  | none =>
    let (s, v) := foreignValue s 4
    let l := failedCounts x
    (s, l[v % l.length]?)
/-- A flit has failed. -/
def flitFails (s : State) (d p : Nat) (own : Option Nat) (located : Bool) : State :=
  match failedCount s d p own with
  | (s, none) => s
  | (s, some count) =>
    let n := mget 0 (portOf s d p).fails count + 1
    let s := modPort s d p fun x => { x with fails := mset x.fails count n }
    if n < 2 then s else lastingFlit s d p located
/-- Act on ACKSEQ and NAKSEQ. -/
def takeAcks (s : State) (d p h : Nat) : State :=
  let ack := bitsOf h 127 112
  let x := portOf s d p
  let covered (f : SentFlit) : Bool := let k := (ack + 65536 - f.count % 65536) % 65536; decide (0 < k) && decide (k ≤ 32768)
  let full := decide (Config.replayFlits ≤ x.replay.length)
  let s := modPort s d p fun x => { x with replay := x.replay.filter fun f => !covered f }
  let s := if full then pushTx s d p else s
  let s := retireSlot s d p
  if bit h 6 then
    match (portOf s d p).replay.find? fun f => f.count % 65536 = bitsOf h 111 96 with
    | some f => wireOut s d p f.wire
    | none => s
  else s
/-- Hand on a Confluence message of a die index that has come over a link: to a mailbox, a sequencer, a silence timer, or the next
route. -/
def arriveMsg (s : State) (d src dst : Nat) (m : W512) : State :=
  if dst / 8 ≠ s.pkg then relayAbroad s d src dst m
  else if msgType m = 1 then s.push (.heartbeat (Fin.ofNat 8 dst) (BitVec.ofNat 9 (msgFrom m)))
  else if msgMulti m && msgSeq m = 0 then
    s.push (.gseqAssign (Fin.ofNat 8 dst) (BitVec.ofNat 8 (msgGroup m)) m (BitVec.ofNat 9 (msgFrom m)) 0)
  else s.push (.mailboxDeliver (Fin.ofNat 8 dst) (Fin.ofNat 16 (msgBox m)) m none)
/-- Deliver a flit: up to three Confluence messages, data for a die of the package or for another package, or a part of the key
exchange. What comes from a lost die is discarded (R75). The spec gives the data of CHAN 1 to 6 no layout: it is handed to the die
as it is (assumption 21). -/
def deliverFlit (s : State) (d : DieId) (p : Fin 6) (l : List Byte) : State :=
  let h := listNat l 0 16
  let dst := flitTo l
  let src := bitsOf h 86 81 * 8 + bitsOf h 80 78
  let pay := l.drop 16
  if fromLost s d src then s
  else match bitsOf h 10 8, bitsOf h 15 11 with
  | 1, 0 => (List.range 3).foldl (fun s k =>
      let m : W512 := BitVec.ofNat 512 (listNat pay (64 * k) 64)
      if msgType m = 0 then s else arriveMsg s d src dst m) s
  | 1, c =>
    if c = 7 then s
    else if dst / 8 ≠ s.pkg then sendFlit s d (makeFlit c 1 src dst pay)
    else { s with outbox := s.outbox ++ [⟨dst % 8, 19, c, leBytes 2 src ++ pay⟩] }
  | 2, 7 =>
    if isReach p then
      match listNat pay 0 2 with
      | 0 => s.push (.keyExchangeNonce d p pay)
      | 1 => s.push (.keyExchangeReport d p pay)
      | 2 => s.push (.keyExchangeEphemeral d p pay)
      | 3 => s.push (.keyready d p pay)
      | _ => s
    else s
  | _, _ => s
/-- Advance the lowest missing count over what has been received. -/
def advanceRx : Nat → Port → Port
  | 0, x => x
  | n + 1, x => if x.rxGot.contains x.rxNext then advanceRx n { x with rxNext := x.rxNext + 1, rxGot := x.rxGot.filter (· ≠ x.rxNext) } else x
/-- A good flit with a new count: a NAK for each gap it shows and an acknowledgement go with the flits that may go, or with idle ones. -/
def takeFlit (s : State) (d : DieId) (p : Fin 6) (count : Nat) (l : List Byte) : State :=
  let h := listNat l 0 16
  let x := portOf s d p
  let s := if mget 0 x.fails count = 1 then
      let s := (errorRec s d 1 1 0 [] p.val 0).1
      s.setCtlBits d (portBase p) 63 32 (min (2 ^ 32 - 1) (s.ctlBits d (portBase p) 63 32 + 1))
    else s
  let gaps := ((List.range (count - rxTop x)).map fun k => rxTop x + k)
  let idle := bitsOf h 10 8 = 0
  let ordered := chanOrdered (bitsOf h 15 11)
  let s := modPort s d p fun x =>
    let slot := bitsOf h 7 7
    let x := if isReach p && slot ≠ x.rxSlot && x.rxOld.isNone then { x with rxSlot := slot, rxOld := some (x.rxSlot, count) } else x
    advanceRx (x.rxGot.length + 1) { x with
      fails := x.fails.filter fun f => f.1 ≠ count && !(decide (rxTop x ≤ count) && decide (count < f.1)), naks := x.naks ++ gaps, rxGot := x.rxGot ++ [count]
      held := if ordered && !idle then mset x.held count l else x.held }
  let s := if ordered || idle then s else deliverFlit s d p l
  let x := portOf s d p
  let out := x.held.filter fun q => decide (q.1 < x.rxNext)
  let s := modPort s d p fun x => { x with held := x.held.filter fun q => decide (x.rxNext ≤ q.1) }
  let s := releaseSlot (out.foldl (fun s q => deliverFlit s d p q.2) s) d p
  let x := portOf s d p
  let n := max 1 gaps.length - (x.txq.filter fun l => mayGo s d p x l).length
  (List.range n).foldl (fun s _ => queueFlit s d p (makeFlit 7 0 (s.dieIndex d) (peerOf s d p) [])) s
/-- FLIT_RECEIVE (R32). -/
def execFlitReceive (d : DieId) (p : Fin 6) (bytes : List Byte) (s : State) : Out :=
  if dieDown s d || linkState s d p ≠ 1 || linkFenced s d p then .next s
  else
    let x := portOf s d p
    match openFlit s d p bytes with
    | .uncorrectable => .next (flitFails s d p none true)
    | .failed n => .next (flitFails s d p (some n) false)
    | .good l =>
      let h := listNat l 0 16
      let count := bitsOf h 63 16
      let s := takeAcks s d p h
      .next (keyProgress (if gotCount x count then s else takeFlit s d p count l) d p)

/-! ### Sleep and wake (R38) -/

/-- LINK_IDLE_SLEEP. -/
def execLinkIdleSleep (d : DieId) (p : Fin 6) (idleUs : Nat) (s : State) : Out :=
  let idle := s.ctlBits d (portBase p + 8) 15 4
  let x := portOf s d p
  if linkState s d p = 1 && !linkFenced s d p && !x.training && x.txq.isEmpty && idle ≠ 0 && decide (idle ≤ idleUs) then
    .next (setLinkState s d p 2)
  else .next s
/-- LINK_WAKE_COMPLETE: the wake was begun here, or by a flit queued at the other end. -/
def execLinkWakeComplete (d : DieId) (p : Fin 6) (s : State) : Out :=
  if dieDown s d || linkFenced s d p then .next s
  else if linkState s d p = 2 || linkState s d p = 3 then .next (pushTx (modPort (setLinkState s d p 1) d p fun x => { x with tries := 0 }) d p) else .next s
/-- LINK_WAKE_TIMEOUT: one retry, then a link fault. -/
def execLinkWakeTimeout (d : DieId) (p : Fin 6) (s : State) : Out :=
  if linkState s d p ≠ 3 then .next s
  else if (portOf s d p).tries < 2 then .next (modPort s d p fun x => { x with tries := x.tries + 1 })
  else .next (linkFault s d p)

/-! ### Keys (R36, R37, R39) -/

/-- KEY_WRITE (R36, R39). -/
def execKeyWrite (d : DieId) (p : Fin 6) (n : Fin 2) (word : Fin 4) (value : W64) (m : Master) (s : State) : Out :=
  if masterStopped s d m then .next s
  else if !isFw m 4 then .next (violation s d m (ctlBase d + portBase p + 0x40 + 0x20 * n + 8 * word))
  else .next (writeKey s d p n word value)
/-- LNKCTL_ROLL (R36, R39). -/
def execLnkctlRoll (d : DieId) (p : Fin 6) (m : Master) (s : State) : Out :=
  if masterStopped s d m then .next s
  else if !isFw m 4 then .next (violation s d m (ctlBase d + portBase p + 8))
  else .next (rollKey s d p)
/-- KEY_EXPIRE (R37): the current slot has reached 2^40 flits. -/
def execKeyExpire (d : DieId) (p : Fin 6) (s : State) : Out :=
  if isReach p && decide (2 ^ 40 ≤ mget 0 (portOf s d p).sent (curSlot s d p)) then .next (s.setCtlBits d (portBase p) 10 10 1)
  else .next s

/-! ### The key exchange (R74) -/

/-- Start an exchange: a fresh nonce and ephemeral secret; the nonce goes to the peer. -/
def startExchange (s : State) (d p : Nat) : State :=
  let nonce := leBytes 32 (Config.freshSecret s.draws).toNat
  let secret := Config.freshSecret (s.draws + 1)
  let s := modPort { s with draws := s.draws + 2 } d p fun x => { x with
    kxOn := true, ownNonce := nonce, secret := secret, report := [], peerOk := false, wanted := none, ready := false, peerReady := false }
  sendLinkMsg s d p 0 0 nonce
/-- KEY_EXCHANGE_NONCE: the report over the peer's nonce and the signed ephemeral key follow; a peer's first nonce starts the
exchange here too. -/
def execKeyExchangeNonce (d : DieId) (p : Fin 6) (payload : List Byte) (s : State) : Out :=
  if !linkCoreUp s d then .next s
  else
    let nonce := (payload.drop 8).take 32
    let s := if (portOf s d p).kxOn then s else startExchange s d p
    let s := modPort s d p fun x => { x with peerNonce := nonce }
    let rep := attestReport s d nonce
    let s := sendLinkMsg (sendLinkMsg s d p 1 0 (rep.take 184)) d p 1 1 (rep.drop 184)
    let pub := leBytes 56 (x448 (portOf s d p).secret.toNat 5)
    .next (sendLinkMsg s d p 2 0 (pub ++ edSign (identityKey d) pub))
/-- The identity key that the image manifest lists for the peer. -/
def peerKey (s : State) (d p : Nat) : Option (List Byte) := mfind (s.die d).fw.keys (peerOf s d p)
/-- A report of the peer is in order: version, nonce, listed key, signature. -/
def reportOk (s : State) (d p : Nat) (rep : List Byte) : Bool :=
  match peerKey s d p with
  | none => false
  | some k => listNat rep 0 4 = 1 && (rep.drop 16).take 32 = (portOf s d p).ownNonce && (rep.drop 112).take 57 = k &&
      edVerify k (rep.take 176) ((rep.drop 176).take 114)
/-- KEY_EXCHANGE_REPORT: after both parts the peer is accepted or refused. -/
def execKeyExchangeReport (d : DieId) (p : Fin 6) (payload : List Byte) (s : State) : Out :=
  if !linkCoreUp s d || !(portOf s d p).kxOn then .next s
  else
    let b := payload.drop 8
    if listNat payload 2 2 = 0 then .next (modPort s d p fun x => { x with report := b.take 184 })
    else
      let rep := (portOf s d p).report ++ b.take 136
      if reportOk s d p rep then .next (modPort s d p fun x => { x with report := rep, peerOk := true })
      else .next (linkFault s d p)
/-- KEY_EXCHANGE_EPHEMERAL: the key is derived and installed in the slot that is not current; KEYREADY follows once it is. The peer's
port number is taken to be this end's (assumption 21). -/
def execKeyExchangeEphemeral (d : DieId) (p : Fin 6) (payload : List Byte) (s : State) : Out :=
  let x := portOf s d p
  if !linkCoreUp s d || !x.kxOn then .next s
  else
    let pub := (payload.drop 8).take 56
    let sig := (payload.drop 64).take 114
    match peerKey s d p with
    | none => .next (linkFault s d p)
    | some k =>
      if !x.peerOk || !edVerify k pub sig then .next (linkFault s d p)
      else
        let a := linkId (s.dieIndex d) p
        let b := linkId (peerOf s d p) p
        let shared := leBytes 56 (x448 x.secret.toNat (leNat pub))
        let key := shake256 (shared ++ leBytes 2 (min a b) ++ leBytes 2 (max a b) ++ leBytes 8 x.rolls) 32
        .next (keyProgress (modPort s d p fun x => { x with wanted := some (BitVec.ofNat 256 (leNat key)) }) d p)
/-- KEYREADY: ROLL is set only once the peer is ready too. -/
def execKeyready (d : DieId) (p : Fin 6) (payload : List Byte) (s : State) : Out :=
  let x := portOf s d p
  if !linkCoreUp s d || !x.kxOn || listNat payload 8 8 ≠ x.rolls then .next s
  else .next (keyProgress (modPort s d p fun x => { x with peerReady := true }) d p)
/-- LINK_KEY_ROLL_TIMER (R74): a new exchange at 2^39 flits under the current slot or after 24 h. -/
def execLinkKeyRollTimer (d : DieId) (p : Fin 6) (hours : Nat) (s : State) : Out :=
  let x := portOf s d p
  if isReach p && linkCoreUp s d && x.keySet && !x.kxOn && (decide (24 ≤ hours) || decide (2 ^ 39 ≤ mget 0 x.sent (curSlot s d p))) then
    .next (startExchange s d p)
  else .next s

end Sys2Proof.Machine
end

