-- ==== Sys2Proof/Machine/Power.lean ====
section
/-! DEFINITION. Power-on and bring-up (R23, R24), the voltage and frequency islands and their throttles (R16 to R21), and the power limit
(R19). -/

namespace Sys2Proof.Machine

/-! ### Bring-up (R23, R24) -/

/-- POWER_ON (R23): every die starts in phase 0. What is fused, and the memory beyond the package, stay. -/
def execPowerOn (s : State) : Out :=
  .next { State.reset with
    ticks := s.ticks
    draws := s.draws
    outbox := s.outbox
    fuses := s.fuses
    keyDigest := s.keyDigest
    mem := s.mem.filter fun p => decide (2 ^ 64 ≤ p.1)
    mempoison := s.mempoison.filter fun p => decide (2 ^ 58 ≤ p.1)
    dies := s.dies.map fun (p : Nat × Die) => (p.1, { fw := { minSvn := p.2.fw.minSvn } }) }

/-- A die fails in its phase and halts there (R24). -/
def bootFails (s : State) (d code : Nat) : State :=
  let s := (s.setCtlBits d 0x20 15 12 code).setCtlBits d 0x20 8 8 1
  s.modDie d fun x => { x with power := { x.power with halted := true } }
/-- The mailboxes of the firmware cores (R45). -/
def bootBoxes (s : State) (d : Nat) : State :=
  (List.range 8).foldl (fun s k =>
    s.setCtl d (boxCfg (8 + k)) (BitVec.ofNat 64 (lpddrBase d + firmwareOff + 0x1000 * k + (8 + k) * 32 + 1))) s
/-- Phase 2 (R45, R68, R72, R73): what the boot ROM has authenticated is running. -/
def bootImage (s : State) (d : Nat) (r : BootReport) : State :=
  let s := modFw s d fun x => { x with
    svn := listNat (manifestOf r.images) 4 4
    digest := shake256 (manifestOf r.images) 64
    keys := r.identities }
  let s := s.setCtl d 0 (BitVec.ofNat 64 (r.pkg.toNat * 256 + d))
  writeGroup0 (bootBoxes s d) d r.expected
/-- A port can have found a peer: a bridge slot only the die at the other end of one of the die's bridges (R11, R39). -/
def peerOk (s : State) (d p peer : Nat) : Bool := isReach p || (peer / 8 = s.pkg && bridged s d (peer % 8))
/-- The ports of a list that found a peer (R39); messages that wait for a route may go. -/
def bootPorts (s : State) (d : Nat) (r : BootReport) (l : List Nat) : State :=
  let found := r.peers.filter fun p => l.contains p.1 && peerOk s d p.1 p.2.toNat
  let s := found.foldl (fun s p =>
    let b := portBase p.1
    setLinkState (((s.setCtlBits d b 27 22 (p.2.toNat / 8)).setCtlBits d b 21 19 (p.2.toNat % 8)).setCtlBits d b 0 0 1) d p.1 1) s
  (List.range 8).foldl retryStuck s
/-- Phase 5 (R55, R56, R74): the host port and the reach links, whose slot 0 holds the key of zeros; the exchange starts. -/
def bootOutside (s : State) (d : Nat) (r : BootReport) : State :=
  let s := s.setCtlBits d 0x6000 51 40 r.hostPid.toNat
  let s := (s.setCtlBits d 0x6000 7 6 r.hostSpeed.toNat).setCtlBits d 0x6000 0 0 (if r.hostMode then 1 else 0)
  let s := bootPorts s d r [4, 5]
  [4, 5].foldl (fun s p =>
    if linkState s d p = 1 then startExchange (modPort s d p fun x => { x with keys := mset x.keys 0 0 }) d p else s) s
def enterPhase (s : State) (d p : Nat) : State := s.setCtlBits d 0x20 3 0 p
/-- BOOT_PHASE_COMPLETE (R23, R24): the phase's work is done and the next is entered, or its check has failed. A training that failed
is a failed check of phases 3 and 4; phase 5 has no check, since a host or a peer package may be absent (assumption 44). -/
def execBootPhaseComplete (d : DieId) (r : BootReport) (s : State) : Out :=
  if dieDown s d then .next s
  else match bootPhase s d with
    | 0 => .next (enterPhase s d 1)
    | 1 => .next (enterPhase s d 2)
    | 2 =>
      if imageSetOk r s.keyDigest (s.die d).fw.minSvn then .next (enterPhase (bootImage s d r) d 3) else .next (bootFails s d 2)
    | 3 => if r.trained then .next (enterPhase s d 4) else .next (bootFails s d 2)
    | 4 => if r.trained then .next (enterPhase (bootPorts s d r [0, 1, 2, 3]) d 5) else .next (bootFails s d 2)
    | 5 =>
      .next (sendJoin (enterPhase (bootOutside s d r) d 6) d)
    | _ => .next s
/-- BOOT_PHASE_BOUND_EXCEEDED (R24): phase 6 has no bound. -/
def execBootPhaseBoundExceeded (d : DieId) (s : State) : Out :=
  if dieDown s d || decide (6 ≤ bootPhase s d) then .next s else .next (bootFails s d 1)

/-! ### Islands (R16 to R18) -/

def vfiCtl (i : Nat) : Nat := 0x1000 + 8 * i
def vfiStat (i : Nat) : Nat := 0x1080 + 8 * i
def gateSet (s : State) (d i : Nat) : Bool := s.ctlBits d (vfiCtl i) 4 4 = 1
def islandGated (s : State) (d i : Nat) : Bool := s.ctlBits d (vfiStat i) 8 8 = 1
/-- The effective step that an island is to have: the lowest of STEP and the two caps (R18). -/
def targetStep (s : State) (d i : Nat) : Nat :=
  min (s.ctlBits d (vfiCtl i) 3 0) (min (s.die d).power.cap (15 - mget 0 (s.die d).power.thermal i))
/-- MOVING while a step change or a gate change is in progress. -/
def refreshMoving (s : State) (d i : Nat) : State :=
  let moving := gateSet s d i != islandGated s d i || (!islandGated s d i && s.ctlBits d (vfiStat i) 3 0 ≠ targetStep s d i)
  s.setCtlBits d (vfiStat i) 9 9 (if moving then 1 else 0)
def refreshIslands (s : State) (d : Nat) : State := (List.range 16).foldl (fun s i => refreshMoving s d i) s
/-- The island runs at the step it is to have. -/
def reachStep (s : State) (d i : Nat) : State := refreshMoving (s.setCtlBits d (vfiStat i) 3 0 (targetStep s d i)) d i
def modPower (s : State) (d : Nat) (f : PowerState → PowerState) : State := s.modDie d fun x => { x with power := f x.power }
/-- A write of VFICTL by a master (R15): the power core alone. -/
def vfiWrite (s : State) (d i : Nat) (m : Master) (f : State → State) : State :=
  if masterStopped s d m then s
  else if !isFw m 5 then violation s d m (ctlBase d + vfiCtl i)
  else refreshMoving (f s) d i
/-- VFI_STEP_REQUEST (R17, R18): the newest request replaces an older one. -/
def execVfiStepRequest (d : DieId) (i : Fin 16) (step : BitVec 4) (m : Master) (s : State) : Out :=
  .next (vfiWrite s d i m fun s => s.setCtlBits d (vfiCtl i) 3 0 step.toNat)
/-- VFI_STEP_CHANGE_COMPLETE (R18). -/
def execVfiStepChangeComplete (d : DieId) (i : Fin 16) (s : State) : Out :=
  if islandGated s d i || dieDown s d then .next s else .next (reachStep s d i)

/-! ### Throttles and the thermal limit (R19, R20) -/

def setPlim (s : State) (d v : Nat) : State := (List.range 16).foldl (fun s i => s.setCtlBits d (vfiStat i) 10 10 v) s
/-- POWER_THROTTLE_DOWN (R19): die power over 1 ms, in units of 0.1 W. -/
def execPowerThrottleDown (d : DieId) (power : Nat) (s : State) : Out :=
  if power ≤ s.ctlBits d 0x2000 15 0 then .next s
  else .next (refreshIslands (setPlim (modPower s d fun x => { x with cap := x.cap - 1 }) d 1) d)
/-- POWER_THROTTLE_UP (R19). -/
def execPowerThrottleUp (d : DieId) (power : Nat) (s : State) : Out :=
  if s.ctlBits d 0x2000 15 0 * 95 ≤ power * 100 || 15 ≤ (s.die d).power.cap then .next s
  else
    let s := modPower s d fun x => { x with cap := x.cap + 1 }
    .next (refreshIslands (if (s.die d).power.cap = 15 then setPlim s d 0 else s) d)
/-- Note an island's temperature; a sensor at 115 °C takes the die's power away (R20). -/
def noteTemp (s : State) (d i temp : Nat) : State :=
  let s := s.setCtlBits d (vfiStat i) 23 16 (min 255 temp)
  if 115 ≤ temp then modPower s d fun x => { x with dieOff := true } else s
/-- Move an island's thermal cap. -/
def setThermal (s : State) (d i lower : Nat) : State :=
  let s := modPower s d fun x => { x with thermal := mput 0 x.thermal i lower }
  refreshMoving (s.setCtlBits d (vfiStat i) 11 11 (if lower = 0 then 0 else 1)) d i
/-- THERMAL_THROTTLE_DOWN (R20). -/
def execThermalThrottleDown (d : DieId) (i : Fin 16) (temp : Nat) (s : State) : Out :=
  let s := noteTemp s d i temp
  if temp < 105 then .next s else .next (setThermal s d i (min 15 (mget 0 (s.die d).power.thermal i.val + 1)))
/-- THERMAL_THROTTLE_UP (R20). -/
def execThermalThrottleUp (d : DieId) (i : Fin 16) (temp : Nat) (s : State) : Out :=
  let s := noteTemp s d i temp
  if 100 ≤ temp then .next s else .next (setThermal s d i (mget 0 (s.die d).power.thermal i.val - 1))
/-- DIE_THERMAL_SHUTDOWN (R20): the die loses its power. -/
def execDieThermalShutdown (d : DieId) (temp : Nat) (s : State) : Out :=
  if temp < 115 then .next s else .next (modPower s d fun x => { x with dieOff := true })

/-! ### Gating (R21) -/

/-- GATE of an island is written. Set, its clusters leave dispatch at once, and its suspended teams are moved (R120); cleared while power has
not been removed, they are back at once. -/
def setGate (s : State) (d i : Nat) (on : Bool) : State :=
  let s := s.setCtlBits d (vfiCtl i) 4 4 (if on then 1 else 0)
  if on then
    let l := s.teams.filter fun t => t.2.die = d && t.2.cluster / 4 = i && t.2.phase = .suspended
    kickPlace (l.foldl (fun s t => startMove s t.1) s) d
  else if islandGated s d i then s
  else kickPlace s d
/-- VFI_GATE_SET: no new team is placed on the island. -/
def execVfiGateSet (d : DieId) (i : Fin 16) (m : Master) (s : State) : Out :=
  .next (vfiWrite s d i m fun s => setGate s d i true)
/-- VFI_GATE_CLEAR: power is restored if it has been removed; else the clusters are back in dispatch at once. -/
def execVfiGateClear (d : DieId) (i : Fin 16) (m : Master) (s : State) : Out :=
  .next (vfiWrite s d i m fun s => setGate s d i false)
/-- The clusters of an island hold no resident team, running, suspended or on its way off, and no engine command. -/
def islandEmpty (s : State) (d i : Nat) : Bool :=
  (List.range 4).all fun k =>
    let c := 4 * i + k
    let x := s.cluster (clusterKey d c)
    (teamsOf s d c fun p => isRunning p || isStopped p).isEmpty && x.seq.isEmpty && x.copies.isEmpty && x.writeout.isEmpty
/-- The frames of the island's slices. -/
def islandFrames (s : State) (d i : Nat) : List Frame :=
  (s.frames d).filter fun f => tileHash f.tile % 64 / 4 = i && !f.wb
/-- ISLAND_POWER_OFF: once no team is resident; the slices' dirty tiles are written back before, and copies that other dies hold of their
coherent tiles are called in first. -/
def execIslandPowerOff (d : DieId) (i : Fin 16) (s : State) : Out :=
  if dieDown s d || !gateSet s d i || islandGated s d i || !islandEmpty s d i then .next s
  else
    let l := islandFrames s d i
    if l.all fun f => evictable f && !copiesOut d f then
      let s := l.foldl (fun s f => evict s d f) s
      let s := modPower s d fun x => { x with off := x.off ||| BitVec.twoPow 16 i.val }
      .next (refreshMoving (s.setCtlBits d (vfiStat i) 8 8 1) d i)
    else .next ((l.filter fun f => evictable f && copiesOut d f).foldl (fun s f => queueHome s d f.tile 4 d) s)
/-- ISLAND_POWER_RESTORED: at the requested step; the clusters return to dispatch. -/
def execIslandPowerRestored (d : DieId) (i : Fin 16) (s : State) : Out :=
  if !gateSet s d i && islandGated s d i then
    let s := modPower s d fun x => { x with off := x.off &&& ~~~(BitVec.twoPow 16 i.val) }
    .next (kickPlace (reachStep (s.setCtlBits d (vfiStat i) 8 8 0) d i) d)
  else .next s

/-- PWRLIM_WRITE (R17): a POLICY above CEIL stores CEIL. -/
def execPwrlimWrite (d : DieId) (value : W64) (m : Master) (s : State) : Out :=
  if masterStopped s d m then .next s
  else if !isFw m 5 then .next (violation s d m (ctlBase d + 0x2000))
  else .next (s.setCtlBits d 0x2000 15 0 (min (wbits value 15 0) (s.ctlBits d 0x2000 31 16)))

end Sys2Proof.Machine
end

