-- ==== Sys2Proof/Machine/Registers.lean ====
section
/-! DEFINITION. Writes to control registers (R7, R9, R15): who may write each register, its writable fields, and, for a register with
a behaviour of its own, the operation that its own event shares. -/

namespace Sys2Proof.Machine

/-- A register without a behaviour of its own: who may write it, its RW and W1C fields, and of these the RW fields that a write
leaves alone now. -/
structure PlainReg where
  ok : Bool
  rw : Nat
  w1c : Nat := 0
  locked : Nat := 0
  deriving DecidableEq, Repr

/-- What a write of v leaves of a register (R7). -/
def plainValue (r : PlainReg) (old v : W64) : W64 :=
  let lock : W64 := BitVec.ofNat 64 r.locked
  let rw : W64 := BitVec.ofNat 64 r.rw &&& ~~~lock
  let clr : W64 := BitVec.ofNat 64 r.w1c
  (old &&& ~~~rw &&& ~~~(clr &&& v)) ||| (v &&& rw)

/-- Fields that may not be written while the EN bit of a control register is 1. -/
def lockedBy (s : State) (d ctl mask : Nat) : Nat := if s.ctlBits d ctl 0 0 = 1 then mask else 0

/-- The registers of the rings, tables and ports (R56, R61, R127 to R129, R152, R201, R209, R213). -/
def ringReg (s : State) (d off : Nat) (m : Master) : Option PlainReg :=
  match off with
  | 0x0000 => some { ok := isFw m 6, rw := fieldMask 13 8 + fieldMask 2 0 }
  | 0x4A00 => some { ok := isSup m, rw := fieldMask 51 15 }
  | 0x5800 => some { ok := isFw m 2, rw := fieldMask 12 8 + fieldMask 4 0, w1c := fieldMask 63 32, locked := lockedBy s d 0x5800 (fieldMask 12 8) }
  | 0x5808 => some { ok := isFw m 2, rw := fieldMask 51 5, locked := lockedBy s d 0x5800 (fieldMask 51 5) }
  | 0x5A00 => some { ok := isFw m 7, rw := fieldMask 16 8 + fieldMask 2 0, w1c := fieldMask 63 32, locked := lockedBy s d 0x5A00 (fieldMask 16 12) }
  | 0x5A08 => some { ok := isFw m 7, rw := fieldMask 51 6, locked := lockedBy s d 0x5A00 (fieldMask 51 6) }
  | 0x5B00 => some { ok := isSup m, rw := fieldMask 63 32 + fieldMask 23 16 + fieldMask 12 8 + fieldMask 1 0, w1c := fieldMask 3 2 }
  | 0x5B08 => some { ok := isSup m, rw := fieldMask 51 6 }
  | 0x5C00 => some { ok := isSup m, rw := fieldMask 51 17 + fieldMask 0 0, locked := lockedBy s d 0x5C00 (fieldMask 51 17) }
  | 0x5D00 => some { ok := isSup m, rw := fieldMask 51 16 + fieldMask 0 0, locked := lockedBy s d 0x5D00 (fieldMask 51 16) }
  | 0x5D08 => some { ok := isSup m, rw := fieldMask 51 5, locked := lockedBy s d 0x5D18 (fieldMask 51 5) }
  | 0x5D18 => some { ok := isSup m, rw := fieldMask 12 8 + fieldMask 0 0, locked := lockedBy s d 0x5D18 (fieldMask 12 8) }
  | 0x5E00 => some { ok := isFw m 3, rw := fieldMask 12 8 + fieldMask 0 0, w1c := fieldMask 63 32, locked := lockedBy s d 0x5E00 (fieldMask 12 8) }
  | 0x5E08 => some { ok := isFw m 3, rw := fieldMask 51 5, locked := lockedBy s d 0x5E00 (fieldMask 51 5) }
  | 0x6000 => some { ok := isSup m, rw := fieldMask 1 1 }
  | _ => none
/-- The registers that stand in blocks: CFMSG, MBCFG (R45), FWOUT and the rest of a firmware block (R70), BKCTL and BKADDR (R122). -/
def blockReg (off : Nat) (m : Master) : Option PlainReg :=
  match inBlock off 0x4000 0x80 16 with
  | some (k, o) => if o < 0x40 then some { ok := isCore m k, rw := fieldMask 63 0 } else none
  | none => match inBlock off 0x4800 0x20 16 with
    | some (b, 0) => some { ok := boxMaster m b, rw := fieldMask 51 12 + fieldMask 8 5 + fieldMask 0 0 }
    | some _ => none
    | none => match inBlock off 0x7000 0x80 8 with
      | some (k, o) => if o = 0x20 then none else some { ok := isFw m k, rw := if o < 0x20 then fieldMask 63 0 else 0 }
      | none => match inBlock off 0xA000 0x10 512 with
        | some (_, 0) => some { ok := isSup m, rw := fieldMask 63 32 + fieldMask 20 16 + fieldMask 4 0 }
        | some _ => some { ok := isSup m, rw := fieldMask 54 0 }
        | none => none
def plainReg (s : State) (d off : Nat) (m : Master) : Option PlainReg := (ringReg s d off m).orElse fun _ => blockReg off m

/-- What follows the write of a plain register: fault records that waited for FLTCTL.EN are written (R209), and the runs of a log
close or a replay begins as AOLCTL.MODE changes (R129, R130). -/
def afterPlain (s : State) (d off : Nat) (old : W64) : State :=
  if off = 0x5D18 then flushFaults s d
  else if off = 0x5B00 then
    let new := s.ctlBits d off 1 0
    let s := if wbits old 1 0 = 1 && new ≠ 1 then aolClose s d else s
    if new = 2 && wbits old 1 0 ≠ 2 then s.modDie d fun x => { x with dbg := { x.dbg with aolUsed := [], aolFree := [] } } else s
  else s
/-- A write of a plain register. -/
def plainWrite (s : State) (d off : Nat) (value : W64) (m : Master) (r : PlainReg) : State :=
  if !r.ok then violation s d m (ctlBase d + off)
  else afterPlain (s.setCtl d off (plainValue r (s.ctl d off) value)) d off (s.ctl d off)

/-! ### Registers with a behaviour of their own -/

/-- FWMBCTL (R70): DEST first, a value below 8 stores 8; then RECV and SEND. -/
def fwCtlWrite (s : State) (d k : Nat) (value : W64) : State :=
  let s := refreshBoxes (s.setCtlBits d (fwBlock k + 0x20) 11 8 (max 8 (wbits value 11 8))) d
  let s := if bit value.toNat 2 then fwRecv s d k else s
  if bit value.toNat 0 then fwSend s d k else s
/-- LNKCTL (R39): IDLE, then ROLL. -/
def lnkCtlWrite (s : State) (d p : Nat) (value : W64) : State :=
  let s := s.setCtlBits d (portBase p + 8) 15 4 (wbits value 15 4)
  if bit value.toNat 0 then rollKey s d p else s
/-- DBGCMD (R125): OP 0 starts nothing. -/
def dbgWrite (d : DieId) (value : W64) (m : Master) (s : State) : Out :=
  match wbits value 1 0 with
  | 1 => execDebugHalt d value m s
  | 2 => execDebugResume d value m s
  | 3 => execDebugStep d value m s
  | _ =>
    if !isSup m then .next (violation s d m (ctlBase d + 0x9000))
    else if dbgBusy s d then .next s
    else .next (s.setCtl d 0x9000 (dbgFields value))
/-- FLTRESP (R209). -/
def faultAnswer (d : DieId) (value : W64) (m : Master) (s : State) : Out :=
  match wbits value 1 0 with
  | 1 => execFaultReplay d (BitVec.ofNat 16 (wbits value 31 16)) m s
  | 2 => execFaultRefuse d (BitVec.ofNat 16 (wbits value 31 16)) m s
  | _ => if !isSup m then .next (violation s d m (ctlBase d + 0x5D20)) else .next s
/-- A port's block (R39): LNKCTL and KEY for the link core, nothing else. -/
def portWrite (d : DieId) (p : Fin 6) (o : Nat) (value : W64) (m : Master) (s : State) : Out :=
  let no : Out := .next (violation s d m (ctlBase d + portBase p + o))
  match inBlock o 0x40 0x20 2 with
  | some (n, w) => execKeyWrite d p (Fin.ofNat 2 n) (Fin.ofNat 4 (w / 8)) value m s
  | none => if o = 8 && isFw m 4 then .next (lnkCtlWrite s d p value) else no
/-- A doorbell (R88): a wake store of a supervisor core or a host client; no page is any other master's. -/
def doorWrite (s : State) (d off : Nat) (value : W64) (m : Master) : State :=
  let q : BitVec 20 := BitVec.ofNat 20 ((off - 0x800000) / 8)
  match m with
  | .sup _ => s.push (.wakeStore (Fin.ofNat 8 d) q value .supervisor)
  | .host p => s.push (.wakeStore (Fin.ofNat 8 d) q value (.host (Fin.ofNat 8 d) p))
  | _ => violation s d m (ctlBase d + off)
/-- The write of a register that has a behaviour of its own; an offset that no register occupies, and a register that none may write,
is an access-window violation (R15). -/
def ownWrite (d : DieId) (off : Nat) (value : W64) (m : Master) (s : State) : Out :=
  if 0x800000 ≤ off then .next (doorWrite s d off value m)
  else match inBlock off 0x1000 8 16, inBlock off 0x3000 0x100 6, inBlock off 0x4000 0x80 16, inBlock off 0x4800 0x20 16 with
  | some (i, _), _, _, _ =>
    .next (vfiWrite s d i m fun s =>
      setGate (s.setCtlBits d (vfiCtl i) 3 0 (wbits value 3 0)) d i (bit value.toNat 4))
  | _, some (p, o), _, _ => portWrite d (Fin.ofNat 6 p) o value m s
  | _, _, some (k, 0x40), _ =>
    if !isCore m k then .next (violation s d m (ctlBase d + off))
    else if bit value.toNat 0 then execConfluenceSend d (Fin.ofNat 16 k) m s else .next s
  | _, _, _, some (b, 8) => execMbidxHeadWrite d (Fin.ofNat 16 b) (BitVec.ofNat 7 value.toNat) m s
  | _, _, _, _ => match inBlock off 0x5000 0x20 32, inBlock off 0x6100 0x10 16, inBlock off 0x6200 0x10 16, inBlock off 0x7000 0x80 8 with
    | some (n, o), _, _, _ => .next (frWrite s d n (o / 8) value m)
    | _, some (n, o), _, _ => execPoolmapWrite d (Fin.ofNat 16 n) (Fin.ofNat 2 (o / 8)) value m s
    | _, _, some (n, o), _ => execImpmapWrite d (Fin.ofNat 16 n) (Fin.ofNat 2 (o / 8)) value m s
    | _, _, _, some (k, 0x20) =>
      if isFw m k then .next (fwCtlWrite s d k value) else .next (violation s d m (ctlBase d + off))
    | _, _, _, _ => match off with
      | 0x2000 => execPwrlimWrite d value m s
      | 0x5D20 => faultAnswer d value m s
      | 0x5D28 => execSddoneWrite d value m s
      | 0x5E18 => execFrzclRelease d value m s
      | 0x5E20 => execFrzceRelease d value m s
      | 0x9000 => dbgWrite d value m s
      | _ => match ringAt off m with
        | some _ => execRingHeadWrite d off (BitVec.ofNat 21 value.toNat) m s
        | none => .next (violation s d m (ctlBase d + off))
/-- REGISTER_WRITE (R7, R9, R15). -/
def execRegisterWrite (d : DieId) (off : Nat) (value : W64) (m : Master) (s : State) : Out :=
  if masterStopped s d m then .next s
  else if off % 8 ≠ 0 && 0x800000 ≤ off && off < 0x1000000 && isSup m then .next s
  else if off % 8 ≠ 0 || 0x1000000 ≤ off then .next (violation s d m (ctlBase d + off))
  else match plainReg s d off m with
    | some r => .next (plainWrite s d off value m r)
    | none => ownWrite d off value m s

end Sys2Proof.Machine
end

