-- ==== Sys2Proof/Machine/Cores.lean ====
section
/-! DEFINITION. The supervisor and firmware cores as agents of their die (R173, R175, R177): reads of control registers (R7, R15), and the
loads, stores, atomics and fences of a core, which has translated its addresses itself (R201). -/

namespace Sys2Proof.Machine

/-! ### Reads of control registers (R7, R15) -/

/-- The masters that may read the register at an offset of a die's control block, and whether there is a register (R15, R39, R45, R49,
R56, R57, R61, R70, R83, R122, R125, R128, R129, R152, R201, R206, R209, R212, R213; assumption 54). -/
def mayRead (off : Nat) (m : Master) : Bool :=
  let sup := isSup m
  match inBlock off 0x1000 8 32, inBlock off 0x3000 0x100 6, inBlock off 0x4000 0x80 16, inBlock off 0x4800 0x20 16 with
  | some _, _, _, _ => sup || isFw m 5
  | _, some (_, o), _, _ => sup && (o = 0 || o = 8 || (0x40 ≤ o && o < 0x80))
  | _, _, some (k, o), _ => isCore m k && o ≤ 0x40
  | _, _, _, some (b, o) => (sup || boxMaster m b) && (o = 0 || o = 8)
  | _, _, _, _ => match inBlock off 0x7000 0x80 8 with
    | some (k, _) => isFw m k
    | none =>
      if (inBlock off 0x5000 0x20 32).isSome || (inBlock off 0x6100 0x10 16).isSome || (inBlock off 0x6200 0x10 16).isSome ||
        (inBlock off 0xA000 0x10 512).isSome then sup
      else match off with
        | 0x0000 | 0x0020 => sup || isFw m 5 || isFw m 6
        | 0x0010 => isFw m 6
        | 0x2000 => sup || isFw m 5
        | 0x5800 | 0x5808 | 0x5810 => sup || isFw m 2
        | 0x5A00 | 0x5A08 | 0x5A10 => sup || isFw m 7
        | 0x5E00 | 0x5E08 | 0x5E10 => sup || isFw m 3
        | 0x4A00 | 0x5B00 | 0x5B08 | 0x5B10 | 0x5C00 | 0x5D00 | 0x5D08 | 0x5D10 | 0x5D18 | 0x5D20 | 0x5D28 | 0x5E18 | 0x5E20 | 0x6000
        | 0x9000 | 0x9008 => sup
        | _ => false
/-- What a read of a register gives: write-only fields read as zero (R7), and the power of an island is a free value (assumption 44). -/
def registerValue (s : State) (d off : Nat) : State × W64 :=
  match inBlock off 0x1080 8 16, inBlock off 0x3000 0x100 6 with
  | some _, _ => (s.draw, BitVec.ofNat 64 (setBits (s.ctl d off).toNat 63 32 (Config.powerReading s.draws).toNat))
  | _, some (_, o) => (s, if 0x40 ≤ o then 0 else s.ctl d off)
  | _, _ => (s, s.ctl d off)

/-! ### Cores -/

/-- Core k of a die as a master, and as the agent whose remote accesses are pending. -/
def coreMaster (k : Nat) : Master := if k < 8 then .sup (Fin.ofNat 8 k) else .fw (Fin.ofNat 8 (k - 8))
def coreKey (d k : Nat) : Nat := 2 ^ 64 + 16 * d + k
/-- The core breaks an access window: it is frozen, and its access is not performed (R15, R46, R212). -/
def coreBreaks (s : State) (d k pa : Nat) : State := coreDone (violation s d (coreMaster k) pa) d k 1 []
/-- An atomic of the core is on its way: nothing of the core passes it. -/
def coreAtomic (s : State) (d k : Nat) : Bool := (s.die d).cache.pend.any fun p => p.wave = coreKey d k && !p.atomic.isEmpty
/-- What the core asks waits: for its own atomic, and as a fence of its writes for all that its die has sent (R175, R176). -/
def coreHeld (s : State) (d k : Nat) (q : HostKind) : Bool :=
  coreAtomic s d k || match q with
    | .fence _ pw _ _ => pw && !(s.die d).cache.pend.isEmpty
    | _ => false
/-- A control register of the core's own die; another die's, or another size than the register's, is a violation (assumption 54). -/
def coreRegister (s : State) (d k e off pa : Nat) (q : HostKind) : State :=
  if e ≠ d || off % 8 ≠ 0 then coreBreaks s d k pa
  else match q with
    | .read 8 =>
      if mayRead off (coreMaster k) then
        let (s, v) := registerValue s d off
        coreDone s d k 0 (leBytes 8 v.toNat)
      else coreBreaks s d k pa
    | .write l =>
      if l.length ≠ 8 then coreBreaks s d k pa
      else match execRegisterWrite (Fin.ofNat 8 d) off (BitVec.ofNat 64 (leNat l)) (coreMaster k) s with
        | .next t => coreDone t d k (if masterStopped t d (coreMaster k) then 1 else 0) []
        | _ => s
    | _ => coreBreaks s d k pa
/-- A wake address (R88): a supervisor core reads it, or makes a wake store; any other write is ignored. No page is a firmware core's. -/
def coreDoor (s : State) (d k e off pa : Nat) (q : HostKind) : State :=
  if 8 ≤ k then coreBreaks s d k pa
  else match q with
    | .read n => coreDone s d k 0 (doorBytes s e off n)
    | .write l =>
      let s := if l.length = 8 && off % 8 = 0 then
          s.push (.wakeStore (Fin.ofNat 8 e) (BitVec.ofNat 20 ((off - 0x800000) / 8)) (BitVec.ofNat 64 (leNat l)) .supervisor)
        else s
      coreDone s d k 0 []
    | _ => coreDone s d k 0 (doorBytes s e off 8)
/-- An access that leaves the package: its data is free (assumption 4). -/
def coreAway (s : State) (d k : Nat) (q : HostKind) (x : Away) : State :=
  match q with
  | .read n =>
    let s := sendAway s d .load [] 0 x
    coreDone { s with draws := s.draws + n } d k 0 (bytesAt (freeBytes s n) 0 n)
  | .write l => coreDone (sendAway s d .store l (coreKey d k) x) d k 0 []
  | .atomic _ a b =>
    let (s, v) := foreignValue (sendAway s d .atomic (leBytes 8 a.toNat ++ leBytes 8 b.toNat) (coreKey d k) x) 8
    coreDone s d k 0 (leBytes 8 v)
  | .fence _ _ _ _ => s
/-- The core may make the access in a firmware area (R46): supervisor cores read it, the die's firmware cores read and write it. -/
def coreFirmware (d k home : Nat) (q : HostKind) : Bool := if k < 8 then !writes (hostAcc q) else d = home
/-- An access to storage at its home, as an agent of the die (R173, R186). A fill fault is status 3, poison status 2. -/
def coreStorage (s : State) (d k home pa : Nat) (leaf : W64) (q : HostKind) : State :=
  let p := flatPlaced s home pa leaf
  if fillFaultAt s home p then coreDone s d k 3 []
  else match q with
    | .read n =>
      let (t, l) := storageRead s d home pa n leaf
      coreDone t d k (if storagePoison s pa n then 2 else 0) l
    | .write l => coreDone (storageWrite s d home pa leaf l) d k 0 []
    | .atomic op a b => sendAtomic s ⟨d, 0, 0, 0⟩ p 8 op .unsigned a.toNat b.toNat (.core d k) (coreKey d k)
    | .fence _ _ _ _ => s
/-- Serve what a core asks; none while it waits, or its home answers nothing. -/
def coreServe (s : State) (d : Nat) (x : CoreWait) : Option State :=
  let k := x.k
  let pa := x.pa.toNat
  if coreHeld s d k x.kind then none
  else match x.kind with
  | .fence _ _ _ _ => some (coreDone s d k 0 [])
  | q =>
    if x.pkg ≠ s.pkg then some (coreAway s d k q (.foreign x.pkg pa))
    else match s.locate pa with
      | .hole => some (coreBreaks s d k pa)
      | .ctl e off => some (if 0x800000 ≤ off then coreDoor s d k e off pa q else coreRegister s d k e off pa q)
      | .host e c => match q with
        | .atomic _ _ _ => some (coreDone s d k 1 [])
        | _ => if dieDown s e then none else some (coreAway s d k q (.host e c))
      | .cached home _ =>
        if (inFirmware pa && !coreFirmware d k home q) || (writes (hostAcc q) && readOnlySpan s home pa (hostLen q)) then
          some (coreBreaks s d k pa)
        else if dieDown s home then none
        else some (coreStorage s d k home pa x.leaf q)
/-- The requests of a core that wait are served in their order. -/
def corePump (d k : Nat) : Nat → State → State
  | 0, s => s
  | n + 1, s =>
    let l := (s.die d).tr.coreWaits
    match l.find? fun x => x.k = k with
    | none => s
    | some x =>
      if masterStopped s d (coreMaster k) then s.modTr d fun t => { t with coreWaits := l.filter fun y => y.k ≠ k }
      else match coreServe (s.modTr d fun t => { t with coreWaits := l.erase x }) d x with
        | some t => corePump d k n t
        | none => s
/-- A request that orders nothing: it only asks for those that wait. -/
def idleFence : HostKind := .fence false false false false
/-- HOST_REQUEST (R81, R173): of a host client, or of a core, whose requests are served in order. The process whose thread a supervisor core
runs is noted (R78). -/
def execHostRequest (d : DieId) (who : Client) (va : W64) (q : HostKind) (s : State) : Out :=
  match who with
  | .host p => .next (hostTry s d p va q false)
  | .core k leaf pkg pid =>
    if masterStopped s d (coreMaster k) then .next s
    else
      let s := if q = idleFence then s
        else s.modDie d fun x => { x with
          tr := { x.tr with coreWaits := x.tr.coreWaits ++ [⟨k, leaf, pkg, pid, va, q⟩] }
          image := { x.image with threads := if k.val < 8 then mset x.image.threads k pid else x.image.threads } }
      let s := corePump d k ((s.die d).tr.coreWaits.length) s
      .next (if (s.die d).tr.coreWaits.any fun x => x.k = k.val then pushOnce s (.hostRequest d (.core k 0 0 0) 0 idleFence) else s)

end Sys2Proof.Machine
end

