-- ==== Sys2Proof/Machine/ScalarAlu.lean ====
section
/-! DEFINITION. Register arithmetic, immediate forms and constants of the scalar stream (R290 to R293). -/

namespace Sys2Proof.Machine

/-- s(d) := f s(a) s(b), stepping by 4. -/
def aluOp (i : Instr) (d a b : BitVec 6) (f : W64 → W64 → W64) (s : State) : Out :=
  scalarOp i [a, b] (some d) s fun w => doneS s (setS w d (f (sreg w a) (sreg w b))) 4

/-- s(d) := f s(a), stepping by 4. -/
def immOp (i : Instr) (d a : BitVec 6) (f : W64 → W64) (s : State) : Out :=
  scalarOp i [a] (some d) s fun w => doneS s (setS w d (f (sreg w a))) 4

/-- s(d) := v, stepping by n. -/
def constOp (i : Instr) (d : BitVec 6) (v : W64) (n : Nat) (s : State) : Out :=
  scalarOp i [] (some d) s fun w => doneS s (setS w d v) n

/-- ADD (R290): s(d) := x + y. -/
def execAdd (d a b : BitVec 6) (s : State) : Out := aluOp (.add d a b) d a b (fun x y => x + y) s
/-- SUB (R290): s(d) := x − y. -/
def execSub (d a b : BitVec 6) (s : State) : Out := aluOp (.sub d a b) d a b (fun x y => x - y) s
/-- AND (R290): s(d) := x AND y. -/
def execAnd (d a b : BitVec 6) (s : State) : Out := aluOp (.and d a b) d a b (fun x y => x &&& y) s
/-- OR (R290): s(d) := x OR y. -/
def execOr (d a b : BitVec 6) (s : State) : Out := aluOp (.or d a b) d a b (fun x y => x ||| y) s
/-- XOR (R290): s(d) := x XOR y. -/
def execXor (d a b : BitVec 6) (s : State) : Out := aluOp (.xor d a b) d a b (fun x y => x ^^^ y) s
/-- SHL (R290): s(d) := x shifted left by y bits 5:0. -/
def execShl (d a b : BitVec 6) (s : State) : Out := aluOp (.shl d a b) d a b (fun x y => x <<< shiftCount y) s
/-- SHR (R290): s(d) := x shifted right by y bits 5:0, zeros in. -/
def execShr (d a b : BitVec 6) (s : State) : Out := aluOp (.shr d a b) d a b (fun x y => x >>> shiftCount y) s
/-- SAR (R290): s(d) := x shifted right by y bits 5:0, copies of the sign in. -/
def execSar (d a b : BitVec 6) (s : State) : Out := aluOp (.sar d a b) d a b (fun x y => x.sshiftRight (shiftCount y)) s
/-- MUL (R290): s(d) := bits 63:0 of x × y. -/
def execMul (d a b : BitVec 6) (s : State) : Out := aluOp (.mul d a b) d a b (fun x y => x * y) s
/-- MULH (R290): s(d) := bits 127:64 of the signed product. -/
def execMulh (d a b : BitVec 6) (s : State) : Out := aluOp (.mulh d a b) d a b (fun x y => BitVec.ofInt 64 (x.toInt * y.toInt / 2 ^ 64)) s
/-- DIV (R290): s(d) := the quotient of R291. -/
def execDiv (d a b : BitVec 6) (s : State) : Out := aluOp (.div d a b) d a b (fun x y => divQ x y) s
/-- REM (R290): s(d) := the remainder of R291. -/
def execRem (d a b : BitVec 6) (s : State) : Out := aluOp (.rem d a b) d a b (fun x y => divR x y) s
/-- MIN (R290): s(d) := the smaller, signed. -/
def execMin (d a b : BitVec 6) (s : State) : Out := aluOp (.min d a b) d a b (fun x y => if x.slt y then x else y) s
/-- MAX (R290): s(d) := the larger, signed. -/
def execMax (d a b : BitVec 6) (s : State) : Out := aluOp (.max d a b) d a b (fun x y => if x.slt y then y else x) s
/-- SLT (R290): s(d) := 1 if x < y signed. -/
def execSlt (d a b : BitVec 6) (s : State) : Out := aluOp (.slt d a b) d a b (fun x y => boolWord (x.slt y)) s
/-- SLTN (R290): s(d) := 1 if x < y unsigned. -/
def execSltn (d a b : BitVec 6) (s : State) : Out := aluOp (.sltn d a b) d a b (fun x y => boolWord (x.ult y)) s
/-- ADDI (R292): s(d) := x + i, i the sign-extended immediate. -/
def execAddi (d a : BitVec 6) (i : BitVec 14) (s : State) : Out := immOp (.addi d a i) d a (fun x => x + i.signExtend 64) s
/-- ANDI (R292): s(d) := x AND i, i the sign-extended immediate. -/
def execAndi (d a : BitVec 6) (i : BitVec 14) (s : State) : Out := immOp (.andi d a i) d a (fun x => x &&& i.signExtend 64) s
/-- ORI (R292): s(d) := x OR i, i the sign-extended immediate. -/
def execOri (d a : BitVec 6) (i : BitVec 14) (s : State) : Out := immOp (.ori d a i) d a (fun x => x ||| i.signExtend 64) s
/-- XORI (R292): s(d) := x XOR i, i the sign-extended immediate. -/
def execXori (d a : BitVec 6) (i : BitVec 14) (s : State) : Out := immOp (.xori d a i) d a (fun x => x ^^^ i.signExtend 64) s
/-- SLTI (R292): s(d) := 1 if x < i signed, i the sign-extended immediate. -/
def execSlti (d a : BitVec 6) (i : BitVec 14) (s : State) : Out := immOp (.slti d a i) d a (fun x => boolWord (x.slt (i.signExtend 64))) s
/-- SHLI (R292): as SHL, by the immediate count. -/
def execShli (d a : BitVec 6) (n : BitVec 6) (s : State) : Out := immOp (.shli d a n) d a (fun x => x <<< n.toNat) s
/-- SHRI (R292): as SHR, by the immediate count. -/
def execShri (d a : BitVec 6) (n : BitVec 6) (s : State) : Out := immOp (.shri d a n) d a (fun x => x >>> n.toNat) s
/-- SARI (R292): as SAR, by the immediate count. -/
def execSari (d a : BitVec 6) (n : BitVec 6) (s : State) : Out := immOp (.sari d a n) d a (fun x => x.sshiftRight n.toNat) s
/-- LUI (R293): s(d) := sext(imm20) × 2^14. -/
def execLui (d : BitVec 6) (i : BitVec 20) (s : State) : Out := constOp (.lui d i) d (i.signExtend 64 <<< 14) 4 s
/-- MOVL (R293): s(d) := sext(literal), stepping over the literal. -/
def execMovl (d : BitVec 6) (lit : W32) (s : State) : Out := constOp (.movl d lit) d (lit.signExtend 64) 8 s

end Sys2Proof.Machine
end

