-- ==== Sys2Proof/Machine/ScalarSys.lean ====
section
/-! DEFINITION. Fences and scopes, records, services, system registers, ending and stopping, launches and events of the
scalar stream (R309 to R320). -/

namespace Sys2Proof.Machine

/-! ### Fences, scopes and records (R309 to R312) -/

/-- FENCE (R309): a full fence of its scope. -/
def execFence (sc : BitVec 5) (s : State) : Out :=
  scalarOp (.fence sc) [] none s fun w =>
    if releaseWaits s w sc.toNat then stallScalar s w else doneS s (dropPrefetch w) 4
/-- The mask that SCOPESET takes from s(a) to s(a + 7), s(a) lowest. -/
def scopeMask (w : Wave) (a : BitVec 6) : W512 :=
  sreg w (a + 7) ++ sreg w (a + 6) ++ sreg w (a + 5) ++ sreg w (a + 4) ++ sreg w (a + 3) ++ sreg w (a + 2) ++
    sreg w (a + 1) ++ sreg w a
/-- SCOPESET (R310): sm(n) of the process on the die. -/
def execScopeset (a : BitVec 6) (n : BitVec 4) (s : State) : Out :=
  scalarOp (.scopeset a n) ((List.range 8).map fun k => a + BitVec.ofNat 6 k) none s fun w =>
    let who := waveWho s w
    doneS { s with sm := mput 0 s.sm ((who.pid.toNat * 8 + who.d) * 16 + n.toNat) (scopeMask w a) } w 4
/-- RECFENCE (R311): a full fence of system scope; records are read afresh at each bind. -/
def execRecfence (s : State) : Out :=
  scalarOp .recfence [] none s fun w => if releaseWaits s w 5 then stallScalar s w else doneS s (dropPrefetch w) 4
/-- RECLOAD (R312): re-read and re-check the record of a slot. -/
def execRecload (slot : BitVec 4) (s : State) : Out :=
  let i := Instr.recload slot
  scalarOp i [] none s (afterDrain s fun w =>
    match slotOf s w slot.toNat with
    | none => trapScalar s w i 0x0B 0
    | some r =>
      wideRead i r.addr 64 s w fun s w b0 =>
        wideRead i (r.addr + 64) 64 s w fun s w b1 =>
          let r' := recordAt r.addr (b0 ++ b1)
          if r'.ok && r'.entryOk s (waveWho s w).pid then doneS (setSlot s w slot.toNat r') w 4
          else trapScalar s w i 0x0B r.addr)

/-! ### SYSCALL (R313, R314) -/

/-- The registers that a waiting SYSCALL reads back from the image at its resumption (R314): lanes and scalars, full. -/
def readBack (s : State) (w : Wave) : State × Wave :=
  let who := waveWho s w
  let va := w.ctxbase.toNat
  let full (w : Wave) : Wave := { w with r := { w.r with sEmpty := 0, vEmpty := 0 } }
  if rangeCheck s who va (imageSize w) .load = .ok then
    let (s, data) := readVirtual who va (w.winsize * 128) s
    let (s, block) := readVirtual who (va + w.winsize * 132) 512 s
    let data := putBytes [] data
    let b := bytesAt (putBytes [] block) 0 512
    (s, full { w with r := { w.r with
      s := (List.range 63).foldl (fun m n => mput 0 m (n + 1) (blockBV b (8 * (n + 1)) 8 64)) []
      v := (data.map fun p => p.1 / 4).dedup.foldl
        (fun m n => mput 0 m n (BitVec.ofNat 32 (leNat (bytesAt data (4 * n) 4)))) [] } })
  else (s, full w)

/-- SYSCALL (R313): release, write the registers back, raise a service-call record and wait for its answer. -/
def execSyscall (service : BitVec 20) (s : State) : Out :=
  let i := Instr.syscall service
  onWave s fun w =>
    match w.wait with
    | .served true => let (s, w) := readBack s w; doneS s (dropPrefetch { w with wait := .none }) 4
    | .served false => trapScalar (s.setWave s.focus { w with wait := .none }) { w with wait := .none } i 0x0A (service.zeroExtend 64)
    | .synced =>
      let (s, fid) := raiseFault s (waveWho s w).d (.wave s.focus) (waveName s w 7 none) (service.zeroExtend 64) 0 0 12
      .next (s.modWave s.focus fun w => { w with wait := .syscall fid })
    | _ =>
      scalarOp i [] none s (afterDrain s fun w =>
        if !w.landings.isEmpty || releaseWaits s w 5 then stallScalar s w
        else .next ((syncHere s s.focus w).setWave s.focus { w with wait := .synced }))

/-- TRAPRET (R236). -/
def execTrapret (s : State) : Out :=
  scalarOp .trapret [] none s fun w =>
    if !w.c.intrap then trapScalar s w .trapret 0x01 0
    else if w.c.hq then stallScalar s w
    else
      let back (w : Wave) : Wave := { w with c := { w.c with intrap := false, pc := w.y.tspc, bksup := w.c.bksup &&& 0x8F } }
      let n := w.y.tsplit.toNat % 8
      if n = 7 then .next (s.setWave s.focus (back w))
      else
        let off := w.y.tlpc - w.y.lanebase
        if 2 ^ 32 - 4 < off.toNat || off.toNat % 4 ≠ 0 then trapScalar s w .trapret 0x01 0
        else
          let x := getSplit w n
          let others := ([0, 1, 2, 3].filter fun m => m ≠ n && (getSplit w m).valid).foldl
            (fun (a : W32) m => a ||| (getSplit w m).mask) 0
          let mask := w.y.tamask &&& ~~~others
          let own := w.unfinSplit = n
          let c := if off.toNat ≠ x.lpc.toNat then
              { w.c with unfin := if own then 0 else w.c.unfin, prog := 0, bksup := w.c.bksup &&& ~~~(BitVec.twoPow 8 n) }
            else w.c
          let c := if own then { c with unfin := c.unfin &&& mask } else c
          let w := setSplit { w with c := c } n { x with mask := mask, lpc := off.setWidth 32 }
          .next (s.setWave s.focus (endEmpty n 8 (back w)))

/-! ### System registers (R215 to R217, R315) -/

/-- What CSRR reads (R215); none for an address that the table does not list. -/
def sysRead (s : State) (w : Wave) (addr : Nat) : Option W64 :=
  let who := waveWho s w
  match addr with
  | 0x000 => some (BitVec.ofNat 64 (w.idx + if w.feed then 16 else 0))
  | 0x001 => some (BitVec.ofNat 64 w.team)
  | 0x002 => some (BitVec.ofNat 64 w.launch)
  | 0x004 => some (BitVec.ofNat 64 (cycleAt (clusterKey who.d who.cluster) s.ticks))
  | 0x005 => some (BitVec.ofNat 64 s.time)
  | 0x010 => some w.ctxbase
  | 0x011 => some (BitVec.ofNat 64 w.winsize)
  | 0x012 => some (BitVec.ofNat 64 w.prio)
  | 0x013 => some w.y.lanebase
  | 0x020 => some w.y.tvec
  | 0x021 => some w.y.tcause
  | 0x022 => some w.y.tspc
  | 0x023 => some w.y.tlpc
  | 0x024 => some (w.y.tamask.zeroExtend 64)
  | 0x025 => some (w.y.tfmask.zeroExtend 64)
  | 0x026 => some ((w.y.tinst.extractLsb' 0 32).zeroExtend 64)
  | 0x027 => some ((w.y.tinst.extractLsb' 32 32).zeroExtend 64)
  | 0x028 => some ((w.y.tinst.extractLsb' 64 32).zeroExtend 64)
  | 0x029 => some w.y.taddr
  | 0x02A => some (w.y.tsplit.zeroExtend 64)
  | 0x030 => some w.y.rngkey0
  | 0x031 => some w.y.rngkey1
  | 0x040 => some (w.y.pacc.zeroExtend 64)
  | 0x041 => some (w.y.pprop.zeroExtend 64)
  | 0x050 => some w.y.batch
  | 0x051 => some w.y.bdone
  | 0x060 => some w.y.fpmode
  | _ => none

/-- The trap instruction register with word n replaced. -/
def setInstWord (x : BitVec 96) (n : Nat) (v : W32) : BitVec 96 :=
  if n = 0 then x.extractLsb' 32 64 ++ v
  else if n = 1 then x.extractLsb' 64 32 ++ v ++ x.extractLsb' 0 32
  else v ++ x.extractLsb' 0 64

/-- What CSRW writes (R215 to R217); none for a register that is not RW. -/
def sysWrite (y : WaveSys) (addr : Nat) (v : W64) : Option WaveSys :=
  let lo := v.extractLsb' 0 32
  match addr with
  | 0x013 => some { y with lanebase := v }
  | 0x020 => some { y with tvec := v }
  | 0x021 => some { y with tcause := v &&& 0xFFFFFFFF0000F3FF }
  | 0x022 => some { y with tspc := v }
  | 0x023 => some { y with tlpc := v }
  | 0x024 => some { y with tamask := lo }
  | 0x025 => some { y with tfmask := lo }
  | 0x026 => some { y with tinst := setInstWord y.tinst 0 lo }
  | 0x027 => some { y with tinst := setInstWord y.tinst 1 lo }
  | 0x028 => some { y with tinst := setInstWord y.tinst 2 lo }
  | 0x029 => some { y with taddr := v }
  | 0x030 => some { y with rngkey0 := v }
  | 0x031 => some { y with rngkey1 := v }
  | 0x040 => some { y with pacc := lo }
  | 0x041 => some { y with pprop := lo }
  | 0x060 => some { y with fpmode := v &&& 0xF }
  | _ => none

/-- The registers whose CSRW first waits as LDRAIN does (R315). -/
def sysDrains (addr : Nat) : Bool :=
  addr = 0x013 || addr = 0x060 || addr = 0x030 || addr = 0x031 || addr = 0x040 || addr = 0x041

/-- CSRR (R315). -/
def execCsrr (d : BitVec 6) (addr : BitVec 12) (s : State) : Out :=
  let i := Instr.csrr d addr
  scalarOp i [] (some d) s fun w =>
    if 0x800 ≤ addr.toNat then trapScalar s w i 0x02 (addr.zeroExtend 64)
    else match sysRead s w addr.toNat with
      | none => trapScalar s w i 0x01 0
      | some v => doneS s (setS w d v) 4
/-- CSRW (R315). -/
def execCsrw (a : BitVec 6) (addr : BitVec 12) (s : State) : Out :=
  let i := Instr.csrw a addr
  scalarOp i [a] none s fun w =>
    if 0x800 ≤ addr.toNat then trapScalar s w i 0x02 (addr.zeroExtend 64)
    else match sysWrite w.y addr.toNat (sreg w a) with
      | none => trapScalar s w i 0x01 0
      | some y => if sysDrains addr.toNat && !drained w then stallScalar s w else doneS s { w with y := y } 4

/-! ### Ending, stopping, yielding (R316 to R318) -/

/-- EXIT (R316): after the drain and the wave's last access, the wave ends; with the last wave of its team R119 applies. -/
def execExit (s : State) : Out :=
  scalarOp .exit [] none s (afterDrain s fun w =>
    if !w.landings.isEmpty || pendingOf s (waveWho s w).d s.focus then stallScalar s w
    else
      let team := teamKey w.launch w.team
      let s := s.setWave s.focus (endWave w)
      if (teamWaves s team).all fun p => p.2.ended then .next (releaseTeam s team 1)
      else .next (s.push (.placementDecision (Fin.ofNat 8 (waveWho s w).d))))
/-- BRK (R317): cause 0x0D at the BRK, without suppression. -/
def execBrk (code : BitVec 20) (s : State) : Out :=
  scalarOp (.brk code) [] none s fun w => trapScalar s w (.brk code) 0x0D w.c.pc
/-- YIELD (R318): not ready for 16 cycles unless no other wave of the quadrant is. -/
def execYield (s : State) : Out := scalarOp .yield [] none s fun w => doneS s { w with yielding := 16 } 4
/-- NOP (R318). -/
def execNop (s : State) : Out := scalarOp .nop [] none s fun w => doneS s w 4
/-- UDF (R318): cause 0x01. -/
def execUdf (u : BitVec 26) (s : State) : Out := scalarOp (.udf u) [] none s fun w => trapScalar s w (.udf u) 0x01 0
/-- A reserved scalar opcode (R279): cause 0x01. -/
def execScalarReservedOpcode (x : W32) (s : State) : Out :=
  scalarOp (.scalarReservedOpcode x) [] none s fun w => trapScalar s w (.scalarReservedOpcode x) 0x01 0

/-! ### Launches and events (R319, R320) -/

/-- LAUNCH (R319, R99): read the packet, send the request to the queue's die, and wait for the code. -/
def execLaunch (d a b : BitVec 6) (s : State) : Out :=
  let i := Instr.launch d a b
  onWave s fun w =>
    match w.wait with
    | .launched code => doneS s (setS { w with wait := .none } d code) 4
    | _ =>
      scalarOp i [a, b] (some d) s fun w =>
        let who := waveWho s w
        let h := (sreg w a).toNat
        if (sreg w b).toNat % 128 ≠ 0 then trapScalar s w i 0x05 (sreg w b)
        else if h / 2 ^ 29 ≠ 0 || !(s.die who.d).image.view.getLsbD (bitsOf h 28 20) then doneS s (setS w d 2) 4
        else if releaseWaits s w 5 then stallScalar s w
        else
          wideRead i (sreg w b) 128 s w fun s w bytes =>
            if bitsOf h 28 23 ≠ s.pkg then
              let (s, v) := foreignValue (sendForeign s who.d 6 (bitsOf h 28 23) bytes) 1
              doneS s (setS w d (BitVec.ofNat 64 (v % 4))) 4
            else
              let q : LaunchReq :=
                { wave := s.focus, landing := w.nextLanding, pid := who.pid, queue := BitVec.ofNat 20 h
                  packet := BitVec.ofNat 1024 (leNat bytes), t0 := s.time, src := Fin.ofNat 8 who.d, clock := s.clock who.d }
              .next (((s.sendClock who.d).setWave s.focus { w with wait := .launch w.nextLanding }).push
                (.launchRequestReceive (Fin.ofNat 8 (bitsOf h 22 20)) q))

/-- WAITEV (R320): wait for the event's token; s(d) := its status. -/
def execWaitev (d a b : BitVec 6) (s : State) : Out :=
  let i := Instr.waitev d a b
  scalarOp i [a, b] (some d) s fun w =>
    wideRead i (sreg w a) 16 (refetchAt s w 5 (sreg w a) none) w fun s w bytes =>
      if leNat (bytes.take 4) = (sreg w b).toNat % 2 ^ 32 then
        doneS s (dropPrefetch (setS w d (BitVec.ofNat 64 (leNat ((bytes.drop 4).take 2))))) 4
      else stallScalar s w

end Sys2Proof.Machine
end

