-- ==== Sys2Proof/Machine/Dispatch.lean ====
section
/-! DEFINITION. Dispatch: one arm for each operation, a direct call of its meaning. -/

namespace Sys2Proof.Machine

/-- The meaning of every operation of the opcode table. -/
def exec (i : Instr) (s : State) : Host.Outcome State Fault Refusal :=
  match i with
  | .flitTransmit d p => Sys2Proof.Machine.execFlitTransmit d p s
  | .gseqAssign d group msg sender core => Sys2Proof.Machine.execGseqAssign d group msg sender core s
  | .mailboxDeliver d box msg core => Sys2Proof.Machine.execMailboxDeliver d box msg core s
  | .heartbeat d about => Sys2Proof.Machine.execHeartbeat d about s
  | .tileFillComplete d q r => Sys2Proof.Machine.execTileFillComplete d q r s
  | .accessSample d q => Sys2Proof.Machine.execAccessSample d q s
  | .form d tag body => Sys2Proof.Machine.execForm d tag body s
  | .join d tag body => Sys2Proof.Machine.execJoin d tag body s
  | .lost d tag body => Sys2Proof.Machine.execLost d tag body s
  | .resync d src body => Sys2Proof.Machine.execResync d src body s
  | .map d tag body => Sys2Proof.Machine.execMap d tag body s
  | .procstart d tag body => Sys2Proof.Machine.execProcstart d tag body s
  | .procend d tag body => Sys2Proof.Machine.execProcend d tag body s
  | .ttset d tag body => Sys2Proof.Machine.execTtset d tag body s
  | .attestationRequest d body => Sys2Proof.Machine.execAttestationRequest d body s
  | .keyExchangeNonce d p payload => Sys2Proof.Machine.execKeyExchangeNonce d p payload s
  | .keyExchangeReport d p payload => Sys2Proof.Machine.execKeyExchangeReport d p payload s
  | .keyExchangeEphemeral d p payload => Sys2Proof.Machine.execKeyExchangeEphemeral d p payload s
  | .keyready d p payload => Sys2Proof.Machine.execKeyready d p payload s
  | .wakeStore d q value w => Sys2Proof.Machine.execWakeStore d q value w s
  | .queueMap d q => Sys2Proof.Machine.execQueueMap d q s
  | .packetParse d q => Sys2Proof.Machine.execPacketParse d q s
  | .launchRequestReceive d q => Sys2Proof.Machine.execLaunchRequestReceive d q s
  | .teamDependenceResolved d team => Sys2Proof.Machine.execTeamDependenceResolved d team s
  | .teamEventWrite d team => Sys2Proof.Machine.execTeamEventWrite d team s
  | .gridEventWrite d launch => Sys2Proof.Machine.execGridEventWrite d launch s
  | .regionTableRead d pid => Sys2Proof.Machine.execRegionTableRead d pid s
  | .placementDecision d => Sys2Proof.Machine.execPlacementDecision d s
  | .teamMove d team => Sys2Proof.Machine.execTeamMove d team s
  | .teamMoveComplete d team => Sys2Proof.Machine.execTeamMoveComplete d team s
  | .tileBankWriteoutComplete d cluster bank => Sys2Proof.Machine.execTileBankWriteoutComplete d cluster bank s
  | .teamKill d team status => Sys2Proof.Machine.execTeamKill d team status s
  | .debugHaltComplete d => Sys2Proof.Machine.execDebugHaltComplete d s
  | .sequencerEntryStart d cluster => Sys2Proof.Machine.execSequencerEntryStart d cluster s
  | .sequencerStepComplete d cluster entry => Sys2Proof.Machine.execSequencerStepComplete d cluster entry s
  | .copyCommandStart d cluster => Sys2Proof.Machine.execCopyCommandStart d cluster s
  | .copyStepLand d cluster command => Sys2Proof.Machine.execCopyStepLand d cluster command s
  | .rds home src t => Sys2Proof.Machine.execRds home src t s
  | .rdx home src t => Sys2Proof.Machine.execRdx home src t s
  | .upg home src t => Sys2Proof.Machine.execUpg home src t s
  | .inv d home t => Sys2Proof.Machine.execInv d home t s
  | .fwds d home requester t => Sys2Proof.Machine.execFwds d home requester t s
  | .fwdx d home requester t => Sys2Proof.Machine.execFwdx d home requester t s
  | .flreq home src tid lo hi ticket => Sys2Proof.Machine.execFlreq home src tid lo hi ticket s
  | .flush d home t => Sys2Proof.Machine.execFlush d home t s
  | .wb home src t keep data => Sys2Proof.Machine.execWb home src t keep data s
  | .data d src t data clock => Sys2Proof.Machine.execData d src t data clock s
  | .datae d src t data clock => Sys2Proof.Machine.execDatae d src t data clock s
  | .datax d src t data clock => Sys2Proof.Machine.execDatax d src t data clock s
  | .upgack d home t clock => Sys2Proof.Machine.execUpgack d home t clock s
  | .wback d home t clock => Sys2Proof.Machine.execWback d home t clock s
  | .ack home src t clock => Sys2Proof.Machine.execAck home src t clock s
  | .done home src t clock => Sys2Proof.Machine.execDone home src t clock s
  | .flack d home tid ticket clock => Sys2Proof.Machine.execFlack d home tid ticket clock s
  | .bumpNotice d home tid gen => Sys2Proof.Machine.execBumpNotice d home tid gen s
  | .bumpAck home src ack => Sys2Proof.Machine.execBumpAck home src ack s
  | .remoteWrite home q => Sys2Proof.Machine.execRemoteWrite home q s
  | .remoteWriteAck d home seq clock => Sys2Proof.Machine.execRemoteWriteAck d home seq clock s
  | .remoteAtomic home q => Sys2Proof.Machine.execRemoteAtomic home q s
  | .uncachedRead home src pa width => Sys2Proof.Machine.execUncachedRead home src pa width s
  | .unmapIntent d src box tag body => Sys2Proof.Machine.execUnmapIntent d src box tag body s
  | .shootDownAcknowledgement d src sdid => Sys2Proof.Machine.execShootDownAcknowledgement d src sdid s
  | .unmapCommit d src body => Sys2Proof.Machine.execUnmapCommit d src body s
  | .loadResultLand wave landing => Sys2Proof.Machine.execLoadResultLand wave landing s
  | .streamPrefetch wave q => Sys2Proof.Machine.execStreamPrefetch wave q s
  | .asyncTrapTake wave => Sys2Proof.Machine.execAsyncTrapTake wave s
  | .barFlipObserve wave split => Sys2Proof.Machine.execBarFlipObserve wave split s
  | .udf u => Sys2Proof.Machine.execUdf u s
  | .add d a b => Sys2Proof.Machine.execAdd d a b s
  | .sub d a b => Sys2Proof.Machine.execSub d a b s
  | .and d a b => Sys2Proof.Machine.execAnd d a b s
  | .or d a b => Sys2Proof.Machine.execOr d a b s
  | .xor d a b => Sys2Proof.Machine.execXor d a b s
  | .shl d a b => Sys2Proof.Machine.execShl d a b s
  | .shr d a b => Sys2Proof.Machine.execShr d a b s
  | .sar d a b => Sys2Proof.Machine.execSar d a b s
  | .mul d a b => Sys2Proof.Machine.execMul d a b s
  | .mulh d a b => Sys2Proof.Machine.execMulh d a b s
  | .div d a b => Sys2Proof.Machine.execDiv d a b s
  | .rem d a b => Sys2Proof.Machine.execRem d a b s
  | .min d a b => Sys2Proof.Machine.execMin d a b s
  | .max d a b => Sys2Proof.Machine.execMax d a b s
  | .slt d a b => Sys2Proof.Machine.execSlt d a b s
  | .sltn d a b => Sys2Proof.Machine.execSltn d a b s
  | .addi d a i1 => Sys2Proof.Machine.execAddi d a i1 s
  | .andi d a i1 => Sys2Proof.Machine.execAndi d a i1 s
  | .ori d a i1 => Sys2Proof.Machine.execOri d a i1 s
  | .xori d a i1 => Sys2Proof.Machine.execXori d a i1 s
  | .shli d a n => Sys2Proof.Machine.execShli d a n s
  | .shri d a n => Sys2Proof.Machine.execShri d a n s
  | .sari d a n => Sys2Proof.Machine.execSari d a n s
  | .slti d a i1 => Sys2Proof.Machine.execSlti d a i1 s
  | .lui d i1 => Sys2Proof.Machine.execLui d i1 s
  | .movl d lit => Sys2Proof.Machine.execMovl d lit s
  | .sld d a w off => Sys2Proof.Machine.execSld d a w off s
  | .sst d a w off => Sys2Proof.Machine.execSst d a w off s
  | .slda d a sc off => Sys2Proof.Machine.execSlda d a sc off s
  | .sstr d a sc off => Sys2Proof.Machine.execSstr d a sc off s
  | .samoAdd d a b sc o => Sys2Proof.Machine.execSamoAdd d a b sc o s
  | .samoAnd d a b sc o => Sys2Proof.Machine.execSamoAnd d a b sc o s
  | .samoOr d a b sc o => Sys2Proof.Machine.execSamoOr d a b sc o s
  | .samoXor d a b sc o => Sys2Proof.Machine.execSamoXor d a b sc o s
  | .samoMin d a b sc o => Sys2Proof.Machine.execSamoMin d a b sc o s
  | .samoMax d a b sc o => Sys2Proof.Machine.execSamoMax d a b sc o s
  | .samoSwap d a b sc o => Sys2Proof.Machine.execSamoSwap d a b sc o s
  | .samoCas d a b sc o => Sys2Proof.Machine.execSamoCas d a b sc o s
  | .beq a b off => Sys2Proof.Machine.execBeq a b off s
  | .bne a b off => Sys2Proof.Machine.execBne a b off s
  | .blt a b off => Sys2Proof.Machine.execBlt a b off s
  | .bge a b off => Sys2Proof.Machine.execBge a b off s
  | .bltn a b off => Sys2Proof.Machine.execBltn a b off s
  | .bgen a b off => Sys2Proof.Machine.execBgen a b off s
  | .jmp off => Sys2Proof.Machine.execJmp off s
  | .call off => Sys2Proof.Machine.execCall off s
  | .jr a => Sys2Proof.Machine.execJr a s
  | .lblk d a count rep lit => Sys2Proof.Machine.execLblk d a count rep lit s
  | .ldrain => Sys2Proof.Machine.execLdrain s
  | .stbind q a i1 => Sys2Proof.Machine.execStbind q a i1 s
  | .strel q => Sys2Proof.Machine.execStrel q s
  | .bclose d => Sys2Proof.Machine.execBclose d s
  | .bwait a => Sys2Proof.Machine.execBwait a s
  | .bararr b a => Sys2Proof.Machine.execBararr b a s
  | .barwait b a => Sys2Proof.Machine.execBarwait b a s
  | .barexp b a => Sys2Proof.Machine.execBarexp b a s
  | .fence sc => Sys2Proof.Machine.execFence sc s
  | .scopeset a n => Sys2Proof.Machine.execScopeset a n s
  | .recfence => Sys2Proof.Machine.execRecfence s
  | .recload slot => Sys2Proof.Machine.execRecload slot s
  | .syscall service => Sys2Proof.Machine.execSyscall service s
  | .trapret => Sys2Proof.Machine.execTrapret s
  | .csrr d addr => Sys2Proof.Machine.execCsrr d addr s
  | .csrw a addr => Sys2Proof.Machine.execCsrw a addr s
  | .exit => Sys2Proof.Machine.execExit s
  | .brk code => Sys2Proof.Machine.execBrk code s
  | .yield => Sys2Proof.Machine.execYield s
  | .launch d a b => Sys2Proof.Machine.execLaunch d a b s
  | .nop => Sys2Proof.Machine.execNop s
  | .waitev d a b => Sys2Proof.Machine.execWaitev d a b s
  | .scalarReservedOpcode w => Sys2Proof.Machine.execScalarReservedOpcode w s
  | .iadd f => Sys2Proof.Machine.execIadd f s
  | .isub f => Sys2Proof.Machine.execIsub f s
  | .imul f => Sys2Proof.Machine.execImul f s
  | .imad f => Sys2Proof.Machine.execImad f s
  | .imulh f => Sys2Proof.Machine.execImulh f s
  | .idiv f => Sys2Proof.Machine.execIdiv f s
  | .imin f => Sys2Proof.Machine.execImin f s
  | .imax f => Sys2Proof.Machine.execImax f s
  | .land f => Sys2Proof.Machine.execLand f s
  | .lor f => Sys2Proof.Machine.execLor f s
  | .lxor f => Sys2Proof.Machine.execLxor f s
  | .lshl f => Sys2Proof.Machine.execLshl f s
  | .lshr f => Sys2Proof.Machine.execLshr f s
  | .lsar f => Sys2Proof.Machine.execLsar f s
  | .popc f => Sys2Proof.Machine.execPopc f s
  | .clz f => Sys2Proof.Machine.execClz f s
  | .icmp f => Sys2Proof.Machine.execIcmp f s
  | .sel f => Sys2Proof.Machine.execSel f s
  | .fadd f => Sys2Proof.Machine.execFadd f s
  | .fsub f => Sys2Proof.Machine.execFsub f s
  | .fmul f => Sys2Proof.Machine.execFmul f s
  | .ffma f => Sys2Proof.Machine.execFfma f s
  | .fmin f => Sys2Proof.Machine.execFmin f s
  | .fmax f => Sys2Proof.Machine.execFmax f s
  | .fcmp f => Sys2Proof.Machine.execFcmp f s
  | .frnd f => Sys2Proof.Machine.execFrnd f s
  | .fscale f => Sys2Proof.Machine.execFscale f s
  | .fcvt f => Sys2Proof.Machine.execFcvt f s
  | .rcp f => Sys2Proof.Machine.execRcp f s
  | .rsq f => Sys2Proof.Machine.execRsq f s
  | .sqrt f => Sys2Proof.Machine.execSqrt f s
  | .exp2 f => Sys2Proof.Machine.execExp2 f s
  | .log2 f => Sys2Proof.Machine.execLog2 f s
  | .ln f => Sys2Proof.Machine.execLn f s
  | .dot4 f => Sys2Proof.Machine.execDot4 f s
  | .hfma2 f => Sys2Proof.Machine.execHfma2 f s
  | .mov f => Sys2Proof.Machine.execMov f s
  | .movsp f => Sys2Proof.Machine.execMovsp f s
  | .rget f => Sys2Proof.Machine.execRget f s
  | .rput f => Sys2Proof.Machine.execRput f s
  | .shfl f => Sys2Proof.Machine.execShfl f s
  | .shflx f => Sys2Proof.Machine.execShflx f s
  | .bcast f => Sys2Proof.Machine.execBcast f s
  | .ballot f => Sys2Proof.Machine.execBallot f s
  | .vote f => Sys2Proof.Machine.execVote f s
  | .reduce f => Sys2Proof.Machine.execReduce f s
  | .scan f => Sys2Proof.Machine.execScan f s
  | .pset f => Sys2Proof.Machine.execPset f s
  | .plop f => Sys2Proof.Machine.execPlop f s
  | .feclr f => Sys2Proof.Machine.execFeclr f s
  | .feset f => Sys2Proof.Machine.execFeset f s
  | .lbr f => Sys2Proof.Machine.execLbr f s
  | .ljmp f => Sys2Proof.Machine.execLjmp f s
  | .lend f => Sys2Proof.Machine.execLend f s
  | .lnop f => Sys2Proof.Machine.execLnop f s
  | .ltrap f => Sys2Proof.Machine.execLtrap f s
  | .lbrk f => Sys2Proof.Machine.execLbrk f s
  | .ldv f => Sys2Proof.Machine.execLdv f s
  | .stv f => Sys2Proof.Machine.execStv f s
  | .ldb f => Sys2Proof.Machine.execLdb f s
  | .stb f => Sys2Proof.Machine.execStb f s
  | .cstore f => Sys2Proof.Machine.execCstore f s
  | .xload f => Sys2Proof.Machine.execXload f s
  | .atom f => Sys2Proof.Machine.execAtom f s
  | .lfence f => Sys2Proof.Machine.execLfence f s
  | .bar f => Sys2Proof.Machine.execBar f s
  | .qskip f => Sys2Proof.Machine.execQskip f s
  | .ctxsync f => Sys2Proof.Machine.execCtxsync f s
  | .packg f => Sys2Proof.Machine.execPackg f s
  | .unpackg f => Sys2Proof.Machine.execUnpackg f s
  | .nqdec f => Sys2Proof.Machine.execNqdec f s
  | .rand f => Sys2Proof.Machine.execRand f s
  | .randu f => Sys2Proof.Machine.execRandu f s
  | .propose f => Sys2Proof.Machine.execPropose f s
  | .accept f => Sys2Proof.Machine.execAccept f s
  | .pdiscard f => Sys2Proof.Machine.execPdiscard f s
  | .pread f => Sys2Proof.Machine.execPread f s
  | .pcount f => Sys2Proof.Machine.execPcount f s
  | .tclook f => Sys2Proof.Machine.execTclook f s
  | .tcpf f => Sys2Proof.Machine.execTcpf f s
  | .tcpin f => Sys2Proof.Machine.execTcpin f s
  | .tchalo f => Sys2Proof.Machine.execTchalo f s
  | .tcinv f => Sys2Proof.Machine.execTcinv f s
  | .tcflush f => Sys2Proof.Machine.execTcflush f s
  | .recbind f => Sys2Proof.Machine.execRecbind f s
  | .cpy f => Sys2Proof.Machine.execCpy f s
  | .cpyg f => Sys2Proof.Machine.execCpyg f s
  | .coll f => Sys2Proof.Machine.execColl f s
  | .tcfg f => Sys2Proof.Machine.execTcfg f s
  | .trel f => Sys2Proof.Machine.execTrel f s
  | .tzero f => Sys2Proof.Machine.execTzero f s
  | .mma f => Sys2Proof.Machine.execMma f s
  | .mmag f => Sys2Proof.Machine.execMmag f s
  | .tlda f => Sys2Proof.Machine.execTlda f s
  | .tsta f => Sys2Proof.Machine.execTsta f s
  | .tmovv f => Sys2Proof.Machine.execTmovv f s
  | .laneReservedOpcode w => Sys2Proof.Machine.execLaneReservedOpcode w s
  | .haloStripLand d id => Sys2Proof.Machine.execHaloStripLand d id s
  | .homeWriteBackAck d t => Sys2Proof.Machine.execHomeWriteBackAck d t s
  | .generationMirrorFill d tid gen => Sys2Proof.Machine.execGenerationMirrorFill d tid gen s
  | .powerOn => Sys2Proof.Machine.execPowerOn s
  | .bootPhaseBoundExceeded d => Sys2Proof.Machine.execBootPhaseBoundExceeded d s
  | .vfiStepRequest d i1 step m => Sys2Proof.Machine.execVfiStepRequest d i1 step m s
  | .vfiStepChangeComplete d i1 => Sys2Proof.Machine.execVfiStepChangeComplete d i1 s
  | .vfiGateSet d i1 m => Sys2Proof.Machine.execVfiGateSet d i1 m s
  | .islandPowerOff d i1 => Sys2Proof.Machine.execIslandPowerOff d i1 s
  | .vfiGateClear d i1 m => Sys2Proof.Machine.execVfiGateClear d i1 m s
  | .islandPowerRestored d i1 => Sys2Proof.Machine.execIslandPowerRestored d i1 s
  | .pwrlimWrite d value m => Sys2Proof.Machine.execPwrlimWrite d value m s
  | .powerThrottleDown d power => Sys2Proof.Machine.execPowerThrottleDown d power s
  | .powerThrottleUp d power => Sys2Proof.Machine.execPowerThrottleUp d power s
  | .thermalThrottleDown d i1 temp => Sys2Proof.Machine.execThermalThrottleDown d i1 temp s
  | .thermalThrottleUp d i1 temp => Sys2Proof.Machine.execThermalThrottleUp d i1 temp s
  | .dieThermalShutdown d temp => Sys2Proof.Machine.execDieThermalShutdown d temp s
  | .registerWrite d off value m => Sys2Proof.Machine.execRegisterWrite d off value m s
  | .flitReceive d p bytes => Sys2Proof.Machine.execFlitReceive d p bytes s
  | .replayTimeoutResend d p => Sys2Proof.Machine.execReplayTimeoutResend d p s
  | .linkRetrainComplete d p => Sys2Proof.Machine.execLinkRetrainComplete d p s
  | .keyWrite d p n word value m => Sys2Proof.Machine.execKeyWrite d p n word value m s
  | .lnkctlRoll d p m => Sys2Proof.Machine.execLnkctlRoll d p m s
  | .keyExpire d p => Sys2Proof.Machine.execKeyExpire d p s
  | .linkIdleSleep d p idleUs => Sys2Proof.Machine.execLinkIdleSleep d p idleUs s
  | .linkWakeComplete d p => Sys2Proof.Machine.execLinkWakeComplete d p s
  | .linkWakeTimeout d p => Sys2Proof.Machine.execLinkWakeTimeout d p s
  | .confluenceSend d k m => Sys2Proof.Machine.execConfluenceSend d k m s
  | .sendUndeliverableTimeout d k => Sys2Proof.Machine.execSendUndeliverableTimeout d k s
  | .mbidxHeadWrite d box head m => Sys2Proof.Machine.execMbidxHeadWrite d box head m s
  | .heartbeatSend d => Sys2Proof.Machine.execHeartbeatSend d s
  | .dieSilent d about => Sys2Proof.Machine.execDieSilent d about s
  | .lpddr6Scrub d channel corrected => Sys2Proof.Machine.execLpddr6Scrub d channel corrected s
  | .fmtrgnWrite d n word value m => Sys2Proof.Machine.execFmtrgnWrite d n word value m s
  | .frctlEnable d n value m => Sys2Proof.Machine.execFrctlEnable d n value m s
  | .frctlDisable d n value m => Sys2Proof.Machine.execFrctlDisable d n value m s
  | .poolmapWrite d n word value m => Sys2Proof.Machine.execPoolmapWrite d n word value m s
  | .impmapWrite d n word value m => Sys2Proof.Machine.execImpmapWrite d n word value m s
  | .snpinv d pa => Sys2Proof.Machine.execSnpinv d pa s
  | .snpdata d pa => Sys2Proof.Machine.execSnpdata d pa s
  | .ringHeadWrite d off head m => Sys2Proof.Machine.execRingHeadWrite d off head m s
  | .formTimeout d => Sys2Proof.Machine.execFormTimeout d s
  | .fwmbctlSend d k m => Sys2Proof.Machine.execFwmbctlSend d k m s
  | .fwmbctlRecv d k m => Sys2Proof.Machine.execFwmbctlRecv d k m s
  | .firmwareWatchdogExpire d k => Sys2Proof.Machine.execFirmwareWatchdogExpire d k s
  | .dieWithdraw d => Sys2Proof.Machine.execDieWithdraw d s
  | .linkKeyRollTimer d p hours => Sys2Proof.Machine.execLinkKeyRollTimer d p hours s
  | .hostRequest d who va q => Sys2Proof.Machine.execHostRequest d who va q s
  | .queueSlotTimeout d q => Sys2Proof.Machine.execQueueSlotTimeout d q s
  | .queueSpill d qs => Sys2Proof.Machine.execQueueSpill d qs s
  | .queueReadbackComplete d page readOk => Sys2Proof.Machine.execQueueReadbackComplete d page readOk s
  | .timeSliceExpire d team ranUs => Sys2Proof.Machine.execTimeSliceExpire d team ranUs s
  | .debugHalt d value m => Sys2Proof.Machine.execDebugHalt d value m s
  | .debugResume d value m => Sys2Proof.Machine.execDebugResume d value m s
  | .debugStep d value m => Sys2Proof.Machine.execDebugStep d value m s
  | .pcSample d cluster => Sys2Proof.Machine.execPcSample d cluster s
  | .replayHoldTimeout d tile => Sys2Proof.Machine.execReplayHoldTimeout d tile s
  | .bounceDecay d t => Sys2Proof.Machine.execBounceDecay d t s
  | .sddoneWrite d value m => Sys2Proof.Machine.execSddoneWrite d value m s
  | .faultReplay d fid m => Sys2Proof.Machine.execFaultReplay d fid m s
  | .faultRefuse d fid m => Sys2Proof.Machine.execFaultRefuse d fid m s
  | .frzclRelease d value m => Sys2Proof.Machine.execFrzclRelease d value m s
  | .frzceRelease d value m => Sys2Proof.Machine.execFrzceRelease d value m s
  | .bootPhaseComplete d r => Sys2Proof.Machine.execBootPhaseComplete d r s
  | .savePageWriteOutComplete d page => Sys2Proof.Machine.execSavePageWriteOutComplete d page s
  | .firmwareCoreRestart d k => Sys2Proof.Machine.execFirmwareCoreRestart d k s
  | .pasidBind d pasid pid => Sys2Proof.Machine.execPasidBind d pasid pid s

end Sys2Proof.Machine
end

