-- ==== Sys2Proof/Machine/Issue.lean ====
section
/-! DEFINITION. Which wave and stream issues next (R110, R118, R128, R133, R135) and the fetch of its instruction (R275). -/

namespace Sys2Proof.Machine

/-! ### Readiness -/

/-- The cluster of a wave may issue: not frozen or fenced (R211, R212), its die and island on (R16 to R21). -/
def clusterIssues (s : State) (d c : Nat) : Bool :=
  !clusterFrozen s d c && !dieDown s d && !(s.die d).power.off.getLsbD (c / 4)

/-- A wave may issue at all: in an active slot, not ended, parked or waiting for an answer, with no acquire that has not come
back from its home (R177), and not halted, except to
complete what a debugger's halt or step lets it complete (R125). -/
def waveIssues (s : State) (w : Wave) : Bool :=
  let who := waveWho s w
  w.running && !w.ended && w.park.isNone && clusterIssues s who.d who.cluster &&
    !acquirePending s who.d (waveKey w.launch w.team w.idx) &&
    (match w.wait with
      | .none => !w.c.halted || w.stepping = 1 || w.stepping = 3
      | .served _ => true
      | .synced => true
      | .launched _ => true
      | _ => false)

/-- A pending trap that the wave takes at its next issue decision. -/
def asyncDue (w : Wave) : Bool := !w.asyncs.isEmpty && !w.c.intrap && w.wait = .none && w.stepping ≠ 3

/-- The scalar stream of a wave can issue. -/
def scalarReady (w : Wave) : Bool := !w.stallS && w.stepping ≠ 3

/-- The splits of a wave that can issue (R133, R379): of the running block, not parked, not waiting at a BAR or for an
operand. -/
def readySplits (w : Wave) : List Nat :=
  if w.wait ≠ .none || drained w then []
  else (validSplits w).filter fun n => !(getSplit w n).parked && !waitsBar w n && !w.stallL.getLsbD n &&
    (w.stepping ≠ 3 || n = w.unfinSplit)

/-- The split that issued least recently; the lower number among equals. -/
def oldestSplit (w : Wave) : List Nat → Option Nat
  | [] => none
  | n :: l => match oldestSplit w l with
    | none => some n
    | some m => if (getSplit w n).issued ≤ (getSplit w m).issued then some n else some m

def waveReady (s : State) (w : Wave) : Bool :=
  waveIssues s w && (asyncDue w || scalarReady w || !(readySplits w).isEmpty)

/-! ### The choice (R110) -/

/-- The quadrant of a wave: die, cluster, quadrant. -/
def quadrant (s : State) (w : Wave) : Nat :=
  let who := waveWho s w
  (who.d * 64 + who.cluster) * 4 + w.idx % 4

/-- Wave a goes before wave b in one quadrant: higher priority, earlier placement, lower index. -/
def before (s : State) (a b : Wave) : Bool :=
  let p (w : Wave) := (s.team (teamKey w.launch w.team)).placedAt
  decide (b.prio < a.prio) || (a.prio = b.prio && (decide (p a < p b) || (p a = p b && decide (a.idx ≤ b.idx))))

/-- The first wave of a list in the order of R110. -/
def foremost (s : State) : List (Nat × Wave) → Option (Nat × Wave)
  | [] => none
  | x :: l => match foremost s l with
    | none => some x
    | some y => if before s x.2 y.2 then some x else some y

/-- The ready waves of a quadrant; one that yields counts only when no other is ready (R318). -/
def quadrantReady (s : State) (q : Nat) : List (Nat × Wave) :=
  let l := s.waves.filter fun p => quadrant s p.2 = q && waveReady s p.2
  let busy := l.filter fun p => p.2.yielding = 0
  if busy.isEmpty then l else busy

/-- The least of the numbers above n, else the least of all. -/
def nextAfter (n : Nat) (l : List Nat) : Option Nat :=
  let least (l : List Nat) : Option Nat := l.foldl (fun a x => match a with | none => some x | some y => some (min x y)) none
  (least (l.filter fun x => decide (n < x))).orElse fun _ => least l

/-- Let the waves settle: what they wait for may have come, and a yield counts down. -/
def settleAll (s : State) : State :=
  { s with waves := s.waves.map fun (p : Nat × Wave) =>
    (p.1, let w := { p.2 with yielding := p.2.yielding - 1 }; if w.running && !w.ended then settle s w else w) }
/-- Wave w (under key k) is to issue next: its scalar stream, or the lane stream in its oldest ready split. -/
def aim (s : State) (k : Nat) (w : Wave) (lane : Bool) : State :=
  { s with focus := k, lane := lane, split := if lane then (oldestSplit w (readySplits w)).getD 0 else s.split }
/-- Choose what issues next. A cycle goes once over the quadrants; in each the foremost ready wave issues from its scalar stream, if
that can, and then in the same cycle from its lane stream, if that can (R133). -/
def choose (s : State) : State :=
  let last := match s.wave? s.focus with | some w => quadrant s w | none => 0
  let both := if s.lane then none else (s.wave? s.focus).filter fun w => waveIssues s w && !asyncDue w && !(readySplits w).isEmpty
  match both with
  | some w => aim s s.focus w true
  | none =>
    let qs := (s.waves.filter fun p => waveReady s p.2).map fun p => quadrant s p.2
    match nextAfter last qs with
    | none => { s with issued := [] }
    | some q => match foremost s (quadrantReady s q) with
      | none => s
      | some (k, w) => aim (if q ≤ last then { s with issued := [] } else s) k w (!asyncDue w && !scalarReady w)

/-- Something has happened: what waited is tried again. -/
def wake (s : State) : State :=
  { s with waves := s.waves.map fun (p : Nat × Wave) => (p.1, { p.2 with stallS := false, stallL := 0 }) }

/-- The stream in focus can issue now. -/
def focusReady (s : State) (w : Wave) : Bool :=
  waveIssues s w && if s.lane then (readySplits w).contains s.split else scalarReady w

/-- The stream in focus waited instead of issuing. -/
def stalled (s : State) : Bool :=
  match s.wave? s.focus with
  | none => false
  | some w => if s.lane then w.stallL.getLsbD s.split else w.stallS

/-- What is left of a debugger's step or halt when the wave in focus has issued (R125): unfinished lanes are replayed, a scalar
access that parked is still to be made, a matrix instruction (`mat`) runs one K-block; else the wave is halted again. -/
def stepDone (s : State) (mat : Bool) : State :=
  match s.wave? s.focus with
  | none => s
  | some w =>
    if w.stepping = 0 then s
    else
      let t := s.team (s.focus / 16)
      let x := s.cluster (clusterKey t.die t.cluster)
      let entered := (x.seq ++ t.store ++ x.copies.filterMap fun y => y.follow).any fun e => e.wave = s.focus && !e.begun
      let n := if w.c.unfin ≠ 0 then 3 else if w.park.isSome then 1 else if mat && entered then 2 else 0
      let s := s.setWave s.focus { w with stepping := n }
      if n = 0 then kickPlace s t.die
      else if n = 2 then s.push (.sequencerEntryStart (Fin.ofNat 8 t.die) (Fin.ofNat 64 t.cluster)) else s
/-- An instruction that the macro sequencer stops at its K-block boundaries. -/
def isMatrix (i : Instr) : Bool :=
  match i with
  | .mma _ => true
  | .mmag _ => true
  | .tsta _ => true
  | _ => false
/-- Note the issue of the wave in focus: for the choice among its splits (R133) and for the samples (R128). -/
def noteIssue (s : State) : State :=
  let s := match s.wave? s.focus with
    | some w => { s with issued := (quadrant s w, s.focus) :: s.issued }
    | none => s
  if s.lane then s.modWave s.focus fun w =>
    let x := getSplit w s.split
    if x.valid then setSplit w s.split { x with issued := s.ticks } else w
  else s
/-- After an issue: note it and let the others try again, unless it waited; then choose what comes next. -/
def afterIssue (s : State) (mat : Bool) : State :=
  choose (settleAll (if stalled s then s else wake (noteIssue (stepDone s mat))))

/-- The wave in focus can issue something now. -/
def canIssue (s : State) : Bool :=
  match s.wave? s.focus with
  | none => false
  | some w => (waveIssues s w && asyncDue w) || focusReady s w
/-- After an event everything that waited tries again. A choice that has been made stands: each quadrant picks in every cycle. -/
def afterEvent (s : State) : State :=
  let s := settleAll (wake s)
  if canIssue s then s else choose s

/-! ### Fetch (R275) -/

/-- What the machine does next: run an instruction or an event, or take a state that no instruction gives. -/
inductive Issue where
  | run (i : Instr) (s : State)
  | out (s : State)

/-- The instruction at an address cannot be fetched: the wave parks, its cluster freezes, it traps at a fill fault with no instruction
bits to show (R53), or it waits. -/
def fetchFails (s : State) (w : Wave) (va : W64) (f : Fetch) : State :=
  let acc := if s.lane then 9 else 8
  match f with
  | .page r => parkWave s s.lane true acc [⟨0, va, some r, false⟩] 0 0 [] []
  | .blocked => parkWave s s.lane true acc [⟨0, va, none, false⟩] 0 0 [] []
  | .frozen pa => let who := waveWho s w; freezeCluster s who.d who.cluster pa (waveName s w 0 none) s.focus
  | .faulty a =>
    if s.lane then laneTrap s w 0 0x0B (getSplit w s.split).mask a
    else enterTrap s s.focus { tcause := causeBits 0x0B 0 true false 0, tspc := w.c.pc, inst := 0, taddr := a }
  | .waits => s.setWave s.focus (if s.lane then { w with stallL := w.stallL ||| BitVec.twoPow 5 s.split } else { w with stallS := true })
  | _ => s

/-- Words from a fetch: in another package or behind a host port they are free (assumption 4). -/
def fetchWords (w : Wave) (right : Nat) : List W64 → State → State × Except (W64 × Fetch) (List W32)
  | [], s => (s, .ok [])
  | va :: l, s =>
    let go (s : State) (x : W32) : State × Except (W64 × Fetch) (List W32) :=
      match fetchWords w right l s with
      | (s, .ok xs) => (s, .ok (x :: xs))
      | (s, .error e) => (s, .error e)
    match fetchWord s w va right with
    | .word x => let who := waveWho s w; go (cachePage s who.d who.cluster who.pindex who.pid va) x
    | .away x =>
      let (s, v) := foreignValue (sendAway s (waveWho s w).d .load [] s.focus x) 4
      go s (BitVec.ofNat 32 v)
    | f => (s, .error (va, f))

/-- A word of the scalar stream has a literal word behind it (R275). -/
def hasLiteral (w : W32) : Bool := (w.extractLsb' 26 6).toNat = 0x0B || (w.extractLsb' 26 6).toNat = 0x1A

/-- The scalar instruction of the wave in focus. -/
def fetchScalar (s : State) (w : Wave) : Issue :=
  let pc := w.c.pc
  match fetchWords w 3 [pc] s with
  | (s, .error (va, f)) => .out (fetchFails s w va f)
  | (s, .ok xs) =>
    let x := xs.headD 0
    let (s, r) := if hasLiteral x then fetchWords w 3 [pc + 4] s else (s, .ok [0])
    match r with
    | .error (va, f) => .out (fetchFails s w va f)
    | .ok ls =>
      let lit := ls.headD 0
      match decodeScalar x lit with
      | some i => .run i s
      | none =>
        match bkScalar s w (.scalarReservedOpcode x) with
        | some s => .out s
        | none => .out (enterTrap s s.focus
            { tcause := causeBits 0x01 0 true false 0, tspc := pc, inst := ((lit ++ x : W64)).zeroExtend 96 })

/-- A lane breakpoint or an illegal lane word (R287): the word has no effect. -/
def badLane (s : State) (w : Wave) (bits : BitVec 96) : State :=
  let x := getSplit w s.split
  let pc := (w.y.lanebase + x.lpc.zeroExtend 64).toNat
  match if suppressed w s.split then [] else bkPc s w 1 pc with
  | [] => laneTrap s w bits 0x01 x.mask 0
  | n :: l =>
    if bkHalts s w n then haltAt s w s.split pc pc (n :: l)
    else laneTrap (s.setWave s.focus (suppress w s.split)) (suppress w s.split) bits 0x0D x.mask (BitVec.ofNat 64 pc)

/-- The lane instruction of the split in focus. -/
def fetchLane (s : State) (w : Wave) : Issue :=
  let va : W64 := w.y.lanebase + (getSplit w s.split).lpc.zeroExtend 64
  match fetchWords w 4 [va, va + 4, va + 8] s with
  | (s, .error (va, f)) => .out (fetchFails s w va f)
  | (s, .ok xs) =>
    let bits : BitVec 96 := xs.getD 2 0 ++ xs.getD 1 0 ++ xs.getD 0 0
    match decodeLane bits with
    | some i => .run i s
    | none => .out (badLane s w bits)

/-- An instruction of a wave, and no event. -/
def isCode (i : Instr) : Bool := !(encode i).isEmpty

/-- What a wave does next: a pending trap of the wave in focus, or its instruction. -/
def nextWave (s : State) : Issue :=
  match s.wave? s.focus with
  | none => .out s
  | some w =>
    if waveIssues s w && asyncDue w then .run (.asyncTrapTake s.focus) s
    else if !focusReady s w then .out s
    else if s.lane then fetchLane s w else fetchScalar s w
/-- What comes next: the oldest event that can come, or a wave; while a wave can issue, the two take turns. Messages that come to
nothing are dropped. -/
def next (s : State) : Issue :=
  let s := { s with agenda := s.agenda.filter fun i => !dropped s i }
  if s.ticks % 2 = 0 && canIssue s then nextWave s
  else match oldestEvent s s.agenda with
    | none => nextWave s
    | some (i, l) => if isCode i then .out { s with agenda := l } else .run i { s with agenda := l }

/-! ### Placing an instruction for the next step -/

/-- Bytes of w as the hardware stores nbits bits of code: the first word at the lowest address, its low byte first. -/
def codeBytes (nbits w : Nat) : List Byte := leBytes ((nbits + 7) / 8) (w % 2 ^ nbits)

/-- The address the placed instruction stands at. -/
def placedVa : Nat := 0x10000

/-- The wave that runs a placed instruction: launch 1, team 0, wave 0, on cluster 0 of die 0, registers as at wave start
with a window of 1,024. A length above 64 bits is a lane instruction, the first of a block. -/
def placedWave (nbits : Nat) : Wave :=
  let w : Wave := { launch := 1, team := 0, idx := 0, winsize := 1024, running := true
                    y := { lanebase := BitVec.ofNat 64 placedVa }, c := { pc := BitVec.ofNat 64 placedVa } }
  if nbits ≤ 64 then w
  else startIteration (setEntry { w with c := { w.c with qcnt := 1 } } 0 { valid := true }) 0

/-- The leaf of the page it stands on: die 0's memory, every right of a user page (R198). -/
def placedLeaf : W64 := BitVec.ofNat 64 (2 ^ 21 + 0x3F)

end Sys2Proof.Machine
end

