-- ==== Sys2Proof/Machine/Step.lean ====
section
/-! DEFINITION. The step of the machine: an event on its way, or one instruction of one wave, then the choice of what
comes next. -/

namespace Sys2Proof.Machine

/-- What follows a next state. -/
def andThen (o : Host.Outcome State Fault Refusal) (f : State → State) : Host.Outcome State Fault Refusal :=
  match o with
  | .next s => .next (f s)
  | .fault r => .fault r
  | .refused r => .refused r

/-- One step. -/
def step (s : State) : Host.Outcome State Fault Refusal :=
  match next (tick s) with
  | .out s => .next (afterIssue s false)
  | .run i s => andThen (exec i s) fun t => if isCode i then afterIssue t (isMatrix i) else afterEvent t

/-- The state with an instruction of nbits bits placed where the next step fetches: a wave with its team and launch, the
page's translation and its bytes, and nothing else on its way. It stands for a launch from outside (assumption 7). -/
def State.withFetchWord (s : State) (nbits w : Nat) : State :=
  let s := s.modTr 0 fun x => { x with cache := ⟨0, 0, 1, placedVa, 65536, placedLeaf, s.pkg⟩ :: x.cache }
  let s := s.putCells 0x10000 ((List.range 16).map fun k => (k, (codeBytes nbits w).getD k 0))
  { s with
    agenda := []
    waves := mset s.waves (waveKey 1 0 0) (placedWave nbits)
    teams := mset s.teams (teamKey 1 0) { launch := 1, phase := .running, waves := 1 }
    launches := mset s.launches 1 { id := 1, pid := 1, teams := 1, waves := 1 }
    focus := waveKey 1 0 0
    lane := decide (64 < nbits)
    split := 0 }

end Sys2Proof.Machine
end

