-- ==== Sys2Proof/Safety.lean ====
section
/-! DEFINITION. What counts as a safe state and a safe run, and the words that statements are made with: when an
instruction can issue without a wait, a stop or a trap, and what an instruction leaves alone. -/

namespace Sys2Proof

open Machine

/-! ### Safety -/

/-- Memory lists its bytes in the canonical form, and the hard-wired registers s0 and k0 hold nothing (R214). -/
def SafeState (s : State) : Prop :=
  memoryWf s.mem = true ∧ ∀ k w, s.wave? k = some w → mfind w.r.s 0 = none ∧ mfind w.r.k 0 = none

/-- A run of n steps that never stops and stays in safe states. -/
def SafeRun : Nat → State → Prop
  | 0, s => SafeState s
  | n + 1, s => SafeState s ∧ ∃ s', step s = .next s' ∧ SafeRun n s'

/-- What R110 and R133 say of the choice that t makes after s: no wave is ready; or the wave in focus is ready and foremost of its
quadrant; or it is the wave that has just issued from its scalar stream, and its lane stream, which can issue, follows in the
same cycle. -/
def IssueChoice (s t : State) : Prop :=
  (∀ k w, (k, w) ∈ t.waves → waveReady t w = false) ∨
    (∃ w, (t.focus, w) ∈ t.waves ∧ waveReady t w = true ∧
      ∀ p ∈ quadrantReady t (quadrant t w), before t w p.2 = true) ∨
    ∃ w, t.wave? t.focus = some w ∧ t.focus = s.focus ∧ s.lane = false ∧ t.lane = true ∧ t.split ∈ readySplits w

/-! ### When an instruction issues -/

/-- No breakpoint or watchpoint entry of the wave's cluster is enabled (R122). -/
def Quiet (s : State) (w : Wave) : Prop :=
  ∀ n < 8, s.ctlBits (waveWho s w).d (0xA000 + 0x80 * (waveWho s w).cluster + 0x10 * n) 0 0 = 0

/-- The wave w is in focus with the legal scalar instruction i, no stop is set, and the registers it reads and writes are full
(R218, R289). -/
structure ScalarAt (s : State) (w : Wave) (i : Instr) (regs : List (BitVec 6)) : Prop where
  focus : s.wave? s.focus = some w
  quiet : Quiet s w
  legal : i.wf = true
  full : ∀ r ∈ regs, emptyS w r = false

/-- The lanes in which a lane instruction executes (R322). -/
def execLanes (s : State) (w : Wave) (f : LaneFields) : W32 := (getSplit w s.split).mask &&& guardMask w f

/-- The wave w is in focus with the legal lane instruction i of shape sh, which executes in the lanes of E: no stop is set,
nothing is replayed, every register it reads, writes, names or counts is a full register of the window outside a bank, none of
those read is poisoned, and its stream elements have arrived (R218, R224, R228, R233, R322). -/
structure LaneAt (s : State) (w : Wave) (i : Instr) (sh : Shape) (E : W32) : Prop where
  focus : s.wave? s.focus = some w
  quiet : Quiet s w
  legal : i.wf = true
  lanes : E = execLanes s w sh.f
  active : E ≠ 0
  whole : laneUniform sh.op = true → (getSplit w s.split).mask = BitVec.allOnes 32
  early : sh.early w = false
  fresh : w.c.unfin = 0
  inside : ∀ n ∈ (sh.srcs.flatMap srcRegs ++ sh.more).map Prod.fst ++ sh.dst ++ sh.dstMore ++ sh.named ++ sh.range,
    n < w.winsize ∧ isBank w n = false
  full : ∀ n ∈ (sh.srcs.flatMap srcRegs ++ sh.more).map Prod.fst ++ sh.dst ++ sh.dstMore, emptyV w n = false
  group : ∀ n ∈ sh.noGroup, isHome w n = false ∧ isBank w n = false
  clean : ∀ n ∈ (sh.srcs.flatMap srcRegs ++ sh.more).map Prod.fst, ∀ L < 32, mfind w.r.poison (4 * viewLine w n L + L / 8) = none
  bound : ∀ p ∈ streamsOf sh.srcs, streamBad w p = false
  arrived : streamAccs w E sh.srcs = []

/-- The value of a source of the split in focus in lane L (R281, R323). -/
def source (s : State) (w : Wave) (f : LaneFields) (x : Src) (wide : Bool) (L : Nat) : W64 := srcVal s w [] f.ty x wide L

/-- A v register, or the pair that starts at it, as a number of 64 bits. -/
def laneValue (w : Wave) (wide : Bool) (n L : Nat) : W64 := if wide then vread64 w n L else (vread w n L).zeroExtend 64

/-- The low 32 bits, or all, of a result. -/
def clip (wide : Bool) (v : W64) : W64 := if wide then v else v &&& 0xFFFFFFFF

/-! ### Accesses to storage -/

/-- An access of the wave w of n bytes at va meets storage: nothing it is ordered behind is left to do, it is aligned, outside the
wave's image, placed at p without a fill fault, its frame is brought in the state u, and nothing of it is poisoned (R46, R172, R177,
R178, R200, R294). -/
structure Reaches (s : State) (w : Wave) (k : AccKind) (va : W64) (n : Nat) (p : Placed) (u : State) : Prop where
  ordered : scalarHeld w = false
  placed : place s (waveWho s w) k va n none w.launch = .ok p
  good : fillFaults s k (waveWho s w).d p = false
  after : k = .load → atomicPending s (waveWho s w).d s.focus p.req.base (p.pa - p.req.base) n = false
  whole : va.toNat % n = 0
  outside : ownImage w va = none
  brought : bring (cachePage s (waveWho s w).d (waveWho s w).cluster (waveWho s w).pindex (waveWho s w).pid va) k
    (waveWho s w).d p = .ok u
  clean : accessPoison u k (waveWho s w).d p n = none

/-- The state in which such an access is performed: u, with the access counted (R59) and, where it needs the tile's frame, the cluster
noted as a holder of the tile (R162). No stored byte differs from u. -/
def arrived (u : State) (w : Wave) (who : Who) (va : W64) (acc : Nat) (k : AccKind) (p : Placed) : State :=
  let v := countMiss u who va acc w.launch k p
  if needsFrame k who.d p then nearTouch v who.d who.cluster p.req.tile false else v

/-- The bytes that the frames of die e with base b hold at offset k. -/
def frameBytes (s : State) (e b k : Nat) : List Byte := ((s.frames e).filter fun f => f.base = b).map fun f => mget 0 f.payload k

/-- Between u and t no stored byte has changed but the n bytes at offset lo of the storage tile at `base`: memory cells change
only there, seen from each of `cells`, and a frame only at its own bytes of that tile. -/
structure StoreFrame (u t : State) (base lo n : Nat) (cells : List Nat) : Prop where
  cells : ∀ c, (∀ x ∈ cells, c < x + lo ∨ x + lo + n ≤ c) → t.cellByte c = u.cellByte c
  frames : ∀ e b k, b ≠ base ∨ k < lo ∨ lo + n ≤ k → frameBytes t e b k = frameBytes u e b k

/-- n bytes from the placed address on lie in the storage tile of p. -/
def InTile (p : Placed) (n : Nat) : Prop := p.req.base % 2048 = 0 ∧ p.req.base ≤ p.pa ∧ p.pa - p.req.base + n ≤ 2048

/-- The tile at `base` holds these bytes from offset lo on at its home: in every undecoded frame with its data if u has such a
frame, else in memory, where that is not the host's (R84, R162, R164). -/
def Stored (u t : State) (home base cell lo : Nat) (bytes : List Byte) : Prop :=
  ∀ k < bytes.length,
    (u.frameAt? home base ≠ none → ∀ f ∈ t.frames home, f.base = base → f.nq4 = false → hasData f = true →
      mget 0 f.payload (lo + k) = bytes.getD k 0) ∧
    (u.frameAt? home base = none → isHostCell cell = false → t.cellByte (cell + lo + k) = bytes.getD k 0)

/-! ### What an instruction leaves -/

/-- A result v is on its way to s(d): the wave has gone on at pc with its registers as before, s(d) is empty, and a message has
been sent; when that message comes, s(d) holds v and is full again. s0 is never empty and takes no result (R218). -/
structure ScalarLands (t : State) (key : Nat) (w : Wave) (d : BitVec 6) (v pc : W64) : Prop where
  wave : ∃ w', t.wave? key = some w' ∧ w'.c.pc = pc ∧ (∀ r, sreg w' r = sreg w r) ∧
    (∀ r, emptyS w' r = (emptyS w r || decide (r = d ∧ d ≠ 0))) ∧ w'.r.v = w.r.v ∧ w'.r.k = w.r.k ∧ w'.y = w.y
  lands : d ≠ 0 → Instr.loadResultLand key w.nextLanding ∈ t.agenda ∧
    ∃ t', exec (.loadResultLand key w.nextLanding) t = .next t' ∧ ∃ w', t'.wave? key = some w' ∧ sreg w' d = v ∧
      emptyS w' d = false ∧ (∀ r, r ≠ d → sreg w' r = sreg w r)

/-- A scalar instruction has written v to s(d), if it names one, and gone on at pc. s0 discards the write; every other register
of the wave, every other wave, memory and everything else is as before. A suppressed breakpoint counts again (R124). -/
structure ScalarWrites (s t : State) (w : Wave) (d : Option (BitVec 6)) (v pc : W64) : Prop where
  wave : ∃ w', t = s.setWave s.focus w' ∧ (∀ r, sreg w' r = if d = some r ∧ r ≠ 0 then v else sreg w r) ∧
    w' = { w with r := { w.r with s := w'.r.s }, c := { w.c with pc := pc, bksup := w.c.bksup &&& ~~~(supMask w 7) } }
  memory : ∀ die a, t.peek die a = s.peek die a

/-- A wave whose scalar instruction has completed: it has gone on by n bytes, and a suppressed breakpoint counts again (R124). -/
def stepped (w : Wave) (n : W64) : Wave :=
  { w with c := { w.c with pc := w.c.pc + n, bksup := w.c.bksup &&& ~~~(supMask w 7) } }

/-- What trap entry leaves of a wave: the registers of R217 and R234 as the trap x sets them, INTRAP, and the counter at
sys.tvec. Its registers, predicates, queue and splits are as before. -/
def trapped (w : Wave) (x : Trap) : Wave :=
  { w with
    y := { w.y with tcause := x.tcause, tspc := x.tspc, tlpc := x.tlpc, tamask := x.tamask, tfmask := x.tfmask,
                    tinst := x.inst, taddr := x.taddr, tsplit := BitVec.ofNat 32 (x.split + if w.c.popen then 256 else 0) }
    c := { w.c with intrap := true, pc := w.y.tvec } }

/-- The wave in focus takes the trap x: into its handler if it has one and is not in it, and no other wave changes; else its
team, if it still runs, ends with STATUS 4 (R234). -/
structure Traps (s t : State) (w : Wave) (x : Trap) : Prop where
  enters : w.c.intrap = false → w.y.tvec ≠ 0 →
    t.wave? s.focus = some (trapped w x) ∧ ∀ k, k ≠ s.focus → t.wave? k = s.wave? k
  kills : w.c.intrap = true ∨ w.y.tvec = 0 → ∀ team, s.team? (teamKey w.launch w.team) = some team →
    team.phase ≠ .ended → team.phase ≠ .done → team.phase ≠ .moving →
    ∃ team', t.team? (teamKey w.launch w.team) = some team' ∧ team'.phase = .ended ∧ team'.status = 4 ∧ team'.killed = true

/-- The trap of a scalar instruction: SCALAR is set, sys.tspc names it, masks and sys.tlpc are 0, SPLIT is 7 (R217, R289). -/
def ScalarTraps (s t : State) (w : Wave) (i : Instr) (cause : Nat) (taddr : W64) : Prop :=
  Traps s t w { tcause := BitVec.ofNat 64 (256 + cause), tspc := w.c.pc, inst := instBits i, taddr := taddr }

/-- The trap of a lane instruction: sys.tspc names the next scalar instruction, sys.tlpc the instruction, sys.tamask the lanes of
the split and sys.tfmask those that trap (R217, R234). -/
def LaneTraps (s t : State) (w : Wave) (i : Instr) (cause : Nat) (tfmask : W32) (taddr : W64) : Prop :=
  Traps s t w { tcause := BitVec.ofNat 64 cause, tspc := w.c.pc
                tlpc := w.y.lanebase + (getSplit w s.split).lpc.zeroExtend 64, tamask := (getSplit w s.split).mask
                tfmask := tfmask, inst := instBits i, taddr := taddr, split := s.split }

/-- No granule of the registers has become poisoned: each holds the poison it held, or none (R172, assumption 62). -/
def PoisonFades (w w' : Wave) : Prop := ∀ k, mfind w'.r.poison k = mfind w.r.poison k ∨ mfind w'.r.poison k = none

/-- The parts of a wave that a lane instruction may touch aside: the rest of w' is that of w. Kept are the scalar registers, the
predicates, the full and empty bits, every system register, the splits but for the one in focus, and what waits. -/
def LaneKeeps (s : State) (w w' : Wave) : Prop :=
  w' = { w with
    r := { w.r with v := w'.r.v, side := w'.r.side, q := w'.r.q, poison := w'.r.poison }
    c := { w.c with splits := w'.c.splits, bksup := w.c.bksup &&& ~~~(supMask w s.split) } } ∧
  PoisonFades w w' ∧
  (∀ n, n ≠ s.split → getSplit w' n = getSplit w n) ∧
  getSplit w' s.split = { getSplit w s.split with lpc := (getSplit w s.split).lpc + 12 }

/-- Each stream that the sources name has advanced by one step, no other stream has changed (R224, R228). -/
def StreamsStep (w w' : Wave) (srcs : List (Src × Bool)) : Prop :=
  ∀ q, getStream w' q = if q ∈ (streamsOf srcs).map Prod.fst then skipStream (getStream w q) 1 else getStream w q

/-- A lane instruction has written the registers `dst` in the lanes of E and nothing else: the value of each lane is that of
`val`; other registers outside a bank, other lanes, other waves and memory are as before. -/
structure LaneWrites (s t : State) (w : Wave) (srcs : List (Src × Bool)) (E : W32) (wide : Bool) (dst : Nat)
    (val : Nat → W64) : Prop where
  wave : ∃ w', t = s.setWave s.focus w' ∧ LaneKeeps s w w' ∧ StreamsStep w w' srcs ∧
    (∀ L, E.getLsbD L = true → laneValue w' wide dst L = clip wide (val L)) ∧
    (∀ n L, L < 32 → isBank w n = false → n ∉ pairOf wide dst ∨ E.getLsbD L = false → vread w' n L = vread w n L)
  memory : ∀ die a, t.peek die a = s.peek die a

/-- A lane instruction has written the bits of k(dst) in the lanes of E, bit L to the truth of p L, and nothing else (R280, R330):
k0 keeps its ones, the other bits, the other predicates, every register, other waves and memory are as before. -/
structure LaneTruths (s t : State) (w : Wave) (srcs : List (Src × Bool)) (E : W32) (dst : Nat) (p : Nat → Prop) : Prop where
  wave : ∃ w', t = s.setWave s.focus w' ∧
    w' = { w with
      r := { w.r with k := w'.r.k, q := w'.r.q }
      c := { w.c with splits := w'.c.splits, bksup := w.c.bksup &&& ~~~(supMask w s.split) } } ∧
    (∀ n, getSplit w' n = if n = s.split then { getSplit w n with lpc := (getSplit w n).lpc + 12 } else getSplit w n) ∧
    StreamsStep w w' srcs ∧
    (∀ L < 32, dst ≠ 0 → E.getLsbD L = true → ((kread w' dst).getLsbD L = true ↔ p L)) ∧
    (∀ L < 32, dst = 0 ∨ E.getLsbD L = false → (kread w' dst).getLsbD L = (kread w dst).getLsbD L) ∧
    ∀ n, n ≠ dst → kread w' n = kread w n
  memory : ∀ die a, t.peek die a = s.peek die a

/-- A lane instruction has completed with the wave as w' says: the split in focus goes on by 12 bytes, its streams by one step,
a suppressed breakpoint counts again, and no other wave and no byte changes. -/
structure LaneSteps (s t : State) (w w' : Wave) (srcs : List (Src × Bool)) : Prop where
  wave : ∃ x, t = s.setWave s.focus x ∧
    x = { w' with
      r := { w'.r with q := x.r.q }
      c := { w'.c with splits := x.c.splits, bksup := w'.c.bksup &&& ~~~(supMask w' s.split) } } ∧
    (∀ n, getSplit x n = if n = s.split then { getSplit w n with lpc := (getSplit w n).lpc + 12 } else getSplit w n) ∧
    StreamsStep w' x srcs
  memory : ∀ die a, t.peek die a = s.peek die a

/-- The accesses `accs` of a lane instruction all meet storage: no check stops them, gathering them from the state r (s, or s with what
an acquire takes for old) gives u and g, each is placed with its frame brought in, and none meets poison (R233, R367). -/
structure Gathered (s r u : State) (w : Wave) (i : Instr) (accs : List LaneAcc) (g : Gather) : Prop where
  unchecked : scanAccs s w i accs = none
  met : accs.foldl (gatherOne w) (r, {}) = (u, g)
  storage : ∀ p ∈ g.accs, ∃ q, p.2 = .here q
  clean : g.poison = 0

/-- The words of a load are on their way (R218): the wave has gone on by 12 bytes, the registers `dst` are empty, the landing
with the words is listed and its message sent; no register value, no predicate, no other wave and no byte has changed. -/
structure LaneLands (s v t : State) (w : Wave) (dst : List Nat) (words : List (Nat × W32)) (side : List (Nat × Byte)) : Prop where
  wave : ∃ w', t.wave? s.focus = some w' ∧ w'.r.s = w.r.s ∧ w'.r.v = w.r.v ∧ w'.r.k = w.r.k ∧ w'.y = w.y ∧
    (∀ n < 1024, emptyV w' n = (emptyV w n || decide (n ∈ dst))) ∧
    (getSplit w' s.split).lpc = (getSplit w s.split).lpc + 12 ∧ (∀ n, n ≠ s.split → getSplit w' n = getSplit w n) ∧
    mfind w'.landings w.nextLanding = some { lanes := words, side := side, regs := dst, fullV := dst }
  sent : Instr.loadResultLand s.focus w.nextLanding ∈ t.agenda
  others : ∀ k, k ≠ s.focus → t.wave? k = v.wave? k
  memory : t.mem = v.mem ∧ ∀ e, t.frames e = v.frames e

/-! ### What an event leaves -/

/-- An event has acted on die d alone: the die is x now; every other die, the waves, teams, launches, clusters, scopes, memory and
the free values used are as before; `sent` has been put on its way and `out` has left. -/
structure DieActs (s t : State) (d : Nat) (x : Die) (sent : List Instr) (out : List Outgoing) : Prop where
  die : t.die d = x
  others : ∀ e, e ≠ d → t.die e = s.die e
  rest : t = { s with
    dies := t.dies
    agenda := s.agenda ++ sent
    outbox := s.outbox ++ out }

/-- Of the control registers of die d the fields in l (offset, highest and lowest bit, value) hold these values now; every field
apart from them is as before (R7). -/
structure Fields (s t : State) (d : Nat) (l : List (Nat × Nat × Nat × Nat)) : Prop where
  now : ∀ p ∈ l, t.ctlBits d p.1 p.2.1 p.2.2.1 = p.2.2.2
  kept : ∀ off h k, k ≤ h → (∀ p ∈ l, p.1 ≠ off ∨ h < p.2.2.1 ∨ p.2.1 < k) → t.ctlBits d off h k = s.ctlBits d off h k

/-- An event that is put on its way unless it is on its way already. -/
def once (s : State) (i : Instr) : List Instr := if s.agenda.contains i then [] else [i]

end Sys2Proof
end

