-- ==== Sys2Proof/Certificates/Slice0/Obligations.lean ====
section
/-! DEFINITION. The statements for the provers. Each docstring says what is stated; the listing beside the package names
the rules of the spec. -/

open Sys2Proof Sys2Proof.Machine

/-- Where nothing stops a scalar instruction and its registers are full, each of the register forms but DIV and REM
completes: s(d) holds the result (s0 discards it), the program counter steps by 4, and every other register, every
other wave and every byte is as before. -/
def Obligations.ScalarRegisterArithmetic : Prop :=
  ∀ (s : State) (w : Wave) (d a b : BitVec 6),
    let runs (i : Instr) (v : W64) : Prop :=
      ScalarAt s w i [d, a, b] → ∃ t, exec i s = .next t ∧ ScalarWrites s t w (some d) v (w.c.pc + 4)
    let x := sreg w a
    let y := sreg w b
    runs (.add d a b) (x + y) ∧ runs (.sub d a b) (x - y) ∧ runs (.and d a b) (x &&& y) ∧ runs (.or d a b) (x ||| y) ∧
    runs (.xor d a b) (x ^^^ y) ∧ runs (.shl d a b) (x <<< (y.toNat % 64)) ∧ runs (.shr d a b) (x >>> (y.toNat % 64)) ∧
    runs (.sar d a b) (x.sshiftRight (y.toNat % 64)) ∧ runs (.mul d a b) (x * y) ∧
    runs (.mulh d a b) (BitVec.ofInt 64 (x.toInt * y.toInt / 2 ^ 64)) ∧
    runs (.min d a b) (if x.toInt < y.toInt then x else y) ∧ runs (.max d a b) (if x.toInt < y.toInt then y else x) ∧
    runs (.slt d a b) (if x.toInt < y.toInt then 1 else 0) ∧ runs (.sltn d a b) (if x.toNat < y.toNat then 1 else 0)

/-- DIV and REM complete for every pair of operands, also for a divisor of 0 (all ones, and the dividend) and for −2^63 by
−1 (−2^63, and 0); otherwise the quotient is truncated toward zero and the remainder is x − q × y. For x = 2^62 and y
= −4 MULH gives all ones and MUL gives 0. -/
def Obligations.DivisionNeverTraps : Prop :=
  ∀ (s : State) (w : Wave) (d a b : BitVec 6),
    let x := sreg w a
    let y := sreg w b
    let minInt : W64 := 0x8000000000000000
    let q : W64 := if y = 0 then BitVec.allOnes 64 else if x = minInt ∧ y = BitVec.allOnes 64 then minInt
      else BitVec.ofInt 64 (x.toInt.tdiv y.toInt)
    let r : W64 := if y = 0 then x else if x = minInt ∧ y = BitVec.allOnes 64 then 0
      else BitVec.ofInt 64 (x.toInt - x.toInt.tdiv y.toInt * y.toInt)
    (ScalarAt s w (.div d a b) [d, a, b] →
      ∃ t, exec (.div d a b) s = .next t ∧ ScalarWrites s t w (some d) q (w.c.pc + 4)) ∧
    (ScalarAt s w (.rem d a b) [d, a, b] →
      ∃ t, exec (.rem d a b) s = .next t ∧ ScalarWrites s t w (some d) r (w.c.pc + 4)) ∧
    (x = 0x4000000000000000 → y = BitVec.ofInt 64 (-4) →
      (ScalarAt s w (.mulh d a b) [d, a, b] → ∃ t, exec (.mulh d a b) s = .next t ∧
        ScalarWrites s t w (some d) 0xFFFFFFFFFFFFFFFF (w.c.pc + 4)) ∧
      (ScalarAt s w (.mul d a b) [d, a, b] → ∃ t, exec (.mul d a b) s = .next t ∧ ScalarWrites s t w (some d) 0 (w.c.pc + 4)))

/-- The immediate forms and the two constant forms complete: the 14-bit immediate is sign-extended, the shifts take a
count of 6 bits, LUI gives sext(imm20) × 2^14 and MOVL the sign-extended literal; the program counter steps by 4, by 8
for MOVL, and nothing else changes. -/
def Obligations.ScalarImmediates : Prop :=
  ∀ (s : State) (w : Wave) (d a n : BitVec 6) (i : BitVec 14) (u : BitVec 20) (lit : W32),
    let runs (i : Instr) (v : W64) : Prop :=
      ScalarAt s w i [d, a] → ∃ t, exec i s = .next t ∧ ScalarWrites s t w (some d) v (w.c.pc + 4)
    let x := sreg w a
    let y := i.signExtend 64
    runs (.addi d a i) (x + y) ∧ runs (.andi d a i) (x &&& y) ∧ runs (.ori d a i) (x ||| y) ∧ runs (.xori d a i) (x ^^^ y) ∧
    runs (.slti d a i) (if x.toInt < y.toInt then 1 else 0) ∧ runs (.shli d a n) (x <<< n.toNat) ∧
    runs (.shri d a n) (x >>> n.toNat) ∧ runs (.sari d a n) (x.sshiftRight n.toNat) ∧
    (ScalarAt s w (.lui d u) [d] → ∃ t, exec (.lui d u) s = .next t ∧
      ScalarWrites s t w (some d) (BitVec.ofInt 64 (u.toInt * 2 ^ 14)) (w.c.pc + 4)) ∧
    (ScalarAt s w (.movl d lit) [d] → ∃ t, exec (.movl d lit) s = .next t ∧
      ScalarWrites s t w (some d) (lit.signExtend 64) (w.c.pc + 8))

/-- Each conditional branch completes: with its condition true the scalar program counter becomes PC + 4 × sext(off14),
otherwise it steps by 4; no register and no byte changes. A branch of s3 and s0 three words back has off14 = 0x3FFD
and is the word 0x48303FFD. -/
def Obligations.ConditionalBranches : Prop :=
  ∀ (s : State) (w : Wave) (a b : BitVec 6) (off : BitVec 14),
    let x := sreg w a
    let y := sreg w b
    let goes (i : Instr) (c : Prop) : Prop := ScalarAt s w i [a, b] → ∃ t, exec i s = .next t ∧
      (c → ScalarWrites s t w none 0 (w.c.pc + 4 * off.signExtend 64)) ∧ (¬ c → ScalarWrites s t w none 0 (w.c.pc + 4))
    goes (.beq a b off) (x = y) ∧ goes (.bne a b off) (x ≠ y) ∧ goes (.blt a b off) (x.toInt < y.toInt) ∧
    goes (.bge a b off) (y.toInt ≤ x.toInt) ∧ goes (.bltn a b off) (x.toNat < y.toNat) ∧
    goes (.bgen a b off) (y.toNat ≤ x.toNat) ∧ decode [0x48303FFD] = some (.bne 3 0 0x3FFD) ∧ (0x3FFD : BitVec 14).toInt = -3

/-- JMP goes to PC + 4 × sext(off26). CALL also sets s63 := PC + 4. JR goes to s(a) when its bits 1:0 are zero. Otherwise
JR enters the trap handler of a wave that has one and is not in it: cause 0x05 with SCALAR set, sys.tspc the JR,
sys.taddr := s(a), sys.tfmask 0, the counter at sys.tvec, and no register changed. When the fetch at the new counter
finds no page with SX, the wave parks at the fetch. -/
def Obligations.Jumps : Prop :=
  ∀ (s : State) (w : Wave) (a : BitVec 6) (off : BitVec 26),
    (ScalarAt s w (.jmp off) [] → ∃ t, exec (.jmp off) s = .next t ∧
      ScalarWrites s t w none 0 (w.c.pc + 4 * off.signExtend 64)) ∧
    (ScalarAt s w (.call off) [63] → ∃ t, exec (.call off) s = .next t ∧
      ScalarWrites s t w (some 63) (w.c.pc + 4) (w.c.pc + 4 * off.signExtend 64)) ∧
    (ScalarAt s w (.jr a) [a] → (sreg w a).toNat % 4 = 0 → ∃ t, exec (.jr a) s = .next t ∧
      ScalarWrites s t w none 0 (sreg w a)) ∧
    (ScalarAt s w (.jr a) [a] → (sreg w a).toNat % 4 ≠ 0 → ∃ t, exec (.jr a) s = .next t ∧
      ScalarTraps s t w (.jr a) 0x05 (sreg w a)) ∧
    (∀ reason, let v := tick s
      s.agenda = [] → v.wave? v.focus = some w → v.lane = false → focusReady v w = true → (waveIssues v w && asyncDue w) = false →
        fetchWord v w w.c.pc 3 = .page reason →
          step s = .next (afterIssue (parkWave v false true 8 [⟨0, w.c.pc, some reason, false⟩] 0 0 [] []) false))

/-- Where the access meets storage, SLD of 2^w2 bytes and SLDA of 8 bytes complete (SLDA of a scope that acts at the homes
after a read copy of its tile is no longer taken for current): s(d) is empty until the value lands and then holds the
bytes at the address, the lowest first and zero-extended; the program counter steps by 4, the other registers keep
their values, and the load leaves every memory cell and every byte of a frame as the fill has left it. -/
def Obligations.ScalarLoads : Prop :=
  ∀ (s u : State) (w : Wave) (p : Placed) (d a : BitVec 6) (w2 : BitVec 2) (sc : BitVec 3) (o12 : BitVec 12) (o11 : BitVec 11),
    let loads (i : Instr) (r : State) (va : W64) (n : Nat) : Prop :=
      ScalarAt s w i [a, d] → Reaches r w .load va n p u →
        ∃ t, exec i s = .next t ∧
          ScalarLands t s.focus w d (BitVec.ofNat 64 (leNat (loadBytes u (waveWho s w).d p 0 n))) (w.c.pc + 4) ∧
          StoreFrame u t 0 0 0 []
    loads (.sld d a w2 o12) s (sreg w a + o12.signExtend 64) (2 ^ w2.toNat) ∧
    (let va := sreg w a + o11.signExtend 64
     loads (.slda d a sc o11) (refetchAt s w sc.toNat va none) va 8)

/-- Where the access meets storage whose tile is causal and homed on the die, and no release has to wait, SST of 2^w2
bytes and SSTR of 8 bytes complete: the tile holds the low bytes of s(d) from the addressed offset on, and every cell
and every byte of a frame outside the n bytes stored is as the fill has left it (replicas hold the same bytes at the
same offset); the program counter steps by 4 and no register changes. -/
def Obligations.ScalarStores : Prop :=
  ∀ (s u : State) (w : Wave) (p : Placed) (d a : BitVec 6) (w2 : BitVec 2) (sc : BitVec 3) (o12 : BitVec 12) (o11 : BitVec 11),
    let stores (i : Instr) (va : W64) (n : Nat) : Prop :=
      ScalarAt s w i [a, d] → Reaches s w .store va n p u → p.req.home.val = (waveWho s w).d → p.req.pcoh = false →
      InTile p n →
        let lo := p.pa - p.req.base
        let cell := cellOf u p.req.base
        ∃ t, exec i s = .next t ∧
          Stored u t p.req.home.val p.req.base cell lo (leBytes n (sreg w d).toNat) ∧
          StoreFrame u t p.req.base lo n (cell :: replicaCells p.req.home.val cell p.req.repl) ∧
          (memoryWf u.mem = true → memoryWf t.mem = true) ∧
          ∃ w', t.wave? s.focus = some w' ∧ w'.c.pc = w.c.pc + 4 ∧ w'.r.s = w.r.s ∧ w'.r.v = w.r.v ∧ w'.r.k = w.r.k ∧
            w'.y = w.y ∧ ∀ k, k ≠ s.focus → t.wave? k = u.wave? k
    stores (.sst d a w2 o12) (sreg w a + o12.signExtend 64) (2 ^ w2.toNat) ∧
    (releaseWaits s w sc.toNat = false → stores (.sstr d a sc o11) (sreg w a + o11.signExtend 64) 8)

/-- Where the access meets storage of a causal tile homed on the die, no release has to wait and the atomic-order log
admits it (state v), each SAMO completes: s(d) is empty until the old value lands in it; the tile holds old + s(b),
the AND, OR or XOR, the signed minimum or maximum, s(b), or for CAS s(b) if old = s(d), and else what it held; every
cell and byte of a frame outside the 8 bytes is as before (replicas take the same bytes). -/
def Obligations.ScalarAtomics : Prop :=
  ∀ (s u v : State) (w : Wave) (p : Placed) (d a b : BitVec 6) (sc : BitVec 3) (o : BitVec 2),
    let who := waveWho s w
    let x := bounce v who.d who.cluster p.req.tile
    let old : W64 := BitVec.ofNat 64 (leNat (loadBytes x who.d p 0 8))
    let y := sreg w b
    let lo := p.pa - p.req.base
    let cell := cellOf x p.req.base
    let atom (i : Instr) (new : Option W64) : Prop :=
      ScalarAt s w i [a, b, d] → Reaches s w .atomic (sreg w a) 8 p u → p.req.home.val = who.d → p.req.pcoh = false →
      InTile p 8 → (o = 2 → releaseWaits s w sc.toNat = false) →
      aolAdmit (arrived u w who (sreg w a) 2 .atomic p) who.d p.req.tile w.launch w.team w.idx = some v →
        ∃ t, exec i s = .next t ∧ ScalarLands t s.focus w d old (w.c.pc + 4) ∧
          (∀ n, new = some n → Stored x t who.d p.req.base cell lo (leBytes 8 n.toNat)) ∧
          StoreFrame x t p.req.base lo (if new = none then 0 else 8) (cell :: replicaCells who.d cell p.req.repl)
    atom (.samoAdd d a b sc o) (some (old + y)) ∧ atom (.samoAnd d a b sc o) (some (old &&& y)) ∧
    atom (.samoOr d a b sc o) (some (old ||| y)) ∧ atom (.samoXor d a b sc o) (some (old ^^^ y)) ∧
    atom (.samoMin d a b sc o) (some (if y.toInt < old.toInt then y else old)) ∧
    atom (.samoMax d a b sc o) (some (if old.toInt < y.toInt then y else old)) ∧
    atom (.samoSwap d a b sc o) (some y) ∧ atom (.samoCas d a b sc o) (if old = sreg w d then some y else none)

/-- LBLK with a literal that is a multiple of 4 and a free entry completes: s(d) is empty (unless d is 0), the entry holds
the parameters s(a) upward, the offset, the count and the result register, and starts if it is the first of its queue.
A misaligned literal traps with cause 0x05. With the queue drained LDRAIN only steps, STREL clears BOUND and the
prefetches, and STBIND binds q(n) to the 32 bytes it reads, or traps with cause 0x0B if a reserved field is not zero. -/
def Obligations.LaneBlockIssue : Prop :=
  ∀ (s u : State) (w : Wave) (p : Placed) (d a : BitVec 6) (count : BitVec 4) (rep : BitVec 10) (lit : W32) (q : BitVec 3)
    (i14 : BitVec 14) (e : Nat),
    let pars := (List.range count.toNat).map fun k => a + BitVec.ofNat 6 k
    let entry : QEntry := { bp := (List.range count.toNat).foldl (fun m k => mput 0 m k (sreg w (a + BitVec.ofNat 6 k))) [], off := lit, rep := rep, res := d,
                            npar := count, valid := true }
    let at' := sreg w a + i14.signExtend 64
    let bytes := loadBytes u (waveWho s w).d p 0 32
    (ScalarAt s w (.lblk d a count rep lit) (d :: pars) →
      (lit.toNat % 4 = 0 → freeEntry w = some e → ∃ t, exec (.lblk d a count rep lit) s = .next t ∧
        t = s.setWave s.focus (stepped (enqueue (setEmptyS w d) e entry) 8) ∧
        ∀ r, emptyS (enqueue (setEmptyS w d) e entry) r = (emptyS w r || decide (r = d ∧ d ≠ 0))) ∧
      (lit.toNat % 4 ≠ 0 → ∃ t, exec (.lblk d a count rep lit) s = .next t ∧
        ScalarTraps s t w (.lblk d a count rep lit) 0x05 (w.y.lanebase + lit.zeroExtend 64))) ∧
    (drained w = true → ScalarAt s w .ldrain [] → ∃ t, exec .ldrain s = .next t ∧ ScalarWrites s t w none 0 (w.c.pc + 4)) ∧
    (drained w = true → ScalarAt s w (.strel q) [] → ∃ t, exec (.strel q) s = .next t ∧
      t = s.setWave s.focus (stepped (setStream w q.toNat { getStream w q.toNat with bound := false, pre := [] }) 4)) ∧
    (drained w = true → ScalarAt s w (.stbind q a i14) [a] → Reaches s w .load at' 32 p u →
      (∀ x, streamOf bytes = some x → ∃ t, exec (.stbind q a i14) s = .next t ∧
        t = (arrived u w (waveWho s w) at' 3 .load p).setWave s.focus (stepped (setStream w q.toNat x) 4) ∧
        getStream (setStream w q.toNat x) q.toNat = x) ∧
      (streamOf bytes = none → ∃ t, exec (.stbind q a i14) s = .next t ∧
        ScalarTraps (arrived u w (waveWho s w) at' 3 .load p) t w (.stbind q a i14) 0x0B 0))

/-- BCLOSE completes: sys.batch and s(d) become sys.batch + 1 (s0 discards), no copy is pending any more, and sys.bdone
advances over the batches that are complete. BWAIT completes when sys.bdone is at least the smaller of s(a) and
sys.batch, and only steps; otherwise the wave waits, its counter unchanged. -/
def Obligations.CopyBatches : Prop :=
  ∀ (s : State) (w : Wave) (d a : BitVec 6),
    (ScalarAt s w (.bclose d) [d] → ∃ t w', exec (.bclose d) s = .next t ∧ t = s.setWave s.focus w' ∧
      w'.y.batch = w.y.batch + 1 ∧ w'.pendCopies = [] ∧ (∀ r, sreg w' r = if r = d ∧ r ≠ 0 then w.y.batch + 1 else sreg w r) ∧
      w'.y.bdone = (settleBatches { w with batches := w.batches ++ [(w.y.batch + 1, w.pendCopies)] }).y.bdone ∧
      w'.c = (stepped w 4).c ∧ w'.r = { w.r with s := w'.r.s } ∧
      w'.y = { w.y with batch := w'.y.batch, bdone := w'.y.bdone }) ∧
    (ScalarAt s w (.bwait a) [a] →
      (min (sreg w a).toNat w.y.batch.toNat ≤ w.y.bdone.toNat → ∃ t, exec (.bwait a) s = .next t ∧
        ScalarWrites s t w none 0 (w.c.pc + 4)) ∧
      (w.y.bdone.toNat < min (sreg w a).toNat w.y.batch.toNat →
        exec (.bwait a) s = .next (s.setWave s.focus { w with stallS := true })))

/-- BARARR on a barrier without lane arrivals opens it with the mask s(a) bits 15:0 if it is closed; where no release has
to wait and the mask agrees, names the wave and the wave has not arrived, its bit is set. BAREXP adds s(a) to the
pending bytes. After either, an open barrier with all arrivals and no pending byte flips its phase and closes. On a
mismatch the wave traps with cause 0x07. BARWAIT only steps (its prefetches are dropped) when the phase equals s(a)
bit 0. No register and no byte changes. -/
def Obligations.TeamBarriers : Prop :=
  ∀ (s : State) (w : Wave) (b a : BitVec 6),
    let team := teamKey w.launch w.team
    let x := getBar s team b.toNat
    let m : W16 := (sreg w a).extractLsb' 0 16
    let y : Barrier := if x.opened then x else { x with members := m, opened := true }
    let z : Barrier := { y with arrived := y.arrived ||| BitVec.twoPow 16 w.idx }
    let e : Barrier := { x with pending := x.pending + sreg w a }
    let flip (x : Barrier) : Barrier :=
      if x.opened ∧ popcount x.arrived = popcount x.members ∧ x.pending = 0 then
        { x with phase := !x.phase, arrived := 0, opened := false, members := 0, lane := false, remain := 0 } else x
    let done (i : Instr) (x : Barrier) : Prop := ∃ t, exec i s = .next t ∧
      t = (setBar s team b.toNat x).setWave s.focus (stepped w 4) ∧ getBar t team b.toNat = x ∧
      (∀ c, c ≠ b.toNat → getBar t team c = getBar s team c) ∧ ∀ die k, t.peek die k = s.peek die k
    x.lane = false → s.team? team ≠ none →
    (ScalarAt s w (.bararr b a) [a] → releaseWaits s w 2 = false → m = y.members → m.getLsbD w.idx = true → y.arrived.getLsbD w.idx = false →
      done (.bararr b a) (flip z)) ∧
    (ScalarAt s w (.bararr b a) [a] → releaseWaits s w 2 = false → m ≠ y.members ∨ m.getLsbD w.idx = false ∨ y.arrived.getLsbD w.idx = true →
      w.c.intrap = false → w.y.tvec ≠ 0 → ∃ t, exec (.bararr b a) s = .next t ∧ ∃ w', t.wave? s.focus = some w' ∧
        w'.c.intrap = true ∧ w'.c.pc = w.y.tvec ∧ w'.y.tcause = 0x107 ∧ w'.y.tspc = w.c.pc ∧ w'.y.taddr = b.zeroExtend 64) ∧
    (ScalarAt s w (.barexp b a) [a] → done (.barexp b a) (flip e)) ∧
    (ScalarAt s w (.barwait b a) [a] → x.phase = (sreg w a).getLsbD 0 →
      ∃ t, exec (.barwait b a) s = .next t ∧ t = s.setWave s.focus (stepped (dropPrefetch w) 4)) ∧
    (ScalarAt s w (.barwait b a) [a] → x.phase ≠ (sreg w a).getLsbD 0 →
      exec (.barwait b a) s = .next (s.setWave s.focus { w with stallS := true }))

/-- FENCE of a scope and RECFENCE (system scope) complete when no remote write or atomic of the die is outstanding at
their level: the stream prefetches are dropped and nothing else changes. SCOPESET sets sm(n) of the process on the die
to s(a + 7) ‖ … ‖ s(a), leaves every other sm and steps. -/
def Obligations.FencesAndScopes : Prop :=
  ∀ (s : State) (w : Wave) (sc : BitVec 5) (a : BitVec 6) (n : BitVec 4),
    let who := waveWho s w
    let key := (who.pid.toNat * 8 + who.d) * 16 + n.toNat
    let regs := (List.range 8).map fun k => a + BitVec.ofNat 6 k
    (ScalarAt s w (.fence sc) [] → releaseWaits s w sc.toNat = false →
      ∃ t, exec (.fence sc) s = .next t ∧ t = s.setWave s.focus (stepped (dropPrefetch w) 4)) ∧
    (ScalarAt s w .recfence [] → releaseWaits s w 5 = false →
      ∃ t, exec .recfence s = .next t ∧ t = s.setWave s.focus (stepped (dropPrefetch w) 4)) ∧
    (ScalarAt s w (.scopeset a n) regs → ∃ t, exec (.scopeset a n) s = .next t ∧
      (∀ k < 8, (mget 0 t.sm key).extractLsb' (64 * k) 64 = sreg w (a + BitVec.ofNat 6 k)) ∧
      (∀ k, k ≠ key → mget 0 t.sm k = mget 0 s.sm k) ∧ t = { s.setWave s.focus (stepped w 4) with sm := t.sm })

/-- For each address that the table lists, CSRR completes with the register in s(d) and changes nothing else: waveid with
the feed bit, team, launch, cycle, time, image base, window, priority and the RW registers. An address of 0x800 or
above traps with cause 0x02, another that is not listed with cause 0x01. -/
def Obligations.SystemRegisterReads : Prop :=
  ∀ (s : State) (w : Wave) (d : BitVec 6) (addr : BitVec 12),
    let who := waveWho s w
    let regs : List (Nat × W64) :=
      [(0x000, BitVec.ofNat 64 (w.idx + if w.feed then 16 else 0)), (0x001, BitVec.ofNat 64 w.team), (0x002, BitVec.ofNat 64 w.launch),
       (0x004, BitVec.ofNat 64 (cycleAt (clusterKey who.d who.cluster) s.ticks)), (0x005, BitVec.ofNat 64 s.time),
       (0x010, w.ctxbase), (0x011, BitVec.ofNat 64 w.winsize), (0x012, BitVec.ofNat 64 w.prio), (0x013, w.y.lanebase),
       (0x020, w.y.tvec), (0x021, w.y.tcause), (0x022, w.y.tspc), (0x023, w.y.tlpc), (0x024, w.y.tamask.zeroExtend 64),
       (0x025, w.y.tfmask.zeroExtend 64), (0x026, (w.y.tinst.extractLsb' 0 32).zeroExtend 64),
       (0x027, (w.y.tinst.extractLsb' 32 32).zeroExtend 64), (0x028, (w.y.tinst.extractLsb' 64 32).zeroExtend 64),
       (0x029, w.y.taddr), (0x02A, w.y.tsplit.zeroExtend 64), (0x030, w.y.rngkey0), (0x031, w.y.rngkey1),
       (0x040, w.y.pacc.zeroExtend 64), (0x041, w.y.pprop.zeroExtend 64), (0x050, w.y.batch), (0x051, w.y.bdone), (0x060, w.y.fpmode)]
    ScalarAt s w (.csrr d addr) [d] →
      (∀ v, (addr.toNat, v) ∈ regs → ∃ t, exec (.csrr d addr) s = .next t ∧ ScalarWrites s t w (some d) v (w.c.pc + 4)) ∧
      (addr.toNat ∉ regs.map Prod.fst → ∃ t, exec (.csrr d addr) s = .next t ∧
        if 0x800 ≤ addr.toNat then ScalarTraps s t w (.csrr d addr) 0x02 (addr.zeroExtend 64)
        else ScalarTraps s t w (.csrr d addr) 0x01 0)

/-- For each RW register CSRW completes (six of them once the lane queue is drained) with the bits of s(a) that the
register has, every other system register unchanged; it changes no general register and no byte. An RO or unlisted
address traps with cause 0x01, an address of 0x800 or above with cause 0x02. -/
def Obligations.SystemRegisterWrites : Prop :=
  ∀ (s : State) (w : Wave) (a : BitVec 6) (addr : BitVec 12),
    let v := sreg w a
    let lo : W32 := v.extractLsb' 0 32
    let y := w.y
    let ti (k : Nat) : BitVec 96 :=
      (if k = 2 then lo else y.tinst.extractLsb' 64 32) ++ (if k = 1 then lo else y.tinst.extractLsb' 32 32) ++
        (if k = 0 then lo else y.tinst.extractLsb' 0 32)
    let now : List (Nat × WaveSys) :=
      [(0x020, { y with tvec := v }), (0x021, { y with tcause := v &&& 0xFFFFFFFF0000F3FF }), (0x022, { y with tspc := v }),
       (0x023, { y with tlpc := v }), (0x024, { y with tamask := lo }), (0x025, { y with tfmask := lo }),
       (0x026, { y with tinst := ti 0 }), (0x027, { y with tinst := ti 1 }), (0x028, { y with tinst := ti 2 }),
       (0x029, { y with taddr := v })]
    let after : List (Nat × WaveSys) :=
      [(0x013, { y with lanebase := v }), (0x030, { y with rngkey0 := v }), (0x031, { y with rngkey1 := v }),
       (0x040, { y with pacc := lo }), (0x041, { y with pprop := lo }), (0x060, { y with fpmode := v &&& 0xF })]
    ScalarAt s w (.csrw a addr) [a] →
      (∀ y', (addr.toNat, y') ∈ now ∨ (addr.toNat, y') ∈ after ∧ drained w = true →
        ∃ t, exec (.csrw a addr) s = .next t ∧ t = s.setWave s.focus (stepped { w with y := y' } 4) ∧
          ∀ die k, t.peek die k = s.peek die k) ∧
      (addr.toNat ∉ (now ++ after).map Prod.fst → ∃ t, exec (.csrw a addr) s = .next t ∧
        if 0x800 ≤ addr.toNat then ScalarTraps s t w (.csrw a addr) 0x02 (addr.zeroExtend 64)
        else ScalarTraps s t w (.csrw a addr) 0x01 0)

/-- YIELD steps and marks the wave as yielding for 16 machine steps (the model counts a cycle of the quadrant as one step,
log entry 20), NOP only steps, UDF traps with cause 0x01 for every value of bits 25:0, BRK with cause 0x0D and
sys.taddr its own address, a reserved opcode with cause 0x01. EXIT with nothing outstanding ends the wave and closes
its proposal; if every other wave of the team has ended, the team ends with STATUS 1 and gives up its banks, barriers
and accumulators, else no other wave and no team changes. No byte of memory changes, unless a frame that an entry of
the team has pinned is now free to leave. -/
def Obligations.YieldNopUdfAndExit : Prop :=
  ∀ (s : State) (w : Wave) (u : BitVec 26) (code : BitVec 20) (word : W32),
    let team := teamKey w.launch w.team
    let last := (teamWaves (s.setWave s.focus (endWave w)) team).all fun p => p.2.ended
    (ScalarAt s w .yield [] → ∃ t, exec .yield s = .next t ∧ t = s.setWave s.focus (stepped { w with yielding := 16 } 4) ∧
      ∀ die k, t.peek die k = s.peek die k) ∧
    (ScalarAt s w .nop [] → ∃ t, exec .nop s = .next t ∧ ScalarWrites s t w none 0 (w.c.pc + 4)) ∧
    (ScalarAt s w (.udf u) [] → ∃ t, exec (.udf u) s = .next t ∧ ScalarTraps s t w (.udf u) 0x01 0) ∧
    (ScalarAt s w (.brk code) [] → ∃ t, exec (.brk code) s = .next t ∧ ScalarTraps s t w (.brk code) 0x0D w.c.pc) ∧
    (ScalarAt s w (.scalarReservedOpcode word) [] → ∃ t, exec (.scalarReservedOpcode word) s = .next t ∧
      ScalarTraps s t w (.scalarReservedOpcode word) 0x01 0) ∧
    (ScalarAt s w .exit [] → drained w = true → w.landings = [] → pendingOf s (waveWho s w).d s.focus = false →
      ∃ t, exec .exit s = .next t ∧
        (last = false ∨ (∀ e ∈ (s.cluster (clusterKey (waveWho s w).d (waveWho s w).cluster)).seq, e.wave / 16 = team → e.pinned = []) →
          (∀ c, t.cellByte c = s.cellByte c) ∧ ∀ die b k, frameBytes t die b k = frameBytes s die b k) ∧
        (∃ w', t.wave? s.focus = some w' ∧ w'.ended = true ∧ w'.running = false ∧ w'.c.popen = false) ∧
        (last = true → ∀ x, s.team? team = some x → x.phase ≠ .ended → x.phase ≠ .done →
          ∃ x', t.team? team = some x' ∧ x'.phase = .ended ∧ x'.status = 1 ∧ x'.banks = [] ∧ x'.bars = [] ∧ x'.acc = []) ∧
        (last = false → (∀ k, k ≠ s.focus → t.wave? k = s.wave? k) ∧ t.teams = s.teams))

/-- With the queue drained, nothing in flight and no release waiting SYSCALL writes the register cache back and waits for
the writes. Then it raises a fault-ring record (the name of the wave, the service number, mask and reason 0, access
12) and waits for the answer; its counter and registers stay. Answered with ACT 1 it goes on at the next instruction,
no register empty; answered with ACT 2 it traps with cause 0x0A and the service number in sys.taddr. -/
def Obligations.ServiceCalls : Prop :=
  ∀ (s : State) (w : Wave) (n : BitVec 20),
    let others (t : State) : Prop := ∀ k, k ≠ s.focus → t.wave? k = s.wave? k
    (ScalarAt s w (.syscall n) [] → w.wait = .none → drained w = true → w.landings = [] → releaseWaits s w 5 = false →
      ∃ t, exec (.syscall n) s = .next t ∧ t.wave? s.focus = some { w with wait := .synced } ∧ others t) ∧
    (s.wave? s.focus = some w → w.wait = .synced →
      ∃ t fid, exec (.syscall n) s = .next t ∧ t.wave? s.focus = some { w with wait := .syscall fid } ∧ others t ∧
        ∃ f ∈ (t.die (waveWho s w).d).tr.faults, f.fid = fid ∧ f.owner = .wave s.focus ∧
          f.record = faultBytes (waveName s w 7 none) n.toNat 0 0 12 fid) ∧
    (s.wave? s.focus = some w → w.wait = .served true → ∃ t w', exec (.syscall n) s = .next t ∧ t.wave? s.focus = some w' ∧
      others t ∧ w'.c.pc = w.c.pc + 4 ∧ w'.wait = .none ∧ (∀ r, emptyS w' r = false) ∧ w'.r.vEmpty = 0 ∧ w'.r.k = w.r.k ∧ w'.y = w.y) ∧
    (s.wave? s.focus = some w → w.wait = .served false → ∃ t, exec (.syscall n) s = .next t ∧
      ScalarTraps (s.setWave s.focus { w with wait := .none }) t { w with wait := .none } (.syscall n) 0x0A (n.zeroExtend 64))

/-- In a handler whose own block has ended TRAPRET clears INTRAP, sets the counter to sys.tspc and ends the suppression of
the handler's two streams. With sys.tsplit naming no split (7) nothing else changes. With a split n, sys.tlpc −
sys.lanebase a multiple of 4 below 2^32 − 3 and a lane left, the split takes sys.tamask without the lanes of the other
splits and that offset, and the unfinished lanes that are its own are those of the mask, or none if the offset is
another; registers and system registers stay. Outside a handler, or with another sys.tlpc, TRAPRET traps with cause
0x01. -/
def Obligations.ReturnFromTrap : Prop :=
  ∀ (s : State) (w : Wave),
    let n := w.y.tsplit.toNat % 8
    let off := w.y.tlpc - w.y.lanebase
    let others := ([0, 1, 2, 3].filter fun m => m ≠ n && (getSplit w m).valid).foldl
      (fun (a : W32) m => a ||| (getSplit w m).mask) 0
    let mask := w.y.tamask &&& ~~~others
    ScalarAt s w .trapret [] →
      (w.c.intrap = false → ∃ t, exec .trapret s = .next t ∧ ScalarTraps s t w .trapret 0x01 0) ∧
      (w.c.intrap = true → w.c.hq = false →
        (n = 7 → ∃ t, exec .trapret s = .next t ∧
          t = s.setWave s.focus { w with c := { w.c with intrap := false, pc := w.y.tspc, bksup := w.c.bksup &&& 0x8F } }) ∧
        (n ≠ 7 → off.toNat % 4 = 0 → off.toNat ≤ 2 ^ 32 - 4 → mask ≠ 0 →
          ∃ t w', exec .trapret s = .next t ∧ t = s.setWave s.focus w' ∧ w'.c.intrap = false ∧ w'.c.pc = w.y.tspc ∧
            getSplit w' n = { getSplit w n with mask := mask, lpc := off.setWidth 32 } ∧
            w'.c.unfin = (if w.unfinSplit = n then (if off.toNat = (getSplit w n).lpc.toNat then w.c.unfin else 0) &&& mask else w.c.unfin) ∧
            (∀ m, m ≠ n → getSplit w' m = getSplit w m) ∧ w'.r = w.r ∧ w'.y = w.y) ∧
        (n ≠ 7 → off.toNat % 4 ≠ 0 ∨ 2 ^ 32 - 4 < off.toNat → ∃ t, exec .trapret s = .next t ∧
          ScalarTraps s t w .trapret 0x01 0))

/-- LAUNCH with a bad handle gives code 2. With a handle of a die in the view of this package and the packet read it sends
a launch request to the die of the handle and waits; once the code is known it completes with s(d) := code. WAITEV
completes when bytes 3:0 at s(a) equal s(b) bits 31:0, with s(d) := bytes 5:4, and otherwise waits. -/
def Obligations.LaunchesAndEvents : Prop :=
  ∀ (s u : State) (w : Wave) (p : Placed) (d a b : BitVec 6) (code : W64),
    let who := waveWho s w
    let h := (sreg w a).toNat
    let die := bitsOf h 28 20
    let dest : DieId := Fin.ofNat 8 (bitsOf h 22 20)
    let event := loadBytes u who.d p 0 16
    (ScalarAt s w (.launch d a b) [a, b, d] → (∀ c, w.wait ≠ .launched c) → (sreg w b).toNat % 128 = 0 →
      (h / 2 ^ 29 ≠ 0 ∨ (s.die who.d).image.view.getLsbD die = false → ∃ t, exec (.launch d a b) s = .next t ∧
        ScalarWrites s t w (some d) 2 (w.c.pc + 4)) ∧
      (h / 2 ^ 29 = 0 → (s.die who.d).image.view.getLsbD die = true → bitsOf h 28 23 = s.pkg → releaseWaits s w 5 = false →
        Reaches s w .load (sreg w b) 128 p u → (arrived u w who (sreg w b) 3 .load p).pkg = s.pkg →
          ∃ t q, exec (.launch d a b) s = .next t ∧ Instr.launchRequestReceive dest q ∈ t.agenda ∧ q.wave = s.focus ∧ q.pid = who.pid ∧
            q.queue = BitVec.ofNat 20 h ∧ q.packet = BitVec.ofNat 1024 (leNat (loadBytes u who.d p 0 128)) ∧
            t.wave? s.focus = some { w with wait := .launch w.nextLanding })) ∧
    (s.wave? s.focus = some w → w.wait = .launched code → ∃ t, exec (.launch d a b) s = .next t ∧
      ScalarWrites s t { w with wait := .none } (some d) code (w.c.pc + 4)) ∧
    (ScalarAt s w (.waitev d a b) [a, b, d] → Reaches (refetchAt s w 5 (sreg w a) none) w .load (sreg w a) 16 p u →
      (leNat (event.take 4) = (sreg w b).toNat % 2 ^ 32 → ∃ t, exec (.waitev d a b) s = .next t ∧
        t = (arrived u w who (sreg w a) 3 .load p).setWave s.focus
          (stepped (dropPrefetch (setS w d (BitVec.ofNat 64 (leNat ((event.drop 4).take 2))))) 4)) ∧
      (leNat (event.take 4) ≠ (sreg w b).toNat % 2 ^ 32 → exec (.waitev d a b) s =
        .next ((arrived u w who (sreg w a) 3 .load p).setWave s.focus { w with stallS := true })))

/-- With the queue drained RECLOAD of a slot that was never bound traps with cause 0x0B and sys.taddr 0. For a bound slot
whose two halves of 64 bytes can be read, the slot takes the 128 bytes if the record passes its checks and steps; if
not, it traps with cause 0x0B and the address of the record, and the slot keeps its copy. -/
def Obligations.RecordReload : Prop :=
  ∀ (s u v : State) (w : Wave) (p q : Placed) (slot : BitVec 4) (r : Record),
    let who := waveWho s w
    let s1 := arrived u w who r.addr 3 .load p
    let s2 := arrived v w (waveWho s1 w) (r.addr + 64) 3 .load q
    let r' := recordAt r.addr (loadBytes u who.d p 0 64 ++ loadBytes v (waveWho s1 w).d q 0 64)
    ScalarAt s w (.recload slot) [] → drained w = true →
      (slotOf s w slot.toNat = none → ∃ t, exec (.recload slot) s = .next t ∧ ScalarTraps s t w (.recload slot) 0x0B 0) ∧
      (slotOf s w slot.toNat = some r → Reaches s w .load r.addr 64 p u → Quiet s1 w → Reaches s1 w .load (r.addr + 64) 64 q v →
        (r'.ok = true → r'.entryOk s2 (waveWho s2 w).pid = true → ∃ t, exec (.recload slot) s = .next t ∧
          t = (setSlot s2 w slot.toNat r').setWave s.focus (stepped w 4)) ∧
        (r'.ok = false ∨ r'.entryOk s2 (waveWho s2 w).pid = false → ∃ t, exec (.recload slot) s = .next t ∧
          ScalarTraps s2 t w (.recload slot) 0x0B r.addr))

/-- In each execute lane the destination takes the exact integer of the operation on the sources read in the type (S32
signed, U32 unsigned, S64, U64), wrapped to the width, or clamped to the type under SAT for IADD, ISUB, IMAD and DOT4;
IDIV truncates and gives all ones for a divisor of 0; IMULH gives the high half; DOT4 adds the four products of bytes
to C. Other lanes, registers, predicates, waves and all bytes stay. -/
def Obligations.LaneIntegers : Prop :=
  ∀ (s : State) (w : Wave) (f : LaneFields) (E : W32),
    let S (op : Nat) (srcs : List (Src × Bool)) : Shape := { op := op, f := f, srcs := srcs, dst := pairOf f.wide f.dest.toNat }
    let a : Src × Bool := (f.a, f.wide)
    let b : Src × Bool := (f.b, f.wide)
    let c : Src × Bool := (f.c, f.wide)
    let bits : Nat := if f.ty = 6 ∨ f.ty = 7 then 64 else 32
    let signed : Bool := f.ty = 0 ∨ f.ty = 6
    let int (v : W64) : Int :=
      if bits = 64 then (if signed then v.toInt else v.toNat) else if signed then (v.extractLsb' 0 32).toInt else (v.toNat % 2 ^ 32 : Nat)
    let lo : Int := if signed then -(2 ^ (bits - 1)) else 0
    let hi : Int := if signed then 2 ^ (bits - 1) - 1 else 2 ^ bits - 1
    let clamp (sat : Bool) (z : Int) : Int := if sat then max lo (min hi z) else z
    let x (L : Nat) : Int := int (source s w f f.a f.wide L)
    let y (L : Nat) : Int := int (source s w f f.b f.wide L)
    let z (L : Nat) : Int := int (source s w f f.c f.wide L)
    let sat : Bool := f.xf 0 0 = 1
    let byte (v : W64) (n : Nat) : Int :=
      if signed then (v.extractLsb' (8 * n) 8).toInt else ((v.extractLsb' (8 * n) 8).toNat : Int)
    let dot (L : Nat) : Int := ((List.range 4).map fun n => byte (source s w f f.a false L) n * byte (source s w f f.b false L) n).sum
    let runs (i : Instr) (op : Nat) (srcs : List (Src × Bool)) (val : Nat → Int) : Prop :=
      LaneAt s w i (S op srcs) E → ∃ t, exec i s = .next t ∧
        LaneWrites s t w srcs E f.wide f.dest.toNat fun L => BitVec.ofInt 64 (val L)
    runs (.iadd f) 0x01 [a, b] (fun L => clamp sat (x L + y L)) ∧ runs (.isub f) 0x02 [a, b] (fun L => clamp sat (x L - y L)) ∧
    runs (.imul f) 0x03 [a, b] (fun L => x L * y L) ∧ runs (.imad f) 0x04 [a, b, c] (fun L => clamp sat (x L * y L + z L)) ∧
    runs (.imulh f) 0x05 [a, b] (fun L => x L * y L / 2 ^ bits) ∧
    runs (.idiv f) 0x06 [a, b] (fun L => if y L = 0 then -1 else (x L).tdiv (y L)) ∧
    runs (.imin f) 0x07 [a, b] (fun L => min (x L) (y L)) ∧ runs (.imax f) 0x08 [a, b] (fun L => max (x L) (y L)) ∧
    (f.wide = false → runs (.dot4 f) 0x22 [a, b, c] (fun L => clamp sat (z L + dot L)))

/-- In each execute lane the destination takes the bitwise result, A shifted by B modulo the width (copies of the sign for
LSAR), the number of ones or of leading zeros of A, or for SEL the source A where the select predicate holds (inverted
by X bit 3) and B elsewhere. Everything else stays. -/
def Obligations.LaneBits : Prop :=
  ∀ (s : State) (w : Wave) (f : LaneFields) (E : W32),
    let S (op : Nat) (srcs : List (Src × Bool)) : Shape := { op := op, f := f, srcs := srcs, dst := pairOf f.wide f.dest.toNat }
    let a : Src × Bool := (f.a, f.wide)
    let b : Src × Bool := (f.b, f.wide)
    let bits : Nat := if f.ty = 6 ∨ f.ty = 7 then 64 else 32
    let x (L : Nat) : W64 := source s w f f.a f.wide L
    let y (L : Nat) : W64 := source s w f f.b f.wide L
    let n (L : Nat) : Nat := (y L).toNat % bits
    let runs (i : Instr) (op : Nat) (srcs : List (Src × Bool)) (val : Nat → W64) : Prop :=
      LaneAt s w i (S op srcs) E → ∃ t, exec i s = .next t ∧ LaneWrites s t w srcs E f.wide f.dest.toNat val
    runs (.land f) 0x09 [a, b] (fun L => x L &&& y L) ∧ runs (.lor f) 0x0A [a, b] (fun L => x L ||| y L) ∧
    runs (.lxor f) 0x0B [a, b] (fun L => x L ^^^ y L) ∧ runs (.lshl f) 0x0C [a, b] (fun L => x L <<< n L) ∧
    runs (.lshr f) 0x0D [a, b] (fun L => x L >>> n L) ∧
    runs (.lsar f) 0x0E [a, b] (fun L => BitVec.ofInt 64 (asInt f.ty (x L) / 2 ^ n L)) ∧
    runs (.popc f) 0x0F [a] (fun L => BitVec.ofNat 64 ((List.range 64).filter fun k => (x L).getLsbD k).length) ∧
    runs (.clz f) 0x10 [a] (fun L => BitVec.ofNat 64 (if (x L).toNat = 0 then bits else bits - 1 - Nat.log2 (x L).toNat)) ∧
    runs (.sel f) 0x12 [a, b] (fun L => if (kread w (f.xf 2 0)).getLsbD L != (f.xf 3 3 = 1) then x L else y L)

/-- In each execute lane, and in each half of a packed type, the destination takes the exact sum, difference, product or
fused product-sum of the decoded sources (flushed under FTZ), rounded once in the mode of X bits 2:0 (an exact zero
sum is negative only when rounding down); FMIN and FMAX give the lesser or greater by the rule of the formats; HFMA2
adds two products of halves and an FP32 C with one rounding. Everything else stays. -/
def Obligations.LaneFloatArithmetic : Prop :=
  ∀ (s : State) (w : Wave) (f : LaneFields) (E : W32),
    let S (op : Nat) (srcs : List (Src × Bool)) : Shape := { op := op, f := f, srcs := srcs, dst := pairOf f.wide f.dest.toNat }
    let fm : Fmt := fmtOf f.ty
    let half (v : W64) (h : Nat) : FVal := fdecode fm (ftz w) (halfOf f.ty v h)
    let x (L : Nat) : W64 := source s w f f.a f.wide L
    let y (L : Nat) : W64 := source s w f f.b f.wide L
    let z (L : Nat) : W64 := source s w f f.c f.wide L
    let a : Src × Bool := (f.a, f.wide)
    let b : Src × Bool := (f.b, f.wide)
    let c : Src × Bool := (f.c, f.wide)
    let mode (L h : Nat) : Rnd := rndOf w (f.xf 2 0) (srDraw w (x L) (y L) L h)
    let down (L h : Nat) : Bool := decide (mode L h = .rdn)
    let runs (i : Instr) (op : Nat) (srcs : List (Src × Bool)) (g : Nat → Nat → FVal) : Prop :=
      LaneAt s w i (S op srcs) E → ∃ t, exec i s = .next t ∧
        LaneWrites s t w srcs E f.wide f.dest.toNat fun L => byHalves f.ty fun h => fround fm (mode L h) (ftz w) false (g L h)
    let picks (i : Instr) (op : Nat) (big : Bool) : Prop :=
      LaneAt s w i (S op [a, b]) E → ∃ t, exec i s = .next t ∧ LaneWrites s t w [a, b] E f.wide f.dest.toNat fun L =>
        byHalves f.ty fun h => fminmax fm (ftz w) big (halfOf f.ty (x L) h) (halfOf f.ty (y L) h)
    runs (.fadd f) 0x13 [a, b] (fun L h => faddV (down L h) (half (x L) h) (half (y L) h)) ∧
    runs (.fsub f) 0x14 [a, b] (fun L h => faddV (down L h) (half (x L) h) (fnegV (half (y L) h))) ∧
    runs (.fmul f) 0x15 [a, b] (fun L h => fmulV (half (x L) h) (half (y L) h)) ∧
    runs (.ffma f) 0x16 [a, b, c] (fun L h => faddV (down L h) (fmulV (half (x L) h) (half (y L) h)) (half (z L) h)) ∧
    picks (.fmin f) 0x17 false ∧ picks (.fmax f) 0x18 true ∧
    (f.wide = false → LaneAt s w (.hfma2 f) (S 0x23 [a, b, c]) E → ∃ t, exec (.hfma2 f) s = .next t ∧
      LaneWrites s t w [a, b, c] E false f.dest.toNat fun L => BitVec.ofNat 64 (fround fp32 (mode L 0) (ftz w) false
        (faddV (down L 0) (faddV (down L 0) (fmulV (half (x L) 0) (half (y L) 0)) (fmulV (half (x L) 1) (half (y L) 1)))
          (fdecode fp32 (ftz w) (z L).toNat))))

/-- In each execute lane the destination takes the function of the decoded source A, correctly rounded to nearest even;
FRND its rounding to an integral value in the mode of X bits 2:0; FSCALE A × 2^B rounded in that mode (B a signed
integer, of 16 bits in each half of a packed type); FCVT the conversion of A between the formats of X bits 7:4 and
11:8. Everything else stays. -/
def Obligations.LaneFloatFunctions : Prop :=
  ∀ (s : State) (w : Wave) (f : LaneFields) (E : W32),
    let S (op : Nat) (srcs : List (Src × Bool)) : Shape := { op := op, f := f, srcs := srcs, dst := pairOf f.wide f.dest.toNat }
    let fm : Fmt := fmtOf f.ty
    let half (v : W64) (h : Nat) : FVal := fdecode fm (ftz w) (halfOf f.ty v h)
    let x (L : Nat) : W64 := source s w f f.a f.wide L
    let a : Src × Bool := (f.a, f.wide)
    let func (i : Instr) (op : Nat) (g : FVal → FVal) : Prop :=
      LaneAt s w i (S op [a]) E → ∃ t, exec i s = .next t ∧ LaneWrites s t w [a] E f.wide f.dest.toNat fun L =>
        BitVec.ofNat 64 (fround fm .rne (ftz w) false (g (fdecode fm (ftz w) (x L).toNat)))
    let b : Src × Bool := (f.b, false)
    let n (L h : Nat) : Int := if packed f.ty then sgn 16 (halfOf f.ty (source s w f f.b false L) h)
      else sgn 32 (source s w f f.b false L).toNat
    let src := f.xf 7 4
    let dst := f.xf 11 8
    let cv : Src × Bool := (f.a, cvWide src)
    let cvShape : Shape := { op := 0x1B, f := f, srcs := [cv], dst := pairOf (cvWide dst) f.dest.toNat }
    let from' (L : Nat) : W64 := source s w f f.a (cvWide src) L
    func (.rcp f) 0x1C rcpV ∧ func (.rsq f) 0x1D rsqV ∧ func (.sqrt f) 0x1E sqrtV ∧ func (.exp2 f) 0x1F exp2V ∧
    func (.log2 f) 0x20 log2V ∧ func (.ln f) 0x21 lnV ∧
    (LaneAt s w (.frnd f) (S 0x1A [a]) E → ∃ t, exec (.frnd f) s = .next t ∧ LaneWrites s t w [a] E f.wide f.dest.toNat fun L =>
      byHalves f.ty fun h => fround fm .rne (ftz w) false
        (frndV (rndOf w (f.xf 2 0) (srDraw w (x L) 0 L h)) (half (x L) h))) ∧
    (LaneAt s w (.fscale f) (S 0x60 [a, b]) E → ∃ t, exec (.fscale f) s = .next t ∧
      LaneWrites s t w [a, b] E f.wide f.dest.toNat fun L => byHalves f.ty fun h =>
        fround fm (rndOf w (f.xf 2 0) (srDraw w (x L) (source s w f f.b false L) L h)) (ftz w) false
          (fscaleV (n L h) (half (x L) h))) ∧
    (LaneAt s w (.fcvt f) cvShape E → ∃ t, exec (.fcvt f) s = .next t ∧
      LaneWrites s t w [cv] E (cvWide dst) f.dest.toNat fun L =>
        convert w src dst (rndOf w (f.xf 2 0) (srDraw w (from' L) 0 L 0)) (f.xf 3 3 = 1) (from' L))

/-- In each execute lane bit L of k(dest) becomes the truth of the condition: ICMP compares the sources as integers of the
type, FCMP as numbers of the format (a NaN makes only NE and UN true), PSET asks whether A is not zero, PLOP applies
the operation of X bits 2:0 to the two predicates. Bits outside the lanes, the other predicates, every register and
every byte stay; a write to k0 changes nothing. -/
def Obligations.LanePredicates : Prop :=
  ∀ (s : State) (w : Wave) (f : LaneFields) (E : W32),
    let d := f.dest.toNat
    let ab : List (Src × Bool) := [(f.a, f.wide), (f.b, f.wide)]
    let x (L : Nat) : W64 := source s w f f.a f.wide L
    let y (L : Nat) : W64 := source s w f f.b f.wide L
    let u (L : Nat) : FVal := fdecode (fmtOf f.ty) (ftz w) (x L).toNat
    let v (L : Nat) : FVal := fdecode (fmtOf f.ty) (ftz w) (y L).toNat
    let un (L : Nat) : Prop := isNanV (u L) = true ∨ isNanV (v L) = true
    let cc := f.xf 3 0
    let rel (c : Int) : Prop := match cc with
      | 0 => c = 0 | 1 => c ≠ 0 | 2 => c < 0 | 3 => c ≤ 0 | 4 => 0 < c | _ => 0 ≤ c
    let p (L : Nat) : Bool := (kread w (f.xf 5 3)).getLsbD L
    let q (L : Nat) : Bool := (kread w (f.xf 8 6)).getLsbD L
    let op (L : Nat) : Bool := match f.xf 2 0 with
      | 0 => p L && q L | 1 => p L || q L | 2 => p L != q L | 3 => p L && !q L | 4 => !p L | 5 => p L | 6 => true | _ => false
    let runs (i : Instr) (code : Nat) (srcs : List (Src × Bool)) (truth : Nat → Prop) : Prop :=
      LaneAt s w i { op := code, f := f, srcs := srcs } E → ∃ t, exec i s = .next t ∧ LaneTruths s t w srcs E d truth
    runs (.icmp f) 0x11 ab (fun L => rel (asInt f.ty (x L) - asInt f.ty (y L))) ∧
    runs (.fcmp f) 0x19 ab (fun L => if cc = 6 then un L else if cc = 7 then ¬ un L else if cc = 1 then un L ∨ fcmpV (u L) (v L) ≠ 0
      else ¬ un L ∧ rel (fcmpV (u L) (v L))) ∧
    runs (.pset f) 0x2F [(f.a, f.wide)] (fun L => x L ≠ 0) ∧ runs (.plop f) 0x30 [] (fun L => op L = true)

/-- MOV copies A. MOVSP gives the item of X bits 4:0 (team, launch, split, window, the high half of the counter of the
lane, cycle, time, or whether the named register is full). RGET reads register A + B of each lane, RPUT writes C to
it, when every index is a register, even for a pair, of the window outside a bank and full; with an index that is not,
the lanes concerned trap with cause 0x03. Nothing else changes. -/
def Obligations.LaneMoves : Prop :=
  ∀ (s : State) (w : Wave) (f : LaneFields) (E : W32),
    let S (op : Nat) (srcs : List (Src × Bool)) : Shape := { op := op, f := f, srcs := srcs, dst := pairOf f.wide f.dest.toNat }
    let a : Src × Bool := (f.a, f.wide)
    let ix : List (Src × Bool) := [(f.a, false), (f.b, false)]
    let who := waveWho s w
    let item (L : Nat) : W64 := match f.xf 4 0 with
      | 0 => BitVec.ofNat 64 w.team | 1 => BitVec.ofNat 64 w.launch | 2 => BitVec.ofNat 64 s.split | 3 => BitVec.ofNat 64 w.winsize
      | 4 => mget 0 w.c.rng L >>> 32 | 5 => BitVec.ofNat 64 (cycleAt (clusterKey who.d who.cluster) s.ticks)
      | 6 => BitVec.ofNat 64 s.time | _ => match f.a with | .v n _ => if emptyV w n.toNat then 0 else 1 | _ => 0
    let named : List Nat := match f.a with | .v n _ => if f.xf 4 0 = 7 then [n.toNat] else [] | _ => []
    let idx (L : Nat) : Int := sgn 32 (source s w f f.a false L).toNat + sgn 32 (source s w f f.b false L).toNat
    let good (L : Nat) : Prop := indexBad w f.wide (idx L) = false
    let ready (L : Nat) : Prop := ∀ n ∈ pairOf f.wide (idx L).toNat, emptyV w n = false
    let pure (L : Nat) : Prop := ∀ n ∈ pairOf f.wide (idx L).toNat, mfind w.r.poison (4 * viewLine w n L + L / 8) = none
    let bad : W32 := laneMask ((lanesOf E).filter fun L => indexBad w f.wide (idx L))
    (LaneAt s w (.mov f) (S 0x24 [a]) E → ∃ t, exec (.mov f) s = .next t ∧
      LaneWrites s t w [a] E f.wide f.dest.toNat fun L => source s w f f.a f.wide L) ∧
    (f.wide = false → LaneAt s w (.movsp f) { S 0x25 [] with named := named } E → ∃ t, exec (.movsp f) s = .next t ∧
      LaneWrites s t w [] E false f.dest.toNat item) ∧
    (LaneAt s w (.rget f) (S 0x26 ix) E → (∀ L, E.getLsbD L = true → good L ∧ ready L ∧ pure L) → ∃ t, exec (.rget f) s = .next t ∧
      LaneWrites s t w ix E f.wide f.dest.toNat fun L => laneValue w f.wide (idx L).toNat L) ∧
    (LaneAt s w (.rget f) (S 0x26 ix) E → bad ≠ 0 → ∃ t, exec (.rget f) s = .next t ∧ LaneTraps s t w (.rget f) 0x03 bad 0) ∧
    (LaneAt s w (.rput f) { op := 0x27, f := f, srcs := ix ++ [(f.c, f.wide)] } E →
      (∀ L, E.getLsbD L = true → good L ∧ ready L) → ∃ t w', exec (.rput f) s = .next t ∧ t = s.setWave s.focus w' ∧
        LaneKeeps s w w' ∧ (∀ L, E.getLsbD L = true → laneValue w' f.wide (idx L).toNat L = clip f.wide (source s w f f.c f.wide L)) ∧
        ∀ n L, L < 32 → isBank w n = false → n ∉ pairOf f.wide (idx L).toNat ∨ E.getLsbD L = false → vread w' n L = vread w n L) ∧
    (LaneAt s w (.rput f) { op := 0x27, f := f, srcs := ix ++ [(f.c, f.wide)] } E → bad ≠ 0 →
      ∃ t, exec (.rput f) s = .next t ∧ LaneTraps s t w (.rput f) 0x03 bad 0)

/-- With a v destination each execute lane L takes: SHFL the A of lane B mod 32; SHFLX that of lane L XOR (B mod 32);
BCAST that of the lane named by B of the lowest lane; BALLOT the mask of the lanes with A not zero; VOTE whether all
or any of them, or all equal; REDUCE the tree combination of the lanes of E; SCAN the combination of the lanes up to L
(below L under X bit 3). With %res as destination, BCAST, BALLOT, VOTE and REDUCE write the result register once,
which becomes full. Everything else stays. -/
def Obligations.CrossLane : Prop :=
  ∀ (s : State) (w : Wave) (f : LaneFields) (E : W32),
    let d := f.dest.toNat
    let sh (op : Nat) (srcs : List (Src × Bool)) : Shape :=
      { op := op, f := f, srcs := srcs, dst := if f.dkind then [] else pairOf f.wide d, res := f.dkind, cross := true }
    let a : List (Src × Bool) := [(f.a, f.wide)]
    let ab : List (Src × Bool) := [(f.a, f.wide), (f.b, false)]
    let x (L : Nat) : W64 := computeVal s w (sh 0 ab) E [] 0 L
    let y (L : Nat) : Nat := (computeVal s w (sh 0 ab) E [] 1 L).toNat % 32
    let low := lowestLane E
    let ballot : W32 := laneMask ((lanesOf E).filter fun L => x L ≠ 0)
    let vote : Bool := match f.xf 1 0 with
      | 0 => ballot = E | 1 => ballot ≠ 0 | _ => (lanesOf E).all fun L => x L = x low
    let op := redOp f.ty (ftz w) (f.xf 2 0)
    let leaves := (List.range 32).map fun L => if E.getLsbD L then some (x L) else none
    let tree : W64 := match redLevel op (redLevel op (redLevel op (redLevel op (redLevel op leaves)))) with | some v :: _ => v | _ => 0
    let below (L : Nat) : List Nat := (lanesOf E).filter fun m => if f.xf 3 3 = 1 then decide (m < L) else decide (m ≤ L)
    let scan (L : Nat) : W64 := (scanVal op x (below L) none).getD (redIdentity f.ty (f.xf 2 0))
    let e := getEntry w (headEntry w)
    let lanes (i : Instr) (code : Nat) (srcs : List (Src × Bool)) (val : Nat → W64) : Prop :=
      f.dkind = false → LaneAt s w i (sh code srcs) E → ∃ t, exec i s = .next t ∧ LaneWrites s t w srcs E f.wide d val
    let result (i : Instr) (code : Nat) (srcs : List (Src × Bool)) (v : W64) : Prop :=
      f.dkind = true → LaneAt s w i (sh code srcs) E → e.res ≠ 0 → e.resw = false → ∃ t w', exec i s = .next t ∧
        LaneSteps s t w w' srcs ∧ sreg w' e.res = v ∧ emptyS w' e.res = false ∧ (∀ r, r ≠ e.res → sreg w' r = sreg w r) ∧
        getEntry w' (headEntry w) = { e with resw := true } ∧ w'.r.v = w.r.v ∧ w'.r.k = w.r.k ∧ w'.y = w.y
    let word (v : W64) : W64 := if f.ty = 0 then (v.extractLsb' 0 32).signExtend 64 else if f.wide then v else v &&& 0xFFFFFFFF
    lanes (.shfl f) 0x28 ab (fun L => x (y L)) ∧ lanes (.shflx f) 0x29 ab (fun L => x (L ^^^ y L)) ∧
    lanes (.bcast f) 0x2A ab (fun _ => x (y low)) ∧ lanes (.ballot f) 0x2B a (fun _ => ballot.zeroExtend 64) ∧
    lanes (.vote f) 0x2C a (fun _ => if vote then 1 else 0) ∧ lanes (.reduce f) 0x2D a (fun _ => tree) ∧
    lanes (.scan f) 0x2E a scan ∧
    result (.bcast f) 0x2A ab (if f.wide then x (y low) else ((x (y low)).extractLsb' 0 32).signExtend 64) ∧
    result (.ballot f) 0x2B a (ballot.zeroExtend 64) ∧ result (.vote f) 0x2C a (if vote then 1 else 0) ∧
    result (.reduce f) 0x2D a (word tree)

/-- LNOP only steps. FECLR and FESET clear or set the full bits of dest up to dest + n once no result is on its way to
them. LFENCE drops the prefetches when no release has to wait. CTXSYNC, with nothing in flight, writes the image of
the wave to its context block, at the scopes beyond the cluster also through to the home. QSKIP advances a bound
stream by 1 to 128 steps, at most to its end, and traps with cause 0x0B on an unbound one. Each then goes on by 12
bytes and changes nothing else. -/
def Obligations.LaneControl : Prop :=
  ∀ (s : State) (w : Wave) (f : LaneFields) (E : W32),
    let regs := (List.range (f.xf 5 0 + 1)).map fun k => f.dest.toNat + k
    let fe (op : Nat) : Shape := { op := op, f := f, named := [f.dest.toNat], range := regs }
    let q := f.xf 2 0
    let x := getStream w q
    let steps (i : Instr) (s' : State) (P : Wave → Prop) : Prop := ∃ t w', exec i s = .next t ∧ LaneSteps s' t w w' [] ∧ P w'
    (LaneAt s w (.lnop f) { op := 0x36, f := f } E → steps (.lnop f) s fun w' => w' = w) ∧
    (LaneAt s w (.feclr f) (fe 0x31) E → (∀ n ∈ regs, pendingV w n = false) → steps (.feclr f) s fun w' =>
      (∀ n < 1024, emptyV w' n = (emptyV w n || decide (n ∈ regs))) ∧ w' = { w with r := { w.r with vEmpty := w'.r.vEmpty } }) ∧
    (LaneAt s w (.feset f) (fe 0x32) E → (∀ n ∈ regs, pendingV w n = false) → steps (.feset f) s fun w' =>
      (∀ n < 1024, emptyV w' n = (emptyV w n && !decide (n ∈ regs))) ∧ w' = { w with r := { w.r with vEmpty := w'.r.vEmpty } }) ∧
    (LaneAt s w (.lfence f) { op := 0x40, f := f } E → releaseWaits s w f.scope5 = false →
      steps (.lfence f) s fun w' => w' = dropPrefetch w) ∧
    (LaneAt s w (.ctxsync f) { op := 0x43, f := f } E → w.landings = [] → (w.c.unfin = 0 ∨ w.c.intrap = true) →
      releaseWaits s w f.scope5 = false →
      steps (.ctxsync f) (if 2 ≤ scopeLevel s w f.scope5 then syncHere s s.focus w else syncImage s w) fun w' => w' = w) ∧
    (LaneAt s w (.qskip f) { op := 0x42, f := f } E → x.bound = true → steps (.qskip f) s fun w' =>
      (getStream w' q).pos.toNat = max x.pos.toNat (min (x.pos.toNat + (f.xf 9 3 + 1)) x.count.toNat) ∧
      (∀ k, k ≠ q → getStream w' k = getStream w k) ∧ w' = { w with r := { w.r with q := w'.r.q } }) ∧
    (LaneAt s w (.qskip f) { op := 0x42, f := f } E → x.bound = false → ∃ t, exec (.qskip f) s = .next t ∧
      LaneTraps s t w (.qskip f) 0x0B E 0)

/-- With T the execute lanes and N the other lanes of the split: if N is empty LBR only goes to its target. Otherwise,
outside a handler, with a split free and fewer than two chain entries, the split keeps T at the target and the lowest
free split takes N at the next instruction, both with the reconvergence point and a free tag on their chains; else a
stack entry for N is pushed, and with four of them LBR traps with cause 0x06, as it does in a handler. LJMP goes to
its target. Distances count instructions of 12 bytes. No register and no byte changes. -/
def Obligations.LaneBranches : Prop :=
  ∀ (s : State) (w : Wave) (f : LaneFields) (E : W32),
    let x := getSplit w s.split
    let N := x.mask &&& ~~~E
    let dist (n : Nat) : W32 := BitVec.ofInt 32 (12 * (f.x.extractLsb' n 16).toInt)
    let tgt := x.lpc + dist 16
    let rcv := x.lpc + dist 0
    let fork := (validSplits w).length < 4 ∧ x.chain.length < 2
    let g := freeTag w 16 w.c.tagnext
    let goes (i : Instr) (P : Wave → Prop) : Prop := ∃ t w', exec i s = .next t ∧ t = s.setWave s.focus w' ∧
      w' = { w with c := { w.c with splits := w'.c.splits, tagnext := w'.c.tagnext, bksup := w.c.bksup &&& ~~~(supMask w s.split) } } ∧ P w'
    let only (w' : Wave) (y : Split) : Prop := w'.c.tagnext = w.c.tagnext ∧
      ∀ n, getSplit w' n = if n = s.split then y else getSplit w n
    let at' := LaneAt s w (.lbr f) { op := 0x33, f := f } E
    (at' → N = 0 → goes (.lbr f) fun w' => only w' { x with lpc := tgt }) ∧
    (at' → N ≠ 0 → w.c.intrap = true → ∃ t, exec (.lbr f) s = .next t ∧ LaneTraps s t w (.lbr f) 0x06 x.mask 0) ∧
    (at' → N ≠ 0 → w.c.intrap = false → fork → freeSplit w ≠ s.split → goes (.lbr f) fun w' => w'.c.tagnext = g + 1 ∧
      ∀ n, getSplit w' n = if n = freeSplit w then { lpc := x.lpc + 12, mask := N, valid := true, chain := (rcv, g) :: x.chain }
        else if n = s.split then { x with lpc := tgt, mask := E, chain := (rcv, g) :: x.chain } else getSplit w n) ∧
    (at' → N ≠ 0 → w.c.intrap = false → ¬ fork → x.stack.length ≠ 4 → goes (.lbr f) fun w' =>
      only w' { x with lpc := tgt, mask := E, stack := { pmask := N, ppc := x.lpc + 12, rpc := rcv, phase := false } :: x.stack }) ∧
    (at' → N ≠ 0 → w.c.intrap = false → ¬ fork → x.stack.length = 4 → ∃ t, exec (.lbr f) s = .next t ∧
      LaneTraps s t w (.lbr f) 0x06 x.mask 0) ∧
    (LaneAt s w (.ljmp f) { op := 0x34, f := f } E → goes (.ljmp f) fun w' => only w' { x with lpc := tgt })

/-- LEND with a stack entry whose mask is not empty takes its lanes: in its first phase they go on at the other path and
the entry turns over, in the second they go on at the reconvergence point and the entry is popped. Without one the
split ends; if it was the last, the next iteration starts with all lanes at the entry offset, or the block leaves the
queue. The end of a block that owes its result traps with cause 0x12. No register and no byte changes. -/
def Obligations.LaneEnd : Prop :=
  ∀ (s : State) (w : Wave) (f : LaneFields) (E : W32),
    let n := s.split
    let x := getSplit w n
    let k := headEntry w
    let e := getEntry w k
    let last := validSplits w = [n]
    let owes := x.stack = [] ∧ last ∧ e.iter = e.rep ∧ e.res ≠ 0 ∧ e.resw = false
    let goes (P : Wave → Prop) : Prop := ∃ t w', exec (.lend f) s = .next t ∧ t = s.setWave s.focus w' ∧ w'.r = w.r ∧ w'.y = w.y ∧
      w'.c.pc = w.c.pc ∧ P w'
    let splits (w' : Wave) (y : Split) : Prop := ∀ m, getSplit w' m = if m = n then y else getSplit w m
    LaneAt s w (.lend f) { op := 0x35, f := f } E → x.valid = true → n < 5 → (n = 4 ↔ w.c.intrap = true) →
      (owes → ∃ t, exec (.lend f) s = .next t ∧ LaneTraps s t w (.lend f) 0x12 0 (e.res.zeroExtend 64)) ∧
      (∀ y l, x.stack = y :: l → y.pmask ≠ 0 → goes fun w' => splits w' (if y.phase then { x with mask := y.pmask, lpc := y.rpc, stack := l }
        else { x with mask := y.pmask, lpc := y.ppc, stack := { y with pmask := 0, phase := true } :: l })) ∧
      (x.stack = [] → ¬ last → goes fun w' => splits w' { x with valid := false, parked := false }) ∧
      (x.stack = [] → last → e.iter.toNat < e.rep.toNat → goes fun w' =>
        getEntry w' k = { e with iter := e.iter + 1 } ∧ w'.c.qcnt = w.c.qcnt ∧
        getSplit w' (if k = 4 then 4 else 0) = { lpc := e.off, mask := BitVec.allOnes 32, valid := true }) ∧
      (x.stack = [] → last → e.rep.toNat ≤ e.iter.toNat → ¬ owes → goes fun w' => (k ≠ 4 → w'.c.qcnt = w.c.qcnt - 1 ∧
        w'.c.qhead = w.c.qhead + 1) ∧ (k = 4 → w'.c.hq = false))

/-- LTRAP traps with cause 0x0E and sys.taddr its number, LBRK with cause 0x0D and its own address, each with the execute
lanes in sys.tfmask; a reserved lane opcode with cause 0x01 and the lanes of the split. BAR, where no release has to
wait, opens a closed barrier with the 32-bit lane mask of its source and counts its lanes off; when none is left and
no byte is pending the phase flips. The split is marked as arrived with the phase it saw and does not step. A mask
that disagrees traps with cause 0x07. -/
def Obligations.LaneTrapsAndBarrier : Prop :=
  ∀ (s : State) (w : Wave) (f : LaneFields) (E : W32) (word : BitVec 96),
    let x := getSplit w s.split
    let team := teamKey w.launch w.team
    let b := f.xf 5 0
    let m : W32 := (source s w { f with ty := 0 } f.a false (lowestLane E)).extractLsb' 0 32
    let n := popcount E
    let o := getBar s team b
    let y : Barrier := if o.opened then o else { o with opened := true, lane := true, arrived := m.extractLsb' 0 16,
                                                        members := m.extractLsb' 16 16, remain := BitVec.ofNat 6 (popcount m) }
    let agrees := y.lane = true ∧ m = y.members ++ y.arrived ∧ E &&& ~~~m = 0 ∧ n ≤ y.remain.toNat
    let z : Barrier := { y with remain := y.remain - BitVec.ofNat 6 n }
    let z' : Barrier := if z.remain = 0 ∧ z.pending = 0 then
      { z with phase := !z.phase, arrived := 0, opened := false, members := 0, lane := false, remain := 0 } else z
    let bar := LaneAt s w (.bar f) { op := 0x41, f := f, srcs := [(f.a, false)] } E
    (LaneAt s w (.ltrap f) { op := 0x37, f := f } E → ∃ t, exec (.ltrap f) s = .next t ∧
      LaneTraps s t w (.ltrap f) 0x0E E (f.x.zeroExtend 64)) ∧
    (LaneAt s w (.lbrk f) { op := 0x38, f := f } E → ∃ t, exec (.lbrk f) s = .next t ∧
      LaneTraps s t w (.lbrk f) 0x0D E (w.y.lanebase + x.lpc.zeroExtend 64)) ∧
    (s.wave? s.focus = some w → Quiet s w → w.c.unfin = 0 → ∃ t, exec (.laneReservedOpcode word) s = .next t ∧
      LaneTraps s t w (.laneReservedOpcode word) 0x01 x.mask 0) ∧
    (bar → s.team? team ≠ none → releaseWaits s w 1 = false → agrees → ∃ t w', exec (.bar f) s = .next t ∧ t = (setBar s team b z').setWave s.focus w' ∧
      getBar t team b = z' ∧ (∀ c, c ≠ b → getBar t team c = getBar s team c) ∧ (∀ die a, t.peek die a = s.peek die a) ∧
      w' = { w with c := { w.c with harv := w'.c.harv, haph := w'.c.haph, arv := w'.c.arv, aph := w'.c.aph
                                    bksup := w.c.bksup &&& ~~~(supMask w s.split) } } ∧
      (s.split = 4 → w'.c.harv = true ∧ w'.c.haph = y.phase) ∧
      (s.split < 4 → w'.c.arv.getLsbD s.split = true ∧ w'.c.aph.getLsbD s.split = y.phase)) ∧
    (bar → s.team? team ≠ none → releaseWaits s w 1 = false → ¬ agrees → w.c.intrap = false → w.y.tvec ≠ 0 → ∃ t, exec (.bar f) s = .next t ∧
      ∃ w', t.wave? s.focus = some w' ∧ w'.c.intrap = true ∧ w'.c.pc = w.y.tvec ∧ w'.y.tcause = 0x07 ∧ w'.y.tfmask = x.mask ∧
        w'.y.taddr = BitVec.ofNat 64 b)

/-- Where every access of the execute lanes meets storage, LDV (narrow values extended to 32 bits) and XLOAD (one element
after the other for the lanes in order) complete with the values of the accesses on their way, LDB with the four bytes
of each lane in each of its lines and, under SIDE, the side bytes of the frame, TCLOOK with the word of the frame of
each tile or 0. The destination is empty until the words land; no other register and no byte changes. Addresses of
mode 0 are A plus the signed offset, plus the lane’s place times the width for XLOAD. Where one lane executes, the
words of LDV are the bytes that the die holds at the placed address, the lowest first. -/
def Obligations.LaneLoads : Prop :=
  ∀ (s : State) (w : Wave) (f : LaneFields) (E : W32) (u v : State) (g : Gather) (mem : List LaneAcc) (vals : List (Nat × W64)) (t0 : Option ElemTile) (va : W64),
    let d := f.dest.toNat
    let a (L : Nat) : W64 := srcVal s w [] 0 f.a true L
    let val (key L : Nat) : W64 := (mfind vals (32 * key + L)).getD 0
    let words (fix : W64 → W64) : List (Nat × W32) := (lanesOf E).flatMap fun L => wordsAt f.wide d L (fix (val 8 L))
    let off : W64 := BitVec.ofInt 64 (f.x.extractLsb' 0 21).toInt
    let order := f.ord = 2 → releaseWaits s w f.scope5 = false
    let fresh (mem : List LaneAcc) : State := if f.ord = 1 then mem.foldl (fun s a => refetchAt s w f.scope5 a.va a.tile) s else s
    let loads (i : Instr) (m : MemForm) (fix : W64 → W64) : Prop :=
      LaneAt s w i (memShape s w m) E → order → laneAddrs s w m E = .ok mem → Gathered s (fresh mem) u w i mem g →
      loadAll u w g.accs = (v, vals, 0) → ∃ t, exec i s = .next t ∧ LaneLands s v t w (pairOf f.wide d) (words fix) []
    let n := lineCount f
    let lines := (List.range n).map fun j => d + j
    let area : List (Nat × Byte) := match t0 with
      | some e => match v.frame? (waveWho v w).d e.tile with | some fr => fr.side | none => []
      | none => []
    let look (L : Nat) : W32 := match tcTile s w f (tcOperand s w f L) with
      | some e => match residentFrame s (waveWho s w).d e with | some fr => BitVec.ofNat 32 (lookWord fr) | none => 0
      | none => 0
    loads (.ldv f) (ldvForm f) (narrowFix f) ∧ loads (.xload f) (xloadForm f) id ∧
    (f.mode = 0 → laneAddrs s w (ldvForm f) E = .ok ((lanesOf E).map fun L =>
      { lane := L, key := 8, va := a L + off, n := vWidth f, kind := .load })) ∧
    (f.mode = 0 → w.c.prog = 0 → laneAddrs s w (xloadForm f) E = .ok ((lanesOf E).mapIdx fun k L =>
      { lane := L, key := 8, va := a (lowestLane E) + BitVec.ofNat 64 (k * if f.wide then 8 else 4) + off
        n := if f.wide then 8 else 4, kind := .load })) ∧
    (LaneAt s w (.ldb f) { op := 0x3B, f := f, srcs := [(f.a, true)], dst := [d], dstMore := lines.drop 1
                           noGroup := if lineSide f then lines else [] } E → order → lineTile s w f E = .ok (t0, va) →
      lineTile v w f E = .ok (t0, va) →
      Gathered s (if f.ord = 1 then refetchAt s w f.scope5 va t0 else s) u w (.ldb f) (lineAccs E n .load t0 va) g →
      (lineSide f = true → sideGather u (waveWho u w).d E t0 va g = g) → loadAll u w g.accs = (v, vals, 0) → ∃ t, exec (.ldb f) s = .next t ∧
        LaneLands s v t w lines ((List.range n).flatMap fun j => (lanesOf E).map fun L => (32 * (d + j) + L, (val (8 + j) L).extractLsb' 0 32))
          ((lineSides f E).map fun p => (4 * (d + p.1) + p.2.1, mget 0 area p.2.2))) ∧
    (LaneAt s w (.tclook f) { op := 0x4E, f := f, srcs := [(f.a, true)], dst := [d] } E → tcUnbound s w f = false →
      ∃ t, exec (.tclook f) s = .next t ∧ LaneLands s s t w [d] ((lanesOf E).map fun L => (32 * d + L, look L)) []) ∧
    ∀ (L : Nat) (b : LaneAcc) (q : Placed), L < 32 → E = BitVec.twoPow 32 L →
      LaneAt s w (.ldv f) (memShape s w (ldvForm f)) E → order →
      laneAddrs s w (ldvForm f) E = .ok [b] → Gathered s (fresh [b]) u w (.ldv f) [b] { accs := [(b, .here q)] } →
      bring u .load (waveWho u w).d q = .ok v → ∃ t, exec (.ldv f) s = .next t ∧
        LaneLands s (arrived v w (waveWho u w) b.va 0 .load q) t w (pairOf f.wide d)
          (wordsAt f.wide d L (narrowFix f (BitVec.ofNat 64 (leNat (loadBytes v (waveWho u w).d q 0 b.n))))) []

/-- Where every access of the execute lanes meets storage and all of them are performed (storing them tile by tile from u,
in ascending lanes, gives v), STV and CSTORE complete with memory, frames and other waves as in v: the wave has
dropped its prefetches and gone on by 12 bytes, no register changed. STB does so with the registers of its lines, and
under SIDE with the side bytes of its groups. Where one lane executes and its tile is causal and homed on the die, STV
stores the low bytes of source B at the placed address and changes no other cell and no other byte of a frame. -/
def Obligations.LaneStores : Prop :=
  ∀ (s : State) (w : Wave) (f : LaneFields) (E : W32) (u v u1 : State) (w1 : Wave) (g : Gather) (mem : List LaneAcc) (t0 : Option ElemTile) (va : W64) (a : LaneAcc) (q : Placed) (L : Nat),
    let order := f.ord = 2 → releaseWaits s w f.scope5 = false
    let bytes (n : Nat) (L : Nat) : List Byte := leBytes n (source s w f f.b f.wide L).toNat
    let ends (t v : State) (srcs : List (Src × Bool)) : Prop := t.mem = v.mem ∧ (∀ e, t.frames e = v.frames e) ∧
      (∀ k, k ≠ v.focus → t.wave? k = v.wave? k) ∧ t.wave? v.focus = some (laneFinish v w1 srcs)
    let stores (i : Instr) (m : MemForm) : Prop :=
      LaneAt s w i (memShape s w m) E → order → laneAddrs s w m E = .ok mem → Gathered s s u w i mem g →
      storeAll m.ordered (fun a => bytes m.width a.lane) [] g.accs (u, dropPrefetch w, 0) = (v, w1, E) →
        ∃ t, exec i s = .next t ∧ ends t v m.srcs
    let b := (vNum f.b).1
    let n := lineCount f
    let lines := (List.range n).map fun j => b + j
    let side : List (Nat × Byte) := (lineSides f E).map fun p => (2048 + p.2.2, mget 0 w.r.side (4 * (b + p.1) + p.2.1))
    let who := waveWho u w
    let one : W32 := BitVec.twoPow 32 L
    let width := vWidth f
    let lo := q.pa - q.req.base
    let cell := cellOf u1 q.req.base
    stores (.stv f) (stvForm f) ∧ stores (.cstore f) (cstoreForm f) ∧
    (LaneAt s w (.stb f) { op := 0x3C, f := f, srcs := [(f.a, true), (f.b, false)]
                           more := (lines.drop 1).map fun n => (n, (vNum f.b).2), noGroup := if lineSide f then lines else [] } E →
      order → lineTile s w f E = .ok (t0, va) → (∀ k ∈ lines, ∀ L < 32, mfind w.r.poison (4 * viewLine w k L + L / 8) = none) →
      Gathered s s u w (.stb f) (lineAccs E n .store t0 va) g →
      storeAll false (fun a => leBytes 4 (vread w (b + (a.key - 8)) a.lane).toNat) side g.accs (u, dropPrefetch w, 0) = (v, w1, E) →
        ∃ t, exec (.stb f) s = .next t ∧ ends t v []) ∧
    (L < 32 → LaneAt s w (.stv f) (memShape s w (stvForm f)) one → order → laneAddrs s w (stvForm f) one = .ok [a] →
      Gathered s s u w (.stv f) [a] { accs := [(a, .here q)] } → bring u .store who.d q = .ok u1 → q.req.home.val = who.d →
      q.req.pcoh = false → InTile q width →
        ∃ t, exec (.stv f) s = .next t ∧ Stored u1 t who.d q.req.base cell lo (bytes width L) ∧
          StoreFrame u1 t q.req.base lo width (cell :: replicaCells who.d cell q.req.repl) ∧
          (memoryWf u1.mem = true → memoryWf t.mem = true))

/-- Where every access of the execute lanes meets storage and all of them are performed or sent to their homes (lane by
lane from u gives x), ATOM completes: memory and frames are those of x, the destination is empty, and a landing with
the old values waits for the answers of the remote ones. Where one lane executes, its tile is causal and homed on the
die and the order log admits it, the landing holds the old value, and the tile the new one (or what it held, for a CAS
that fails) and no other byte has changed. -/
def Obligations.LaneAtomics : Prop :=
  ∀ (s : State) (w : Wave) (f : LaneFields) (E : W32) (u u1 v : State) (g : Gather) (mem : List LaneAcc) (x : AtomGo) (a : LaneAcc) (q : Placed) (L : Nat),
    let m := atomForm f
    let d := f.dest.toNat
    let b (L : Nat) : Nat := (source s w f f.b f.wide L).toNat
    let c (L : Nat) : Nat := if f.xf 22 20 = 7 then (source s w f f.c f.wide L).toNat else 0
    let order := f.ord = 2 → releaseWaits s w f.scope5 = false
    let who := waveWho u w
    let one : W32 := BitVec.twoPow 32 L
    let y := bounce (countMiss v who a.va 2 w.launch .atomic q) who.d who.cluster q.req.tile
    let old := leNat (loadBytes y who.d q 0 m.width)
    let new := atomicNew (atomicOfCode (f.xf 22 20)) (atomKind f) m.width old (b L) (c L)
    let lo := q.pa - q.req.base
    let cell := cellOf y q.req.base
    let lands (s' t : State) (w' : Wave) (l : Landing) : Prop := ∃ w2, t.wave? s'.focus = some w2 ∧
      mfind w2.landings w'.nextLanding = some { l with regs := m.dst, fullV := m.dst } ∧
      (∀ n < 1024, emptyV w2 n = (emptyV w' n || decide (n ∈ m.dst))) ∧ w2.r.s = w'.r.s ∧ w2.r.k = w'.r.k ∧ w2.r.v = w'.r.v ∧
      (getSplit w2 s.split).lpc = (getSplit w' s.split).lpc + 12
    (LaneAt s w (.atom f) (memShape s w m) E → order → laneAddrs s w m E = .ok mem → Gathered s s u w (.atom f) mem g →
      g.accs.foldl (atomOne f b c w.nextLanding) { s := u, w := dropPrefetch w } = x → x.done = E → x.s.focus = s.focus →
      x.s.split = s.split →
        ∃ t, exec (.atom f) s = .next t ∧ t.mem = x.s.mem ∧ (∀ e, t.frames e = x.s.frames e) ∧
          (∀ k, k ≠ s.focus → t.wave? k = x.s.wave? k) ∧ lands s t x.w { lanes := x.words, need := x.need, wide := f.wide }) ∧
    (L < 32 → LaneAt s w (.atom f) (memShape s w m) one → order → laneAddrs s w m one = .ok [a] → a.n = m.width →
      a.lane = L → Gathered s s u w (.atom f) [a] { accs := [(a, .here q)] } → bring u .atomic who.d q = .ok u1 → q.req.home.val = who.d →
      q.req.pcoh = false → InTile q m.width →
      aolAdmit u1 who.d q.req.tile w.launch w.team w.idx = some v →
        ∃ t, exec (.atom f) s = .next t ∧ lands s t w { lanes := wordsAt f.wide d L (BitVec.ofNat 64 old), wide := f.wide } ∧
          (∀ n, new = some n → Stored y t who.d q.req.base cell lo (leBytes m.width n)) ∧
          StoreFrame y t q.req.base lo (if new = none then 0 else m.width) (cell :: replicaCells who.d cell q.req.repl))

/-- PACKG writes byte m of each execute lane with the element of register A + m scaled by the code of its granule (the
execute lanes of 8 neighbours), and the code into the side byte of each granule concerned. UNPACKG writes the FP32
values of the four bytes of A, under the side byte of their granule, to dest up to dest + 3. NQDEC writes the values
of the nibbles of A times B: eight FP32 registers, or four of FP16 pairs. Other lanes, registers and side bytes, and
every byte of memory, stay. -/
def Obligations.NarrowFormats : Prop :=
  ∀ (s : State) (w : Wave) (f : LaneFields) (E : W32),
    let a := (vNum f.a).1
    let d := f.dest.toNat
    let x (m L : Nat) : FVal := fdecode fp32 false (vread w (a + m) L).toNat
    let code (g : Nat) : Nat := g8ScaleCode (((lanesOf E).filter fun L => L / 8 = g).flatMap fun L => (List.range 4).map fun m => x m L)
    let mode (L m : Nat) : Rnd := rndOf w (f.xf 2 0) (srDraw w ((vread w (a + m) L).zeroExtend 64) (BitVec.ofNat 64 m) L 0)
    let used (g : Nat) : Prop := ∃ L < 32, E.getLsbD L = true ∧ L / 8 = g
    let pack : Shape := { op := 0x44, f := f, srcs := [(f.a, false)], dst := [d], more := [1, 2, 3].map fun m => (a + m, (vNum f.a).2)
                          noGroup := [d] }
    let unpack : Shape := { op := 0x45, f := f, srcs := [(f.a, false)], dst := [d], dstMore := [d + 1, d + 2, d + 3], noGroup := [a] }
    let count := if f.ty = 2 then 8 else 4
    let dec : Shape := { op := 0x46, f := f, srcs := [(f.a, false), (f.b, false)], dst := [d], dstMore := (List.range count).map fun k => d + k }
    let v (L : Nat) : Nat := (source s w f f.a false L).toNat
    let nib (fm : Fmt) (k L : Nat) : Nat := fround fm .rne (ftz w) false
      (fmulV (nq4V (bitsOf (v L) (4 * k + 3) (4 * k))) (fdecode fp32 false (source s w f f.b false L).toNat))
    let rest (w' : Wave) (regs : List Nat) : Prop := w' = { w with r := { w.r with v := w'.r.v, side := w'.r.side, poison := w'.r.poison } } ∧ PoisonFades w w' ∧
      ∀ n L, L < 32 → isBank w n = false → n ∉ regs ∨ E.getLsbD L = false → vread w' n L = vread w n L
    let steps (i : Instr) (srcs : List (Src × Bool)) (P : Wave → Prop) : Prop := ∃ t w', exec i s = .next t ∧ LaneSteps s t w w' srcs ∧ P w'
    (LaneAt s w (.packg f) pack E → steps (.packg f) pack.srcs fun w' => rest w' [d] ∧
      (∀ L < 32, E.getLsbD L = true → ∀ m < 4, (vread w' d L).extractLsb' (8 * m) 8 = BitVec.ofNat 8 (g8Elem (mode L m) (code (L / 8)) (x m L))) ∧
      ∀ k, (∀ g, k = 4 * d + g → g < 4 → used g → mget 0 w'.r.side k = BitVec.ofNat 8 (code g)) ∧
        ((∀ g < 4, k = 4 * d + g → ¬ used g) → mget 0 w'.r.side k = mget 0 w.r.side k)) ∧
    (LaneAt s w (.unpackg f) unpack E → steps (.unpackg f) unpack.srcs fun w' => rest w' [d, d + 1, d + 2, d + 3] ∧
      ∀ L < 32, E.getLsbD L = true → ∀ m < 4, vread w' (d + m) L = BitVec.ofNat 32 (fround fp32 .rne (ftz w) false
        (g8V (bitsOf (v L) (8 * m + 7) (8 * m)) (mget 0 w.r.side (4 * a + L / 8)).toNat))) ∧
    (LaneAt s w (.nqdec f) dec E → steps (.nqdec f) dec.srcs fun w' => rest w' ((List.range count).map fun k => d + k) ∧
      ∀ L < 32, E.getLsbD L = true → ∀ n < count, vread w' (d + n) L =
        BitVec.ofNat 32 (if f.ty = 2 then nib fp32 n L else nib fp16 (2 * n) L + nib fp16 (2 * n + 1) L * 2 ^ 16))

/-- In each execute lane RAND writes to the pair the mix of the counter of the lane, the two key words and the lane
number; RANDU writes the FP32 number (2 × bits 63:41 + 1) × 2^−24 of that draw. The counters of the execute lanes
advance by one, those of the others stay; other registers and lanes, and every byte of memory, stay. -/
def Obligations.RandomValues : Prop :=
  ∀ (s : State) (w : Wave) (f : LaneFields) (E : W32),
    let d := f.dest.toNat
    let draw (L : Nat) : W64 := mix (mget 0 w.c.rng L) w.y.rngkey0 w.y.rngkey1 L
    let unit (L : Nat) : W64 := BitVec.ofNat 64 (fround fp32 .rne false false (.fin false (2 * ((draw L).toNat / 2 ^ 41) + 1) (-24)))
    let runs (i : Instr) (op : Nat) (wide : Bool) (val : Nat → W64) : Prop :=
      LaneAt s w i { op := op, f := f, dst := pairOf wide d } E → ∃ t w', exec i s = .next t ∧ LaneSteps s t w w' [] ∧
        (∀ L < 32, E.getLsbD L = true → laneValue w' wide d L = clip wide (val L)) ∧
        (∀ L < 32, mget 0 w'.c.rng L = if E.getLsbD L then mget 0 w.c.rng L + 1 else mget 0 w.c.rng L) ∧
        (∀ n L, L < 32 → isBank w n = false → n ∉ pairOf wide d ∨ E.getLsbD L = false → vread w' n L = vread w n L) ∧
        w' = { w with r := { w.r with v := w'.r.v, side := w'.r.side, poison := w'.r.poison }, c := { w.c with rng := w'.c.rng } } ∧ PoisonFades w w'
    runs (.rand f) 0x47 true draw ∧ runs (.randu f) 0x48 false unit

/-- PROPOSE with no open proposal and a group of 1 to 64 inside the window opens it: a group that was already defined
there keeps its registers; for another the lines of the old group take the values that were selected and the selector
bits of the new one are cleared. ACCEPT counts a proposal in each execute lane and an acceptance where λ is a number
of at least ln u; where it accepts, registers that were written change sides; all written marks are cleared and the
proposal is closed. PDISCARD clears the marks and closes. PREAD gives the selected line of the named register, once
full, PCOUNT a counter of the lane. Memory stays. -/
def Obligations.ProposalBanks : Prop :=
  ∀ (s : State) (w : Wave) (f : LaneFields) (E : W32),
    let b := f.xf 9 0
    let n := f.xf 16 10
    let d := f.dest.toNat
    let mask := (getSplit w s.split).mask
    let same := w.c.pdefined = true ∧ w.c.gbase.toNat = b ∧ w.c.gcount.toNat = n
    let useB := f.xf 0 0 = 1
    let accSrcs : List (Src × Bool) := (f.a, false) :: if useB then [(f.b, false)] else []
    let u (L : Nat) : Nat := if useB then (source s w f f.b false L).toNat else randuOf (drawOf w L)
    let ok (L : Nat) : Bool := E.getLsbD L && accepts (source s w f f.a false L).toNat (u L)
    let idx (L : Nat) : W64 := source s w f f.a false L
    let line (L : Nat) : Nat := w.c.gbase.toNat + (idx L).toNat
    let sel (L : Nat) : Nat := if sideBit w (line L) L then bankOf w (line L) else line L
    let bad : W32 := laneMask ((lanesOf E).filter fun L => preadBad w (idx L))
    let steps (i : Instr) (srcs : List (Src × Bool)) (P : Wave → Prop) : Prop := ∃ t w', exec i s = .next t ∧ LaneSteps s t w w' srcs ∧ P w'
    let prop := LaneAt s w (.propose f) { op := 0x49, f := f, early := fun _ => n = 0 || decide (64 < n) } E
    (prop → w.c.popen = false → b + 2 * n ≤ w.winsize → steps (.propose f) [] fun w' => w'.c.popen = true ∧ w'.c.pdefined = true ∧
      w'.c.gbase.toNat = b ∧ w'.c.gcount.toNat = n ∧ w'.r.s = w.r.s ∧ w'.r.k = w.r.k ∧ w'.y = w.y ∧ (same → w'.r = w.r) ∧
      (¬ same → (∀ k L, b ≤ k → k < b + 2 * n → L < 32 → sideBit w' k L = false) ∧
        (w.c.pdefined = true → ∀ k ∈ homeRegs w, ∀ L < 32, mget 0 w'.r.v (32 * k + L) = vread w k L))) ∧
    (prop → w.c.popen = true → ∃ t, exec (.propose f) s = .next t ∧ LaneTraps s t w (.propose f) 0x0F mask 0) ∧
    (prop → w.c.popen = false → w.winsize < b + 2 * n → ∃ t, exec (.propose f) s = .next t ∧ LaneTraps s t w (.propose f) 0x03 mask 0) ∧
    (LaneAt s w (.accept f) { op := 0x4A, f := f, srcs := accSrcs, early := fun w => !w.c.popen } E →
      steps (.accept f) accSrcs fun w' => w'.c.popen = false ∧
        (∀ L < 32, mget 0 w'.c.pcount L = mget 0 w.c.pcount L + if E.getLsbD L then 1 else 0) ∧
        (∀ L < 32, mget 0 w'.c.acount L = mget 0 w.c.acount L + if ok L then 1 else 0) ∧
        w'.y.pprop = w.y.pprop + BitVec.ofNat 32 (lanesOf E).length ∧
        w'.y.pacc = w.y.pacc + BitVec.ofNat 32 ((lanesOf E).filter ok).length ∧
        (∀ k ∈ homeRegs w, ∀ L < 32, sideBit w' k L = (sideBit w k L != (ok L && sideBit w (bankOf w k) L)) ∧
          sideBit w' (bankOf w k) L = false) ∧
        (∀ L < 32, mget 0 w'.c.rng L = if E.getLsbD L ∧ ¬ useB then mget 0 w.c.rng L + 1 else mget 0 w.c.rng L) ∧ w'.r.v = w.r.v) ∧
    (LaneAt s w (.pdiscard f) { op := 0x4B, f := f } E → steps (.pdiscard f) [] fun w' => w'.c.popen = false ∧ w'.r.v = w.r.v ∧
      (w.c.popen = false → w' = w) ∧ (w.c.popen = true → ∀ k ∈ homeRegs w, ∀ L < 32,
        sideBit w' (bankOf w k) L = false ∧ sideBit w' k L = sideBit w k L)) ∧
    (LaneAt s w (.pread f) { op := 0x4C, f := f, srcs := [(f.a, false)], dst := [d] } E → bad = 0 →
      (∀ L, E.getLsbD L = true → emptyV w (line L) = false ∧ mfind w.r.poison (4 * sel L + L / 8) = none) → ∃ t, exec (.pread f) s = .next t ∧
      LaneWrites s t w [(f.a, false)] E false d fun L => (mget 0 w.r.v (32 * sel L + L)).zeroExtend 64) ∧
    (LaneAt s w (.pread f) { op := 0x4C, f := f, srcs := [(f.a, false)], dst := [d] } E → bad ≠ 0 →
      ∃ t, exec (.pread f) s = .next t ∧ LaneTraps s t w (.pread f) 0x03 bad 0) ∧
    (LaneAt s w (.pcount f) { op := 0x4D, f := f, dst := [d] } E → ∃ t, exec (.pcount f) s = .next t ∧
      LaneWrites s t w [] E false d fun L => (if f.xf 0 0 = 0 then mget 0 w.c.pcount L else mget 0 w.c.acount L).zeroExtend 64)

/-- TCPF completes having asked for each tile of its lanes. TCPIN completes when every lane is done; with X bit 5 it takes
one pin of the team off the tile. TCHALO adds a job of the bytes of R160 counted into the barrier of X bits 10:5 and
sends the strip that starts it. TCINV advances the generation of the tensor by 1 modulo 4,096 in its table, notifies
the seven other dies and the wave waits. TCFLUSH, once none of the wave’s stores is on its way, writes the dirty
frames of its range back, adds a job and asks the other dies, or the home of a package-coherent tensor. A slot that
was never bound traps with cause 0x0B. -/
def Obligations.TileCacheInstructions : Prop :=
  ∀ (s : State) (w : Wave) (f : LaneFields) (E : W32) (r : Record) (tile : ElemTile) (s1 : State),
    let who := waveWho s w
    let team := teamKey w.launch w.team
    let A : List (Src × Bool) := [(f.a, true)]
    let slot := slotOf s w (tcSlot f)
    let ends (i : Instr) (P : State → Wave → Prop) : Prop := ∃ t w', exec i s = .next t ∧ t.wave? s.focus = some w' ∧
      (getSplit w' s.split).lpc = (getSplit w s.split).lpc + 12 ∧ w'.r.s = w.r.s ∧ w'.r.v = w.r.v ∧ w'.r.k = w.r.k ∧ w'.y = w.y ∧ P t w'
    let traps (i : Instr) (code : Nat) (srcs : List (Src × Bool)) : Prop :=
      LaneAt s w i { op := code, f := f, srcs := srcs } E → ∃ t, exec i s = .next t ∧ LaneTraps s t w i 0x0B E 0
    let range := f.xf 4 4 = 1
    let flSrcs : List (Src × Bool) := if range then [(f.a, true), (f.b, true)] else []
    let large := range ∧ (2 ^ 48 ≤ (tcOperand s w f 0).toNat ∨ 2 ^ 48 ≤ (srcVal s w [] 0 f.b true 0).toNat)
    let lo : BitVec 48 := if large then BitVec.allOnes 48 else if range then (tcOperand s w f 0).extractLsb' 0 48 else 0
    let hi : BitVec 48 := if large then 0 else if range then (srcVal s w [] 0 f.b true 0).extractLsb' 0 48 else BitVec.allOnes 48
    let asked := if tensorPcoh (flushHome s who.d r.tid lo hi) r.tid then [tensorHome r.tid] else (List.range 8).filter fun e => e ≠ who.d
    let home := tensorHome r.tid
    let gen := s.entryNat r.tid 12 2
    let wrap := (gen + 1) % 4096 = 0
    let unpinned := (List.range 8).foldl (fun s d => s.modCache d (unpinTensor r.tid wrap)) s
    let bumped := unpinned.unitWrite home (genAddr unpinned r.tid) (leBytes 2 (gen / 4096 * 4096 + (gen + 1) % 4096))
    (LaneAt s w (.tcpf f) { op := 0x4F, f := f, srcs := A } E → tcUnbound s w f = false →
      s1 = (lanesOf E).foldl (fun s' L => (tcpfPlaces s' w f (tcOperand s' w f L)).foldl (prefetchTile (waveWho s' w)) s') s → s1.split = s.split →
      s1.focus = s.focus → ends (.tcpf f) fun t _ => t.mem = s1.mem ∧ t.dies = s1.dies ∧ t.agenda = s1.agenda) ∧
    (LaneAt s w (.tcpin f) { op := 0x52, f := f, srcs := A } E → tcUnbound s w f = false →
      (lanesOf E).foldl (pinLane f w) (s, 0) = (s1, E) → s1.split = s.split → s1.focus = s.focus →
      ends (.tcpin f) fun t _ => t.mem = s1.mem ∧ t.dies = s1.dies ∧ t.agenda = s1.agenda) ∧
    (LaneAt s w (.tchalo f) { op := 0x50, f := f, srcs := A } E → slot = some r → r.packed? (tcOperand s w f 0) = some tile → r.halo = true →
      ends (.tchalo f) fun t _ => t.mem = s.mem ∧ (∀ e, t.frames e = s.frames e) ∧ ∃ j n, j ∈ (t.die who.d).cache.jobs ∧
        j.kind = 2 ∧ j.tid = r.tid ∧ j.team = team ∧ j.bar = some (f.xf 10 5) ∧ j.bytes = haloBytes r ∧
        Instr.haloStripLand (Fin.ofNat 8 who.d) n ∈ t.agenda) ∧
    (LaneAt s w (.tcinv f) { op := 0x51, f := f } E → slot = some r → fetchPinned s r.tid = false →
      ends (.tcinv f) fun t w' => t.mem = bumped.mem ∧ (∃ id, w'.wait = .bump id) ∧ ∀ e < 8, e ≠ home →
        Instr.bumpNotice (Fin.ofNat 8 e) (Fin.ofNat 8 home) r.tid (BitVec.ofNat 12 ((gen + 1) % 4096)) ∈ t.agenda) ∧
    (LaneAt s w (.tcflush f) { op := 0x53, f := f, srcs := flSrcs } E → slot = some r → pendingOf s who.d s.focus = false →
      ends (.tcflush f) fun t _ => t.mem = (flushHome s who.d r.tid lo hi).mem ∧ ∃ id,
        (∃ j ∈ (t.die who.d).cache.jobs, j.id = id ∧ j.kind = 1 ∧ j.bar = some (f.xf 10 5) ∧ j.bytes = 2048) ∧
        ∀ e ∈ asked, Instr.flreq (Fin.ofNat 8 e) (Fin.ofNat 8 who.d) r.tid lo hi id ∈ t.agenda) ∧
    (tcUnbound s w f = true → traps (.tcpf f) 0x4F A ∧ traps (.tcpin f) 0x52 A) ∧
    (slot = none → traps (.tchalo f) 0x50 A ∧ traps (.tcinv f) 0x51 [] ∧ traps (.tcflush f) 0x53 flSrcs)

/-- Where the sixteen reads of 8 bytes meet storage RECBIND binds the slot of X bits 3:0 to the record they give, if it
passes the checks, and steps; no register and no byte changes. A record that fails them traps with cause 0x0B and its
address; an address that is no multiple of 64 traps with cause 0x05, and a read that needs a faulty fill, before both,
with 0x0B at its tile. -/
def Obligations.RecordBind : Prop :=
  ∀ (s : State) (w : Wave) (f : LaneFields) (E : W32) (u v : State) (g : Gather) (vals : List (Nat × W64)),
    let a := tcOperand s w f 0
    let L := lowestLane E
    let accs := (List.range 16).map fun k => ({ lane := L, key := 8 + k, va := a + BitVec.ofNat 64 (8 * k), n := 8, kind := .load, counted := k = 0 } : LaneAcc)
    let bytes := (List.range 16).flatMap fun k => leBytes 8 ((mfind vals (32 * (8 + k) + L)).getD 0).toNat
    let r := recordAt a bytes
    let at' := LaneAt s w (.recbind f) { op := 0x54, f := f, srcs := [(f.a, true)] } E
    let read := a.toNat % 64 = 0 ∧ Gathered s s u w (.recbind f) accs g ∧ loadAll u w g.accs = (v, vals, 0)
    (at' → read → r.ok = true → r.entryOk v (waveWho v w).pid = true → ∃ t, exec (.recbind f) s = .next t ∧
      LaneSteps (setSlot v w (tcSlot f) r) t w w [] ∧
      (s.team? (teamKey w.launch w.team) ≠ none → slotOf t w (tcSlot f) = some r)) ∧
    (at' → read → r.ok = false ∨ r.entryOk v (waveWho v w).pid = false → ∃ t, exec (.recbind f) s = .next t ∧
      LaneTraps v t w (.recbind f) 0x0B E a) ∧
    (at' → a.toNat % 64 ≠ 0 → faultyAccs s w (.recbind f) accs = none → ∃ t, exec (.recbind f) s = .next t ∧
      LaneTraps s t w (.recbind f) 0x05 E a) ∧
    (at' → ∀ y ys, (placedAccs s w accs).filter (fun p => match p.2 with
        | .ok q => fillFaults s p.1.kind (waveWho s w).d q | _ => false) = y :: ys →
      ∃ t, exec (.recbind f) s = .next t ∧ LaneTraps s t w (.recbind f) 0x0B (BitVec.twoPow 32 L) (tileStart y.1))

/-- With an entry free for the wave each sequencer instruction completes: its entry, with the instruction, its wave, its
lane address and its lanes, stands at the end of the queue of the cluster; the registers it holds, or for TMOVV those
it will write, are empty; the lane counter steps. An MMA or MMAG with AFTER set is attached to the last copy of the
wave instead, if that has not landed. No register value, no accumulator, no other wave and no byte of memory changes.
TCFG with a shape byte that is not legal traps with cause 0x0C. -/
def Obligations.MatrixIssue : Prop :=
  ∀ (s : State) (w : Wave) (f : LaneFields) (E : W32) (s1 : State),
    let who := waveWho s w
    let k := clusterKey who.d who.cluster
    let sh (op : Nat) (dst more : List Nat) : Shape := { op := op, f := f, srcs := seqSrcs op f, dst := dst, dstMore := more }
    let d := pairOf (f.ty = 3) f.dest.toNat
    let follows (op : Nat) : Prop := (op = 0x5B ∨ op = 0x5C) ∧ f.xf 12 12 = 1 ∧ ∃ x, followOf s w = some x ∧ (x.landed = none ∨ x.follow ≠ none)
    let enters (i : Instr) (op : Nat) (dst more : List Nat) : Prop :=
      LaneAt s w i (sh op dst more) E → seqRoom s who.d who.cluster s.focus = some s1 → ¬ follows op →
        ∃ t w' e, exec i s = .next t ∧ t.wave? s.focus = some w' ∧ e ∈ (t.cluster k).seq ∧ e.inst = instBits i ∧ e.op = op ∧ e.f = f ∧
          e.wave = s.focus ∧ e.lanes = E ∧ e.tlpc = w.y.lanebase + (getSplit w s.split).lpc.zeroExtend 64 ∧
          (∀ n < 1024, emptyV w' n = (emptyV w n || decide (n ∈ emptied e))) ∧ w'.r.v = w.r.v ∧ w'.r.s = w.r.s ∧ w'.r.k = w.r.k ∧
          w'.y = w.y ∧ (getSplit w' s.split).lpc = (getSplit w s.split).lpc + 12 ∧ (∀ j, j ≠ s.focus → t.wave? j = s.wave? j) ∧
          t.mem = s.mem ∧ ∀ e, t.frames e = s.frames e
    let joins (i : Instr) (op : Nat) : Prop := LaneAt s w i (sh op [] []) E → follows op → ∀ x, followOf s w = some x → x.follow = none →
      x.landed = none → ∃ t y e, exec i s = .next t ∧ y ∈ (t.cluster k).copies ∧ y.id = x.id ∧ y.follow = some e ∧ e.inst = instBits i ∧
        e.wave = s.focus ∧ e.lanes = E ∧ (t.cluster k).seq = (s.cluster k).seq
    let shape := srcVal s w [] 0 f.a true 0
    let bad := (List.range 8).any fun i => shapeBad (s.team (teamKey w.launch w.team)).tilemax i (bitsOf shape.toNat (8 * i + 7) (8 * i))
    (bad = false → enters (.tcfg f) 0x58 [] []) ∧
    (bad = true → LaneAt s w (.tcfg f) (sh 0x58 [] []) E → ∃ t, exec (.tcfg f) s = .next t ∧ LaneTraps s t w (.tcfg f) 0x0C E 0) ∧
    joins (.mma f) 0x5B ∧ joins (.mmag f) 0x5C ∧ enters (.trel f) 0x59 [] [] ∧ enters (.tzero f) 0x5A [] [] ∧ enters (.mma f) 0x5B [] [] ∧ enters (.mmag f) 0x5C [] [] ∧
    enters (.tlda f) 0x5D [] [] ∧ enters (.tsta f) 0x5E [] [] ∧
    enters (.tmovv f) 0x5F d ((tmovvRegs f).filter fun n => !d.contains n)

/-- With a slot free for the wave and its tiles inside their tensors, CPY of a box gives the copy engine a command of its
number of tiles, CPYG one of its rows after it has read its list, COLL one of its ranks; the command is listed for the
cluster with its operands and is a pending copy of the wave, which goes on by 12 bytes. No register and no byte
changes. CPY with a box outside its tensor or more than 65,536 tiles, and CPYG or COLL with an unbound record, trap
with cause 0x0B. -/
def Obligations.CopyIssue : Prop :=
  ∀ (s : State) (w : Wave) (f : LaneFields) (E : W32) (ra rb : Option Record) (u v : State) (g : Gather) (vals : List (Nat × W64)) (mem : List LaneAcc) (r1 r2 rl : Record),
    let who := waveWho s w
    let k := clusterKey who.d who.cluster
    let a := copyVal s w f.a
    let b := copyVal s w f.b
    let c := (copyVal s w f.c).toNat
    let n0 := bitsOf c 11 0 + 1
    let n := n0 * (bitsOf c 23 12 + 1)
    let sf := f.xf 4 4 = 1
    let df := f.xf 9 9 = 1
    let L := lowestLane E
    let issued (i : Instr) (P : CopyCmd → Prop) : Prop := ∃ t w' x, exec i s = .next t ∧ t.wave? s.focus = some w' ∧
      x ∈ (t.cluster k).copies ∧ x.inst = instBits i ∧ x.wave = s.focus ∧ x.f = f ∧ x.a = a ∧ x.b = b ∧ w'.pendCopies = w.pendCopies ++ [x.id] ∧
      w'.r.v = w.r.v ∧ w'.r.s = w.r.s ∧ w'.r.k = w.r.k ∧ w'.r.vEmpty = w.r.vEmpty ∧ w'.y = w.y ∧
      (getSplit w' s.split).lpc = (getSplit w s.split).lpc + 12 ∧ P x
    let cpy := LaneAt s w (.cpy f) { op := 0x55, f := f, srcs := copySrcs f true } E
    let sides := copyRec s w sf (f.xf 3 0) = some ra ∧ copyRec s w df (f.xf 8 5) = some rb
    let fits := c < 2 ^ 24 ∧ n ≤ 65536 ∧ (∀ x y, ra = some x → rb = some y → x.efmt = y.efmt) ∧ (¬ sf → a.toNat < 2 ^ 48) ∧
      (¬ df → b.toNat < 2 ^ 48) ∧ cpyTile ra a n0 (n - 1) ≠ none ∧ cpyTile rb b n0 (n - 1) ≠ none
    let whole := (sf → a.toNat % 2048 = 0) ∧ (df → b.toNat % 2048 = 0)
    let nr := bitsOf c 30 24 + 1
    let len := (bitsOf c 42 31 + 1) * r1.ext 0
    let els := (List.range nr).map fun r => listAt? rl (bitsOf c 19 0 + r)
    let list := (List.range nr).map fun r => ((mfind vals (32 * (8 + r) + L)).getD 0).toNat
    let row (r : Nat) : Int := sgn 32 (list.getD r 0)
    let slots := slotOf s w (f.xf 3 0) = some r1 ∧ slotOf s w (f.xf 8 5) = some r2
    let op := f.xf 23 22
    let mask := if op = 0 then 0 else namedMask s w (f.xf 20 16 - 16)
    let rank := popcount (mask &&& (BitVec.twoPow 512 (64 * who.d + who.cluster) - 1))
    let ranks := if op = 2 then popcount mask else 1
    let coll := LaneAt s w (.coll f) { op := 0x57, f := f, srcs := copySrcs f false } E
    (cpy → sides → fits → whole → copyRoom s who.d who.cluster s.focus = true → issued (.cpy f) fun x =>
      x.op = 0x55 ∧ x.c.toNat = c ∧ x.src = ra ∧ x.dst = rb ∧ x.steps = n ∧ x.size = 2048) ∧
    (cpy → sides → ¬ fits → ∃ t, exec (.cpy f) s = .next t ∧ LaneTraps s t w (.cpy f) 0x0B E 0) ∧
    (LaneAt s w (.cpyg f) { op := 0x56, f := f, srcs := copySrcs f true } E → slots → slotOf s w (bitsOf c 23 20) = some rl →
      c < 2 ^ 43 → a.toNat < 2 ^ 48 → b.toNat < 2 ^ 48 → rl.efmt = 0x06 → r1.efmt = r2.efmt → r1.efmt ≠ efmtG8 → r1.efmt ≠ efmtNq4 →
      (∀ e ∈ els, e ≠ none) →
      mem = (els.filterMap id).mapIdx (fun r x =>
        ({ lane := L, key := 8 + r, va := BitVec.ofNat 64 (x.1.va + 4 * x.2), n := 4, kind := .load, tile := some x.1 } : LaneAcc)) →
      Gathered s s u w (.cpyg f) mem g → loadAll u w g.accs = (v, vals, 0) → Quiet v w → v.focus = s.focus → v.split = s.split →
      waveWho v w = who →
      (∀ r < nr, 0 ≤ row r → cpygAt r1 a (row r) (len - 1) ≠ none ∧ cpygAt r2 b (elemBase r2 b 1 + r) (len - 1) ≠ none) →
      copyRoom v who.d who.cluster s.focus = true → issued (.cpyg f) fun x =>
        x.op = 0x56 ∧ x.src = some r1 ∧ x.dst = some r2 ∧ x.list = list ∧ x.steps = nr) ∧
    (coll → slots → a.toNat < 2 ^ 48 → b.toNat < 2 ^ 48 → r1.efmt = r2.efmt → (op = 0 → collKind r1.efmt ≠ none) →
      tileAt r1 (coordOf a) ≠ none → (∀ j < ranks, collTile r2 b ((if op = 1 then rank else 0) + j) ≠ none) →
      copyRoom s who.d who.cluster s.focus = true → issued (.coll f) fun x =>
        x.op = 0x57 ∧ x.src = some r1 ∧ x.dst = some r2 ∧ x.steps = ranks ∧ (op = 1 → x.rank = rank)) ∧
    (coll → slotOf s w (f.xf 3 0) = none → ∃ t, exec (.coll f) s = .next t ∧ LaneTraps s t w (.coll f) 0x0B E 0)

/-- For the power core (firmware core 13) while it can make accesses, and a die that is up: each of the twelve island and
throttle events completes, changes only the fields and power state named, and MOVING of each island it concerns says
whether its step or gate is still to change. The effective step is the lowest of STEP, the power cap and 15 less the
thermal steps. POWER_THROTTLE_DOWN needs die power above POLICY, UP power below 95% of it, thermal down 105, up below
100, shutdown 115 degrees. Every reading shows in TEMP. Setting GATE moves the suspended teams of the island. Power-
off needs a gated, empty island without copies elsewhere and writes its slices back first. -/
def Obligations.IslandsAndThrottles : Prop :=
  ∀ (s : State) (d : DieId) (i : Fin 16) (step : BitVec 4) (value : W64) (n : Nat),
    let ctl := 0x1000 + 8 * i.val
    let stat := 0x1080 + 8 * i.val
    let gate (x : State) (k : Nat) : Bool := x.ctlBits d (0x1000 + 8 * k) 4 4 = 1
    let gated (x : State) (k : Nat) : Bool := x.ctlBits d (0x1080 + 8 * k) 8 8 = 1
    let eff (x : State) (k : Nat) : Nat :=
      min (x.ctlBits d (0x1000 + 8 * k) 3 0) (min (x.die d).power.cap (15 - mget 0 (x.die d).power.thermal k))
    let moving (x : State) (k : Nat) : Nat :=
      if gate x k ≠ gated x k ∨ (gated x k = false ∧ x.ctlBits d (0x1080 + 8 * k) 3 0 ≠ eff x k) then 1 else 0
    let thermal := mget 0 (s.die d).power.thermal i.val
    let limit := s.ctlBits d 0x2000 15 0
    let die := s.die d
    let leaves (x : Team) : Prop := x.die = d.val ∧ x.cluster / 4 = i.val ∧ x.phase = .suspended
    let ends (e : Instr) (p : State → Prop) : Prop := ∃ t, exec e s = .next t ∧ p t
    let only (s t : State) (power : PowerState) (sent : List Instr) (l : List (Nat × Nat × Nat × Nat)) : Prop :=
      DieActs s t d { s.die d with ctl := (t.die d).ctl, power := power } sent [] ∧ Fields s t d l
    (masterStopped s d (.fw 5) = false →
      ends (.vfiStepRequest d i step (.fw 5)) (fun t => only s t die.power [] [(ctl, 3, 0, step.toNat), (stat, 9, 9, moving t i)]) ∧
      ends (.vfiGateSet d i (.fw 5)) (fun t => Fields s t d [(ctl, 4, 4, 1), (stat, 9, 9, moving t i)] ∧
        ((∀ p ∈ s.teams, ¬ leaves p.2) → only s t die.power (once s (.placementDecision d)) [(ctl, 4, 4, 1), (stat, 9, 9, moving t i)]) ∧
        ∀ k x, s.team? k = some x → if leaves x then t.team? k = some { x with phase := .moving } ∧ .teamMoveComplete d k ∈ t.agenda
          else t.team? k = some x) ∧
      ends (.vfiGateClear d i (.fw 5)) (fun t =>
        only s t die.power (if gated s i then [] else once s (.placementDecision d)) [(ctl, 4, 4, 0), (stat, 9, 9, moving t i)]) ∧
      ends (.pwrlimWrite d value (.fw 5)) (fun t =>
        only s t die.power [] [(0x2000, 15, 0, min (wbits value 15 0) (s.ctlBits d 0x2000 31 16))])) ∧
    (dieDown s d = false → gated s i = false →
      ends (.vfiStepChangeComplete d i) fun t => only s t die.power [] [(stat, 3, 0, eff s i), (stat, 9, 9, moving t i)]) ∧
    (dieDown s d = false → gate s i = true → gated s i = false → islandEmpty s d i = true →
      (∀ f ∈ islandFrames s d i, evictable f = true ∧ copiesOut d f = false) →
      ends (.islandPowerOff d i) fun t =>
        let u := (islandFrames s d i).foldl (fun s f => evict s d f) s
        only u t { (u.die d).power with off := (u.die d).power.off ||| BitVec.twoPow 16 i.val } [] [(stat, 8, 8, 1), (stat, 9, 9, moving t i)]) ∧
    (gate s i = false → gated s i = true → ends (.islandPowerRestored d i) fun t =>
      only s t { die.power with off := die.power.off &&& ~~~(BitVec.twoPow 16 i.val) } (once s (.placementDecision d))
        [(stat, 8, 8, 0), (stat, 3, 0, eff s i), (stat, 9, 9, moving t i)]) ∧
    (limit < n → ends (.powerThrottleDown d n) fun t => only s t { die.power with cap := die.power.cap - 1 } []
      ((List.range 16).flatMap fun k => [(0x1080 + 8 * k, 10, 10, 1), (0x1080 + 8 * k, 9, 9, moving t k)])) ∧
    (n * 100 < limit * 95 → die.power.cap < 15 → ends (.powerThrottleUp d n) fun t =>
      only s t { die.power with cap := die.power.cap + 1 } [] ((List.range 16).flatMap fun k =>
        (if die.power.cap = 14 then [(0x1080 + 8 * k, 10, 10, 0)] else []) ++ [(0x1080 + 8 * k, 9, 9, moving t k)])) ∧
    (105 ≤ n → ends (.thermalThrottleDown d i n) fun t =>
      only s t { die.power with thermal := mput 0 die.power.thermal i (min 15 (thermal + 1)), dieOff := die.power.dieOff || decide (115 ≤ n) } []
        [(stat, 23, 16, min 255 n), (stat, 11, 11, 1), (stat, 9, 9, moving t i)]) ∧
    (n < 100 → ends (.thermalThrottleUp d i n) fun t =>
      only s t { die.power with thermal := mput 0 die.power.thermal i (thermal - 1) } []
        [(stat, 23, 16, min 255 n), (stat, 11, 11, if thermal ≤ 1 then 0 else 1), (stat, 9, 9, moving t i)]) ∧
    (100 ≤ n → n < 105 → ends (.thermalThrottleDown d i n) (fun t => only s t die.power [] [(stat, 23, 16, n)]) ∧
      ends (.thermalThrottleUp d i n) fun t => only s t die.power [] [(stat, 23, 16, n)]) ∧
    (115 ≤ n → ends (.dieThermalShutdown d n) fun t => DieActs s t d { die with power := { die.power with dieOff := true } } [] [])

/-- POWER_ON leaves the reset state but for the fused minimum SVNs, the fuses and memory outside the package.
BOOT_PHASE_COMPLETE of a die that is up raises PHASE by 1; phase 2 sets the SVN, manifest digest, identity keys and
DIEID, or fails with code 2; phase 4 brings up the bridge ports that found the die at the other end of one of their
bridges; failed training fails with code 2; the bound fails with code 1; a failed die is halted. FWMBCTL moves a
message from FWOUT to the DEST queue and from the queue to FWIN. A watchdog freezes its core, of which the error core
tells the instance, and a restart frees it. A well-formed attestation request for a die of the package sends 8
messages with the 320-byte report. -/
def Obligations.BringUpAndFirmware : Prop :=
  ∀ (s : State) (d : DieId) (r : BootReport) (k : Fin 8) (body : Body),
    let ends (e : Instr) (p : State → Prop) : Prop := ∃ t, exec e s = .next t ∧ p t

    let phase := s.ctlBits d 0x20 3 0
    let only (t : State) (l : List (Nat × Nat × Nat × Nat)) : Prop := DieActs s t d { s.die d with ctl := (t.die d).ctl } [] [] ∧ Fields s t d l
    let fails (e : Instr) (code : Nat) : Prop := ends e fun t =>
      DieActs s t d { s.die d with ctl := (t.die d).ctl, power := { (s.die d).power with halted := true } } [] [] ∧
        Fields s t d [(0x20, 15, 12, code), (0x20, 8, 8, 1)]
    let box := 0x7000 + 0x80 * k.val
    let dest := s.ctlBits d (box + 0x20) 11 8 - 8
    let queue (x : State) (n : Nat) : List (BitVec 256) := mget [] (x.die d).fw.inbox n
    let shot : FwState := { (s.die d).fw with
      frozen := (s.die d).fw.frozen ||| BitVec.twoPow 8 k.val
      history := (s.die d).fw.history ++ [(8 + k.val, s.now)] }
    let asker := bodyNat body 4 2 % 512
    let reply : Fin 16 := Fin.ofNat 16 (bodyNat body 6 1)
    ends .powerOn (fun t =>
      (∀ e, t.die e = { fw := { minSvn := (s.die e).fw.minSvn } }) ∧ (∀ c, t.cellByte c = if c < 2 ^ 64 then 0 else s.cellByte c) ∧
        t = { State.reset with
          ticks := s.ticks
          draws := s.draws
          dies := t.dies
          mem := t.mem
          mempoison := t.mempoison
          outbox := s.outbox
          fuses := s.fuses
          keyDigest := s.keyDigest }) ∧
    (dieDown s d = false →
      (phase < 2 ∨ (phase = 3 ∧ r.trained = true) → ends (.bootPhaseComplete d r) fun t => only t [(0x20, 3, 0, phase + 1)]) ∧
      ((phase = 3 ∨ phase = 4) ∧ r.trained = false → fails (.bootPhaseComplete d r) 2) ∧
      (phase = 2 → imageSetOk r s.keyDigest (s.die d).fw.minSvn = false → fails (.bootPhaseComplete d r) 2) ∧
      (phase = 2 → imageSetOk r s.keyDigest (s.die d).fw.minSvn = true → ends (.bootPhaseComplete d r) fun t =>
        t.ctlBits d 0x20 3 0 = 3 ∧ t.ctl d 0 = BitVec.ofNat 64 (r.pkg.toNat * 256 + d.val) ∧
          (t.die d).fw = { (s.die d).fw with
            svn := listNat (manifestOf r.images) 4 4
            digest := shake256 (manifestOf r.images) 64
            keys := r.identities }) ∧
      (phase = 4 → r.trained = true → ends (.bootPhaseComplete d r) fun t => t.ctlBits d 0x20 3 0 = 5 ∧
        ∀ p < 4, t.ctlBits d (0x3000 + 0x100 * p) 15 14 =
          if r.peers.any (fun x => x.1 = p && peerOk s d p x.2.toNat) then 1 else s.ctlBits d (0x3000 + 0x100 * p) 15 14) ∧
      (phase = 5 → ends (.bootPhaseComplete d r) fun t => t.ctlBits d 0x20 3 0 = 6 ∧ t.ctlBits d 0x6000 51 40 = r.hostPid.toNat ∧
        t.ctlBits d 0x6000 0 0 = if r.hostMode then 1 else 0) ∧
      (phase < 6 → fails (.bootPhaseBoundExceeded d) 1) ∧
      (fwUp s d k = true →
        ends (.firmwareWatchdogExpire d k) fun t => (t.die d).fw = shot ∧
          (shot.frozen.getLsbD 3 = false → ∃ b, ⟨d, 17, 8 + k.val, b⟩ ∈ t.outbox) ∧
          (t.die d).power.halted = ((s.die d).power.halted || mustWithdraw { s.die d with fw := shot })) ∧
      ends (.firmwareCoreRestart d k) (fun t =>
        (t.die d).fw = { (s.die d).fw with frozen := (s.die d).fw.frozen &&& ~~~(BitVec.twoPow 8 k.val) } ∧
        (k ≠ 4 ∨ (s.die d).conf.stuck = [] → DieActs s t d { s.die d with fw := (t.die d).fw } [] [])) ∧
      (fwUp s d 6 = true → bodyNat body 0 4 = 1 → bodyNat body 6 1 < 16 → bodyNat body 7 1 = 0 →
          bodyNat body 40 8 = 0 → asker / 8 = s.pkg → ends (.attestationRequest d body) fun t => ∃ msgs : List W512, msgs.length = 8 ∧
        t = { s with agenda := s.agenda ++ msgs.map fun m => .mailboxDeliver (Fin.ofNat 8 asker) reply m none } ∧
        ∀ p < 8, msgType (msgs.getD p 0) = 7 ∧ msgBody (msgs.getD p 0) =
          bodyOf (leBytes 4 0x81 ++ leBytes 1 p ++ zeros 3 ++ ((attestReport s d (leBytes 32 (bodyNat body 8 32))).drop (40 * p)).take 40))) ∧
    (masterStopped s d (.fw k) = false →
      ((queue s dest).length < 8 → ends (.fwmbctlSend d k (.fw k)) fun t =>
        DieActs s t d { s.die d with ctl := (t.die d).ctl, fw := { (s.die d).fw with inbox := (t.die d).fw.inbox } } [] [] ∧
        (∃ m, queue t dest = queue s dest ++ [m] ∧ ∀ n < 4, m.extractLsb' (64 * n) 64 = s.ctl d (box + 8 * n)) ∧
        (∀ n, n ≠ dest → queue t n = queue s n) ∧
        (dest < 8 → t.ctlBits d (0x7000 + 0x80 * dest + 0x20) 35 32 = (queue s dest).length + 1)) ∧
      ends (.fwmbctlRecv d k (.fw k)) (fun t =>
        DieActs s t d { s.die d with ctl := (t.die d).ctl, fw := { (s.die d).fw with inbox := (t.die d).fw.inbox } } [] [] ∧
        (∀ n < 4, t.ctl d (box + 0x28 + 8 * n) = ((queue s k).headD 0).extractLsb' (64 * n) 64) ∧
        queue t k = (queue s k).drop 1 ∧ (∀ n, n ≠ k.val → queue t n = queue s n) ∧
        ((queue s k).length ≤ 8 → t.ctlBits d (box + 0x20) 35 32 = (queue s k).length - 1)))

/-- On a link that is up and not fenced: FLIT_TRANSMIT sends the first queued flit that may go, sealed, and keeps it for
replay; on a sleeping link it starts a wake. A resend repeats the oldest unacknowledged flit, a completed retraining
all of them. A good new flit is taken after its acknowledgements and is counted as received; a flit that fails for the
first time is only noted, under its count, or one that it can have where that cannot be read; one already received is
nothing. An idle link sleeps after IDLE microseconds; a completed wake, begun at either end, sends what is queued; a
timed-out wake is tried once more, then the link is fenced. -/
def Obligations.LinkFlits : Prop :=
  ∀ (s : State) (d : DieId) (p : Fin 6) (bytes : List Byte) (n : Nat),
    let ends (e : Instr) (p : State → Prop) : Prop := ∃ t, exec e s = .next t ∧ p t

    let b := 0x3000 + 0x100 * p.val
    let state := s.ctlBits d b 15 14
    let fenced := s.ctlBits d b 16 16
    let x := portOf s d p
    let acts (t : State) (q : Port) (sent : List Instr) (out : List (List Byte)) (l : List (Nat × Nat × Nat × Nat)) : Prop :=
      DieActs s t d { s.die d with ctl := (t.die d).ctl, ports := mset (s.die d).ports p q } sent (out.map fun w => ⟨d, 10, p, w⟩) ∧
        Fields s t d l
    let queued : List Instr := x.txq.map fun _ => .flitTransmit d p
    let failed (s t : State) (c : Nat) : Prop :=
      DieActs s t d { s.die d with ports := mset (s.die d).ports p { x with fails := mset x.fails c 1 } } [] []
    (dieDown s d = false → fenced = 0 → state = 1 → x.training = false → x.replay.length < Config.replayFlits →
      ∀ l, nextFlit s d p x = some l → ends (.flitTransmit d p) fun t =>
        let slot := if 4 ≤ p.val then s.ctlBits d b 13 13 else 0
        let used := mget 0 x.sent slot + 1
        let wire := sealFlit s d p slot x.txCount (leBytes 16 (finishHeader x slot (listNat l 0 16)) ++ l.drop 16)
        acts t { x with
          txCount := x.txCount + 1
          txq := x.txq.erase l
          naks := x.naks.drop 1
          sent := mset x.sent slot used
          replay := x.replay ++ [⟨x.txCount, slot, l, wire⟩] } [] [wire]
          (if 4 ≤ p.val ∧ 2 ^ 40 ≤ used then [(b, 10, 10, 1)] else [])) ∧
    (dieDown s d = false → fenced = 0 → state = 2 → x.txq ≠ [] → ends (.flitTransmit d p) fun t =>
      acts t { x with tries := 1 } [] [] [(b, 15, 14, 3)]) ∧
    (fenced = 0 → state = 1 → ∀ f l, x.replay = f :: l → ends (.replayTimeoutResend d p) fun t =>
      DieActs s t d (s.die d) [] [⟨d, 10, p, f.wire⟩]) ∧
    (x.training = true → ends (.linkRetrainComplete d p) fun t =>
      acts t { x with training := false, fails := [] } queued (x.replay.map SentFlit.wire) []) ∧
    (dieDown s d = false → fenced = 0 → state = 1 →
      (openFlit s d p bytes = .uncorrectable → (∀ c ∈ failedCounts x, mget 0 x.fails c = 0) → ends (.flitReceive d p bytes) fun t =>
        ∃ c ∈ failedCounts x, failed s.draw t c) ∧
      (∀ c, openFlit s d p bytes = .failed c →
        (gotCount x c = true → exec (.flitReceive d p bytes) s = .next s) ∧
        (gotCount x c = false → mget 0 x.fails c = 0 → ends (.flitReceive d p bytes) fun t => failed s t c)) ∧
      (∀ l, openFlit s d p bytes = .good l →
        let h := listNat l 0 16
        let c := bitsOf h 63 16
        (c < x.rxNext ∨ c ∈ x.rxGot → exec (.flitReceive d p bytes) s = .next (keyProgress (takeAcks s d p h) d p)) ∧
        (x.rxNext ≤ c → c ∉ x.rxGot → ends (.flitReceive d p bytes) fun t =>
          t = keyProgress (takeFlit (takeAcks s d p h) d p c l) d p ∧ (c < (portOf t d p).rxNext ∨ c ∈ (portOf t d p).rxGot) ∧
            x.rxNext ≤ (portOf t d p).rxNext))) ∧
    (fenced = 0 → state = 1 → x.training = false → x.txq = [] → s.ctlBits d (b + 8) 15 4 ≠ 0 → s.ctlBits d (b + 8) 15 4 ≤ n →
      ends (.linkIdleSleep d p n) fun t => DieActs s t d { s.die d with ctl := (t.die d).ctl } [] [] ∧ Fields s t d [(b, 15, 14, 2)]) ∧
    (dieDown s d = false → fenced = 0 → state = 2 → ends (.linkWakeComplete d p) fun t =>
      acts t { x with tries := 0 } queued [] [(b, 15, 14, 1)]) ∧
    (state = 3 →
      (dieDown s d = false → fenced = 0 → ends (.linkWakeComplete d p) fun t => acts t { x with tries := 0 } queued [] [(b, 15, 14, 1)]) ∧
      (x.tries < 2 → ends (.linkWakeTimeout d p) fun t => acts t { x with tries := x.tries + 1 } [] [] []) ∧
      (2 ≤ x.tries → fenced = 0 → ends (.linkWakeTimeout d p) fun t => t.ctlBits d b 16 16 = 1 ∧ t.ctlBits d b 15 14 = 0 ∧
        (portOf t d p).replay = [] ∧ (portOf t d p).txq = []))

/-- For the link core (firmware core 12): a word of KEY(n) is stored, the last one makes the slot key of the four words,
and a write to a slot in use only sets the refusal bit. ROLL makes the other slot current if it holds a key. At 2^40
flits the key has expired. A timer, or the first nonce of the peer, starts an exchange with a fresh nonce and secret;
a nonce is answered by three flits; a good report accepts the peer, a bad one fences the link; a good ephemeral key
installs the derived key in the other slot, or keeps it until that is free; KEYREADY rolls to the key and ends the
exchange. -/
def Obligations.LinkKeys : Prop :=
  ∀ (s : State) (d : DieId) (p : Fin 6) (n : Fin 2) (word : Fin 4) (value : W64) (hours : Nat) (payload : List Byte),
    let ends (e : Instr) (p : State → Prop) : Prop := ∃ t, exec e s = .next t ∧ p t

    let b := 0x3000 + 0x100 * p.val
    let cur := s.ctlBits d b 13 13
    let x := portOf s d p
    let up : Prop := linkCoreUp s d = true
    let acts (t : State) (q : Port) (sent : List Instr) : Prop :=
      DieActs s t d { s.die d with ports := mset (s.die d).ports p q } sent []
    let starts (t : State) : Prop := t.draws = s.draws + 2 ∧ (portOf t d p).kxOn = true ∧
      (portOf t d p).ownNonce = leBytes 32 (Config.freshSecret s.draws).toNat ∧ (portOf t d p).secret = Config.freshSecret (s.draws + 1) ∧
      (portOf t d p).wanted = none ∧ (portOf t d p).ready = false ∧ (portOf t d p).peerReady = false
    let kinds (l : List (List Byte)) : List Nat := l.map fun f => listNat f 16 2
    (masterStopped s d (.fw 4) = false →
      (slotUsed s d p n = true → ends (.keyWrite d p n word value (.fw 4)) fun t =>
        DieActs s t d { s.die d with ctl := (t.die d).ctl } [] [] ∧ Fields s t d [(b, 11, 11, 1)]) ∧
      (slotUsed s d p n = false → ends (.keyWrite d p n word value (.fw 4)) fun t =>
        let words := mset x.keyWords (4 * n.val + word.val) value
        DieActs s t d { s.die d with ctl := (t.die d).ctl, ports := (t.die d).ports } [] [] ∧ Fields s t d [(b, 11, 11, 0)] ∧
        (∀ q, q ≠ p.val → portOf t d q = portOf s d q) ∧ (word ≠ 3 → portOf t d p = { x with keyWords := words }) ∧
        (word = 3 → ∃ key, portOf t d p = { x with keyWords := words, keys := mset x.keys n key } ∧ key.extractLsb' 192 64 = value ∧
          ∀ w < 3, key.extractLsb' (64 * w) 64 = mget 0 x.keyWords (4 * n.val + w))) ∧
      (4 ≤ p.val → s.ctlBits d b 12 12 = 0 → (mfind x.keys (1 - cur)).isSome = true → ends (.lnkctlRoll d p (.fw 4)) fun t =>
        t.ctlBits d b 13 13 = 1 - cur ∧ t.ctlBits d b 10 10 = 0 ∧
        t.ctlBits d b 12 12 = (if x.replay.any fun f => f.slot = cur then 1 else 0) ∧ (portOf t d p).keySet = true ∧
        mfind (portOf t d p).keys (1 - cur) = mfind x.keys (1 - cur))) ∧
    (4 ≤ p.val → 2 ^ 40 ≤ mget 0 x.sent cur → ends (.keyExpire d p) fun t =>
      DieActs s t d { s.die d with ctl := (t.die d).ctl } [] [] ∧ Fields s t d [(b, 10, 10, 1)]) ∧
    (up → 4 ≤ p.val → x.keySet = true → x.kxOn = false → 24 ≤ hours ∨ 2 ^ 39 ≤ mget 0 x.sent cur →
      ends (.linkKeyRollTimer d p hours) fun t => starts t ∧ ∃ f, (portOf t d p).txq = x.txq ++ [f] ∧ kinds [f] = [0]) ∧
    (up → ends (.keyExchangeNonce d p payload) fun t => (portOf t d p).peerNonce = (payload.drop 8).take 32 ∧ (x.kxOn = false → starts t) ∧
      ∃ l, (portOf t d p).txq = x.txq ++ l ∧ kinds l = (if x.kxOn then [] else [0]) ++ [1, 1, 2]) ∧
    (up → x.kxOn = true →
      (listNat payload 2 2 = 0 → ends (.keyExchangeReport d p payload) fun t =>
        acts t { x with report := (payload.drop 8).take 184 } []) ∧
      (listNat payload 2 2 ≠ 0 →
        let rep := x.report ++ (payload.drop 8).take 136
        (reportOk s d p rep = true → ends (.keyExchangeReport d p payload) fun t => acts t { x with report := rep, peerOk := true } []) ∧
        (reportOk s d p rep = false → ends (.keyExchangeReport d p payload) fun t => t.ctlBits d b 16 16 = 1)) ∧
      (let pub := (payload.drop 8).take 56
       let good : Bool := x.peerOk && (peerKey s d p).any fun k => edVerify k pub ((payload.drop 64).take 114)
       let mine := linkId (s.dieIndex d) p
       let other := linkId (peerOf s d p) p
       let key := shake256 (leBytes 56 (x448 x.secret.toNat (leNat pub)) ++ leBytes 2 (min mine other) ++ leBytes 2 (max mine other) ++
         leBytes 8 x.rolls) 32
       (good = false → ends (.keyExchangeEphemeral d p payload) fun t => t.ctlBits d b 16 16 = 1) ∧
       (good = true → slotUsed s d p (1 - cur) = false → ends (.keyExchangeEphemeral d p payload) fun t =>
         ∃ k, mfind (portOf t d p).keys (1 - cur) = some k ∧ ∀ w < 4, k.extractLsb' (64 * w) 64 = BitVec.ofNat 64 (listNat key (8 * w) 8)) ∧
       (good = true → slotUsed s d p (1 - cur) = true → x.ready = false → ends (.keyExchangeEphemeral d p payload) fun t =>
         acts t { x with wanted := some (BitVec.ofNat 256 (leNat key)) } [])) ∧
      (listNat payload 8 8 = x.rolls → x.wanted = none →
        (x.ready = false → ends (.keyready d p payload) fun t => acts t { x with peerReady := true } []) ∧
        (x.ready = true → rollReady s d p = true → ends (.keyready d p payload) fun t => (portOf t d p).kxOn = false ∧ (portOf t d p).rolls = x.rolls + 1)))

/-- SEND builds the message from the eight words, the sender filled in and GSEQ cleared: a message of no allowed form ends
with RESULT 2, a multicast to a group without the die with RESULT 5; else it goes to its mailbox, or to the group
sequencer, and BUSY stays until that has answered; before the commit of a move the pages are copied. The sequencer
gives the next number and sends one copy to each member once all have room, RESULT 4 if a mailbox is disabled. A
delivered message goes into the slot at TAIL, TAIL advances, the owner is interrupted. A time-out ends with RESULT 3.
HEAD and heartbeats do what their registers and records say. -/
def Obligations.ConfluenceMessages : Prop :=
  ∀ (s : State) (d : DieId) (k : Fin 16) (m : Master) (group : BitVec 8) (msg : W512) (sender about : BitVec 9) (box : Fin 16)
    (head : BitVec 7),
    let ends (e : Instr) (p : State → Prop) : Prop := ∃ t, exec e s = .next t ∧ p t

    let set := 0x4000 + 0x80 * k.val
    let word (n : Nat) : W64 := s.ctl d (set + 8 * n)
    let me := s.dieIndex d
    let conf := (s.die d).conf
    let result (t : State) (e : Nat) (c r : Nat) : Prop :=
      t.ctlBits e (0x4000 + 0x80 * c + 0x40) 3 1 = r ∧ t.ctlBits e (0x4000 + 0x80 * c + 0x40) 0 0 = 0
    let idx := 0x4808 + 0x20 * box.val
    let tail := s.ctlBits d idx 22 16
    let members := maskDies (groupMask s d group.toNat)
    let number : W32 := mget 0 conf.seqNext group.toNat + 1
    (masterStopped s d m = false → isCore m k = true → s.ctlBits d (set + 0x40) 0 0 = 0 → ∃ x : W512,
      msgFrom x = me ∧ msgSeq x = 0 ∧ x.extractLsb' 0 16 = (word 0).extractLsb' 0 16 ∧ x.extractLsb' 25 39 = (word 0).extractLsb' 25 39 ∧
      x.extractLsb' 96 32 = (word 1).extractLsb' 32 32 ∧ (∀ n < 8, 2 ≤ n → x.extractLsb' (64 * n) 64 = word n) ∧
      (msgAllowed x k = false → ends (.confluenceSend d k m) fun t => result t d k 2 ∧ t.agenda = s.agenda) ∧
      (let moves : Prop := msgType x = 4 ∧ bodyNat (msgBody x) 0 1 = 2
       let waits (t : State) : Prop := t.ctlBits d (set + 0x40) 0 0 = 1 ∧ mfind (t.die d).conf.sending k = some x
       msgAllowed x k = true →
        (¬ moves → msgMulti x = true → (groupMask s d (msgGroup x)).getLsbD me = false →
          ends (.confluenceSend d k m) fun t => result t d k 5 ∧ t.agenda = s.agenda) ∧
        (¬ moves → msgMulti x = true → (groupMask s d (msgGroup x)).getLsbD me = true →
          groupSeq s d (msgGroup x) / 8 = s.pkg → ends (.confluenceSend d k m) fun t => waits t ∧
            t.agenda = s.agenda ++ [.gseqAssign (Fin.ofNat 8 (groupSeq s d (msgGroup x))) (BitVec.ofNat 8 (msgGroup x)) x
              (BitVec.ofNat 9 me) k]) ∧
        (moves → ends (.confluenceSend d k m) fun t => ∃ u, t = dispatchMsg (copyMoved u d (msgBody x)) d k x ∧ waits u ∧
          u.mem = s.mem ∧ (∀ e, (u.die e).cache = (s.die e).cache) ∧ u.agenda = s.agenda) ∧
        (msgMulti x = false → msgTo x / 8 = s.pkg → ends (.confluenceSend d k m) fun t => waits t ∧
          t.agenda = s.agenda ++ [.mailboxDeliver (Fin.ofNat 8 (msgTo x)) (Fin.ofNat 16 (msgBox x)) x (some (d, k))]) ∧
        (msgMulti x = false → msgTo x / 8 ≠ s.pkg → ends (.confluenceSend d k m) fun t => waits t ∧
          Instr.mailboxDeliver d (Fin.ofNat 16 (msgBox x)) x (some (d, k)) ∈ t.agenda))) ∧
    (fromLost s d sender.toNat = false → dieDown s d = false → (∀ x ∈ members, x / 8 = s.pkg) →
      ((∀ x ∈ members, boxOn s (x % 8) (msgBox msg) = true ∧ hasRoom s (x % 8) msg = true) →
        ends (.gseqAssign d group msg sender k) fun t => mget 0 (t.die d).conf.seqNext group.toNat = number ∧
          t.agenda = s.agenda ++ members.map fun x =>
            .mailboxDeliver (Fin.ofNat 8 x) (Fin.ofNat 16 (msgBox (setMsg msg 95 64 number.toNat))) (setMsg msg 95 64 number.toNat) none) ∧
      ((∃ x ∈ members, dieDown s (x % 8) = false ∧ boxOn s (x % 8) (msgBox msg) = false) →
        sender.toNat / 8 = s.pkg → mfind (s.die (sender.toNat % 8)).conf.sending k = some msg →
        ends (.gseqAssign d group msg sender k) fun t => result t (sender.toNat % 8) k 4 ∧ t.agenda = s.agenda)) ∧
    (fromLost s d (msgFrom msg) = false → goesAbroad s msg = false → dieDown s d = false → conf.heldMsgs = [] → boxOn s d box = true → boxUsed s d box < 64 →
      msgMulti msg = false ∨ msgSeq msg = (mget 0 conf.seqSeen (msgGroup msg)).toNat + 1 →
      ∀ core : Option (DieId × Fin 16), ends (.mailboxDeliver d box msg core) fun t =>
        let u := s.unitWrite d (s.ctlBits d (0x4800 + 0x20 * box.val) 51 12 * 4096 + 64 * (tail % 64)) (leBytes 64 msg.toNat)
        t.ctlBits d idx 22 16 = (tail + 1) % 128 ∧ t.mem = u.mem ∧ (∀ e, (t.die e).cache = (u.die e).cache) ∧
        t.outbox = u.outbox ++ [⟨d, 12, s.ctlBits d (0x4800 + 0x20 * box.val) 8 5, []⟩] ∧
        (msgMulti msg = true → mget 0 (t.die d).conf.seqSeen (msgGroup msg) = BitVec.ofNat 32 (msgSeq msg)) ∧
        (msgType msg = 2 → t.agenda = u.agenda ++
          [.unmapIntent d (BitVec.ofNat 9 (msgFrom msg)) (BitVec.ofNat 4 (msgBox msg)) (msgTag msg) (msgBody msg)]) ∧
        ∀ e c, core = some (e, c) → (mfind (s.die e).conf.sending c).isSome = true → result t e c 0) ∧
    (s.ctlBits d (set + 0x40) 0 0 = 1 → (mfind conf.sending k).isSome = true → ends (.sendUndeliverableTimeout d k) fun t =>
      result t d k 3 ∧ mfind (t.die d).conf.sending k = none ∧ ∀ e b x, Instr.mailboxDeliver e b x (some (d, k)) ∉ t.agenda) ∧
    (masterStopped s d m = false → boxMaster m box = true → (tail + 128 - head.toNat) % 128 ≤ 64 → conf.heldMsgs = [] →
      ends (.mbidxHeadWrite d box head m) fun t =>
        DieActs s t d { s.die d with ctl := (t.die d).ctl } [] [] ∧ Fields s t d [(idx, 6, 0, head.toNat)]) ∧
    (dieDown s d = false →
      (4 ≤ s.ctlBits d 0x20 3 0 → let l := maskDies (if (s.die d).image.formed then (s.die d).image.view else groupMask s d 0)
       (∀ x ∈ l, x / 8 = s.pkg) → ends (.heartbeatSend d) fun t =>
        DieActs s t d { s.die d with conf := { conf with beat := conf.beat + 1 } }
          (l.map fun x => .heartbeat (Fin.ofNat 8 x) (BitVec.ofNat 9 me)) []) ∧
      (fromLost s d about.toNat = false → ends (.heartbeat d about) fun t =>
        DieActs s t d { s.die d with conf := { conf with
          heard := about.toNat :: conf.heard.filter (· ≠ about.toNat)
          silent := conf.silent.filter (· ≠ about.toNat) } } [] []))

/-- With phase 6 reached, a message that is void at a member only counts as void. Else APPLIED and the log grow and the
message takes effect: JOIN adds its die; FORM, unless two dies of the package have halted, makes the view the joined
dies, burns the minimum SVN, raises the epoch, drops read copies and, as the first of the package, starts the time;
PROCSTART and PROCEND list and drop a process; TTSET writes the entry at its home and drops the mirror entry; MAP
gives the pages of a process held here their entries; LOST takes the die out of the view and raises the epoch. RESYNC
notes the APPLIED of its sender. FORM_TIMEOUT sends FORM, DIE_SILENT notes the die and sends LOST, DIE_WITHDRAW halts
the die and fences its links. -/
def Obligations.SystemImageEvents : Prop :=
  ∀ (s : State) (d : DieId) (body : Body) (src about : BitVec 9),
    let ends (e : Instr) (p : State → Prop) : Prop := ∃ t, exec e s = .next t ∧ p t

    let x := (s.die d).image
    let subject := bodyNat body 8 8
    let me := s.dieIndex d
    let noted : ImageState := { x with
      applied := x.applied + 1
      log := (x.log ++ [((x.applied + 1).truncate 32, body)]).drop ((x.log ++ [((x.applied + 1).truncate 32, body)]).length - 256) }
    let image (t : State) (y : ImageState) : Prop := DieActs s t d { s.die d with image := y } [] []
    let pid : W32 := BitVec.ofNat 32 subject
    let tid : BitVec 20 := BitVec.ofNat 20 subject
    let agreement (op : Nat) (n : Nat) : W512 := makeMsg 5 0 true 0 0 (agreeBody op x.epoch.toNat n []) me
    let heard := (s.die d).conf.heard.filter fun n => x.view.getLsbD n
    let members := maskDies x.view
    let runs : Prop := dieDown s d = false ∧ 6 ≤ s.ctlBits d 0x20 3 0
    (runs → agreeVoid s d body = true →
      ∀ e ∈ [Instr.join d 0 body, .form d 0 body, .lost d 0 body, .map d 0 body, .procstart d 0 body, .procend d 0 body, .ttset d 0 body,
        .resync d src body], ends e fun t => image t { x with voids := x.voids + 1 }) ∧
    (runs → agreeVoid s d body = false →
      ends (.join d 0 body) (fun t => (t.die d).image.joined = x.joined ||| BitVec.twoPow 512 subject ∧
        (t.die d).image.applied = x.applied + 1 ∧ (x.formed = true → image t { noted with joined := x.joined ||| BitVec.twoPow 512 subject })) ∧
      (mayForm s = false → ends (.form d 0 body) fun t => image t noted) ∧
      (mayForm s = true → ends (.form d 0 body) fun t => (t.die d).image = { noted with
          view := x.joined
          formed := true
          epoch := x.epoch + 1 } ∧
        (t.die d).fw = { (s.die d).fw with minSvn := max (s.die d).fw.minSvn (s.die d).fw.svn } ∧
        (t.die d).cache.clock.epoch = x.epoch + 1 ∧ ((∀ e < 8, (s.die e).image.formed = false) → t.time = 0) ∧
        ∀ f ∈ t.frames d, f.home = d ∨ f.pcoh = true ∨ f.wb = true) ∧
      ends (.procstart d 0 body) (fun t => image t { noted with procs := mset x.procs subject body }) ∧
      ends (.procend d 0 body) (fun t => image t { noted with procs := mdel x.procs subject }) ∧
      ends (.ttset d 0 body) (fun t =>
        let u := if tensorHome tid = d.val ∧ bitsOf subject 37 32 = s.pkg then
          s.unitWrite d (s.tensorEntry tid) (leBytes 32 (bodyNat body 16 32)) else s
        t.mem = u.mem ∧ (t.die d).image = noted ∧ (t.die d).cache = { (u.die d).cache with mirror := mdel (u.die d).cache.mirror tid.toNat } ∧
        ∀ e, e ≠ d.val → t.die e = u.die e) ∧
      (rootOf (noteApplied s d body) d pid = none → ends (.map d 0 body) fun t => image t noted) ∧
      (∀ root, rootOf (noteApplied s d body) d pid = some root → exec (.map d 0 body) s = .next
        (mapPages d pid root (bodyNat body 16 8) (bodyNat body 32 8) (bodyNat body 28 1) (min (2 ^ 20) (bodyNat body 24 4))
          (min (2 ^ 20) (bodyNat body 24 4)) 0 (noteApplied s d body))) ∧
      exec (.lost d 0 body) s = .next (applyLost (noteApplied s d body) d subject) ∧
      (s.teams = [] → subject / 8 ≠ s.pkg → ends (.lost d 0 body) fun t =>
        (t.die d).image.view = x.view &&& ~~~(BitVec.twoPow 512 subject) ∧ (t.die d).image.epoch = x.epoch + 1 ∧
          (t.die d).image.applied = x.applied + 1) ∧
      (x.recover = none → ends (.resync d src body) fun t =>
        image t { x with resyncSeen := mset x.resyncSeen src.toNat (BitVec.ofNat 64 (bodyNat body 16 8)) })) ∧
    (dieDown s d = false → mayForm s = true → x.formed = false → x.formSent = false → groupSeq s d 0 = me → x.joined.getLsbD me = true →
      ends (.formTimeout d) fun t => DieActs s t d { s.die d with image := { x with
          formSent := true, sends := if (groupMask s d 0).getLsbD me then x.sends ++ [(0, agreeBody 1 0 0 [])] else x.sends } }
        (if (groupMask s d 0).getLsbD me then
          [.gseqAssign d 0 (makeMsg 5 0 true 0 0 (agreeBody 1 0 0 []) me) (BitVec.ofNat 9 me) 0] else []) []) ∧
    (dieDown s d = false → (if x.formed then x.view.getLsbD about.toNat else (groupMask s d 0).getLsbD about.toNat) = true →
      about.toNat ∉ (s.die d).conf.silent →
      ends (.dieSilent d about) (fun t => (t.die d).conf.silent = (s.die d).conf.silent ++ [about.toNat]) ∧
      (x.formed = true → x.recover = none → groupSeq s d 0 ≠ about.toNat → groupSeq s d 0 / 8 = s.pkg →
        (groupMask s d 0).getLsbD me = true → ends (.dieSilent d about) fun t =>
          t.agenda = s.agenda ++ [.gseqAssign (Fin.ofNat 8 (groupSeq s d 0)) 0 (agreement 3 about.toNat) (BitVec.ofNat 9 me) 0])) ∧
    (dieDown s d = false →
      mustWithdraw (s.die d) = true ∨ (x.formed = true ∧
        (2 * heard.length < members.length ∨ (2 * heard.length = members.length ∧ ∀ n ∈ members.head?, n ∉ (s.die d).conf.heard))) →
      ends (.dieWithdraw d) fun t => (t.die d).image = { x with withdrawn := true } ∧ (t.die d).power.halted = true ∧
        ∀ p < 6, t.ctlBits d (0x3000 + 0x100 * p) 16 16 = 1)

/-- A scrub of a channel adds the corrected sectors that lie in it, by o[16:11] xor o[22:17]. A sample takes the next
sequence number and its record goes to the ring, or is counted as lost. A supervisor write of a format-region word is
stored while EN is 0 (FRCTL with EN set only if the entry may be enabled; EN may always be cleared), which clears ERR,
else only ERR is set. A HEAD that leaves at most the ring's size is stored. A pool or import window is stored if it is
in its limits and apart from the others, else ignored. A snoop drops, or cleans and keeps, the frames of its line and
is answered. The replay time-out sets DIV. -/
def Obligations.MemoryAttachEvents : Prop :=
  ∀ (s : State) (d : DieId) (channel : Fin 64) (sectors : List Nat) (pa c : Nat) (q : SampleReq) (n : Fin 32) (word : Fin 4) (value : W64) (k : Fin 8)
    (head : BitVec 21) (off : Nat) (m : Master) (win : Fin 16) (tile : TileId),
    let ends (e : Instr) (p : State → Prop) : Prop := ∃ t, exec e s = .next t ∧ p t

    let ctlOnly (t : State) : Prop := DieActs s t d { s.die d with ctl := (t.die d).ctl } [] []
    let attach := (s.die d).attach
    let log := ringLog s d smpRing
    let tail := s.ctlBits d 0x5810 52 32
    let fr := 0x5000 + 0x20 * n.val
    let stored (e : Instr) (w : Nat) (v : W64) : Prop := ends e fun t =>
      ctlOnly t ∧ t.ctl d (fr + 8 * w) = BitVec.ofNat 64 (v.toNat &&& frMask w) ∧ t.ctlBits d fr 9 9 = 0
    let refused (e : Instr) : Prop := ends e fun t => ctlOnly t ∧ Fields s t d [(fr, 9, 9, 1)]
    let on := s.ctlBits d fr 0 0
    let base := pa / 2048 * 2048
    let old := (s.frames d).filter fun f => f.base = base && !f.wb
    let wrote := old.foldl (fun s f => if f.dirty && hasData f then writeBack s f else s) s
    ends (.lpddr6Scrub d channel sectors) (fun t => DieActs s t d
      { s.die d with attach := { attach with corrected := (t.die d).attach.corrected } } [] [] ∧
      ∀ ch, mget 0 (t.die d).attach.corrected ch = mget 0 attach.corrected ch + if ch = channel.val then
        (sectors.filter fun o => bitsOf o 16 11 ^^^ bitsOf o 22 17 = ch).length else 0) ∧
    ends (.accessSample d q) (fun t => (t.die d).attach = { attach with smpSeq := (attach.smpSeq + 1) % 4096 } ∧
      (ringRoom s d smpRing = true → t.ctlBits d 0x5810 52 32 = (tail + 1) % 2 ^ (log + 1) ∧
        t.mem = (s.unitWrite d ((s.ctl d 0x5808).toNat / 32 * 32 + 32 * (tail % 2 ^ log)) (sampleBytes q attach.smpSeq)).mem) ∧
      (ringRoom s d smpRing = false → t.mem = s.mem ∧
        Fields s t d [(0x5800, 63, 32, min (2 ^ 32 - 1) (s.ctlBits d 0x5800 63 32 + 1))])) ∧
    (masterStopped s d (.sup k) = false →
      (word ≠ 0 → on = 0 → stored (.fmtrgnWrite d n word value (.sup k)) word value) ∧
      (word ≠ 0 → on = 1 → refused (.fmtrgnWrite d n word value (.sup k))) ∧
      (let v := BitVec.ofNat 64 ((value ||| 1).toNat &&& frMask 0)
       ∀ e ∈ [Instr.fmtrgnWrite d n 0 (value ||| 1) (.sup k), .frctlEnable d n value (.sup k)],
        (on = 0 → frEnableOk s d n v = true → stored e 0 (value ||| 1)) ∧ (on = 1 ∨ frEnableOk s d n v = false → refused e)) ∧
      (∀ e ∈ [Instr.fmtrgnWrite d n 0 (value &&& ~~~1#64) (.sup k), .frctlDisable d n value (.sup k)], stored e 0 (value &&& ~~~1#64)) ∧
      (let v := BitVec.ofNat 64 (value.toNat &&& (fieldMask 63 63 + fieldMask 45 32 + fieldMask 12 0))
       (windowOk s d 0x6100 win v 45 32 12 8192 = true →
          ends (.poolmapWrite d win 0 value (.sup k)) fun t => t = s.setCtl d (0x6100 + 0x10 * win.val) v) ∧
       (windowOk s d 0x6100 win v 45 32 12 8192 = false → exec (.poolmapWrite d win 0 value (.sup k)) s = .next s)) ∧
      (ends (.poolmapWrite d win 1 value (.sup k)) fun t => t = s.setCtl d (0x6108 + 0x10 * win.val)
        (BitVec.ofNat 64 (value.toNat &&& (fieldMask 51 40 + fieldMask 33 0)))) ∧
      (let v := BitVec.ofNat 64 (value.toNat &&& (fieldMask 63 63 + (if s.cxl d then fieldMask 62 62 else 0) + fieldMask 58 32 +
         fieldMask 25 0))
       (windowOk s d 0x6200 win v 58 32 25 (2 ^ 26) = true →
          ends (.impmapWrite d win 0 value (.sup k)) fun t => t = s.setCtl d (0x6200 + 0x10 * win.val) v) ∧
       (windowOk s d 0x6200 win v 58 32 25 (2 ^ 26) = false → exec (.impmapWrite d win 0 value (.sup k)) s = .next s)) ∧
      (ends (.impmapWrite d win 1 value (.sup k)) fun t => t = s.setCtl d (0x6208 + 0x10 * win.val)
        (BitVec.ofNat 64 (value.toNat &&& fieldMask 63 21)))) ∧
    (masterStopped s d m = false → ∀ r, ringAt off m = some (r, true) →
      (ringHeadOk s d r head.toNat = true → ends (.ringHeadWrite d off head m) fun t => t.ctlBits d off 20 0 = head.toNat ∧
        (off ≠ 0x5D10 → ctlOnly t ∧ Fields s t d [(off, 20, 0, head.toNat)])) ∧
      (ringHeadOk s d r head.toNat = false → exec (.ringHeadWrite d off head m) s = .next s)) ∧
    (s.locate pa = .cached d c → isHostCell c = true → dieDown s d = false →
      (∀ e ∈ [Instr.snpinv d pa, .snpdata d pa], ends e fun t => ∃ b, ⟨d, 20, 3, b⟩ ∈ t.outbox) ∧
      ((∀ f ∈ old, copiesOut d f = false) → ends (.snpinv d pa) fun t => t.mem = wrote.mem ∧ ∀ f ∈ t.frames d, f.base = base → f.wb = true) ∧
      ends (.snpdata d pa) fun t => t.mem = wrote.mem ∧ (t.frames d).length = (s.frames d).length ∧
        ∀ f ∈ t.frames d, f.base = base → f.wb = false → f.dirty = false ∧ f.st ≠ .m ∧ f.st ≠ .e) ∧
    (s.ctlBits d 0x5B00 1 0 = 2 → aolKnows s d tile = true → tile ∉ (s.die d).dbg.aolFree → ends (.replayHoldTimeout d tile) fun t =>
      (t.die d).dbg.aolFree = (s.die d).dbg.aolFree ++ [tile] ∧ t.ctlBits d 0x5B00 2 2 = 1)

/-- A write of a register that only stores gives each RW bit the written value, clears each W1C bit written as 1 and keeps
the rest; writes of a register with an event of its own are that event. A master that is stopped changes nothing; one
that may not write the register is an access-window violation, which freezes a cluster, a copy engine, a firmware core
or a host client. A bound host client that is not frozen reads and writes the bytes of its page, and its atomics go to
the home; others complete with Completer Abort. A supervisor core may read the registers it is granted, of which KEY
reads as zero; a read of another freezes it; its fence ends once its die has nothing pending. PASID_BIND binds and
unfreezes. -/
def Obligations.RegistersAndHosts : Prop :=
  ∀ (s : State) (d : DieId) (off : Nat) (value : W64) (m : Master) (i : Fin 16) (p : Fin 6) (k : Fin 8) (c : Fin 64) (n pasid pa : Nat)
    (va : W64) (step : BitVec 4) (pid : W32) (l : List Byte) (op : AtomicOp) (x y : W64) (leaf : W64) (home cell proc : Nat),
    let ends (e : Instr) (p : State → Prop) : Prop := ∃ t, exec e s = .next t ∧ p t

    let done (t u : State) (status : Nat) (bytes : List Byte) : Prop :=
      t = { u with outbox := s.outbox ++ [⟨d, 14, pasid, BitVec.ofNat 8 status :: bytes⟩] }
    let at' := ctlBase d + off
    (masterStopped s d m = false → off % 8 = 0 → off < 0x1000000 → ∀ r, plainReg s d off m = some r →
      (r.ok = true → ends (.registerWrite d off value m) fun t =>
        (off ≠ 0x5D18 → off ≠ 0x5B00 → DieActs s t d { s.die d with ctl := (t.die d).ctl } [] [] ∧
          (∀ o, o ≠ off → t.ctl d o = s.ctl d o)) ∧
        (off ≠ 0x5B00 → ∀ b < 64, (t.ctl d off).getLsbD b =
          if r.rw.testBit b && !r.locked.testBit b then value.getLsbD b
          else (s.ctl d off).getLsbD b && !(r.w1c.testBit b && value.getLsbD b))) ∧
      (r.ok = false → exec (.registerWrite d off value m) s = .next (violation s d m at'))) ∧
    (masterStopped s d m = false →
      exec (.registerWrite d 0x2000 value m) s = exec (.pwrlimWrite d value m) s ∧
      exec (.registerWrite d 0x5D28 value m) s = exec (.sddoneWrite d value m) s ∧
      exec (.registerWrite d 0x5E18 value m) s = exec (.frzclRelease d value m) s ∧
      exec (.registerWrite d 0x5E20 value m) s = exec (.frzceRelease d value m) s ∧
      exec (.registerWrite d 0x5D10 value m) s = exec (.ringHeadWrite d 0x5D10 (BitVec.ofNat 21 value.toNat) m) s ∧
      exec (.registerWrite d 0xFFFFF8 value m) s = .next (doorWrite s d 0xFFFFF8 value m) ∧
      (0x1000000 ≤ off ∨ (off % 8 ≠ 0 ∧ (off < 0x800000 ∨ isSup m = false)) →
        exec (.registerWrite d off value m) s = .next (violation s d m at'))) ∧
    (masterStopped s d m = true → ∀ e ∈ [Instr.registerWrite d off value m, .vfiStepRequest d i step m, .vfiGateSet d i m, .vfiGateClear d i m,
      .pwrlimWrite d value m, .confluenceSend d i m, .lnkctlRoll d p m, .frzclRelease d value m, .frzceRelease d value m,
      .sddoneWrite d value m, .fwmbctlSend d k m, .fwmbctlRecv d k m], exec e s = .next s) ∧
    (masterStopped s d m = false → isFw m 5 = false → ∀ e ∈ [(Instr.vfiStepRequest d i step m, 0x1000 + 8 * i.val), (.vfiGateSet d i m, 0x1000 + 8 * i.val),
      (.vfiGateClear d i m, 0x1000 + 8 * i.val), (.pwrlimWrite d value m, 0x2000)], exec e.1 s = .next (violation s d m (ctlBase d + e.2))) ∧
    (masterStopped s d m = false → isSup m = false → ∀ e ∈ [(Instr.sddoneWrite d value m, 0x5D28), (.frzclRelease d value m, 0x5E18),
      (.frzceRelease d value m, 0x5E20), (.debugHalt d value m, 0x9000), (.debugResume d value m, 0x9000), (.debugStep d value m, 0x9000)],
      exec e.1 s = .next (violation s d m (ctlBase d + e.2))) ∧
    ((violation s d (.cluster c) pa).ctl d 0x5E18).getLsbD c = true ∧ ((violation s d (.copyEngine c) pa).ctl d 0x5E20).getLsbD c = true ∧
    ((violation s d (.fw k) pa).die d).fw.frozen.getLsbD k = true ∧ ((violation s d (.sup k) pa).die d).tr.supFrozen.getLsbD k = true ∧
    ((violation s d (.host pasid) pa).die d).host.pasids = ((s.die d).host.pasids.map fun q =>
      if q.1 = pasid then (q.1, q.2.1, true) else q) ∧
    (dieDown s d = false →
      (pasidOf s d pasid = none → ∀ q, exec (.hostRequest d (.host pasid) va q) s =
        .next (hostDone (violation s d (.host pasid) va.toNat) d pasid 1 [])) ∧
      (pasidOf s d pasid = some (pid, true) → ∀ q, ends (.hostRequest d (.host pasid) va q) fun t => done t s 1 []) ∧
      (pasidOf s d pasid = some (pid, false) → findProcess s d pid = some proc →
        s.locate pa = .cached home cell → inFirmware pa = false → dieDown s home = false → fillFaultAt s home (flatPlaced s home pa leaf) = false →
        (translate s d 64 proc pid va [1] = .ok pa leaf s.pkg → exec (.hostRequest d (.host pasid) va (.read n)) s =
          .next (hostDone (storageRead s home home pa n leaf).1 d pasid (if storagePoison s pa n then 2 else 0)
            (storageRead s home home pa n leaf).2)) ∧
        (readOnlySpan s home pa l.length = false → translate s d 64 proc pid va [2] = .ok pa leaf s.pkg →
          exec (.hostRequest d (.host pasid) va (.write l)) s = .next (hostDone (storageWrite s home home pa leaf l) d pasid 0 [])) ∧
        (readOnlySpan s home pa 8 = false → translate s d 64 proc pid va [1, 2] = .ok pa leaf s.pkg →
          ends (.hostRequest d (.host pasid) va (.atomic op x y)) fun t => ∃ a : AtomicReq,
            t.agenda = s.agenda ++ [.remoteAtomic (Fin.ofNat 8 home) a] ∧ a.src = d ∧ a.base + a.off = pa ∧ a.width = 8 ∧ a.op = op ∧
              a.operand = x ∧ a.compare = y ∧ a.dest = .host d pasid))) ∧
    (masterStopped s d (.sup k) = false → (s.die d).tr.coreWaits = [] →
      let me : Client := .core (Fin.ofNat 16 k) leaf s.pkg pid
      let ask (q : HostKind) : Instr := .hostRequest d me (BitVec.ofNat 64 pa) q
      let answers (q : HostKind) (status : Nat) (bytes : List Byte) : Prop :=
        ends (ask q) fun t => t.outbox = s.outbox ++ [⟨d, 21, k, BitVec.ofNat 8 status :: bytes⟩] ∧ t.mem = s.mem
      ((s.die d).cache.pend = [] → answers (.fence true true true true) 0 []) ∧
      (coreAtomic s d k = false → pa < 2 ^ 64 → s.locate pa = .ctl d off → off < 0x800000 → off % 8 = 0 →
        (mayRead off (.sup k) = true → answers (.read 8) 0 (leBytes 8 (registerValue s d off).2.toNat)) ∧
        (mayRead off (.sup k) = false → ends (ask (.read 8)) fun t => (t.die d).tr.supFrozen.getLsbD k = true)) ∧
      ∀ n w, n < 2 → w < 4 → (registerValue s d (0x3000 + 0x100 * p.val + 0x40 + 0x20 * n + 8 * w)).2 = 0) ∧
    (((s.die d).host.pasids.filter fun q => q.1 ≠ pasid).length < 4096 → ends (.pasidBind d pasid pid) fun t => DieActs s t d
      { s.die d with host := { (s.die d).host with
        pasids := ((s.die d).host.pasids.filter fun q => q.1 ≠ pasid) ++ [(pasid, pid, false)] } } [] [])

/-- With the parse core working: a wake to a page that is not that of the writer is a violation; an accepted wake writes
TAIL, notes the wake and starts the parse or the mapping; a value out of range sets BADWAKE; one of 2^32 or more, or
for a queue that is off or failed, is ignored. Waiting queues take the slots they can in the order of their wakes, or
their page is read back. A slot times out after its packet. 128 queues that may be spilled go out as one page; written
out they are spilled; a failed read-back is tried once more, then its queues fail. A good packet becomes a launch with
its teams, a bad one fails the queue. A LAUNCH appends its packet and answers 0, or 1, 2 or 3 when full, not fed or
failed. -/
def Obligations.QueuesAndPackets : Prop :=
  ∀ (s : State) (d : DieId) (q : BitVec 20) (value : W64) (w : WakeWriter) (qs : List (BitVec 20)) (page : Nat) (r : LaunchReq) (wave : Wave),
    let ends (e : Instr) (p : State → Prop) : Prop := ∃ t, exec e s = .next t ∧ p t

    let n := q.toNat
    let host := (s.die d).host
    let size := 2 ^ queueNat s d n 8 1
    let hostOnly (t : State) (h : HostState) (out : List Outgoing) : Prop := DieActs s t d { s.die d with host := h } [] out
    let took (t : State) (u : State) : Prop := t.mem = u.mem ∧ ∀ e, (t.die e).cache = (u.die e).cache
    let Q := r.queue.toNat
    let g := noteGrant s d (n / 512)
    parseStopped s d = false →
      ((wakePasid s w).any Prod.snd = true → exec (.wakeStore d q value w) s = .next s) ∧
      ((wakePasid s w).any Prod.snd = false → mayWake s d n w = false → exec (.wakeStore d q value w) s = .next (wakeBreaks s d n w)) ∧
      ((wakePasid s w).any Prod.snd = false → mayWake s d n w = true →
        (2 ^ 32 ≤ value.toNat ∨ queueEn s d n = false ∨ queueState s d n = 3 → exec (.wakeStore d q value w) s = .next g) ∧
        (value.toNat < 2 ^ 32 → queueEn s d n = true → queueState s d n ≠ 3 →
          (queueFed s d n = true → w ≠ .launch → exec (.wakeStore d q value w) s = .next (setQueue g d n 11 [1])) ∧
          (queueFed s d n = false ∨ w = .launch →
            (badDescriptor s d n = true → exec (.wakeStore d q value w) s = .next (failQueue g d n 1)) ∧
            (badDescriptor s d n = false →
              let good := (value.toNat + 2 ^ 32 - queueHead s d n) % 2 ^ 32 ≤ size ∧ (value.toNat + 2 ^ 32 - queueTail s d n) % 2 ^ 32 < 2 ^ 31
              (¬ good → exec (.wakeStore d q value w) s = .next (setQueue g d n 11 [1])) ∧
              (good → ends (.wakeStore d q value w) fun t => took t (setQueue g d n 20 (leBytes 4 value.toNat)) ∧
                (t.die d).host.wakes = host.wakes ++
                  [(n, value.toNat, s.time, if w = .supervisor then s.time - Config.syscallNs s.ticks else s.time)] ∧
                (if (queueSlot s d n).isSome then Instr.packetParse d q else .queueMap d q) ∈ t.agenda))))) ∧
      ((queueSlot s d n).isSome = false → queueEn s d n = true →
        (queueState s d n = 0 → exec (.queueMap d q) s = .next (grantSlots s d)) ∧
        (queueState s d n = 0 → host.waking = [n] → host.slots.length < Config.queueSlots → ends (.queueMap d q) fun t =>
          took t (setQueue s d n 10 [1]) ∧ (t.die d).host.waking = [] ∧
          (t.die d).host.slots = host.slots ++ [{ q := n, woken := mget 0 host.woken n, since := s.time }] ∧
          Instr.packetParse d q ∈ t.agenda) ∧
        (∀ p, queueState s d n = 2 → pageOfQueue s d n = some p → ends (.queueMap d q) fun t => hostOnly t { host with
          pages := host.pages.map fun x => if x.page = p.page && !x.reading then
            { x with reading := true, retried := false, since := s.time } else x } [])) ∧
      (slotsShort s d = true → (queueSlot s d n).isSome = true →
        (queueLeft s d n ≠ 0 → ends (.queueSlotTimeout d q) fun t => hostOnly t { host with
          slots := host.slots.map fun x => if x.q = n then { x with leaving := true } else x } []) ∧
        (queueLeft s d n = 0 → exec (.queueSlotTimeout d q) s = .next (grantSlots (leaveSlot s d n) d))) ∧
      (qs.length = 128 → (qs.map BitVec.toNat).Nodup → (∀ x ∈ qs, maySpill s d x.toNat = true) → ends (.queueSpill d qs) fun t =>
        let bytes := (qs.map BitVec.toNat).flatMap fun x => s.peekBytes d (queueNat s d x 32 8) 512
        hostOnly t { host with
          nextPage := host.nextPage + 1
          pages := host.pages ++ [{ page := host.nextPage, queues := qs.map BitVec.toNat, bytes := bytes }] }
          [⟨d, 15, spillPort s d, leBytes 8 host.nextPage ++ bytes ++ leBytes 8 (crc64 bytes).toNat ++ zeros 56⟩]) ∧
      (∀ p, host.pages.find? (fun x => x.page = page && !x.written) = some p → ends (.savePageWriteOutComplete d page) fun t =>
        took t (p.queues.foldl (fun s x => if queueState s d x = 0 then setQueue s d x 10 [2] else s) s) ∧
        (t.die d).host = { host with pages := host.pages.map fun x => if x.page = page then { x with written := true } else x }) ∧
      (∀ p, host.pages.find? (fun x => x.page = page && x.reading) = some p →
        (exec (.queueReadbackComplete d page true) s = .next (pageBack s d p)) ∧
        (p.retried = false → ends (.queueReadbackComplete d page false) fun t => hostOnly t { host with
          pages := host.pages.map fun x => if x.page = page then { x with retried := true } else x } []) ∧
        (p.retried = true → ends (.queueReadbackComplete d page false) fun t =>
          ∀ x ∈ (t.die d).host.pages, x.page ≠ page)) ∧
      ((queueSlot s d n).isSome = true → queueEn s d n = true → queueLeft s d n ≠ 0 → queueFault s d n = false →
        (findProcess s d (queuePid s d n) = none → exec (.packetParse d q) s = .next (failQueue s d n 3)) ∧
        (∀ i, findProcess s d (queuePid s d n) = some i →
          let who := unitWho d i (queuePid s d n)
          let va := ringEntry s d n (queueHead s d n)
          let s1 := (virtualNat s who va 128).1
          let p : BitVec 1024 := BitVec.ofNat 1024 (virtualNat s who va 128).2
          let s2 := (readVirtual who (packNat p 8 8) 64 s1).1
          let k := bytesAt (putBytes [] (readVirtual who (packNat p 8 8) 64 s1).2) 0 64
          rangeCheck s who va 128 .load = .ok →
          (badPacket p = true → exec (.packetParse d q) s = .next (failQueue s1 d n 2)) ∧
          (badPacket p = false → rangeCheck s1 who (packNat p 8 8) 64 .load = .ok →
            (badKernel p k = true → exec (.packetParse d q) s = .next (failQueue s2 d n 2)) ∧
            (badKernel p k = false → ends (.packetParse d q) fun t => t = afterPacket (acceptPacket s2 d n i p k) d n ∧
              ∃ l, mfind t.launches (newLaunchId s2 d) = some l ∧ l.packet = p ∧ l.die = d ∧ l.queue = n ∧ l.pid = queuePid s2 d n ∧
                l.teams = gridTeams p ∧ l.rejected = rejects s2 d (queuePid s2 d n) p (leNat ((k.drop 32).take 1)) ∧ l.done = 0 ∧
                ∀ j < gridTeams p, ∃ team, t.team? (teamKey l.id j) = some team ∧ team.waves = packWaves p ∧ team.t = j)))) ∧
      (let u := if r.src = d then s else s.absorb d r.clock
       let code (v : State) (c : Nat) : Prop := s.wave? r.wave = some wave → wave.wait = .launch r.landing →
         ends (.launchRequestReceive d r) fun t => t.wave? r.wave = some { wave with wait := .launched (BitVec.ofNat 64 c) } ∧ took t v ∧
           ∀ k, k ≠ r.wave → t.wave? k = s.wave? k
       (queueEn u d Q = false ∨ queueFed u d Q = false ∨ queuePid u d Q ≠ r.pid → code u 2) ∧
       (queueEn u d Q = true → queueFed u d Q = true → queuePid u d Q = r.pid →
         (queueState u d Q = 3 → code u 3) ∧
         (queueState u d Q ≠ 3 → badDescriptor u d Q = true → code (failQueue u d Q 1) 3) ∧
         (queueState u d Q ≠ 3 → badDescriptor u d Q = false →
           (2 ^ queueNat u d Q 8 1 ≤ queueLeft u d Q → code u 1) ∧
           (queueLeft u d Q < 2 ^ queueNat u d Q 8 1 → findProcess u d r.pid = none → code (failQueue u d Q 3) 3) ∧
           (∀ i, queueLeft u d Q < 2 ^ queueNat u d Q 8 1 → findProcess u d r.pid = some i →
             let who := unitWho d i r.pid
             let va := ringEntry u d Q (queueTail u d Q)
             rangeCheck u who va 128 .store = .ok →
               code (startQueue (writeVirtual who va 128 (putBytes [] (atOffsets 0 (leBytes 128 r.packet.toNat))) u) d Q
                 ((queueTail u d Q + 1) % 2 ^ 32) r.t0) 0))))

/-- A waiting team whose dependences hold and whose launch may begin becomes ready, and with it every waiting team of the
die that is ready then; a failed dependence ends it with STATUS 6. The foremost ready team that a cluster has room for
is placed there with its waves as R96 starts them, or resumed where it was suspended, or, without room there, moved.
TEAM_MOVE suspends a running team and starts its move, which completes once it has drained: the team is saved, or
released if it was killed meanwhile. TEAM_KILL ends a team with the status given, a moving one after its drain; a
slice that is over suspends the team when another can take its place; the region table is read afresh. An ended team
with nothing in flight writes its event and is done, once the writes of the die are acknowledged; the grid event
follows the last team. -/
def Obligations.SchedulerEvents : Prop :=
  ∀ (s : State) (d : DieId) (team : Nat) (x : Team) (status : BitVec 16) (ran : Nat) (pid : W32) (cluster : Fin 64) (bank i base n id : Nat)
    (l : Launch),
    let ends (e : Instr) (p : State → Prop) : Prop := ∃ t, exec e s = .next t ∧ p t

    let lx := s.launch x.launch
    let who := unitWho d lx.pindex lx.pid
    let ended (t : State) (c : W16) : Prop := ∃ y, t.team? team = some y ∧ y.phase = .ended ∧ y.status = c ∧
      Instr.teamEventWrite (Fin.ofNat 8 x.die) team ∈ t.agenda
    (s.team? team = some x → x.phase = .waiting → ∀ u r, depState s who lx.packet x.t = (u, r) →
      (r = .ok 2 → ends (.teamDependenceResolved d team) fun t => t = releaseTeam u team 6 ∧ (u = s → ended t 6)) ∧
      (r = .ok 0 ∨ (r = .ok 1 ∧ mayBegin u lx = false) → exec (.teamDependenceResolved d team) s =
        .next (u.push (.teamDependenceResolved d team))) ∧
      (r = .ok 1 → mayBegin u lx = true → ends (.teamDependenceResolved d team) fun t =>
        t = kickPlace ((readyWith u d).2.foldl (fun s k => becomeReady s d k) (readyWith u d).1) d ∧
        Instr.placementDecision d ∈ t.agenda ∧
        (∀ k ∈ (readyWith u d).2, k ∈ readyList t d ∧ ∀ y, t.team? k = some y → y.phase = .ready) ∧
        ∀ k, k ∉ (readyWith u d).2 → t.team? k = (readyWith u d).1.team? k)) ∧
    (dieDown s d = false → exec (.placementDecision d) s = .next (decide1 s d)) ∧
    (dieDown s d = false → readyList s d = [] → (∀ y ∈ s.teams, y.2.die = d.val → y.2.phase ≠ .running) →
      exec (.placementDecision d) s = .next s) ∧
    (∀ (rest : List Nat) (c : Nat), s.team? team = some x → teamAwake s team = true →
      (x.phase = .suspended → canResume s d x = true → ∀ u b, tryResume s team = (u, b) →
        decideGo d (team :: rest) s = if b then resumeTeam u team else decideGo d rest u) ∧
      (x.phase = .suspended → canResume s d x = false → decideGo d (team :: rest) s = decideGo d rest (startMove s team)) ∧
      (x.phase = .ready → x.fault = none → (∀ b < c, canPlaceOn s d b x = false) → c < 64 → canPlaceOn s d c x = true → ∀ v,
        tryBlock s d c team = (v, true) →
        let t := decideGo d (team :: rest) s
        t = putTeam v d c team ∧ ∃ y, t.team? team = some y ∧ y.phase = .running ∧ y.cluster = c ∧ y.fixedPrio = true ∧ ∀ w < x.waves, ∃ z,
          t.wave? (team * 16 + w) = some z ∧ z.running = true ∧ z.winsize = packWindow lx.packet w ∧ sreg z 1 = BitVec.ofNat 64 (lx.pk 16 8) ∧
            z.c.pc = BitVec.ofNat 64 (if w < lx.pk 34 1 then lx.kd 8 8 else lx.kd 0 8) ∧ z.y.tvec = BitVec.ofNat 64 (lx.kd 24 8)) ∧
      (x.phase = .ready → (∀ b < 64, canPlaceOn s d b x = false) → (∀ b < 64, budgetOk s d b x = false) →
        decideGo d (team :: rest) s = decideGo d rest s)) ∧
    (s.team? team = some x → x.phase = .suspended → x.die = d.val → scheduleUp s d = true → ends (.teamMove d team) fun t =>
      t.team? team = some { x with phase := .moving } ∧ t.agenda = s.agenda ++ [.teamMoveComplete d team]) ∧
    (s.team? team = some x → x.phase = .running → x.die = d.val → scheduleUp s d = true → exec (.teamMove d team) s =
      .next (startMove (suspendTeam s team true) team)) ∧
    (s.team? team = some x → x.phase = .moving → draining s x team = false →
      (x.killed = true → exec (.teamMoveComplete d team) s = .next (releaseTeam s team x.status)) ∧
      (x.killed = false → rangeCheck s (x.who lx) x.ctx.toNat x.ctxBytes .atomic = .ok → ends (.teamMoveComplete d team) fun t =>
        ∃ y, t.team? team = some y ∧ y.phase = .saved ∧ y.banks = [] ∧
          (∀ e ∈ (t.cluster (clusterKey d x.cluster)).seq, e.wave / 16 ≠ team) ∧
          ∀ e ∈ (t.cluster (clusterKey d x.cluster)).copies, e.wave / 16 ≠ team)) ∧
    (s.team? team = some x → x.phase = .moving → draining s x team = true → exec (.teamMoveComplete d team) s =
      .next (s.push (.teamMoveComplete d team))) ∧
    (s.team? team = some x → x.die = d.val → x.phase ≠ .ended → x.phase ≠ .done →
      (x.phase ≠ .moving ∨ draining s x team = false → ends (.teamKill d team status) fun t =>
        ended t status ∧ ∀ k w, t.wave? k = some w → k / 16 = team → w.ended = true ∧ w.running = false) ∧
      (x.phase = .moving → draining s x team = true → Instr.teamMoveComplete d team ∈ s.agenda →
        ends (.teamKill d team status) fun t =>
          t.team? team = some (if x.killed then x else { x with killed := true, status := status }))) ∧
    (scheduleUp s d = true → s.team? team = some x →
      (sliceDue s d team x ran = false → exec (.timeSliceExpire d team ran) s = .next s) ∧
      (sliceDue s d team x ran = true → exec (.timeSliceExpire d team ran) s =
        .next (rotateUpTo d team ran (s.teams.length + 1) (decide1 s d))) ∧
      (sliceWaiter s d team x = none → rotate s d team = s ∧ sliceDue s d team x ran = false) ∧
      (∀ k u, sliceWaiter s d team x = some k →
        ((s.team k).phase = .suspended → tryResume s k = (u, true) →
          rotate s d team = kickPlace (resumeTeam (suspendTeam u team false) k) d) ∧
        ((s.team k).phase ≠ .suspended → tryBlock s d x.cluster k = (u, true) →
          rotate s d team = kickPlace (putTeam (suspendTeam u team false) d x.cluster k) d))) ∧
    (scheduleUp s d = true → ((s.die d).image.regionBase.find? fun r => r.1 = pid.toNat) = some (pid.toNat, base, n) → ends (.regionTableRead d pid) fun t =>
      DieActs s t d { s.die d with sched := { (s.die d).sched with
        regions := mset (s.die d).sched.regions pid.toNat (s.peekBytes d base (256 * n)) } } (once s (.placementDecision d)) []) ∧
    (s.team? team = some x → x.phase = .ended → parseStopped s d = false → mayRelease s d = true →
      teamBusy s x team = false →
      let va := lx.pk 40 8 + 16 * x.t
      let who := unitWho d lx.pindex lx.pid
      lx.pk 40 8 = 0 ∨ rangeCheck s who va 16 .store = .ok → ends (.teamEventWrite d team) fun t =>
        t = teamDone (if lx.pk 40 8 = 0 then s
          else writeVirtual who va 16 (putBytes [] (atOffsets 0 (eventBytes s lx x.status.toNat))) s) team ∧
        ∃ y, t.team? team = some y ∧ y.phase = .done ∧ y.carved = false) ∧
    (mfind s.launches id = some l → l.id = id → l.gridDone = false → l.done = l.teams →
      parseStopped s d = false → mayRelease s d = true →
      let who := unitWho d l.pindex l.pid
      l.pk 48 8 = 0 ∨ rangeCheck s who (l.pk 48 8) 16 .store = .ok → ends (.gridEventWrite d id) fun t =>
        (∃ y, mfind t.launches id = some y ∧ y.gridDone = true) ∧
        (bit (l.pk 56 2) 15 = true → ⟨d, 13, l.pk 56 2 % 2 ^ 11, []⟩ ∈ t.outbox)) ∧
    ((s.cluster (clusterKey d cluster)).writeout.find? (fun w => w.1 = bank) = some (bank, team, i) →
      s.team? team = some x → isStopped x.phase = false ∨ (accCfgOf x i).en = false → ends (.tileBankWriteoutComplete d cluster bank) fun t =>
        (t.cluster (clusterKey d cluster)).writeout = (s.cluster (clusterKey d cluster)).writeout.filter fun w => w ≠ (bank, team, i)) ∧
    ((s.cluster (clusterKey d cluster)).writeout.find? (fun w => w.1 = bank) = some (bank, team, i) →
      s.team? team = some x → isStopped x.phase = true → (accCfgOf x i).en = true →
      rangeCheck s (x.who lx) (x.ctx.toNat + 1024 + 65536 * i) 65536 .store = .ok → ends (.tileBankWriteoutComplete d cluster bank) fun t =>
        (t.cluster (clusterKey d cluster)).writeout = (s.cluster (clusterKey d cluster)).writeout.filter (fun w => w ≠ (bank, team, i)) ∧
        t.mem = (saveTile s x i).mem)

/-- Free entries are filled, then the best entry that can start is started, a running one of lower priority in the same
unit is stopped for it, and its first step follows. A step of TZERO or TREL clears the tiles it names, TCFG gives the
eight tiles their shapes, other steps are those of their instruction; an entry whose team has stopped leaves the array
at this boundary, one of a team that is over ends. The best copy command that has not started is started. A copy step
reads its source and has its writes, or its writes land; when all have landed its bytes are counted. -/
def Obligations.EngineSteps : Prop :=
  ∀ (s u : State) (d : DieId) (c : Fin 64) (id order : Nat) (e y : SeqEntry) (x : CopyCmd) (w : Wave) (ts : List TileRead) (z : Writing),
    let ends (e : Instr) (p : State → Prop) : Prop := ∃ t, exec e s = .next t ∧ p t

    let k := clusterKey d c
    let v := refillSeq s d c
    let queue := (s.cluster k).seq
    let ready := (v.cluster k).seq
    let best := seqBest v (ready.filter (seqCan v k))
    let begins (u : State) : List SeqEntry := (u.cluster k).seq.map fun y => if y.order = e.order then { y with started := true, begun := true } else y
    let stops : Option SeqEntry := ready.find? fun y => y.started && ((isMma e && isMma y) || (isMover e && isMover y))
    let done : Bool := teamOver s e && !e.busy
    let plan := copyPlan x
    (best = none → exec (.sequencerEntryStart d c) s = .next v) ∧
    (best = some e →
      (stops = none → ends (.sequencerEntryStart d c) fun t =>
        t = { v.modCluster k (fun q => { q with seq := begins v }) with
          agenda := v.agenda ++ [.sequencerStepComplete d c e.order] ++
            (if v.agenda.contains (.sequencerEntryStart d c) then [] else [.sequencerEntryStart d c]) }) ∧
      (stops = some y → y.order ≠ e.order → ends (.sequencerEntryStart d c) fun t =>
        (∀ a ∈ (t.cluster k).seq, a.order = y.order → a.started = false) ∧ (∀ a ∈ (t.cluster k).seq, a.order = e.order → a.started = true) ∧
          Instr.sequencerStepComplete d c e.order ∈ t.agenda)) ∧
    (queue.find? (fun a => a.order = order && a.started) = some e → s.wave? e.wave = some w →
      (done = true → exec (.sequencerStepComplete d c order) s = .next (endEntry s d c e)) ∧
      (done = false → seqServed s e.wave = false → e.busy = false → ends (.sequencerStepComplete d c order) fun t =>
        ∀ a ∈ (t.cluster k).seq, a.order = e.order → a.started = false ∧ (s.team (e.wave / 16)).phase = .running) ∧
      (done = false → seqServed s e.wave = true ∨ e.busy = true →
        exec (.sequencerStepComplete d c order) s = .next (match e.op with
          | 0x58 => tcfgStep s d c w e
          | 0x59 => trelStep s d c e
          | 0x5A => tzeroStep s d c e
          | 0x5D => tldaStep s d c w e
          | 0x5E => tstaStep s d c w e
          | 0x5F => tmovvStep s d c e
          | _ => mmaStep s d c w e) ∧
        (e.op = 0x5A → (∃ team, s.team? (e.wave / 16) = some team) → (∀ i ∈ accNames e, (accCfgOf (s.team (e.wave / 16)) i).en = true) →
          ends (.sequencerStepComplete d c order) fun t => ∀ i ∈ accNames e, ∀ b < 65536, mget 0 (t.team (e.wave / 16)).acc (65536 * i + b) = 0) ∧
        (e.op = 0x58 → (∃ team, s.team? (e.wave / 16) = some team) → ends (.sequencerStepComplete d c order) fun t =>
          ∀ i < 8, accCfgOf (t.team (e.wave / 16)) i = shapeCfg (shapeByte (seqWord w e.f.a) i)))) ∧
    (copyFrozen s d c = false → copyBest s ((s.cluster k).copies.filter fun y => !y.started && y.landed.isNone) = some x →
      ends (.copyCommandStart d c) fun t => (t.cluster k).copies = ((s.cluster k).copies.map fun y =>
          if y.id = x.id then { y with started := true } else y) ∧
        Instr.copyStepLand d c x.id ∈ t.agenda ∧ ∀ die a, t.peek die a = s.peek die a) ∧
    ((s.cluster k).copies.find? (fun y => y.id = id && y.started && y.landed.isNone && y.hold = .none) = some x →
      s.wave? x.wave = some w → copyFrozen s d c = false → copyYields s k x = false →
      (x.busy = false → (x.f.xf 21 21 = 1 → levelWaits s d x.level = true → w.ended = true) →
        engReadAll (engWho s x.wave) 6 (keyLaunch x.wave) plan.1 s = (u, .ok ts) → ends (.copyStepLand d c id) fun t =>
          t = pushCopy (modCopy u k id fun y => { y with writes := plan.2 ts, busy := true }) d c id) ∧
      (x.busy = true → engWriteAll (engWho s x.wave) x.wave 7 (keyLaunch x.wave) (.engine k true id) x.writes s = (u, z) → z.stop = none →
        let v := modCopy u k id fun y => { y with writes := z.left, pend := y.pend ++ z.pend, remote := y.remote + z.remote }
        let now := ((v.cluster k).copies.find? fun y => y.id = id).getD x
        ((unacked v d now.pend).isEmpty = true → now.remote = 0 → exec (.copyStepLand d c id) s = .next (copyCounted v d c now)) ∧
        ((unacked v d now.pend).isEmpty = false ∨ now.remote ≠ 0 → exec (.copyStepLand d c id) s = .next (pushCopy v d c id)))) ∧
    ((s.cluster k).copies.find? (fun y => y.id = id && y.started && y.landed.isNone && y.hold = .none) = some x →
      s.wave? x.wave = some w → copyFrozen s d c = true → exec (.copyStepLand d c id) s = .next (modCopy s k id fun y => { y with started := false }))

/-- A landing with all its answers writes its scalar and lanes and marks its registers full. A prefetch reads ahead and
moves no stream. A pending asynchronous trap is taken with its saved values. A split at a BAR whose phase has flipped
steps past it. A supervisor halts, resumes or steps a wave of the die that has not ended: DBGSTAT holds RESULT and
BUSY, 2 if the wave is halted already or not halted, 1 if the team is not here. BUSY clears once nothing of the wave
runs. A sample records the counters of the wave that issued in the cycle; without issue there is none. -/
def Obligations.WaveAndDebugEvents : Prop :=
  ∀ (s : State) (d : DieId) (key n : Nat) (w : Wave) (l : Landing) (q : BitVec 3) (split : Fin 5) (a : AsyncTrap) (more : List AsyncTrap)
    (value : W64) (k : Fin 8) (team : Team) (cluster : Fin 64),
    let ends (e : Instr) (p : State → Prop) : Prop := ∃ t, exec e s = .next t ∧ p t

    let target := waveKey (wbits value 63 32) (wbits value 31 12) (wbits value 11 8)
    let status (t : State) (result busy : Nat) : Prop := t.ctl d 0x9008 = BitVec.ofNat 64 (result * 2 + busy)
    let named := dbgTarget (s.ctl d 0x9000)
    let going : Bool := (s.wave? named).any fun w => !w.ended && (w.stepping = 1 || w.stepping = 2 || inKBlock s named)
    (s.wave? key = some w → mfind w.landings n = some l → l.need = 0 →
      (∀ p ∈ mdel w.landings n, ∀ r ∈ p.2.regs, r ∉ l.fullV) → ends (.loadResultLand key n) fun t => ∃ w', t = syncStopped (s.setWave key w') key ∧
        mfind w'.landings n = none ∧ (∀ b v, l.scalar = some (b, v) → b ≠ 0 → sreg w' b = v) ∧ (∀ r ∈ l.fullV, emptyV w' r = false) ∧
        (∀ r : BitVec 6, r.toNat ∈ l.fullS → emptyS w' r = false) ∧
        (l.scalar = none → ∀ r, sreg w' r = sreg w r) ∧ w'.r.k = w.r.k ∧ w'.y = w.y ∧ w'.c = w.c) ∧
    (s.wave? key = some w → (getStream w q.toNat).bound = true → (getStream w q.toNat).dir = false → w.running = true → w.ended = false →
      ends (.streamPrefetch key q) fun t => ∃ w', t.wave? key = some w' ∧ w'.c = w.c ∧ w'.y = w.y ∧ w'.r.v = w.r.v ∧ w'.r.s = w.r.s ∧
        ∀ r, { getStream w' r with pre := [] } = { getStream w r with pre := [] }) ∧
    (s.wave? key = some w → w.asyncs = a :: more → w.c.intrap = false → w.park = none → w.y.tvec ≠ 0 → ends (.asyncTrapTake key) fun t =>
      t.wave? key = some (trapped { w with
          asyncs := more
          c := { w.c with
            apend := !more.isEmpty
            acause := match more with
              | y :: _ => y.tcause.extractLsb' 0 8
              | [] => 0 } }
        { tcause := a.tcause, tspc := w.c.pc, tlpc := a.tlpc, tamask := a.tamask, tfmask := a.tfmask, inst := a.inst, taddr := a.taddr,
          split := a.split })) ∧
    (s.wave? key = some w → w.running = true → w.ended = false →
      ∀ b m, (getSplit w split).valid = true → waitsBar w split = true → barAt s w (getSplit w split).lpc = some (b, m) →
        ((getBar s (teamKey w.launch w.team) b).phase ≠ (if split = 4 then w.c.haph else w.c.aph.getLsbD split) →
          ends (.barFlipObserve key split) fun t => ∃ w', t = s.setWave key w' ∧ (getSplit w' split).lpc = (getSplit w split).lpc + 12 ∧
            (∀ r, (getStream w' r).pre = []) ∧ w'.r.v = w.r.v ∧ w'.y = w.y) ∧
        ((getBar s (teamKey w.launch w.team) b).phase = (if split = 4 then w.c.haph else w.c.aph.getLsbD split) →
          exec (.barFlipObserve key split) s = .next (s.setWave key w))) ∧
    (masterStopped s d (.sup k) = false → dbgBusy s d = false →
      (s.team? (target / 16) = none → ∀ e ∈ [Instr.debugHalt d value (.sup k), .debugResume d value (.sup k), .debugStep d value (.sup k)],
        ends e fun t => status t 1 0 ∧ t.waves = s.waves) ∧
      (s.team? (target / 16) = some team → team.die = d.val → team.phase ≠ .away → s.wave? target = some w →
        (w.ended = true → ∀ e ∈ [Instr.debugHalt d value (.sup k), .debugResume d value (.sup k), .debugStep d value (.sup k)],
          ends e fun t => status t 3 0 ∧ t.waves = s.waves) ∧
        (w.ended = false → w.c.halted = false →
          (ends (.debugHalt d value (.sup k)) fun t => status t 0 (if w.running then 1 else 0) ∧
            t.wave? target = some { w with
              stepping := if w.c.unfin ≠ 0 then 3 else 0
              c := { w.c with halted := true } } ∧
            (w.running = true → t.agenda = s.agenda ++ [.debugHaltComplete d])) ∧
          ∀ e ∈ [Instr.debugResume d value (.sup k), .debugStep d value (.sup k)], ends e fun t => status t 2 0 ∧ t.waves = s.waves) ∧
        (w.ended = false → w.c.halted = true →
          (ends (.debugHalt d value (.sup k)) fun t => status t 2 0 ∧ t.waves = s.waves) ∧
          (ends (.debugResume d value (.sup k)) fun t => status t 0 0 ∧ t.wave? target = some { w with
            stepping := 0
            c := { w.c with halted := false } } ∧ Instr.placementDecision d ∈ t.agenda) ∧
          (w.stepping = 0 → ends (.debugStep d value (.sup k)) fun t => status t 0 1 ∧ t.wave? target = some { w with stepping := 1 } ∧
            Instr.debugHaltComplete d ∈ t.agenda)))) ∧
    (dbgBusy s d = true →
      (going = true → exec (.debugHaltComplete d) s = .next (s.push (.debugHaltComplete d))) ∧
      (going = false → ends (.debugHaltComplete d) fun t => status t 0 0 ∧
        DieActs s t d { s.die d with ctl := (t.die d).ctl } (once s (.placementDecision d)) [])) ∧
    (issuedOn s d cluster = some w → dieDown s d = false → s.ctlBits d 0x5A00 11 8 ≠ 0 →
      exec (.pcSample d cluster) s = .next (traceRec s d (waveName s w 7 none) 0x0A
        (leBytes 8 w.c.pc.toNat ++ leBytes 8 (w.y.lanebase + (getSplit w 0).lpc.zeroExtend 64).toNat))) ∧
    (issuedOn s d cluster = none ∨ s.ctlBits d 0x5A00 11 8 = 0 → exec (.pcSample d cluster) s = .next s)

/-- A home in a stable state with nothing queued answers RDS with DATAE or DATA, RDX with DATAX and UPG with UPGACK when
no other die holds the tile, else it sends INV, FWDS or FWDX and waits; ACK and DONE end the wait. A die answers INV
with ACK and gives up a shared copy, FWDS and FWDX with the data of an owned copy (M becomes O, E becomes S; FWDX
drops it), FLUSH with a write-back that keeps it. DATA, DATAE, DATAX and UPGACK give S, E, M and M. The home takes
written-back data and answers WBACK, which frees the buffer. FLREQ and FLACK flush. -/
def Obligations.PackageCoherence : Prop :=
  ∀ (s : State) (home src d requester : DieId) (t : TileId) (f : Frame) (x : TileData) (clock : Clock) (tid : BitVec 20) (lo hi : BitVec 48)
    (ticket : Nat) (j : CacheJob),
    let ends (e : Instr) (p : State → Prop) : Prop := ∃ t, exec e s = .next t ∧ p t

    let h := home.val
    let me := bit8 src
    let others := (diesOf f.dsharers).filter (· ≠ src.val)
    let c := s.clock h
    let homeIs (e : Instr) (f' : Frame) (sent : List Instr) : Prop := ends e fun u =>
      homeFrame u h t = some f' ∧ u.agenda = s.agenda ++ sent ∧ u.mem = s.mem
    let invs (l : List Nat) : List Instr := l.map fun y => .inv (fin8 y) home t
    let dieIs (e : Instr) (f' : Frame) (sent : List Instr) : Prop := ends e fun u =>
      dieFrame u d t = some f' ∧ u.agenda = s.agenda ++ sent ∧ u.mem = s.mem
    let gone (e : Instr) (sent : List Instr) : Prop := ends e fun u =>
      (∀ g ∈ u.frames d, g.tile = t → g.wb = true) ∧ u.agenda = s.agenda ++ sent ∧ u.mem = s.mem
    let filled (st : CohState) : Frame := { f with
      payload := x.payload
      side := x.side
      poison := x.poison
      porigin := x.porigin
      st := st
      once := 0
      bounce := 0
      answered := if st = .s then f.answered else false
      grace := if st = .m then s.ticks + 64 else 0
      dirty := (st = .m && f.home ≠ d.val) || f.dirty }
    let done : List Instr := if src.val ≠ f.home then [.done (fin8 f.home) d t ((s.absorb d clock).clock d)] else []
    (dieDown s h = false → homeFrame s h t = some f → f.wait = .none → f.queue = [] →
      (ownerOf f = none →
        (others = [] → homeIs (.rds home src t) { f with dsharers := me, downer := BitVec.ofNat 4 (8 + src.val) } [.datae src home t (tileData f) c]) ∧
        (others ≠ [] → homeIs (.rds home src t) { f with dsharers := f.dsharers ||| me } [.data src home t (tileData f) c]) ∧
        (f.dsharers = 0 → homeIs (.rdx home src t)
          { f with wait := .none, acks := 0, dsharers := me, downer := BitVec.ofNat 4 (8 + src.val) } [.datax src home t (tileData f) c]) ∧
        (f.dsharers ≠ 0 → homeIs (.rdx home src t) { f with wait := .rdxWait src, acks := f.dsharers } (invs (diesOf f.dsharers))) ∧
        (f.dsharers = me → homeIs (.upg home src t)
          { f with wait := .none, acks := 0, dsharers := me, downer := BitVec.ofNat 4 (8 + src.val) } [.upgack src home t c]) ∧
        (f.dsharers.getLsbD src = true → others ≠ [] → homeIs (.upg home src t)
          { f with wait := .upgWait src, acks := f.dsharers &&& ~~~me } (invs others))) ∧
      (∀ o : DieId, ownerOf f = some o.val → o ≠ src → o ≠ home →
        homeIs (.rds home src t) { f with wait := .fwdPend src 0, acks := 0, done := false } [.fwds o home src t] ∧
        homeIs (.rdx home src t) { f with wait := .fwdPend src 1, acks := f.dsharers &&& ~~~(bit8 o ||| me), done := false }
          (.fwdx o home src t :: invs (diesOf (f.dsharers &&& ~~~(bit8 o ||| me)))))) ∧
    (homeFrame s h t = some f → f.queue = [] → f.wait = .upgWait requester →
      (f.acks &&& ~~~me ≠ 0 → homeIs (.ack home src t clock) { f with acks := f.acks &&& ~~~me } []) ∧
      (f.acks &&& ~~~me = 0 → homeIs (.ack home src t clock)
        { f with acks := 0, wait := .none, dsharers := bit8 requester, downer := BitVec.ofNat 4 (8 + requester.val) }
        [.upgack requester home t ((s.absorb h clock).clock h)])) ∧
    (homeFrame s h t = some f → f.queue = [] → f.acks = 0 → f.heldWback = none →
      (f.wait = .fwdPend requester 0 → homeIs (.done home src t clock)
        { f with wait := .none, done := false, dsharers := f.dsharers ||| bit8 requester } []) ∧
      (f.wait = .fwdPend requester 1 → homeIs (.done home src t clock)
        { f with wait := .none, done := false, dsharers := bit8 requester, downer := BitVec.ofNat 4 (8 + requester.val) } [])) ∧
    (homeFrame s h t = none → ∀ keep, ends (.wb home src t keep none) fun u => u.agenda = s.agenda ++ [.wback src home t c]) ∧
    (homeFrame s h t = some f → f.wait = .none → f.repl = 0 → ownerOf f = some src.val → ∀ keep, homeIs (.wb home src t keep (some (x, clock)))
      { f with
        payload := x.payload
        side := x.side
        poison := x.poison
        porigin := x.porigin
        dirty := true
        dsharers := f.dsharers &&& ~~~me
        downer := 0 } [.wback src home t ((s.absorb h clock).clock h)]) ∧
    (bufferFrame s d t = none →
      (dieFrame s d t = none → ends (.inv d home t) fun u => u.agenda = s.agenda ++ [.ack home d t (s.clock d)] ∧ u.frames d = s.frames d) ∧
      (dieFrame s d t = some f → f.fetchPins = 0 →
        (f.st = .is → dieIs (.inv d home t) { f with answered := true } [.ack home d t (s.clock d)]) ∧
        (f.st = .sm → dieIs (.inv d home t) { f with st := .im, ncown := false } [.ack home d t (s.clock d)]) ∧
        (f.st = .s → f.home ≠ d.val → gone (.inv d home t) [.ack home d t (s.clock d)]) ∧
        (inGrace s f = false →
          (f.st = .m → dieIs (.fwds d home requester t) { f with st := .o, ncown := false } [.data requester d t (tileData f) (s.clock d)]) ∧
          (f.st = .o → dieIs (.fwds d home requester t) f [.data requester d t (tileData f) (s.clock d)]) ∧
          (f.st = .e → dieIs (.fwds d home requester t) { f with st := .s, ncown := false }
            [.data requester d t (tileData f) (s.clock d), .wb home d t true none]) ∧
          (f.st = .m ∨ f.st = .o ∨ f.st = .e → f.home ≠ d.val →
            gone (.fwdx d home requester t) [.datax requester d t (tileData f) (s.clock d)]) ∧
          (f.st = .m ∨ f.st = .o → dieIs (.flush d home t) { f with st := .s, ncown := false, dirty := false } [.wb home d t true (some (tileData f, s.clock d))]) ∧
          (f.st = .e → dieIs (.flush d home t) { f with st := .s, ncown := false, dirty := false } [.wb home d t true none])))) ∧
    (dieFrame s d t = some f → f.heldFwd = [] →
      (f.answered = false ∨ f.asked = true → dieIs (.data d src t x clock) (filled .s) done) ∧
      (f.answered = true → f.asked = false → f.home ≠ d.val → gone (.data d src t x clock) done) ∧ dieIs (.datae d src t x clock) (filled .e) done ∧
      dieIs (.datax d src t x clock) (filled .m) done ∧
      dieIs (.upgack d home t clock) { f with
        st := .m
        once := 0
        grace := s.ticks + 64
        dirty := f.home ≠ d.val || f.dirty } []) ∧
    ends (.wback d home t clock) (fun u => u.frames d = (s.frames d).filter fun g => !(g.tile = t && g.wb && g.st = .mi)) ∧
    (tensorPcoh s tid = false → ends (.flreq home src tid lo hi ticket) fun u => u.mem = (flushHome s h tid lo hi).mem ∧
      u.agenda = (flushHome s h tid lo hi).agenda ++ [.flack src home tid ticket ((flushHome s h tid lo hi).clock h)]) ∧
    ((s.die d).cache.jobs.find? (fun k => k.id = ticket) = some j → j.strips = 0 →
      (j.acks &&& ~~~(bit8 home) = 0 → ends (.flack d home tid ticket clock) fun u => ∀ k ∈ (u.die d).cache.jobs, k.id ≠ ticket) ∧
      (j.acks &&& ~~~(bit8 home) ≠ 0 → ends (.flack d home tid ticket clock) fun u =>
        (u.die d).cache.jobs.find? (fun k => k.id = ticket) = some { j with acks := j.acks &&& ~~~(bit8 home) }))

/-- A remote write is applied at its home in its turn: the bytes are stored, the clock is absorbed and an acknowledgement
is sent, which ends the pending write; out of turn it waits. A remote atomic in its turn stores the new value at the
home and delivers the old one to its register. A bump notice takes the generation, drops the annexes of the tensor and
is acknowledged; the last acknowledgement ends the bump. A strip lands in the annex of a resident neighbour, and the
last one ends the job. A prefetched tile becomes resident with its content. A write-back acknowledgement frees the
buffer. -/
def Obligations.CacheUpkeep : Prop :=
  ∀ (s u : State) (home src d : DieId) (seq id lo pa width : Nat) (l : List Byte) (q : RemoteWrite) (a : AtomicReq) (clock : Clock)
    (tid : BitVec 20) (gen : BitVec 12) (j : CacheJob) (x : HaloStrip) (r : FillReq) (t : TileId) (pkg : BitVec 9) (rec : Record)
    (tile : TileRead),
    let ends (e : Instr) (p : State → Prop) : Prop := ∃ t, exec e s = .next t ∧ p t

    let h := home.val
    let cacheOf (t : State) (d : Nat) : CacheState := (t.die d).cache
    let up (f : Nat) : Bool := !(dieDown s h || fromLost s h (s.dieIndex f))
    let jobs (t : State) (d : Nat) : List CacheJob := (t.die d).cache.jobs
    (up q.src.val = true → pairTurn s h q.src.val q.seq = false → exec (.remoteWrite home q) s = .next (s.push (.remoteWrite home q))) ∧
    (up q.src.val = true → pairTurn s h q.src.val q.seq = true → q.bytes = atOffsets lo l → lo + l.length ≤ 2048 → q.base % 2048 = 0 →
      ends (.remoteWrite home q) fun t => Stored s t h q.base (cellOf s q.base) lo l ∧
        mget 0 (cacheOf t h).pairIn q.src.val = q.seq + 1 ∧
        t.agenda = s.agenda ++ [.remoteWriteAck q.src home q.seq (t.clock h)] ∧
        ∀ f ∈ t.frames h, f.tile = q.tile → f.wb = false → f.sharers = 0 ∧ f.ncown = false) ∧
    (ends (.remoteWriteAck d home seq clock) fun t =>
      (cacheOf t d).pend = (cacheOf s d).pend.filter (fun p => !(p.home = h && p.seq = seq)) ∧ t.mem = s.mem ∧ t.agenda = s.agenda ∧
        t.frames d = s.frames d) ∧
    (fromLost s h (s.dieIndex a.src) = false → dieDown s h = true ∨ pairTurn s h a.src.val a.seq = false → exec (.remoteAtomic home a) s = .next (s.push (.remoteAtomic home a))) ∧
    (up a.src.val = true → pairTurn s h a.src.val a.seq = true →
      let need : FillReq :=
        { tile := a.tile, base := a.base, home := home, enc := (codeRegion? s h a.base).isSome, pcoh := tensorPcoh s a.tile.tid, repl := a.repl
          nq4 := false, side := 0, owner := keyLaunch a.wave, region := codeRegion? s h a.base }
      let p : Placed := { pa := a.base + a.off, req := need, leaf := 0 }
      touch s h need true = .ok u → u.ctlBits h 0x5B00 1 0 = 0 → InTile p a.width →
      let v := (pairNext u h a.src.val).absorb h a.clock
      let old := leNat (loadBytes v h p 0 a.width)
      let new := atomicNew a.op a.kind a.width old a.operand.toNat a.compare.toNat
      ends (.remoteAtomic home a) fun t => mget 0 (cacheOf t h).pairIn a.src.val = a.seq + 1 ∧
        (∀ n, new = some n → Stored v t h a.base (cellOf v a.base) (p.pa - a.base) (leBytes a.width n)) ∧ (new = none → t.mem = v.mem) ∧
        (∀ wave n b w k, a.dest = .scalar wave n b → s.wave? wave = some w → mfind w.landings n = some k → ∃ w', t.wave? wave = some w' ∧
          mfind w'.landings n = some { k with
            scalar := some (b, BitVec.ofNat 64 old)
            need := k.need - 1 } ∧
          (k.need ≤ 1 → Instr.loadResultLand wave n ∈ t.agenda))) ∧
    (ends (.uncachedRead home pkg pa width) fun t => DieActs s t h (s.die h) [] [⟨h, 7, pkg.toNat, leBytes 8 pa ++ s.peekBytes h pa width⟩]) ∧
    (ends (.bumpNotice d home tid gen) fun t => (cacheOf t d).mirror = (mset (cacheOf s d).mirror tid.toNat gen).take 1024 ∧
      (∀ a ∈ (cacheOf t d).annexes, a.tile.tid ≠ tid) ∧ t.agenda = s.agenda ++ [.bumpAck home d ⟨tid, s.clock d⟩] ∧
      t.mem = s.mem ∧ ∀ f ∈ t.frames d, f.tile.tid = tid → f.sharers = 0 ∧ f.ncown = false) ∧
    ((jobs s h).find? (fun j => j.kind = 0 && j.tid = tid && j.acks.getLsbD src.val) = some j →
      (jobs s h).find? (fun k => k.id = j.id) = some j →
      let left := j.acks &&& ~~~(bit8 src)
      (left ≠ 0 → ends (.bumpAck home src ⟨tid, clock⟩) fun t => (jobs t h).find? (fun k => k.id = j.id) = some { j with acks := left } ∧
        t.waves = s.waves) ∧
      (left = 0 → ends (.bumpAck home src ⟨tid, clock⟩) fun t => (∀ k ∈ jobs t h, k.id ≠ j.id) ∧
        (j.bar = none → ∀ w, s.wave? j.wave = some w → w.wait = .bump j.id → t.wave? j.wave = some { w with wait := .none }))) ∧
    (ends (.generationMirrorFill d tid gen) fun t => (cacheOf t d).mirror = (mset (cacheOf s d).mirror tid.toNat gen).take 1024 ∧
      t.frames d = s.frames d ∧ t.mem = s.mem) ∧
    (ends (.bounceDecay d t) fun u => u.frames d = ((s.frames d).map fun f => if f.tile = t && !f.wb then { f with bounce := 0 } else f) ∧
      u.mem = s.mem) ∧
    ((jobs s d).find? (fun j => j.kind = 1 && j.tid = t.tid && j.strips ≠ 0) = none → ends (.homeWriteBackAck d t) fun u =>
      u.frames d = ((s.frames d).filter fun f => !(f.tile = t && f.wb && f.st ≠ .mi)) ∧ jobs u d = jobs s d) ∧
    ((jobs s d).find? (fun j => j.kind = 1 && j.tid = t.tid && j.strips ≠ 0) = some j → (jobs s d).find? (fun k => k.id = j.id) = some j →
      (j.strips = 1 → j.acks = 0 → ends (.homeWriteBackAck d t) fun u => ∀ k ∈ jobs u d, k.id ≠ j.id) ∧
      (1 < j.strips ∨ j.acks ≠ 0 → ends (.homeWriteBackAck d t) fun u =>
        (jobs u d).find? (fun k => k.id = j.id) = some { j with strips := j.strips - 1 })) ∧
    ((cacheOf s d).halo.find? (fun y => y.id = id) = some x → (jobs s d).find? (fun k => k.id = x.job) = some j →
      (x.face ≠ haloStartFace → ends (.haloStripLand d id) fun u => (∀ y ∈ (cacheOf u d).halo, y.id ≠ id) ∧
        ((s.frame? d x.tile).isSome = true → ∃ b ∈ (cacheOf u d).annexes, b.tile = x.tile ∧ mfind b.strips x.face = some x.bytes) ∧
        ((s.frame? d x.tile).isSome = false → (cacheOf u d).annexes = (cacheOf s d).annexes) ∧
        (1 < j.strips → (jobs u d).find? (fun k => k.id = j.id) = some { j with strips := j.strips - 1 }) ∧
        (j.strips ≤ 1 → ∀ k ∈ jobs u d, k.id ≠ j.id)) ∧
      (x.face = haloStartFace → j.record = some rec →
        let c (k : Nat) : Nat := coordAt x.tile.coord k
        let strips := haloStrips rec c fun n => mget 0 tile.payload n
        engRead s (engWho s j.wave) 8 (keyLaunch j.wave) (rec.tile c).use = (u, .ok tile) → ends (.haloStripLand d id) fun v =>
          (cacheOf v d).halo.map (fun y => (y.tile, y.face, y.bytes)) =
            ((cacheOf u d).halo.filter fun y => y.id ≠ id).map (fun y => (y.tile, y.face, y.bytes)) ++ strips ∧
          (strips ≠ [] → ∀ k ∈ jobs v d, k.id = j.id → k.strips = strips.length) ∧ (strips = [] → ∀ k ∈ jobs v d, k.id ≠ j.id))) ∧
    ((s.frame? d r.tile).isSome = true → ∀ y, exec (.tileFillComplete d r y) s = .next s) ∧
    ((s.frame? d r.tile).isSome = false → completeFill s d r = .ok u → ends (.tileFillComplete d r .good) fun t => t = u ∧
      let c := fillContent (fillMirror s d r.tile.tid) r
      ∃ f ∈ u.frames d, f.tile = r.tile ∧ f.wb = false ∧ f.st = (if r.home = d ∧ isHostCell (cellOf s r.base) = false then .e else .s) ∧ f.base = r.base ∧ f.home = r.home.val ∧
        (f.payload, f.side, f.poison, f.porigin) = c) ∧
    ((s.frame? d r.tile).isSome = false → completeFill s d r = .wait u → exec (.tileFillComplete d r .good) s =
      .next (u.push (.tileFillComplete d r .good))) ∧
    ((s.frame? d r.tile).isSome = false → completeFill s d r = .fault u → exec (.tileFillComplete d r .good) s = .next u) ∧
    ((s.frame? d r.tile).isSome = false →
      completeFill (errorRec s r.home.val 1 2 r.base [] (lpddrChannel r.base) 0).1 d r = .ok u →
      exec (.tileFillComplete d r .transient) s = .next u)

/-- A valid intent blocks its range, drops its translations, stops the process's matrix instructions and is acknowledged
once what it waits for has drained; the commit rewrites the entries and ends the block. A replay drops the record and
lets what waits go on; a refusal makes the wave trap with cause 0x0A, reports the command of an engine or fails the
request. A release clears the FRZCL or FRZCE bits, ends the teams of violating waves (a moving one after its drain)
with STATUS 2 and discards violating copies. A master other than a supervisor violates. -/
def Obligations.ShootDownsAndFaultAnswers : Prop :=
  ∀ (s : State) (d : DieId) (src : BitVec 9) (box : BitVec 4) (tag : W32) (body : Body) (sdid : BitVec 16) (x : ShootDown) (root : Nat)
    (value : W64) (k : Fin 8) (m : Master) (fid : BitVec 16) (f : FaultRec) (key : Nat) (w : Wave) (p : Park) (c id : Nat) (again : Instr)
    (hw : HostWait) (e : SeqEntry) (cmd : CopyCmd) (n : Nat) (team : Team),
    let ends (e : Instr) (p : State → Prop) : Prop := ∃ t, exec e s = .next t ∧ p t

    let id16 := bodyNat body 2 2
    let pid : W32 := BitVec.ofNat 32 (bodyNat body 4 4)
    let acked (s : State) : State := sendShootAck s d src.toNat box.toNat tag id16
    let open' : ShootDown := { src := src, sdid := BitVec.ofNat 16 id16, kind := bodyNat body 0 1, pid := pid, first := bodyNat body 8 8
                               count := bodyNat body 16 4, box := box, tag := tag, acked := false, commit := false, drain := unfinished s d }
    let tr (t : State) : TransState := (t.die d).tr
    let closes (t : State) (n i : Nat) : State :=
      unblock (t.modTr d fun y => { y with shoots := y.shoots.filter fun z => !(z.src.toNat = n && z.sdid.toNat = i && z.commit) }) d
    let sup := Master.sup k
    let free := masterStopped s d sup = false
    let answered (t : State) : Prop := ∀ g ∈ (tr t).faults, g.fid ≠ f.fid
    let dropped (refused : Bool) : State := traceAnswer (dropFaults s d fun g => g.fid = f.fid) d f refused
    (shootVoid body false = true → exec (.unmapIntent d src box tag body) s = .next (acked (errorRec s d 3 8 0 [] src.toNat 0).1)) ∧
    (shootVoid body false = false → findProcess s d pid = none → exec (.unmapIntent d src box tag body) s = .next (acked s)) ∧
    (shootVoid body false = false → findProcess s d pid ≠ none → ends (.unmapIntent d src box tag body) fun t =>
      (tr t).shoots = (tr s).shoots ++ [open'] ∧
      (tr t).cache = ((tr s).cache.filter fun e => !(e.pid = pid && shootCovers open' pid e.va e.size)) ∧
      (∀ va, shootCovers open' pid va 1 = true → blockedAt t d pid va = true) ∧
      Instr.shootDownAcknowledgement d src (BitVec.ofNat 16 id16) ∈ t.agenda ∧
      ∀ c < 64, ∀ e ∈ (t.cluster (clusterKey d c)).seq, e.started = true → e.busy = false → isMma e = true ∨ e.op = 0x5E →
        (s.launch (keyLaunch e.wave)).pid ≠ pid) ∧
    ((tr s).shoots.find? (fun x => x.src = src && x.sdid = sdid && !x.acked) = some x →
      (x.drain.any (fun p => (unfinished s d).contains p) = true → exec (.shootDownAcknowledgement d src sdid) s =
        .next (s.push (.shootDownAcknowledgement d src sdid))) ∧
      (x.drain.any (fun p => (unfinished s d).contains p) = false → exec (.shootDownAcknowledgement d src sdid) s =
        .next (sendShootAck (s.modTr d fun t => { t with shoots := t.shoots.map fun y => if y = x then { y with acked := true } else y })
          d src.toNat x.box.toNat x.tag sdid.toNat))) ∧
    (shootVoid body true = true → exec (.unmapCommit d src body) s = .next s) ∧
    (shootVoid body true = false → rootOf s d pid = some root → (tr s).shoots.find? (fun x => x.src = src && x.sdid.toNat = id16) = some x →
      let u := rewriteRange d root (bodyNat body 8 8) (bodyNat body 16 4)
        (if bodyNat body 0 1 = 2 then some (bodyNat body 24 8) else none) (bodyNat body 16 4) 0 s
      let v := u.modTr d fun t => { t with shoots := t.shoots.map fun y => if y = x then { y with commit := true } else y }
      exec (.unmapCommit d src body) s = .next (closes v src.toNat id16) ∧
      ((∀ y ∈ (tr s).hostWaits, y.fault ≠ none) → ends (.unmapCommit d src body) fun t =>
        ∀ key w p, s.wave? key = some w → w.park = some p → p.blocked = true → p.records = [] → (waveWho v w).d = d.val →
          t.wave? key = some (unpark w))) ∧
    (free → ((tr s).shoots.any (fun x => x.src.toNat = wbits value 24 16 && x.sdid.toNat = wbits value 15 0 && x.commit) = true →
        exec (.sddoneWrite d value sup) s = .next (closes s (wbits value 24 16) (wbits value 15 0))) ∧
      ((tr s).shoots.any (fun x => x.src.toNat = wbits value 24 16 && x.sdid.toNat = wbits value 15 0 && x.commit) = false →
        exec (.sddoneWrite d value sup) s = .next s)) ∧
    (masterStopped s d m = false → isSup m = false →
      exec (.sddoneWrite d value m) s = .next (violation s d m (ctlBase d + 0x5D28)) ∧
      exec (.faultReplay d fid m) s = .next (violation s d m (ctlBase d + 0x5D20)) ∧
      exec (.faultRefuse d fid m) s = .next (violation s d m (ctlBase d + 0x5D20)) ∧
      exec (.frzclRelease d value m) s = .next (violation s d m (ctlBase d + 0x5E18)) ∧
      exec (.frzceRelease d value m) s = .next (violation s d m (ctlBase d + 0x5E20))) ∧
    (free → answered? s d fid.toNat = some f →
      (f.owner = .wave key → s.wave? key = some w →
        (w.wait = .syscall f.fid →
          (ends (.faultReplay d fid sup) fun t => answered t ∧ t.wave? key = some { w with wait := .served true }) ∧
          (ends (.faultRefuse d fid sup) fun t => answered t ∧ t.wave? key = some { w with wait := .served false })) ∧
        (w.wait ≠ .syscall f.fid → w.park = some p →
          (ends (.faultReplay d fid sup) fun t => answered t ∧
            let left := p.records.filter fun r => r.1 ≠ f.fid
            (left = [] → p.blocked = false → t.wave? key = some (unpark w)) ∧
            (left ≠ [] ∨ p.blocked = true → t.wave? key = some { w with park := some { p with records := left } })) ∧
          (w.c.intrap = false → w.y.tvec ≠ 0 → ends (.faultRefuse d fid sup) fun t => (∀ g ∈ (tr t).faults, g.owner ≠ .wave key) ∧
            ∃ w', t.wave? key = some w' ∧ w'.park = none ∧ w'.c.intrap = true ∧ w'.c.pc = w.y.tvec ∧ w'.y.tspc = w.c.pc ∧
              w'.y.taddr = f.va ∧ w'.y.tinst = p.inst ∧
              w'.y.tcause = BitVec.ofNat 64 (0x0A + (if p.lane then 0 else 256) + f.reason * 4096)))) ∧
      (f.owner = .seq d.val c id → ends (.faultReplay d fid sup) fun t => answered t ∧
        (∀ n < 64, ∀ y ∈ (t.cluster (clusterKey d n)).seq, heldBy f.fid y.hold = false) ∧
        (∀ q, s.team? q = some team → team.die = d.val → ∃ y, t.team? q = some y ∧ ∀ e ∈ y.store, heldBy f.fid e.hold = false) ∧
        ∀ n < 64, ((s.cluster (clusterKey d n)).seq.any fun y => heldBy f.fid y.hold) = true →
          Instr.sequencerEntryStart d (Fin.ofNat 64 n) ∈ t.agenda) ∧
      (f.owner = .seq d.val c id → heldEntry s d f.fid = some (some n, e) → s.wave? e.wave = some w →
        ends (.faultRefuse d fid sup) fun t => answered t ∧ t = seqReport (dropped true) d n e 0x0A f.va.toNat 0 f.reason ∧
          ∃ w' a, t.wave? e.wave = some w' ∧ w'.asyncs = w.asyncs ++ [a] ∧
            a.tcause = BitVec.ofNat 64 (0x0A + 512 + f.reason * 4096) ∧ a.inst = e.inst ∧ a.taddr = f.va) ∧
      (f.owner = .seq d.val c id → heldEntry s d f.fid = some (none, e) → exec (.faultRefuse d fid sup) s =
        .next (seqReport ((dropped true).modTeam (e.wave / 16) fun t => { t with store := t.store.filter fun y => y ≠ e }) d c e
          0x0A f.va.toNat 0 f.reason)) ∧
      (f.owner = .copy d.val c id → (ends (.faultReplay d fid sup) fun t => answered t ∧
        (∀ y ∈ (t.cluster (clusterKey d c)).copies, y.id = id → y.hold = .none) ∧ Instr.copyStepLand d (Fin.ofNat 64 c) id ∈ t.agenda) ∧
        ((s.cluster (clusterKey d c)).copies.find? (fun y => y.id = id) = some cmd → exec (.faultRefuse d fid sup) s =
          .next (copyReport (dropped true) d c cmd 0x0A f.va.toNat f.reason))) ∧
      (f.owner = .host id → (tr s).hostWaits.find? (fun y => y.ticket = id) = some hw →
        exec (.faultReplay d fid sup) s = .next (hostAgain (dropped false) d hw) ∧
        ends (.faultRefuse d fid sup) fun t => answered t ∧ t.outbox = (dropped true).outbox ++ [⟨d, 14, hw.pasid, [1]⟩] ∧
          (tr t).hostWaits = (tr s).hostWaits.filter fun y => y.ticket ≠ id) ∧
      (f.owner = .context c id → f.again = some again → ends (.faultReplay d fid sup) fun t => answered t ∧ again ∈ t.agenda ∧
        ∀ y, t.team? (teamKey c id) = some y → y.fault = none) ∧
      (f.owner = .context c id → exec (.faultRefuse d fid sup) s = .next (releaseTeam (dropped true) (teamKey c id) 4)) ∧
      ((f.owner = .queue n ∨ f.owner = .event c n ∨ f.owner = .launchWrite n) →
        (f.again = some again → exec (.faultReplay d fid sup) s = .next ((dropped false).push again)) ∧
        exec (.faultRefuse d fid sup) s = .next (refuseOther (dropped true) f d))) ∧
    (free → answered? s d fid.toNat = none → exec (.faultReplay d fid sup) s = .next s ∧ exec (.faultRefuse d fid sup) s = .next s) ∧
    (free → ends (.frzclRelease d value sup) fun t => t.ctl d 0x5E18 = s.ctl d 0x5E18 &&& ~~~value ∧
      ∀ q ∈ (tr s).violators, q.1 < 64 → value.getLsbD q.1 = true → (s.ctl d 0x5E18).getLsbD q.1 = true → q.2 ≠ 0 →
        ∀ team, s.team? (q.2 / 16) = some team → team.phase ≠ .ended → team.phase ≠ .done →
          team.phase ≠ .moving →
          ∃ y, t.team? (q.2 / 16) = some y ∧ y.phase = .ended ∧ y.status = 2) ∧
    (free → ends (.frzceRelease d value sup) fun t => t.ctl d 0x5E20 = s.ctl d 0x5E20 &&& ~~~value ∧
      ∀ c < 64, value.getLsbD c = true → (s.ctl d 0x5E20).getLsbD c = true → ∀ q ∈ (tr s).violators, q.1 = 64 + c →
        ∀ y ∈ (t.cluster (clusterKey d c)).copies, y.id ≠ q.2)

/-- The decoder reads ADDI, SLD, SAMO CAS, BNE, LBLK, BARARR, FENCE and CSRR from the words that the worked examples give,
FADD and FMUL with an immediate and a rounding code, LBR and the copy of the chapters on lane code from their three
words, and refuses the FMUL word that asks for rounding code 6. -/
def Obligations.DecodeWords : Prop :=
  decode [0x08313FF4] = some (.addi 3 4 0x3FF4) ∧ decode [0x30512008] = some (.sld 5 4 2 8) ∧
  decode [0x406107ED] = some (.samoCas 6 4 7 3 1) ∧ decode [0x48303FFD] = some (.bne 3 0 0x3FFD) ∧
  (∀ lit, decode [0x69421000, lit] = some (.lblk 20 8 4 0 lit)) ∧ decode [0x80524000] = some (.bararr 5 9) ∧
  decode [0x8C000003] = some (.fence 3) ∧ decode [0xA4500060] = some (.csrr 5 0x60) ∧
  decode [0, 0x40180000, 0x26800200] = some (.fadd ⟨2, 0, false, false, 4, .v 2 false, .v 3 false, .v 0 false, 0⟩) ∧
  decode [0x3F000000, 0x40080060, 0x2A800480] = some (.fmul ⟨2, 0, false, false, 9, .v 2 false, .imm 0x3F000000, .v 0 false, 1⟩) ∧
  decode [0x00050008, 0, 0x66080000] = some (.lbr ⟨0, 1, false, false, 0, .v 0 false, .v 0 false, .v 0 false, 0x00050008⟩) ∧
  decode [0x3F000000, 0x40300060, 0x2A800480] = none

/-- For every well-formed instruction of scalar or lane code, with every operand at every value the encoding admits, the
decoder reads it back from its own words; whatever the decoder reads is well formed and has an encoding. A word that
R279 or R287 makes illegal is refused unless it is an opcode that a handler may emulate. -/
def Obligations.EncodeDecode : Prop :=
  (∀ i : Instr, i.wf = true → encode i ≠ [] → decode (encode i) = some i) ∧
  (∀ (ws : List W32) (i : Instr), decode ws = some i → i.wf = true ∧ encode i ≠ []) ∧
  (∀ i j : Instr, i.wf = true → j.wf = true → encode i ≠ [] → encode i = encode j → i = j)

/-- When the wave in focus may issue and it is its turn, the words at the scalar counter, or the three words of the split
in focus, decode to an instruction i: the step is that of i, after its pages have been cached, then the choice of what
issues next. Words that decode to nothing trap with cause 0x01. When it is the turn of the oldest event that can come,
or no wave can issue, the step is that of the event. Messages that come to nothing are dropped first. A word of a
mapped page in memory, held by the die or filled without a fault, is the four bytes at its place, the lowest first.
The counter that the step adds one to (tick) is the model’s own. -/
def Obligations.StepRunsWhatIsDecoded : Prop :=
  ∀ (s : State) (w : Wave) (i : Instr) (l : List Instr) (a b c : W32),
    let v := { tick s with agenda := (tick s).agenda.filter fun e => !dropped (tick s) e }
    let who := waveWho v w
    let page (u : State) (va : W64) : State := cachePage u who.d who.cluster who.pindex who.pid va
    let runs (u : State) : Prop := step s = andThen (exec i u) fun t => afterIssue t (isMatrix i)
    let turn := oldestEvent v v.agenda = none ∨ (v.ticks % 2 = 0 ∧ canIssue v = true)
    let pc := w.c.pc
    let va : W64 := w.y.lanebase + (getSplit w v.split).lpc.zeroExtend 64
    let u1 := page v va
    let u2 := page u1 (va + 4)
    (turn → v.wave? v.focus = some w → focusReady v w = true → (waveIssues v w && asyncDue w) = false → encode i ≠ [] →
      (v.lane = false → fetchWord v w pc 3 = .word a →
        (hasLiteral a = false → decode [a] = some i → runs (page v pc)) ∧
        (hasLiteral a = true → fetchWord (page v pc) w (pc + 4) 3 = .word b → decode [a, b] = some i →
          runs (page (page v pc) (pc + 4)))) ∧
      (v.lane = true → fetchWord v w va 4 = .word a → fetchWord u1 w (va + 4) 4 = .word b → fetchWord u2 w (va + 8) 4 = .word c →
        decode [a, b, c] = some i → runs (page u2 (va + 8)))) ∧
    (turn → v.wave? v.focus = some w → focusReady v w = true → (waveIssues v w && asyncDue w) = false → Quiet v w →
      (v.lane = false → fetchWord v w pc 3 = .word a → hasLiteral a = false → decode [a] = none →
        ∃ t, step s = .next (afterIssue t false) ∧ Traps (page v pc) t w
          { tcause := 0x101, tspc := pc, inst := a.zeroExtend 96 }) ∧
      (v.lane = false → fetchWord v w pc 3 = .word a → hasLiteral a = true → fetchWord (page v pc) w (pc + 4) 3 = .word b →
        decode [a, b] = none → ∃ t, step s = .next (afterIssue t false) ∧ Traps (page (page v pc) (pc + 4)) t w
          { tcause := 0x101, tspc := pc, inst := (b ++ a).zeroExtend 96 }) ∧
      (v.lane = true → w.c.unfin = 0 → fetchWord v w va 4 = .word a → fetchWord u1 w (va + 4) 4 = .word b →
        fetchWord u2 w (va + 8) 4 = .word c → decode [a, b, c] = none →
          ∃ t, step s = .next (afterIssue t false) ∧ Traps (page u2 (va + 8)) t w
            { tcause := 0x01, tspc := pc, tlpc := va, tamask := (getSplit w v.split).mask, tfmask := (getSplit w v.split).mask
              inst := c ++ b ++ a, split := v.split })) ∧
    (oldestEvent v v.agenda = some (i, l) → encode i = [] → v.ticks % 2 = 1 ∨ canIssue v = false →
      step s = andThen (exec i { v with agenda := l }) afterEvent) ∧
    (∀ (u : State) (va : W64) (right pa home cell : Nat) (leaf : W64), let who := waveWho u w
      translate u who.d who.cluster who.pindex who.pid va [right] = .ok pa leaf u.pkg → u.locate pa = .cached home cell →
        inFirmware pa = false → isHostCell cell = false → (u.frame? who.d (flatTile pa)).isSome = true ∨
          (bit leaf.toNat 7 = (codeRegion? u home (pa / 2048 * 2048)).isSome ∧ dieDown u home = false) → fetchWord u w va right = .word (BitVec.ofNat 32 (u.peekNat who.d pa 4)))

/-- After reset every control register of every die reads its reset value: each island’s STEP and EFF 15, PWRLIM.POLICY
4,200, TRCCTL’s ring size 12, LNKCTL.IDLE 100 of every port, and 0 in the format regions, FRZCL, FRZCE and the first
register of the directory. No memory byte is listed (each reads as 0, log entry 1), nothing is on its way, and a step
only counts time. The state is safe and makes the issue choice of R110. -/
def Obligations.ResetState : Prop :=
  (∀ d : DieId, (∀ i < 16, State.reset.ctl d (0x1000 + 8 * i) = 15 ∧ State.reset.ctl d (0x1080 + 8 * i) = 15) ∧
    State.reset.ctlBits d 0x2000 15 0 = 4200 ∧ State.reset.ctlBits d 0x5A00 17 12 = 12 ∧
    (∀ p < 6, State.reset.ctlBits d (0x3000 + 0x100 * p + 8) 15 4 = 100) ∧
    (∀ r < 64, ∀ k < 4, State.reset.ctl d (0x5000 + 0x20 * r + 8 * k) = 0) ∧
    State.reset.ctl d 0x5E18 = 0 ∧ State.reset.ctl d 0x5E20 = 0 ∧ State.reset.ctl d 0x5D00 = 0) ∧
  State.reset.mem = [] ∧ (∀ c, State.reset.cellByte c = 0) ∧ (∀ k, State.reset.wave? k = none ∧ State.reset.team? k = none) ∧
  State.reset.launches = [] ∧ State.reset.agenda = [] ∧ State.reset.outbox = [] ∧
  step State.reset = .next { State.reset with ticks := 1, now := Config.elapsed 0 } ∧ SafeState State.reset ∧ IssueChoice State.reset State.reset

/-- Whatever a step does, if it ends in a next state, then either no wave is ready, or the wave in focus is ready and no
ready wave of its quadrant goes before it (none has a higher priority, and among equals none was placed earlier, nor
among those has a lower index in its team; a wave that yields counts only when no other of its quadrant is ready), or
the lane stream of the wave that has just issued from its scalar stream follows in the same cycle. An event leaves a
choice that can still issue as it is. -/
def Obligations.IssueChoiceKept : Prop :=
  ∀ s t : State, step s = .next t → IssueChoice s t ∨
    (canIssue t = true ∧ t.focus = s.focus ∧ t.lane = s.lane ∧ t.split = s.split ∧ ∃ i u, next (tick s) = .run i u ∧ isCode i = false)
end

