-- ==== Sys2Proof/Laws/Sparse.lean ====
section
/-! SUPPORT. Laws of sparse maps: reads after writes, and the canonical form, which every operation keeps. -/

namespace Sys2Proof.Machine

variable {β : Type}

/-! ### Reads after writes -/

@[simp] theorem mfind_nil (k : Nat) : mfind ([] : List (Nat × β)) k = none := rfl

@[simp] theorem mfind_mset_same (m : List (Nat × β)) (k : Nat) (v : β) : mfind (mset m k v) k = some v := by
  induction m with
  | nil => simp [mset, mfind]
  | cons p m ih =>
    obtain ⟨j, u⟩ := p
    simp only [mset]
    split
    · simp [mfind]
    · split
      · simp [mfind]
      · simp [mfind, *]

theorem mfind_mset_ne (m : List (Nat × β)) {k j : Nat} (v : β) (h : j ≠ k) : mfind (mset m k v) j = mfind m j := by
  induction m with
  | nil => simp [mset, mfind, Ne.symm h]
  | cons p m ih =>
    obtain ⟨i, u⟩ := p
    simp only [mset]
    split
    · subst_vars; simp [mfind, Ne.symm h]
    · split
      · simp [mfind, Ne.symm h]
      · simp [mfind, ih]

theorem mfind_mset (m : List (Nat × β)) (k j : Nat) (v : β) :
    mfind (mset m k v) j = if j = k then some v else mfind m j := by
  split
  · subst_vars; simp
  · exact mfind_mset_ne m v ‹_›

theorem mfind_mdel (m : List (Nat × β)) (k j : Nat) : mfind (mdel m k) j = if j = k then none else mfind m j := by
  induction m with
  | nil => simp [mdel, mfind]
  | cons p m ih =>
    obtain ⟨i, u⟩ := p
    simp only [mdel]
    split
    · subst_vars; rw [ih]; split
      · rfl
      · simp [mfind, Ne.symm ‹_›]
    · by_cases hij : i = j
      · subst hij; simp [mfind, *]
      · simp [mfind, hij, ih]

@[simp] theorem mget_mset_same (d : β) (m : List (Nat × β)) (k : Nat) (v : β) : mget d (mset m k v) k = v := by simp [mget]
theorem mget_mset_ne (d : β) (m : List (Nat × β)) {k j : Nat} (v : β) (h : j ≠ k) : mget d (mset m k v) j = mget d m j := by
  simp [mget, mfind_mset_ne m v h]

theorem mget_mput [DecidableEq β] (d : β) (m : List (Nat × β)) (k j : Nat) (v : β) :
    mget d (mput d m k v) j = if j = k then v else mget d m j := by
  unfold mput mget
  split
  · rw [mfind_mdel]; split <;> simp_all
  · rw [mfind_mset]; split <;> simp_all

@[simp] theorem mget_mput_same [DecidableEq β] (d : β) (m : List (Nat × β)) (k : Nat) (v : β) :
    mget d (mput d m k v) k = v := by simp [mget_mput]
theorem mget_mput_ne [DecidableEq β] (d : β) (m : List (Nat × β)) {k j : Nat} (v : β) (h : j ≠ k) :
    mget d (mput d m k v) j = mget d m j := by simp [mget_mput, h]

/-! ### The canonical form -/

/-- The form said of the whole list: keys rise strictly, and no entry holds what an unlisted key reads as. -/
theorem sparseOk_iff [DecidableEq β] (d : β) (m : List (Nat × β)) :
    sparseOk d m = true ↔ m.Pairwise (fun a b => a.1 < b.1) ∧ ∀ p ∈ m, p.2 ≠ d := by
  induction m with
  | nil => simp [sparseOk]
  | cons p m ih =>
    obtain ⟨j, v⟩ := p
    cases m with
    | nil => simp [sparseOk]
    | cons q m =>
      obtain ⟨k, w⟩ := q
      simp only [sparseOk, Bool.and_eq_true, decide_eq_true_eq, Bool.not_eq_true', decide_eq_false_iff_not, ih]
      constructor
      · rintro ⟨⟨hjk, hv⟩, hp, hd⟩
        refine ⟨List.pairwise_cons.2 ⟨fun a ha => ?_, hp⟩, fun a ha => ?_⟩
        · rcases List.mem_cons.1 ha with rfl | ha
          · exact hjk
          · exact hjk.trans ((List.pairwise_cons.1 hp).1 a ha)
        · rcases List.mem_cons.1 ha with rfl | ha
          · exact hv
          · exact hd a ha
      · rintro ⟨hp, hd⟩
        obtain ⟨h1, h2⟩ := List.pairwise_cons.1 hp
        exact ⟨⟨h1 _ (List.mem_cons_self ..), hd _ (List.mem_cons_self ..)⟩, h2, fun a ha => hd a (List.mem_cons_of_mem _ ha)⟩

/-- A sublist of a canonical list is canonical. -/
theorem sparseOk_sublist [DecidableEq β] {d : β} {m m' : List (Nat × β)} (hs : m'.Sublist m) (h : sparseOk d m = true) :
    sparseOk d m' = true := by
  rw [sparseOk_iff] at *
  exact ⟨h.1.sublist hs, fun p hp => h.2 p (hs.subset hp)⟩

theorem sparseOk_filter [DecidableEq β] {d : β} {m : List (Nat × β)} (p : Nat × β → Bool) (h : sparseOk d m = true) :
    sparseOk d (m.filter p) = true := sparseOk_sublist (List.filter_sublist) h

theorem mdel_sublist (m : List (Nat × β)) (k : Nat) : (mdel m k).Sublist m := by
  induction m with
  | nil => simp [mdel]
  | cons p m ih =>
    obtain ⟨j, u⟩ := p
    simp only [mdel]
    split
    · exact ih.cons _
    · exact ih.cons_cons _

theorem mset_mem {m : List (Nat × β)} {k : Nat} {v : β} {p : Nat × β} (h : p ∈ mset m k v) : p = (k, v) ∨ p ∈ m := by
  induction m with
  | nil => simpa [mset] using h
  | cons q m ih =>
    obtain ⟨j, u⟩ := q
    simp only [mset] at h
    split at h
    · rcases List.mem_cons.1 h with h | h
      · exact .inl h
      · exact .inr (List.mem_cons_of_mem _ h)
    · split at h
      · rcases List.mem_cons.1 h with h | h
        · exact .inl h
        · exact .inr h
      · rcases List.mem_cons.1 h with h | h
        · exact .inr (h ▸ List.mem_cons_self ..)
        · rcases ih h with h | h
          · exact .inl h
          · exact .inr (List.mem_cons_of_mem _ h)

theorem mset_pairwise {m : List (Nat × β)} {k : Nat} {v : β} (h : m.Pairwise fun a b => a.1 < b.1) :
    (mset m k v).Pairwise fun a b => a.1 < b.1 := by
  induction m with
  | nil => simp [mset]
  | cons q m ih =>
    obtain ⟨j, u⟩ := q
    obtain ⟨h1, h2⟩ := List.pairwise_cons.1 h
    simp only [mset]
    split
    · subst_vars; exact List.pairwise_cons.2 ⟨h1, h2⟩
    · split
      · refine List.pairwise_cons.2 ⟨fun a ha => ?_, h⟩
        rename_i hlt
        rcases List.mem_cons.1 ha with rfl | ha
        · exact hlt
        · exact lt_trans hlt (h1 a ha)
      · refine List.pairwise_cons.2 ⟨fun a ha => ?_, ih h2⟩
        rcases mset_mem ha with rfl | ha
        · show j < k; omega
        · exact h1 a ha

theorem sparseOk_mset [DecidableEq β] {d : β} {m : List (Nat × β)} {k : Nat} {v : β} (hv : v ≠ d) (h : sparseOk d m = true) :
    sparseOk d (mset m k v) = true := by
  rw [sparseOk_iff] at *
  refine ⟨mset_pairwise h.1, fun p hp => ?_⟩
  rcases mset_mem hp with rfl | hp
  · exact hv
  · exact h.2 p hp

/-- Writing one entry keeps the form. -/
theorem sparseOk_mput [DecidableEq β] {d : β} {m : List (Nat × β)} (k : Nat) (v : β) (h : sparseOk d m = true) :
    sparseOk d (mput d m k v) = true := by
  unfold mput
  split
  · exact sparseOk_sublist (mdel_sublist m k) h
  · exact sparseOk_mset ‹_› h

/-- Writing a list of entries keeps the form. -/
theorem sparseOk_foldl_mput [DecidableEq β] {d : β} {α : Type} (l : List α) (key : α → Nat) (val : α → β) (m : List (Nat × β))
    (h : sparseOk d m = true) : sparseOk d (l.foldl (fun m a => mput d m (key a) (val a)) m) = true := by
  induction l generalizing m with
  | nil => exact h
  | cons a l ih => exact ih _ (sparseOk_mput _ _ h)

/-- Replacing a stretch of bytes keeps the form. -/
theorem sparseOk_msplice {m : List (Nat × Byte)} (lo n : Nat) (new : List (Nat × Byte)) (h : sparseOk 0 m = true) :
    sparseOk 0 (msplice m lo n new) = true :=
  sparseOk_foldl_mput _ _ _ _ (sparseOk_filter _ h)

/-- Equal reads make equal canonical lists. -/
theorem sparse_ext [DecidableEq β] {d : β} {m m' : List (Nat × β)} (h : sparseOk d m = true) (h' : sparseOk d m' = true)
    (e : ∀ k, mget d m k = mget d m' k) : m = m' := by
  rw [sparseOk_iff] at h h'
  have find_mem : ∀ {l : List (Nat × β)} {k v}, l.Pairwise (fun a b => a.1 < b.1) → (k, v) ∈ l → mfind l k = some v := by
    intro l
    induction l with
    | nil => intro k v _ hm; cases hm
    | cons q l ih =>
      intro k v hp hm
      obtain ⟨h1, h2⟩ := List.pairwise_cons.1 hp
      rcases List.mem_cons.1 hm with rfl | hm
      · simp [mfind]
      · have := h1 _ hm
        have hne : q.1 ≠ k := by simp at this; omega
        simp [mfind, hne, ih h2 hm]
  have mem_find : ∀ {l : List (Nat × β)} {k v}, mfind l k = some v → (k, v) ∈ l := by
    intro l
    induction l with
    | nil => intro k v hm; cases hm
    | cons q l ih =>
      intro k v hm
      obtain ⟨j, u⟩ := q
      simp only [mfind] at hm
      split at hm
      · cases hm; subst_vars; exact List.mem_cons_self ..
      · exact List.mem_cons_of_mem _ (ih hm)
  have sub : ∀ {l l' : List (Nat × β)}, l.Pairwise (fun a b => a.1 < b.1) → (∀ p ∈ l, p.2 ≠ d) →
      (∀ k, mget d l k = mget d l' k) → ∀ p ∈ l, p ∈ l' := by
    intro l l' hp hd he p hm
    have h1 := find_mem hp (show (p.1, p.2) ∈ l from hm)
    have h2 : mget d l' p.1 = p.2 := by rw [← he]; simp [mget, h1]
    unfold mget at h2
    cases h3 : mfind l' p.1 with
    | none => rw [h3] at h2; exact absurd h2.symm (hd p hm)
    | some v => rw [h3] at h2; cases h2; exact mem_find h3
  have nd : ∀ {l : List (Nat × β)}, l.Pairwise (fun a b => a.1 < b.1) → l.Nodup := fun hp =>
    hp.imp fun hab => fun he => absurd (he ▸ hab) (lt_irrefl _)
  have perm : m.Perm m' := (List.perm_ext_iff_of_nodup (nd h.1) (nd h'.1)).2 fun p =>
    ⟨sub h.1 h.2 e p, sub h'.1 h'.2 (fun k => (e k).symm) p⟩
  exact perm.eq_of_pairwise (fun a b _ _ h1 h2 => absurd (lt_trans h1 h2) (lt_irrefl _)) h.1 h'.1

end Sys2Proof.Machine
end

