-- ==== Sys2Proof/Laws/State.lean ====
section
/-! SUPPORT. Laws of the state: what each update leaves of each field, and what a read of a part gives after a write of one. -/

namespace Sys2Proof.Machine

variable (s : State)

/-! ### setDie -/

@[simp] theorem State.setDie_ticks (d : Nat) (x : Die) : (s.setDie d x).ticks = s.ticks := rfl
@[simp] theorem State.setDie_now (d : Nat) (x : Die) : (s.setDie d x).now = s.now := rfl
@[simp] theorem State.setDie_formAt (d : Nat) (x : Die) : (s.setDie d x).formAt = s.formAt := rfl
@[simp] theorem State.setDie_draws (d : Nat) (x : Die) : (s.setDie d x).draws = s.draws := rfl
@[simp] theorem State.setDie_mem (d : Nat) (x : Die) : (s.setDie d x).mem = s.mem := rfl
@[simp] theorem State.setDie_mempoison (d : Nat) (x : Die) : (s.setDie d x).mempoison = s.mempoison := rfl
@[simp] theorem State.setDie_dies (d : Nat) (x : Die) : (s.setDie d x).dies = mset s.dies d x := rfl
@[simp] theorem State.setDie_clusters (d : Nat) (x : Die) : (s.setDie d x).clusters = s.clusters := rfl
@[simp] theorem State.setDie_waves (d : Nat) (x : Die) : (s.setDie d x).waves = s.waves := rfl
@[simp] theorem State.setDie_teams (d : Nat) (x : Die) : (s.setDie d x).teams = s.teams := rfl
@[simp] theorem State.setDie_launches (d : Nat) (x : Die) : (s.setDie d x).launches = s.launches := rfl
@[simp] theorem State.setDie_sm (d : Nat) (x : Die) : (s.setDie d x).sm = s.sm := rfl
@[simp] theorem State.setDie_focus (d : Nat) (x : Die) : (s.setDie d x).focus = s.focus := rfl
@[simp] theorem State.setDie_lane (d : Nat) (x : Die) : (s.setDie d x).lane = s.lane := rfl
@[simp] theorem State.setDie_split (d : Nat) (x : Die) : (s.setDie d x).split = s.split := rfl
@[simp] theorem State.setDie_issued (d : Nat) (x : Die) : (s.setDie d x).issued = s.issued := rfl
@[simp] theorem State.setDie_agenda (d : Nat) (x : Die) : (s.setDie d x).agenda = s.agenda := rfl
@[simp] theorem State.setDie_outbox (d : Nat) (x : Die) : (s.setDie d x).outbox = s.outbox := rfl
@[simp] theorem State.setDie_fuses (d : Nat) (x : Die) : (s.setDie d x).fuses = s.fuses := rfl
@[simp] theorem State.setDie_keyDigest (d : Nat) (x : Die) : (s.setDie d x).keyDigest = s.keyDigest := rfl

/-! ### modDie -/

@[simp] theorem State.modDie_ticks (d : Nat) (f : Die → Die) : (s.modDie d f).ticks = s.ticks := rfl
@[simp] theorem State.modDie_now (d : Nat) (f : Die → Die) : (s.modDie d f).now = s.now := rfl
@[simp] theorem State.modDie_formAt (d : Nat) (f : Die → Die) : (s.modDie d f).formAt = s.formAt := rfl
@[simp] theorem State.modDie_draws (d : Nat) (f : Die → Die) : (s.modDie d f).draws = s.draws := rfl
@[simp] theorem State.modDie_mem (d : Nat) (f : Die → Die) : (s.modDie d f).mem = s.mem := rfl
@[simp] theorem State.modDie_mempoison (d : Nat) (f : Die → Die) : (s.modDie d f).mempoison = s.mempoison := rfl
@[simp] theorem State.modDie_dies (d : Nat) (f : Die → Die) : (s.modDie d f).dies = mset s.dies d (f (s.die d)) := rfl
@[simp] theorem State.modDie_clusters (d : Nat) (f : Die → Die) : (s.modDie d f).clusters = s.clusters := rfl
@[simp] theorem State.modDie_waves (d : Nat) (f : Die → Die) : (s.modDie d f).waves = s.waves := rfl
@[simp] theorem State.modDie_teams (d : Nat) (f : Die → Die) : (s.modDie d f).teams = s.teams := rfl
@[simp] theorem State.modDie_launches (d : Nat) (f : Die → Die) : (s.modDie d f).launches = s.launches := rfl
@[simp] theorem State.modDie_sm (d : Nat) (f : Die → Die) : (s.modDie d f).sm = s.sm := rfl
@[simp] theorem State.modDie_focus (d : Nat) (f : Die → Die) : (s.modDie d f).focus = s.focus := rfl
@[simp] theorem State.modDie_lane (d : Nat) (f : Die → Die) : (s.modDie d f).lane = s.lane := rfl
@[simp] theorem State.modDie_split (d : Nat) (f : Die → Die) : (s.modDie d f).split = s.split := rfl
@[simp] theorem State.modDie_issued (d : Nat) (f : Die → Die) : (s.modDie d f).issued = s.issued := rfl
@[simp] theorem State.modDie_agenda (d : Nat) (f : Die → Die) : (s.modDie d f).agenda = s.agenda := rfl
@[simp] theorem State.modDie_outbox (d : Nat) (f : Die → Die) : (s.modDie d f).outbox = s.outbox := rfl
@[simp] theorem State.modDie_fuses (d : Nat) (f : Die → Die) : (s.modDie d f).fuses = s.fuses := rfl
@[simp] theorem State.modDie_keyDigest (d : Nat) (f : Die → Die) : (s.modDie d f).keyDigest = s.keyDigest := rfl

/-! ### modCache -/

@[simp] theorem State.modCache_ticks (d : Nat) (f : CacheState → CacheState) : (s.modCache d f).ticks = s.ticks := rfl
@[simp] theorem State.modCache_now (d : Nat) (f : CacheState → CacheState) : (s.modCache d f).now = s.now := rfl
@[simp] theorem State.modCache_formAt (d : Nat) (f : CacheState → CacheState) : (s.modCache d f).formAt = s.formAt := rfl
@[simp] theorem State.modCache_draws (d : Nat) (f : CacheState → CacheState) : (s.modCache d f).draws = s.draws := rfl
@[simp] theorem State.modCache_mem (d : Nat) (f : CacheState → CacheState) : (s.modCache d f).mem = s.mem := rfl
@[simp] theorem State.modCache_mempoison (d : Nat) (f : CacheState → CacheState) : (s.modCache d f).mempoison = s.mempoison := rfl
@[simp] theorem State.modCache_clusters (d : Nat) (f : CacheState → CacheState) : (s.modCache d f).clusters = s.clusters := rfl
@[simp] theorem State.modCache_waves (d : Nat) (f : CacheState → CacheState) : (s.modCache d f).waves = s.waves := rfl
@[simp] theorem State.modCache_teams (d : Nat) (f : CacheState → CacheState) : (s.modCache d f).teams = s.teams := rfl
@[simp] theorem State.modCache_launches (d : Nat) (f : CacheState → CacheState) : (s.modCache d f).launches = s.launches := rfl
@[simp] theorem State.modCache_sm (d : Nat) (f : CacheState → CacheState) : (s.modCache d f).sm = s.sm := rfl
@[simp] theorem State.modCache_focus (d : Nat) (f : CacheState → CacheState) : (s.modCache d f).focus = s.focus := rfl
@[simp] theorem State.modCache_lane (d : Nat) (f : CacheState → CacheState) : (s.modCache d f).lane = s.lane := rfl
@[simp] theorem State.modCache_split (d : Nat) (f : CacheState → CacheState) : (s.modCache d f).split = s.split := rfl
@[simp] theorem State.modCache_issued (d : Nat) (f : CacheState → CacheState) : (s.modCache d f).issued = s.issued := rfl
@[simp] theorem State.modCache_agenda (d : Nat) (f : CacheState → CacheState) : (s.modCache d f).agenda = s.agenda := rfl
@[simp] theorem State.modCache_outbox (d : Nat) (f : CacheState → CacheState) : (s.modCache d f).outbox = s.outbox := rfl
@[simp] theorem State.modCache_fuses (d : Nat) (f : CacheState → CacheState) : (s.modCache d f).fuses = s.fuses := rfl
@[simp] theorem State.modCache_keyDigest (d : Nat) (f : CacheState → CacheState) : (s.modCache d f).keyDigest = s.keyDigest := rfl

/-! ### modTr -/

@[simp] theorem State.modTr_ticks (d : Nat) (f : TransState → TransState) : (s.modTr d f).ticks = s.ticks := rfl
@[simp] theorem State.modTr_now (d : Nat) (f : TransState → TransState) : (s.modTr d f).now = s.now := rfl
@[simp] theorem State.modTr_formAt (d : Nat) (f : TransState → TransState) : (s.modTr d f).formAt = s.formAt := rfl
@[simp] theorem State.modTr_draws (d : Nat) (f : TransState → TransState) : (s.modTr d f).draws = s.draws := rfl
@[simp] theorem State.modTr_mem (d : Nat) (f : TransState → TransState) : (s.modTr d f).mem = s.mem := rfl
@[simp] theorem State.modTr_mempoison (d : Nat) (f : TransState → TransState) : (s.modTr d f).mempoison = s.mempoison := rfl
@[simp] theorem State.modTr_clusters (d : Nat) (f : TransState → TransState) : (s.modTr d f).clusters = s.clusters := rfl
@[simp] theorem State.modTr_waves (d : Nat) (f : TransState → TransState) : (s.modTr d f).waves = s.waves := rfl
@[simp] theorem State.modTr_teams (d : Nat) (f : TransState → TransState) : (s.modTr d f).teams = s.teams := rfl
@[simp] theorem State.modTr_launches (d : Nat) (f : TransState → TransState) : (s.modTr d f).launches = s.launches := rfl
@[simp] theorem State.modTr_sm (d : Nat) (f : TransState → TransState) : (s.modTr d f).sm = s.sm := rfl
@[simp] theorem State.modTr_focus (d : Nat) (f : TransState → TransState) : (s.modTr d f).focus = s.focus := rfl
@[simp] theorem State.modTr_lane (d : Nat) (f : TransState → TransState) : (s.modTr d f).lane = s.lane := rfl
@[simp] theorem State.modTr_split (d : Nat) (f : TransState → TransState) : (s.modTr d f).split = s.split := rfl
@[simp] theorem State.modTr_issued (d : Nat) (f : TransState → TransState) : (s.modTr d f).issued = s.issued := rfl
@[simp] theorem State.modTr_agenda (d : Nat) (f : TransState → TransState) : (s.modTr d f).agenda = s.agenda := rfl
@[simp] theorem State.modTr_outbox (d : Nat) (f : TransState → TransState) : (s.modTr d f).outbox = s.outbox := rfl
@[simp] theorem State.modTr_fuses (d : Nat) (f : TransState → TransState) : (s.modTr d f).fuses = s.fuses := rfl
@[simp] theorem State.modTr_keyDigest (d : Nat) (f : TransState → TransState) : (s.modTr d f).keyDigest = s.keyDigest := rfl

/-! ### setCtl -/

@[simp] theorem State.setCtl_ticks (d off : Nat) (v : W64) : (s.setCtl d off v).ticks = s.ticks := rfl
@[simp] theorem State.setCtl_now (d off : Nat) (v : W64) : (s.setCtl d off v).now = s.now := rfl
@[simp] theorem State.setCtl_formAt (d off : Nat) (v : W64) : (s.setCtl d off v).formAt = s.formAt := rfl
@[simp] theorem State.setCtl_draws (d off : Nat) (v : W64) : (s.setCtl d off v).draws = s.draws := rfl
@[simp] theorem State.setCtl_mem (d off : Nat) (v : W64) : (s.setCtl d off v).mem = s.mem := rfl
@[simp] theorem State.setCtl_mempoison (d off : Nat) (v : W64) : (s.setCtl d off v).mempoison = s.mempoison := rfl
@[simp] theorem State.setCtl_clusters (d off : Nat) (v : W64) : (s.setCtl d off v).clusters = s.clusters := rfl
@[simp] theorem State.setCtl_waves (d off : Nat) (v : W64) : (s.setCtl d off v).waves = s.waves := rfl
@[simp] theorem State.setCtl_teams (d off : Nat) (v : W64) : (s.setCtl d off v).teams = s.teams := rfl
@[simp] theorem State.setCtl_launches (d off : Nat) (v : W64) : (s.setCtl d off v).launches = s.launches := rfl
@[simp] theorem State.setCtl_sm (d off : Nat) (v : W64) : (s.setCtl d off v).sm = s.sm := rfl
@[simp] theorem State.setCtl_focus (d off : Nat) (v : W64) : (s.setCtl d off v).focus = s.focus := rfl
@[simp] theorem State.setCtl_lane (d off : Nat) (v : W64) : (s.setCtl d off v).lane = s.lane := rfl
@[simp] theorem State.setCtl_split (d off : Nat) (v : W64) : (s.setCtl d off v).split = s.split := rfl
@[simp] theorem State.setCtl_issued (d off : Nat) (v : W64) : (s.setCtl d off v).issued = s.issued := rfl
@[simp] theorem State.setCtl_agenda (d off : Nat) (v : W64) : (s.setCtl d off v).agenda = s.agenda := rfl
@[simp] theorem State.setCtl_outbox (d off : Nat) (v : W64) : (s.setCtl d off v).outbox = s.outbox := rfl
@[simp] theorem State.setCtl_fuses (d off : Nat) (v : W64) : (s.setCtl d off v).fuses = s.fuses := rfl
@[simp] theorem State.setCtl_keyDigest (d off : Nat) (v : W64) : (s.setCtl d off v).keyDigest = s.keyDigest := rfl

/-! ### setCtlBits -/

@[simp] theorem State.setCtlBits_ticks (d off hi lo v : Nat) : (s.setCtlBits d off hi lo v).ticks = s.ticks := rfl
@[simp] theorem State.setCtlBits_now (d off hi lo v : Nat) : (s.setCtlBits d off hi lo v).now = s.now := rfl
@[simp] theorem State.setCtlBits_formAt (d off hi lo v : Nat) : (s.setCtlBits d off hi lo v).formAt = s.formAt := rfl
@[simp] theorem State.setCtlBits_draws (d off hi lo v : Nat) : (s.setCtlBits d off hi lo v).draws = s.draws := rfl
@[simp] theorem State.setCtlBits_mem (d off hi lo v : Nat) : (s.setCtlBits d off hi lo v).mem = s.mem := rfl
@[simp] theorem State.setCtlBits_mempoison (d off hi lo v : Nat) : (s.setCtlBits d off hi lo v).mempoison = s.mempoison := rfl
@[simp] theorem State.setCtlBits_clusters (d off hi lo v : Nat) : (s.setCtlBits d off hi lo v).clusters = s.clusters := rfl
@[simp] theorem State.setCtlBits_waves (d off hi lo v : Nat) : (s.setCtlBits d off hi lo v).waves = s.waves := rfl
@[simp] theorem State.setCtlBits_teams (d off hi lo v : Nat) : (s.setCtlBits d off hi lo v).teams = s.teams := rfl
@[simp] theorem State.setCtlBits_launches (d off hi lo v : Nat) : (s.setCtlBits d off hi lo v).launches = s.launches := rfl
@[simp] theorem State.setCtlBits_sm (d off hi lo v : Nat) : (s.setCtlBits d off hi lo v).sm = s.sm := rfl
@[simp] theorem State.setCtlBits_focus (d off hi lo v : Nat) : (s.setCtlBits d off hi lo v).focus = s.focus := rfl
@[simp] theorem State.setCtlBits_lane (d off hi lo v : Nat) : (s.setCtlBits d off hi lo v).lane = s.lane := rfl
@[simp] theorem State.setCtlBits_split (d off hi lo v : Nat) : (s.setCtlBits d off hi lo v).split = s.split := rfl
@[simp] theorem State.setCtlBits_issued (d off hi lo v : Nat) : (s.setCtlBits d off hi lo v).issued = s.issued := rfl
@[simp] theorem State.setCtlBits_agenda (d off hi lo v : Nat) : (s.setCtlBits d off hi lo v).agenda = s.agenda := rfl
@[simp] theorem State.setCtlBits_outbox (d off hi lo v : Nat) : (s.setCtlBits d off hi lo v).outbox = s.outbox := rfl
@[simp] theorem State.setCtlBits_fuses (d off hi lo v : Nat) : (s.setCtlBits d off hi lo v).fuses = s.fuses := rfl
@[simp] theorem State.setCtlBits_keyDigest (d off hi lo v : Nat) : (s.setCtlBits d off hi lo v).keyDigest = s.keyDigest := rfl

/-! ### setWave -/

@[simp] theorem State.setWave_ticks (k : Nat) (w : Wave) : (s.setWave k w).ticks = s.ticks := rfl
@[simp] theorem State.setWave_now (k : Nat) (w : Wave) : (s.setWave k w).now = s.now := rfl
@[simp] theorem State.setWave_formAt (k : Nat) (w : Wave) : (s.setWave k w).formAt = s.formAt := rfl
@[simp] theorem State.setWave_draws (k : Nat) (w : Wave) : (s.setWave k w).draws = s.draws := rfl
@[simp] theorem State.setWave_mem (k : Nat) (w : Wave) : (s.setWave k w).mem = s.mem := rfl
@[simp] theorem State.setWave_mempoison (k : Nat) (w : Wave) : (s.setWave k w).mempoison = s.mempoison := rfl
@[simp] theorem State.setWave_dies (k : Nat) (w : Wave) : (s.setWave k w).dies = s.dies := rfl
@[simp] theorem State.setWave_clusters (k : Nat) (w : Wave) : (s.setWave k w).clusters = s.clusters := rfl
@[simp] theorem State.setWave_waves (k : Nat) (w : Wave) : (s.setWave k w).waves = mset s.waves k w := rfl
@[simp] theorem State.setWave_teams (k : Nat) (w : Wave) : (s.setWave k w).teams = s.teams := rfl
@[simp] theorem State.setWave_launches (k : Nat) (w : Wave) : (s.setWave k w).launches = s.launches := rfl
@[simp] theorem State.setWave_sm (k : Nat) (w : Wave) : (s.setWave k w).sm = s.sm := rfl
@[simp] theorem State.setWave_focus (k : Nat) (w : Wave) : (s.setWave k w).focus = s.focus := rfl
@[simp] theorem State.setWave_lane (k : Nat) (w : Wave) : (s.setWave k w).lane = s.lane := rfl
@[simp] theorem State.setWave_split (k : Nat) (w : Wave) : (s.setWave k w).split = s.split := rfl
@[simp] theorem State.setWave_issued (k : Nat) (w : Wave) : (s.setWave k w).issued = s.issued := rfl
@[simp] theorem State.setWave_agenda (k : Nat) (w : Wave) : (s.setWave k w).agenda = s.agenda := rfl
@[simp] theorem State.setWave_outbox (k : Nat) (w : Wave) : (s.setWave k w).outbox = s.outbox := rfl
@[simp] theorem State.setWave_fuses (k : Nat) (w : Wave) : (s.setWave k w).fuses = s.fuses := rfl
@[simp] theorem State.setWave_keyDigest (k : Nat) (w : Wave) : (s.setWave k w).keyDigest = s.keyDigest := rfl

/-! ### modWave -/

@[simp] theorem State.modWave_ticks (k : Nat) (f : Wave → Wave) : (s.modWave k f).ticks = s.ticks := rfl
@[simp] theorem State.modWave_now (k : Nat) (f : Wave → Wave) : (s.modWave k f).now = s.now := rfl
@[simp] theorem State.modWave_formAt (k : Nat) (f : Wave → Wave) : (s.modWave k f).formAt = s.formAt := rfl
@[simp] theorem State.modWave_draws (k : Nat) (f : Wave → Wave) : (s.modWave k f).draws = s.draws := rfl
@[simp] theorem State.modWave_mem (k : Nat) (f : Wave → Wave) : (s.modWave k f).mem = s.mem := rfl
@[simp] theorem State.modWave_mempoison (k : Nat) (f : Wave → Wave) : (s.modWave k f).mempoison = s.mempoison := rfl
@[simp] theorem State.modWave_dies (k : Nat) (f : Wave → Wave) : (s.modWave k f).dies = s.dies := rfl
@[simp] theorem State.modWave_clusters (k : Nat) (f : Wave → Wave) : (s.modWave k f).clusters = s.clusters := rfl
@[simp] theorem State.modWave_waves (k : Nat) (f : Wave → Wave) : (s.modWave k f).waves = mmod s.waves k f := rfl
@[simp] theorem State.modWave_teams (k : Nat) (f : Wave → Wave) : (s.modWave k f).teams = s.teams := rfl
@[simp] theorem State.modWave_launches (k : Nat) (f : Wave → Wave) : (s.modWave k f).launches = s.launches := rfl
@[simp] theorem State.modWave_sm (k : Nat) (f : Wave → Wave) : (s.modWave k f).sm = s.sm := rfl
@[simp] theorem State.modWave_focus (k : Nat) (f : Wave → Wave) : (s.modWave k f).focus = s.focus := rfl
@[simp] theorem State.modWave_lane (k : Nat) (f : Wave → Wave) : (s.modWave k f).lane = s.lane := rfl
@[simp] theorem State.modWave_split (k : Nat) (f : Wave → Wave) : (s.modWave k f).split = s.split := rfl
@[simp] theorem State.modWave_issued (k : Nat) (f : Wave → Wave) : (s.modWave k f).issued = s.issued := rfl
@[simp] theorem State.modWave_agenda (k : Nat) (f : Wave → Wave) : (s.modWave k f).agenda = s.agenda := rfl
@[simp] theorem State.modWave_outbox (k : Nat) (f : Wave → Wave) : (s.modWave k f).outbox = s.outbox := rfl
@[simp] theorem State.modWave_fuses (k : Nat) (f : Wave → Wave) : (s.modWave k f).fuses = s.fuses := rfl
@[simp] theorem State.modWave_keyDigest (k : Nat) (f : Wave → Wave) : (s.modWave k f).keyDigest = s.keyDigest := rfl

/-! ### modTeam -/

@[simp] theorem State.modTeam_ticks (k : Nat) (f : Team → Team) : (s.modTeam k f).ticks = s.ticks := rfl
@[simp] theorem State.modTeam_now (k : Nat) (f : Team → Team) : (s.modTeam k f).now = s.now := rfl
@[simp] theorem State.modTeam_formAt (k : Nat) (f : Team → Team) : (s.modTeam k f).formAt = s.formAt := rfl
@[simp] theorem State.modTeam_draws (k : Nat) (f : Team → Team) : (s.modTeam k f).draws = s.draws := rfl
@[simp] theorem State.modTeam_mem (k : Nat) (f : Team → Team) : (s.modTeam k f).mem = s.mem := rfl
@[simp] theorem State.modTeam_mempoison (k : Nat) (f : Team → Team) : (s.modTeam k f).mempoison = s.mempoison := rfl
@[simp] theorem State.modTeam_dies (k : Nat) (f : Team → Team) : (s.modTeam k f).dies = s.dies := rfl
@[simp] theorem State.modTeam_clusters (k : Nat) (f : Team → Team) : (s.modTeam k f).clusters = s.clusters := rfl
@[simp] theorem State.modTeam_waves (k : Nat) (f : Team → Team) : (s.modTeam k f).waves = s.waves := rfl
@[simp] theorem State.modTeam_teams (k : Nat) (f : Team → Team) : (s.modTeam k f).teams = mmod s.teams k f := rfl
@[simp] theorem State.modTeam_launches (k : Nat) (f : Team → Team) : (s.modTeam k f).launches = s.launches := rfl
@[simp] theorem State.modTeam_sm (k : Nat) (f : Team → Team) : (s.modTeam k f).sm = s.sm := rfl
@[simp] theorem State.modTeam_focus (k : Nat) (f : Team → Team) : (s.modTeam k f).focus = s.focus := rfl
@[simp] theorem State.modTeam_lane (k : Nat) (f : Team → Team) : (s.modTeam k f).lane = s.lane := rfl
@[simp] theorem State.modTeam_split (k : Nat) (f : Team → Team) : (s.modTeam k f).split = s.split := rfl
@[simp] theorem State.modTeam_issued (k : Nat) (f : Team → Team) : (s.modTeam k f).issued = s.issued := rfl
@[simp] theorem State.modTeam_agenda (k : Nat) (f : Team → Team) : (s.modTeam k f).agenda = s.agenda := rfl
@[simp] theorem State.modTeam_outbox (k : Nat) (f : Team → Team) : (s.modTeam k f).outbox = s.outbox := rfl
@[simp] theorem State.modTeam_fuses (k : Nat) (f : Team → Team) : (s.modTeam k f).fuses = s.fuses := rfl
@[simp] theorem State.modTeam_keyDigest (k : Nat) (f : Team → Team) : (s.modTeam k f).keyDigest = s.keyDigest := rfl

/-! ### modLaunch -/

@[simp] theorem State.modLaunch_ticks (k : Nat) (f : Launch → Launch) : (s.modLaunch k f).ticks = s.ticks := rfl
@[simp] theorem State.modLaunch_now (k : Nat) (f : Launch → Launch) : (s.modLaunch k f).now = s.now := rfl
@[simp] theorem State.modLaunch_formAt (k : Nat) (f : Launch → Launch) : (s.modLaunch k f).formAt = s.formAt := rfl
@[simp] theorem State.modLaunch_draws (k : Nat) (f : Launch → Launch) : (s.modLaunch k f).draws = s.draws := rfl
@[simp] theorem State.modLaunch_mem (k : Nat) (f : Launch → Launch) : (s.modLaunch k f).mem = s.mem := rfl
@[simp] theorem State.modLaunch_mempoison (k : Nat) (f : Launch → Launch) : (s.modLaunch k f).mempoison = s.mempoison := rfl
@[simp] theorem State.modLaunch_dies (k : Nat) (f : Launch → Launch) : (s.modLaunch k f).dies = s.dies := rfl
@[simp] theorem State.modLaunch_clusters (k : Nat) (f : Launch → Launch) : (s.modLaunch k f).clusters = s.clusters := rfl
@[simp] theorem State.modLaunch_waves (k : Nat) (f : Launch → Launch) : (s.modLaunch k f).waves = s.waves := rfl
@[simp] theorem State.modLaunch_teams (k : Nat) (f : Launch → Launch) : (s.modLaunch k f).teams = s.teams := rfl
@[simp] theorem State.modLaunch_launches (k : Nat) (f : Launch → Launch) : (s.modLaunch k f).launches = mmod s.launches k f := rfl
@[simp] theorem State.modLaunch_sm (k : Nat) (f : Launch → Launch) : (s.modLaunch k f).sm = s.sm := rfl
@[simp] theorem State.modLaunch_focus (k : Nat) (f : Launch → Launch) : (s.modLaunch k f).focus = s.focus := rfl
@[simp] theorem State.modLaunch_lane (k : Nat) (f : Launch → Launch) : (s.modLaunch k f).lane = s.lane := rfl
@[simp] theorem State.modLaunch_split (k : Nat) (f : Launch → Launch) : (s.modLaunch k f).split = s.split := rfl
@[simp] theorem State.modLaunch_issued (k : Nat) (f : Launch → Launch) : (s.modLaunch k f).issued = s.issued := rfl
@[simp] theorem State.modLaunch_agenda (k : Nat) (f : Launch → Launch) : (s.modLaunch k f).agenda = s.agenda := rfl
@[simp] theorem State.modLaunch_outbox (k : Nat) (f : Launch → Launch) : (s.modLaunch k f).outbox = s.outbox := rfl
@[simp] theorem State.modLaunch_fuses (k : Nat) (f : Launch → Launch) : (s.modLaunch k f).fuses = s.fuses := rfl
@[simp] theorem State.modLaunch_keyDigest (k : Nat) (f : Launch → Launch) : (s.modLaunch k f).keyDigest = s.keyDigest := rfl

/-! ### modCluster -/

@[simp] theorem State.modCluster_ticks (k : Nat) (f : Cluster → Cluster) : (s.modCluster k f).ticks = s.ticks := rfl
@[simp] theorem State.modCluster_now (k : Nat) (f : Cluster → Cluster) : (s.modCluster k f).now = s.now := rfl
@[simp] theorem State.modCluster_formAt (k : Nat) (f : Cluster → Cluster) : (s.modCluster k f).formAt = s.formAt := rfl
@[simp] theorem State.modCluster_draws (k : Nat) (f : Cluster → Cluster) : (s.modCluster k f).draws = s.draws := rfl
@[simp] theorem State.modCluster_mem (k : Nat) (f : Cluster → Cluster) : (s.modCluster k f).mem = s.mem := rfl
@[simp] theorem State.modCluster_mempoison (k : Nat) (f : Cluster → Cluster) : (s.modCluster k f).mempoison = s.mempoison := rfl
@[simp] theorem State.modCluster_dies (k : Nat) (f : Cluster → Cluster) : (s.modCluster k f).dies = s.dies := rfl
@[simp] theorem State.modCluster_clusters (k : Nat) (f : Cluster → Cluster) : (s.modCluster k f).clusters = mset s.clusters k (f (s.cluster k)) := rfl
@[simp] theorem State.modCluster_waves (k : Nat) (f : Cluster → Cluster) : (s.modCluster k f).waves = s.waves := rfl
@[simp] theorem State.modCluster_teams (k : Nat) (f : Cluster → Cluster) : (s.modCluster k f).teams = s.teams := rfl
@[simp] theorem State.modCluster_launches (k : Nat) (f : Cluster → Cluster) : (s.modCluster k f).launches = s.launches := rfl
@[simp] theorem State.modCluster_sm (k : Nat) (f : Cluster → Cluster) : (s.modCluster k f).sm = s.sm := rfl
@[simp] theorem State.modCluster_focus (k : Nat) (f : Cluster → Cluster) : (s.modCluster k f).focus = s.focus := rfl
@[simp] theorem State.modCluster_lane (k : Nat) (f : Cluster → Cluster) : (s.modCluster k f).lane = s.lane := rfl
@[simp] theorem State.modCluster_split (k : Nat) (f : Cluster → Cluster) : (s.modCluster k f).split = s.split := rfl
@[simp] theorem State.modCluster_issued (k : Nat) (f : Cluster → Cluster) : (s.modCluster k f).issued = s.issued := rfl
@[simp] theorem State.modCluster_agenda (k : Nat) (f : Cluster → Cluster) : (s.modCluster k f).agenda = s.agenda := rfl
@[simp] theorem State.modCluster_outbox (k : Nat) (f : Cluster → Cluster) : (s.modCluster k f).outbox = s.outbox := rfl
@[simp] theorem State.modCluster_fuses (k : Nat) (f : Cluster → Cluster) : (s.modCluster k f).fuses = s.fuses := rfl
@[simp] theorem State.modCluster_keyDigest (k : Nat) (f : Cluster → Cluster) : (s.modCluster k f).keyDigest = s.keyDigest := rfl

/-! ### push -/

@[simp] theorem State.push_ticks (i : Instr) : (s.push i).ticks = s.ticks := rfl
@[simp] theorem State.push_now (i : Instr) : (s.push i).now = s.now := rfl
@[simp] theorem State.push_formAt (i : Instr) : (s.push i).formAt = s.formAt := rfl
@[simp] theorem State.push_draws (i : Instr) : (s.push i).draws = s.draws := rfl
@[simp] theorem State.push_mem (i : Instr) : (s.push i).mem = s.mem := rfl
@[simp] theorem State.push_mempoison (i : Instr) : (s.push i).mempoison = s.mempoison := rfl
@[simp] theorem State.push_dies (i : Instr) : (s.push i).dies = s.dies := rfl
@[simp] theorem State.push_clusters (i : Instr) : (s.push i).clusters = s.clusters := rfl
@[simp] theorem State.push_waves (i : Instr) : (s.push i).waves = s.waves := rfl
@[simp] theorem State.push_teams (i : Instr) : (s.push i).teams = s.teams := rfl
@[simp] theorem State.push_launches (i : Instr) : (s.push i).launches = s.launches := rfl
@[simp] theorem State.push_sm (i : Instr) : (s.push i).sm = s.sm := rfl
@[simp] theorem State.push_focus (i : Instr) : (s.push i).focus = s.focus := rfl
@[simp] theorem State.push_lane (i : Instr) : (s.push i).lane = s.lane := rfl
@[simp] theorem State.push_split (i : Instr) : (s.push i).split = s.split := rfl
@[simp] theorem State.push_issued (i : Instr) : (s.push i).issued = s.issued := rfl
@[simp] theorem State.push_agenda (i : Instr) : (s.push i).agenda = s.agenda ++ [i] := rfl
@[simp] theorem State.push_outbox (i : Instr) : (s.push i).outbox = s.outbox := rfl
@[simp] theorem State.push_fuses (i : Instr) : (s.push i).fuses = s.fuses := rfl
@[simp] theorem State.push_keyDigest (i : Instr) : (s.push i).keyDigest = s.keyDigest := rfl

/-! ### Parts after updates -/

@[simp] theorem die_setDie_same (d : Nat) (x : Die) : (s.setDie d x).die d = x := by simp [State.die]
theorem die_setDie_ne {d e : Nat} (x : Die) (h : e ≠ d) : (s.setDie d x).die e = s.die e := by
  simp [State.die, mget_mset_ne _ _ _ h]
theorem die_setDie (d e : Nat) (x : Die) : (s.setDie d x).die e = if e = d then x else s.die e := by
  split
  · subst_vars; simp
  · exact die_setDie_ne s x ‹_›
@[simp] theorem die_modDie_same (d : Nat) (f : Die → Die) : (s.modDie d f).die d = f (s.die d) := by simp [State.modDie]
theorem die_modDie_ne {d e : Nat} (f : Die → Die) (h : e ≠ d) : (s.modDie d f).die e = s.die e := die_setDie_ne s _ h
@[simp] theorem die_setWave (k : Nat) (w : Wave) (d : Nat) : (s.setWave k w).die d = s.die d := rfl
@[simp] theorem die_modTeam (k : Nat) (f : Team → Team) (d : Nat) : (s.modTeam k f).die d = s.die d := rfl
@[simp] theorem die_modCluster (k : Nat) (f : Cluster → Cluster) (d : Nat) : (s.modCluster k f).die d = s.die d := rfl
@[simp] theorem die_push (i : Instr) (d : Nat) : (s.push i).die d = s.die d := rfl

@[simp] theorem wave_setWave_same (k : Nat) (w : Wave) : (s.setWave k w).wave? k = some w := by simp [State.wave?]
theorem wave_setWave_ne {k j : Nat} (w : Wave) (h : j ≠ k) : (s.setWave k w).wave? j = s.wave? j := by
  simp [State.wave?, mfind_mset_ne _ _ h]
@[simp] theorem wave_setDie (d : Nat) (x : Die) (k : Nat) : (s.setDie d x).wave? k = s.wave? k := rfl
@[simp] theorem wave_modDie (d : Nat) (f : Die → Die) (k : Nat) : (s.modDie d f).wave? k = s.wave? k := rfl
@[simp] theorem wave_push (i : Instr) (k : Nat) : (s.push i).wave? k = s.wave? k := rfl
@[simp] theorem wave_modTeam (j : Nat) (f : Team → Team) (k : Nat) : (s.modTeam j f).wave? k = s.wave? k := rfl
@[simp] theorem wave_modCluster (j : Nat) (f : Cluster → Cluster) (k : Nat) : (s.modCluster j f).wave? k = s.wave? k := rfl

@[simp] theorem team_setWave (k : Nat) (w : Wave) (j : Nat) : (s.setWave k w).team j = s.team j := rfl
@[simp] theorem team_modDie (d : Nat) (f : Die → Die) (j : Nat) : (s.modDie d f).team j = s.team j := rfl
@[simp] theorem team_push (i : Instr) (j : Nat) : (s.push i).team j = s.team j := rfl
@[simp] theorem launch_setWave (k : Nat) (w : Wave) (j : Nat) : (s.setWave k w).launch j = s.launch j := rfl
@[simp] theorem launch_modDie (d : Nat) (f : Die → Die) (j : Nat) : (s.modDie d f).launch j = s.launch j := rfl
@[simp] theorem cluster_modDie (d : Nat) (f : Die → Die) (j : Nat) : (s.modDie d f).cluster j = s.cluster j := rfl
@[simp] theorem cluster_setWave (k : Nat) (w : Wave) (j : Nat) : (s.setWave k w).cluster j = s.cluster j := rfl
@[simp] theorem cluster_modCluster_same (k : Nat) (f : Cluster → Cluster) : (s.modCluster k f).cluster k = f (s.cluster k) := by
  simp [State.cluster]

/-! ### Control registers -/

@[simp] theorem ctl_setCtl_same (d off : Nat) (v : W64) : (s.setCtl d off v).ctl d off = v := by
  simp [State.ctl, State.setCtl]
theorem ctl_setCtl_off {d off o : Nat} (v : W64) (h : o ≠ off) (e : Nat) : (s.setCtl d off v).ctl e o = s.ctl e o := by
  by_cases he : e = d
  · subst he; simp [State.ctl, State.setCtl, mfind_mset_ne _ _ h]
  · simp [State.ctl, State.setCtl, die_modDie_ne s _ he]
theorem ctl_setCtl_die {d e : Nat} (off : Nat) (v : W64) (h : e ≠ d) (o : Nat) : (s.setCtl d off v).ctl e o = s.ctl e o := by
  simp [State.ctl, State.setCtl, die_modDie_ne s _ h]
theorem ctl_setCtl (d off : Nat) (v : W64) (e o : Nat) :
    (s.setCtl d off v).ctl e o = if e = d ∧ o = off then v else s.ctl e o := by
  split
  · obtain ⟨rfl, rfl⟩ := ‹_›; simp
  · by_cases ho : o = off
    · rename_i h; exact ctl_setCtl_die s off v (fun he => h ⟨he, ho⟩) o
    · exact ctl_setCtl_off s v ho e
@[simp] theorem ctl_setWave (k : Nat) (w : Wave) (d off : Nat) : (s.setWave k w).ctl d off = s.ctl d off := rfl
@[simp] theorem ctl_push (i : Instr) (d off : Nat) : (s.push i).ctl d off = s.ctl d off := rfl
/-- A unit's change of a die that leaves its control registers alone. -/
theorem ctl_modDie (d : Nat) (f : Die → Die) (h : ∀ x, (f x).ctl = x.ctl) (e o : Nat) : (s.modDie d f).ctl e o = s.ctl e o := by
  by_cases he : e = d
  · subst he; simp [State.ctl, h]
  · simp [State.ctl, die_modDie_ne s _ he]

/-! ### Fields of a register -/

theorem bitsOf_setBits_same (v hi lo x : Nat) : bitsOf (setBits v hi lo x) hi lo = x % 2 ^ (hi + 1 - lo) := by
  unfold bitsOf setBits
  generalize hn : hi + 1 - lo = n
  have hb := Nat.div_add_mod v (2 ^ lo)
  have hc := Nat.div_add_mod (v / 2 ^ lo) (2 ^ n)
  have hp : 0 < 2 ^ lo := by positivity
  have hq : 0 < 2 ^ n := by positivity
  have hr := Nat.mod_lt v hp
  have hx := Nat.mod_lt x hq
  unfold bitsOf
  rw [hn]
  generalize v / 2 ^ lo / 2 ^ n = a at *
  generalize ha : v / 2 ^ lo % 2 ^ n = b at *
  generalize v / 2 ^ lo = c at *
  generalize v % 2 ^ lo = r at *
  generalize x % 2 ^ n = y at *
  subst hc
  have e : v - b * 2 ^ lo + y * 2 ^ lo = (2 ^ n * a + y) * 2 ^ lo + r := by
    rw [← hb]
    have : 2 ^ lo * (2 ^ n * a + b) + r - b * 2 ^ lo = 2 ^ lo * (2 ^ n * a) + r := by
      rw [Nat.mul_add, Nat.mul_comm b, Nat.add_right_comm, Nat.add_sub_cancel]
    rw [this]; ring
  rw [e, Nat.add_comm, Nat.add_mul_div_right _ _ hp, Nat.div_eq_of_lt hr, Nat.zero_add, Nat.mul_add_mod, Nat.mod_eq_of_lt hx]

/-- setBits in closed form: what lies above, the field, what lies below. -/
theorem setBits_eq (v hi lo x : Nat) :
    setBits v hi lo x = (2 ^ (hi + 1 - lo) * (v / 2 ^ lo / 2 ^ (hi + 1 - lo)) + x % 2 ^ (hi + 1 - lo)) * 2 ^ lo + v % 2 ^ lo := by
  unfold setBits bitsOf
  generalize hi + 1 - lo = n
  have hb := Nat.div_add_mod v (2 ^ lo)
  have hc := Nat.div_add_mod (v / 2 ^ lo) (2 ^ n)
  generalize v / 2 ^ lo / 2 ^ n = a at *
  generalize v / 2 ^ lo % 2 ^ n = b at *
  generalize v / 2 ^ lo = c at *
  generalize v % 2 ^ lo = r at *
  generalize x % 2 ^ n = y at *
  subst hc
  rw [← hb]
  have : 2 ^ lo * (2 ^ n * a + b) + r - b * 2 ^ lo = 2 ^ lo * (2 ^ n * a) + r := by
    rw [Nat.mul_add, Nat.mul_comm b, Nat.add_right_comm, Nat.add_sub_cancel]
  rw [this]; ring

theorem setBits_lt {v hi lo x : Nat} (hv : v < 2 ^ 64) (h : hi < 64) (hl : lo ≤ hi) : setBits v hi lo x < 2 ^ 64 := by
  rw [setBits_eq]
  obtain ⟨n, hn⟩ : ∃ n, hi + 1 - lo = n := ⟨_, rfl⟩
  rw [hn]
  obtain ⟨m, hm⟩ : ∃ m, 64 = lo + n + m := ⟨64 - lo - n, by omega⟩
  have e : (2 : Nat) ^ 64 = 2 ^ m * 2 ^ n * 2 ^ lo := by rw [hm, pow_add, pow_add]; ring
  have ha : v / 2 ^ lo / 2 ^ n < 2 ^ m := by
    rw [Nat.div_div_eq_div_mul, Nat.div_lt_iff_lt_mul (by positivity)]
    calc v < 2 ^ 64 := hv
      _ = 2 ^ m * (2 ^ lo * 2 ^ n) := by rw [e]; ring
  have hx := Nat.mod_lt x (show 0 < 2 ^ n by positivity)
  have hr := Nat.mod_lt v (show 0 < 2 ^ lo by positivity)
  rw [e]
  generalize v / 2 ^ lo / 2 ^ n = a at *
  generalize v % 2 ^ lo = r at *
  generalize x % 2 ^ n = y at *
  have h1 : 2 ^ n * a + y + 1 ≤ 2 ^ n * (a + 1) := by rw [Nat.mul_add]; omega
  have h2 : 2 ^ n * (a + 1) ≤ 2 ^ n * 2 ^ m := Nat.mul_le_mul_left _ ha
  calc (2 ^ n * a + y) * 2 ^ lo + r < (2 ^ n * a + y + 1) * 2 ^ lo := by have := Nat.add_mul (2 ^ n * a + y) 1 (2 ^ lo); omega
    _ ≤ 2 ^ n * 2 ^ m * 2 ^ lo := Nat.mul_le_mul_right _ (h1.trans h2)
    _ = 2 ^ m * 2 ^ n * 2 ^ lo := by ring

/-- A field that lies above or below the one written keeps its value. -/
theorem bitsOf_setBits_ne {v hi lo x h l : Nat} (hd : h < lo ∨ hi < l) (h1 : lo ≤ hi) (h2 : l ≤ h) :
    bitsOf (setBits v hi lo x) h l = bitsOf v h l := by
  rw [setBits_eq]
  obtain ⟨n, hn⟩ : ∃ n, hi + 1 - lo = n := ⟨_, rfl⟩
  rw [hn]
  have hr := Nat.mod_lt v (show 0 < 2 ^ lo by positivity)
  have hx := Nat.mod_lt x (show 0 < 2 ^ n by positivity)
  unfold bitsOf
  rcases hd with hd | hd
  · obtain ⟨m, hm⟩ : ∃ m, lo = h + 1 + m := ⟨lo - h - 1, by omega⟩
    have key : ∀ y, y / 2 ^ l % 2 ^ (h + 1 - l) = y % 2 ^ (h + 1) / 2 ^ l := by
      intro y
      obtain ⟨k, hk⟩ : ∃ k, h + 1 = l + k := ⟨h + 1 - l, by omega⟩
      rw [show h + 1 - l = k by omega, hk, pow_add, Nat.mod_mul_right_div_self]
    rw [key, key]
    congr 1
    have : (2 : Nat) ^ lo = 2 ^ (h + 1) * 2 ^ m := by rw [hm, pow_add]
    rw [this, Nat.mul_comm, Nat.mul_assoc, Nat.mul_add_mod, Nat.mod_mul_right_mod]
  · obtain ⟨m, hm⟩ : ∃ m, l = hi + 1 + m := ⟨l - hi - 1, by omega⟩
    have e : (2 : Nat) ^ l = 2 ^ lo * 2 ^ n * 2 ^ m := by
      rw [hm, show hi + 1 = lo + n by omega, pow_add, pow_add]
    rw [e, ← Nat.div_div_eq_div_mul, ← Nat.div_div_eq_div_mul, ← Nat.div_div_eq_div_mul, ← Nat.div_div_eq_div_mul]
    rw [Nat.add_comm, Nat.add_mul_div_right _ _ (by positivity), Nat.div_eq_of_lt hr, Nat.zero_add, Nat.mul_comm (2 ^ n),
      Nat.add_comm, Nat.add_mul_div_right _ _ (by positivity), Nat.div_eq_of_lt hx, Nat.zero_add]

theorem toNat_setBits (v : W64) {hi lo x : Nat} (h : hi < 64) (hl : lo ≤ hi) :
    (BitVec.ofNat 64 (setBits v.toNat hi lo x)).toNat = setBits v.toNat hi lo x := by
  rw [BitVec.toNat_ofNat, Nat.mod_eq_of_lt (setBits_lt v.isLt h hl)]

/-- The field written reads back. -/
theorem ctlBits_setCtlBits_same (d off : Nat) {hi lo : Nat} (v : Nat) (h : hi < 64) (hl : lo ≤ hi) :
    (s.setCtlBits d off hi lo v).ctlBits d off hi lo = v % 2 ^ (hi + 1 - lo) := by
  simp [State.ctlBits, State.setCtlBits, toNat_setBits _ h hl, bitsOf_setBits_same, -BitVec.toNat_ofNat]
/-- Another field of the same register, another register and another die keep their values. -/
theorem ctlBits_setCtlBits_ne (d off : Nat) {hi lo : Nat} (v e o h l : Nat) (hh : hi < 64) (hl : lo ≤ hi) (h2 : l ≤ h)
    (hd : e ≠ d ∨ o ≠ off ∨ h < lo ∨ hi < l) : (s.setCtlBits d off hi lo v).ctlBits e o h l = s.ctlBits e o h l := by
  unfold State.ctlBits State.setCtlBits
  rw [ctl_setCtl]
  split
  · obtain ⟨rfl, rfl⟩ := ‹_ ∧ _›
    rw [toNat_setBits _ hh hl]
    exact bitsOf_setBits_ne (by rcases hd with hd | hd | hd | hd <;> first | exact absurd rfl hd | exact .inl hd | exact .inr hd) hl h2
  · rfl

end Sys2Proof.Machine
end

