-- ==== Sys2Proof/Laws/Memory.lean ====
section
/-! SUPPORT. Laws of memory: what the reads of a byte depend on, and the canonical form, which every operation on memory
keeps. -/

namespace Sys2Proof.Machine

variable {s t : State}

theorem die_modDie (s : State) (d : Nat) (f : Die → Die) (e : Nat) :
    (s.modDie d f).die e = if e = d then f (s.die d) else s.die e := by
  unfold State.modDie State.setDie State.die
  simp only [mget, mfind_mset]
  split <;> rfl
theorem frames_modFrame (s : State) (d : Nat) (x : TileId) (g : Frame → Frame) (e : Nat) :
    (s.modFrame d x g).frames e = if e = d then (s.frames d).map (fun f => if f.tile = x && !f.wb then g f else f) else s.frames e := by
  unfold State.modFrame State.frames
  rw [die_modDie]
  split <;> rfl

/-! ### What the reads depend on -/

/-- g changes no frame but in what it knows of the near caches (R162). -/
def NearOnly (g : Frame → Frame) : Prop := ∀ f, ∃ a b, g f = { f with sharers := a, ncown := b }
theorem nearOnly_id : NearOnly id := fun f => ⟨f.sharers, f.ncown, rfl⟩
theorem NearOnly.comp {g k : Frame → Frame} (hg : NearOnly g) (hk : NearOnly k) : NearOnly (g ∘ k) := fun f => by
  obtain ⟨a, b, e⟩ := hk f
  obtain ⟨c, d, e'⟩ := hg (k f)
  exact ⟨c, d, by show g (k f) = _; rw [e', e]⟩

/-- t is s in all that a read of storage looks at: memory, its poison, the control registers, the caches but for what their frames know
of the near caches, and the count of steps. -/
structure SameView (s t : State) : Prop where
  mem : t.mem = s.mem
  mempoison : t.mempoison = s.mempoison
  fuses : t.fuses = s.fuses
  ticks : t.ticks = s.ticks
  ctl : ∀ d, (t.die d).ctl = (s.die d).ctl
  cache : ∀ d, ∃ g, NearOnly g ∧ (t.die d).cache = { (s.die d).cache with frames := (s.frames d).map g }

theorem SameView.refl (s : State) : SameView s s :=
  ⟨rfl, rfl, rfl, rfl, fun _ => rfl, fun d => ⟨id, nearOnly_id, by simp [State.frames]⟩⟩
theorem SameView.trans {a b c : State} (h : SameView a b) (k : SameView b c) : SameView a c :=
  ⟨k.mem.trans h.mem, k.mempoison.trans h.mempoison, k.fuses.trans h.fuses, k.ticks.trans h.ticks,
   fun d => (k.ctl d).trans (h.ctl d), fun d => by
    obtain ⟨g, hg, e⟩ := h.cache d
    obtain ⟨g', hg', e'⟩ := k.cache d
    refine ⟨g' ∘ g, hg'.comp hg, ?_⟩
    rw [e']
    simp only [State.frames, e, List.map_map]⟩
/-- What changes neither storage nor a die. -/
theorem SameView.of (hd : t.dies = s.dies) (hf : t.fuses = s.fuses) (hm : t.mem = s.mem) (hp : t.mempoison = s.mempoison)
    (ht : t.ticks = s.ticks) : SameView s t :=
  ⟨hm, hp, hf, ht, fun d => by simp only [State.die, hd], fun d => ⟨id, nearOnly_id, by simp [State.frames, State.die, hd]⟩⟩
theorem sameView_setWave (s : State) (k : Nat) (w : Wave) : SameView s (s.setWave k w) := .of rfl rfl rfl rfl rfl
theorem sameView_push (s : State) (i : Instr) : SameView s (s.push i) := .of rfl rfl rfl rfl rfl
theorem sameView_modDie (s : State) (d : Nat) (f : Die → Die) (hf : ∀ x, (f x).ctl = x.ctl ∧ (f x).cache = x.cache) :
    SameView s (s.modDie d f) := by
  have hd : ∀ e, ((s.modDie d f).die e).ctl = (s.die e).ctl ∧ ((s.modDie d f).die e).cache = (s.die e).cache := by
    intro e; rw [die_modDie]; split
    · subst_vars; exact hf _
    · exact ⟨rfl, rfl⟩
  exact ⟨rfl, rfl, rfl, rfl, fun e => (hd e).1, fun e => ⟨id, nearOnly_id, by rw [(hd e).2]; simp [State.frames]⟩⟩
theorem sameView_modFrame (s : State) (d : Nat) (x : TileId) (g : Frame → Frame) (hg : NearOnly g) : SameView s (s.modFrame d x g) := by
  refine ⟨rfl, rfl, rfl, rfl, fun e => ?_, fun e => ?_⟩
  · unfold State.modFrame; rw [die_modDie]; split
    · subst_vars; rfl
    · rfl
  · by_cases he : e = d
    · subst he
      refine ⟨fun f => if f.tile = x && !f.wb then g f else f, fun f => ?_, ?_⟩
      · dsimp only; split
        · exact hg f
        · exact ⟨f.sharers, f.ncown, rfl⟩
      · unfold State.modFrame; rw [die_modDie, if_pos rfl]; rfl
    · refine ⟨id, nearOnly_id, ?_⟩
      unfold State.modFrame; rw [die_modDie, if_neg he]; simp [State.frames]
theorem sameView_nearMakeRoom (d c n : Nat) (s : State) : SameView s (nearMakeRoom d c n s) := by
  induction n generalizing s with
  | zero => exact .refl s
  | succ n ih =>
    unfold nearMakeRoom
    split
    · exact (sameView_modFrame _ _ _ _ fun f => ⟨_, _, rfl⟩).trans (ih _)
    · exact .refl s
/-- The bookkeeping of the near caches is in no read's way. -/
theorem sameView_nearTouch (s : State) (d c : Nat) (x : TileId) (own : Bool) : SameView s (nearTouch s d c x own) := by
  have hg : NearOnly fun f => if own then { f with sharers := BitVec.twoPow 64 c, ncown := true }
      else { f with sharers := f.sharers ||| BitVec.twoPow 64 c, ncown := f.ncown && f.sharers = BitVec.twoPow 64 c } := by
    intro f; cases own <;> exact ⟨_, _, rfl⟩
  unfold nearTouch
  dsimp only
  split
  · exact sameView_modFrame _ _ _ _ hg
  · exact (sameView_nearMakeRoom _ _ _ _).trans (sameView_modFrame _ _ _ _ hg)

section
variable (h : SameView s t)
include h

theorem SameView.control (d off : Nat) : t.ctl d off = s.ctl d off := by simp only [State.ctl, h.ctl, h.fuses]
theorem SameView.ctlBits (d off hi lo : Nat) : t.ctlBits d off hi lo = s.ctlBits d off hi lo := by
  simp only [State.ctlBits, h.control]
theorem SameView.locate (pa : Nat) : t.locate pa = s.locate pa := by
  unfold State.locate Machine.poolCell Machine.importCell State.cxl; simp only [h.ctlBits, h.control]
theorem SameView.cellByte (c : Nat) : t.cellByte c = s.cellByte c := by simp only [State.cellByte, h.mem]
theorem SameView.cellOf (base : Nat) : cellOf t base = cellOf s base := by unfold Machine.cellOf; rw [h.locate]
theorem SameView.pend (d : Nat) : (t.die d).cache.pend = (s.die d).cache.pend := by
  obtain ⟨g, -, e⟩ := h.cache d; rw [e]
theorem SameView.mirror (d : Nat) : (t.die d).cache.mirror = (s.die d).cache.mirror := by
  obtain ⟨g, -, e⟩ := h.cache d; rw [e]
/-- The first frame with a property that does not ask for the near caches. -/
theorem SameView.find (d : Nat) (p q : Frame → Bool) (hpq : ∀ f a b, q { f with sharers := a, ncown := b } = p f) :
    ∃ g, NearOnly g ∧ (t.frames d).find? q = ((s.frames d).find? p).map g := by
  obtain ⟨g, hg, e⟩ := h.cache d
  refine ⟨g, hg, ?_⟩
  have hf : t.frames d = (s.frames d).map g := by rw [State.frames, e]
  have hc : q ∘ g = p := funext fun f => by
    obtain ⟨a, b, e'⟩ := hg f
    simp only [Function.comp, e', hpq]
  rw [hf, List.find?_map, hc]
theorem SameView.tableByte (d pa : Nat) : t.tableByte d pa = s.tableByte d pa := by
  obtain ⟨g, hg, e⟩ := h.find d (fun f => f.tile = flatTile pa && hasData f) (fun f => f.tile = flatTile pa && hasData f)
    (fun _ _ _ => rfl)
  unfold State.tableByte flatFrame?
  rw [e]
  cases (s.frames d).find? fun f => f.tile = flatTile pa && hasData f with
  | none => simp only [Option.map_none, h.locate, h.cellByte]
  | some f => obtain ⟨a, b, e'⟩ := hg f; simp only [Option.map_some, e']
theorem SameView.tableNat (d pa n : Nat) : t.tableNat d pa n = s.tableNat d pa n := by
  induction n generalizing pa with
  | zero => rfl
  | succ n ih => simp only [State.tableNat, h.tableByte, ih]
theorem SameView.entryNat (tid : BitVec 20) (off n : Nat) : t.entryNat tid off n = s.entryNat tid off n := by
  simp only [State.entryNat, State.tensorEntry, h.tableNat, h.ctlBits]
theorem SameView.generation? (d : Nat) (tid : BitVec 20) : t.generation? d tid = s.generation? d tid := by
  unfold State.generation? State.entryLive; simp only [h.entryNat, h.mirror]
theorem SameView.fresh (d : Nat) (f : Frame) : t.fresh d f = s.fresh d f := by simp only [State.fresh, h.generation?]
theorem SameView.spent (f : Frame) : t.spent f = s.spent f := by simp only [State.spent, h.ticks]
/-- The frame that an access meets is the same but for the near caches. -/
theorem SameView.frame? (d : Nat) (x : TileId) : ∃ g, NearOnly g ∧ t.frame? d x = (s.frame? d x).map g :=
  h.find d _ _ fun f a b => by
    rw [h.fresh d, h.spent]; rfl
theorem SameView.frameAt? (d base : Nat) : ∃ g, NearOnly g ∧ t.frameAt? d base = (s.frameAt? d base).map g :=
  h.find d _ _ fun f a b => by
    rw [h.fresh d]; rfl
theorem SameView.frameAt?_none (d base : Nat) : t.frameAt? d base = none ↔ s.frameAt? d base = none := by
  obtain ⟨g, -, e⟩ := h.frameAt? d base
  rw [e, Option.map_eq_none_iff]
/-- A byte as a die sees it. -/
theorem SameView.peek (d pa : Nat) : t.peek d pa = s.peek d pa := by
  have hp : ∀ e base, (match t.frameAt? e base with | some f => some f.payload | none => none) =
      match s.frameAt? e base with | some f => some f.payload | none => none := by
    intro e base
    obtain ⟨g, hg, q⟩ := h.frameAt? e base
    rw [q]
    cases s.frameAt? e base with
    | none => rfl
    | some f => obtain ⟨a, b, e'⟩ := hg f; simp only [Option.map_some, e']
  unfold State.peek
  dsimp only
  rw [h.pend, h.locate]
  split
  · rfl
  · have h1 := hp d (pa / 2048 * 2048)
    cases x : t.frameAt? d (pa / 2048 * 2048) <;> cases y : s.frameAt? d (pa / 2048 * 2048) <;> rw [x, y] at h1 <;>
      simp only [Option.some.injEq, reduceCtorEq] at h1
    · dsimp only
      split
      · rename_i home c _
        have h2 := hp home (pa / 2048 * 2048)
        cases x' : t.frameAt? home (pa / 2048 * 2048) <;> cases y' : s.frameAt? home (pa / 2048 * 2048) <;> rw [x', y'] at h2 <;>
          simp only [Option.some.injEq, reduceCtorEq] at h2
        · exact h.cellByte c
        · dsimp only; rw [h2]
      · exact h.cellByte _
      · rfl
    · dsimp only; rw [h1]
theorem SameView.peekBytes (d pa n : Nat) : t.peekBytes d pa n = s.peekBytes d pa n := by
  induction n generalizing pa with
  | zero => rfl
  | succ n ih => simp only [State.peekBytes, h.peek, ih]
theorem SameView.peekNat (d pa n : Nat) : t.peekNat d pa n = s.peekNat d pa n := by
  simp only [State.peekNat, h.peekBytes]
/-- The bytes that a load gives. -/
theorem SameView.loadBytes (d : Nat) (p : Placed) (k n : Nat) : loadBytes t d p k n = loadBytes s d p k n := by
  have hb : ∀ off, frameByte t d p.req.tile p.req.base off = frameByte s d p.req.tile p.req.base off := by
    intro off
    unfold frameByte
    rw [h.pend]
    obtain ⟨g, hg, e⟩ := h.frame? d p.req.tile
    rw [e]
    split
    · rfl
    · cases s.frame? d p.req.tile with
      | none => exact h.peek _ _
      | some f => obtain ⟨a, b, e'⟩ := hg f; simp only [Option.map_some, e']
  induction n generalizing k with
  | zero => rfl
  | succ n ih => simp only [Machine.loadBytes, hb, ih]
/-- The poison that an access meets (R172). -/
theorem SameView.accessPoison (k : AccKind) (d : Nat) (p : Placed) (n : Nat) : accessPoison t k d p n = accessPoison s k d p n := by
  have hl : loadPoison t d p 0 n = loadPoison s d p 0 n := by
    unfold loadPoison
    obtain ⟨g, hg, e⟩ := h.frame? d p.req.tile
    rw [e]
    cases s.frame? d p.req.tile with
    | none => rfl
    | some f => obtain ⟨a, b, e'⟩ := hg f; simp only [Option.map_some, e']
  have hs : sectorPoison t p.pa = sectorPoison s p.pa := by
    unfold sectorPoison
    rw [h.locate]
    split
    · rename_i home c _
      obtain ⟨g, hg, e⟩ := h.frameAt? home (p.pa / 2048 * 2048)
      rw [e]
      cases s.frameAt? home (p.pa / 2048 * 2048) with
      | none => simp only [Option.map_none, h.mempoison]
      | some f => obtain ⟨a, b, e'⟩ := hg f; simp only [Option.map_some, e']
    · rfl
  unfold Machine.accessPoison
  rw [hl, hs]

end

/-- Writing a wave leaves every byte as each die sees it. -/
@[simp] theorem peek_setWave (s : State) (k : Nat) (w : Wave) (d a : Nat) : (s.setWave k w).peek d a = s.peek d a :=
  (sameView_setWave s k w).peek d a

/-! ### The canonical form -/

theorem memoryWf_nil : memoryWf [] = true := rfl

/-- Reset memory has the form. -/
theorem memoryWf_reset : memoryWf State.reset.mem = true := rfl

theorem memoryWf_putCells {s : State} (c : Nat) (new : List (Nat × Byte)) (h : memoryWf s.mem = true) :
    memoryWf (s.putCells c new).mem = true := sparseOk_foldl_mput _ _ _ _ h
theorem memoryWf_msplice {m : List Host.Cell} (lo n : Nat) (new : List (Nat × Byte)) (h : memoryWf m = true) :
    memoryWf (msplice m lo n new) = true := sparseOk_msplice lo n new h

/-- A fold of updates each of which keeps the form keeps it. -/
theorem memoryWf_foldl {α : Type} (l : List α) (f : State → α → State)
    (hf : ∀ s a, memoryWf s.mem = true → memoryWf (f s a).mem = true) {s : State} (h : memoryWf s.mem = true) :
    memoryWf (l.foldl f s).mem = true := by
  induction l generalizing s with
  | nil => exact h
  | cons a l ih => exact ih (hf s a h)

@[simp] theorem mem_hostLine (s : State) (h op c : Nat) (l : List Byte) : (hostLine s h op c l).mem = s.mem := rfl
@[simp] theorem mem_hostPut (s : State) (h c : Nat) (new : List (Nat × Byte)) : (s.hostPut h c new).mem = s.mem := by
  unfold State.hostPut
  suffices ∀ t : State, t.mem = s.mem → (new.foldl (fun s p => hostLine s h 2 (c + p.1) [p.2]) t).mem = s.mem from
    this _ rfl
  induction new with
  | nil => exact fun _ ht => ht
  | cons p l ih => exact fun t ht => ih _ ht
/-- What changes dies, clusters, messages or teams keeps the memory list. -/
@[simp] theorem mem_advanceClock (s : State) (h : Nat) : (s.advanceClock h).mem = s.mem := rfl
@[simp] theorem mem_recallAll (s : State) (h : Nat) (t : TileId) : (recallAll s h t).mem = s.mem := rfl
@[simp] theorem mem_markModified (s : State) (d : Nat) (t : TileId) : (markModified s d t).mem = s.mem := rfl
@[simp] theorem mem_remoteStore (s : State) (d h : Nat) (q : RemoteWrite) : (s.remoteStore d h q).mem = s.mem := rfl
@[simp] theorem mem_ownHost (s b : State) (q : FillReq) : (ownHost s b q).mem = s.mem := by unfold ownHost; split <;> rfl
@[simp] theorem mem_nearMakeRoom (d c n : Nat) (s : State) : (nearMakeRoom d c n s).mem = s.mem := by
  induction n generalizing s with
  | zero => rfl
  | succ n ih =>
    unfold nearMakeRoom
    split
    · exact ih _
    · rfl
@[simp] theorem mem_nearTouch (s : State) (d c : Nat) (t : TileId) (own : Bool) : (nearTouch s d c t own).mem = s.mem := by
  unfold nearTouch
  dsimp only
  split
  · rfl
  · exact mem_nearMakeRoom _ _ _ _
@[simp] theorem mem_poisonHome (s : State) (home base cell : Nat) (repl : BitVec 8) (bits : BitVec 33) (o : W32) :
    (s.poisonHome home base cell repl bits o).mem = s.mem := by
  unfold State.poisonHome
  dsimp only
  split
  · rfl
  · split <;> split <;> rfl
/-- Writing the same bytes at several cells keeps the form. -/
theorem memoryWf_putAll {s : State} (l : List Nat) (new : List (Nat × Byte)) (h : memoryWf s.mem = true) :
    memoryWf (l.foldl (fun s c => s.putCells c new) s).mem = true :=
  memoryWf_foldl _ _ (fun _ c hs => memoryWf_putCells c new hs) h

/-- A write at the home keeps the form. -/
theorem memoryWf_writeHome {s : State} (home base cell : Nat) (repl : BitVec 8) (new : List (Nat × Byte))
    (h : memoryWf s.mem = true) : memoryWf (s.writeHome home base cell repl new).mem = true := by
  have here : memoryWf (s.writeHere home base cell repl new).mem = true := by
    unfold State.writeHere
    dsimp only
    split
    · split
      · exact h
      · exact memoryWf_putCells _ _ h
    · split
      · rw [mem_hostPut]; exact h
      · exact memoryWf_putCells _ _ h
  exact memoryWf_putAll _ _ here
theorem memoryWf_unitPart {s : State} (d pa : Nat) (repl : BitVec 8) (l : List Byte) (h : memoryWf s.mem = true) :
    memoryWf (s.unitPart d pa repl l).mem = true := by
  unfold State.unitPart
  dsimp only
  split
  · split
    · exact memoryWf_writeHome _ _ _ _ _ h
    · exact h
  · exact h
  · exact h
theorem memoryWf_unitGo {s : State} (d : Nat) (repl : BitVec 8) (n pa : Nat) (l : List Byte) (h : memoryWf s.mem = true) :
    memoryWf (State.unitGo d repl n pa l s).mem = true := by
  induction n generalizing s pa l with
  | zero => exact h
  | succ n ih =>
    unfold State.unitGo
    split
    · exact h
    · exact ih _ _ (memoryWf_unitPart _ _ _ _ h)
/-- A write by a unit of a die keeps the form. -/
theorem memoryWf_unitWrite {s : State} (d pa : Nat) (l : List Byte) (h : memoryWf s.mem = true) :
    memoryWf (s.unitWrite d pa l).mem = true := memoryWf_unitGo _ _ _ _ _ h
theorem memoryWf_writeSide {s : State} (home base side : Nat) (repl : BitVec 8) (new : List (Nat × Byte))
    (h : memoryWf s.mem = true) : memoryWf (s.writeSide home base side repl new).mem = true := by
  unfold State.writeSide
  split
  · exact h
  · exact memoryWf_foldl _ _ (fun _ p hs => memoryWf_unitGo _ _ _ _ _ hs) h
theorem memoryWf_sideBack {s : State} (f : Frame) (h : memoryWf s.mem = true) : memoryWf (sideBack s f).mem = true := by
  unfold sideBack
  dsimp only
  split
  · split
    · rw [mem_poisonHome]; exact memoryWf_unitGo _ _ _ _ _ h
    · exact memoryWf_unitGo _ _ _ _ _ h
  · exact memoryWf_unitGo _ _ _ _ _ h
/-- A write-back keeps the form. -/
theorem memoryWf_writeBack {s : State} (f : Frame) (h : memoryWf s.mem = true) : memoryWf (writeBack s f).mem = true := by
  have key (l : List Nat) : memoryWf (l.foldl (fun s c => { s with mem := msplice s.mem c 2048 f.payload }) s).mem = true :=
    memoryWf_foldl _ _ (fun _ _ hs => memoryWf_msplice _ _ _ hs) h
  unfold writeBack
  dsimp only
  split
  · exact h
  · split
    · exact key _
    · exact memoryWf_sideBack _ (key _)
theorem memoryWf_evict {s : State} (d : Nat) (f : Frame) (h : memoryWf s.mem = true) : memoryWf (evict s d f).mem = true := by
  unfold evict
  dsimp only
  split
  · exact h
  · split
    · split <;> exact h
    · split
      · exact memoryWf_writeBack f h
      · exact h
/-- A store keeps the form. -/
theorem memoryWf_storeAt {s : State} (who : Who) (wave : Nat) (p : Placed) (new : List (Nat × Byte)) (poison : BitVec 33)
    (o : W32) (slice : Bool) (h : memoryWf s.mem = true) : memoryWf (storeAt s who wave p new poison o slice).mem = true := by
  have near (u : State) (b : Bool) (hu : memoryWf u.mem = true) :
      memoryWf (if b then recallAll u who.d p.req.tile else nearTouch u who.d who.cluster p.req.tile true).mem = true := by
    cases b
    · simpa using hu
    · exact hu
  unfold storeAt
  dsimp only
  split
  · exact near _ _ h
  · split
    · have base : memoryWf (((s.writeSide p.req.home.val p.req.base p.req.side p.req.repl new).writeHome p.req.home.val p.req.base
          (cellOf (s.writeSide p.req.home.val p.req.base p.req.side p.req.repl new) p.req.base) p.req.repl new)).mem = true :=
        memoryWf_writeHome _ _ _ _ _ (memoryWf_writeSide _ _ _ _ _ h)
      split
      · exact near _ _ (by simpa using base)
      · exact near _ _ (by simpa using base)
    · exact h
theorem memoryWf_spliceHome {s : State} (home base cell : Nat) (repl : BitVec 8) (lo n : Nat) (new : List (Nat × Byte))
    (h : memoryWf s.mem = true) : memoryWf (s.spliceHome home base cell repl lo n new).mem = true := by
  have key (l : List Nat) (u : State) (hu : u.mem = s.mem) :
      memoryWf (l.foldl (fun m c => msplice m (c + lo) n new) u.mem) = true := by
    rw [hu]
    clear hu
    suffices ∀ m, memoryWf m = true → memoryWf (l.foldl (fun m c => msplice m (c + lo) n new) m) = true from this _ h
    induction l with
    | nil => exact fun _ hm => hm
    | cons c l ih => exact fun m hm => ih _ (memoryWf_msplice _ _ _ hm)
  unfold State.spliceHome
  dsimp only
  generalize hu : (if (s.frameAt? home base).isSome then _ else s) = u
  have hu : u.mem = s.mem := by rw [← hu]; split <;> rfl
  split
  · rw [hu]; exact h
  · split
    · rw [mem_hostPut, hu]; exact h
    · exact key _ _ hu
/-- A write of part of a tile by an agent of a die keeps the form. -/
theorem memoryWf_writePart {s : State} (d : Nat) (p : Placed) (n : Nat) (new : List (Nat × Byte)) (h : memoryWf s.mem = true) :
    memoryWf (writePart s d p n new).mem = true := by
  unfold writePart
  dsimp only
  split
  · simpa using memoryWf_spliceHome _ _ _ _ _ _ _ h
  · exact h
theorem mem_foldl {α : Type} (l : List α) (f : State → α → State) (hf : ∀ s a, (f s a).mem = s.mem) (s : State) :
    (l.foldl f s).mem = s.mem := by
  induction l generalizing s with
  | nil => rfl
  | cons a l ih => exact (ih _).trans (hf s a)
theorem mem_sendFlit (s : State) (d : Nat) (l : List Byte) : (sendFlit s d l).mem = s.mem := by
  unfold sendFlit; split <;> rfl
theorem mem_sendForeign (s : State) (d kind pkg : Nat) (l : List Byte) : (sendForeign s d kind pkg l).mem = s.mem := by
  unfold sendForeign
  dsimp only
  split
  · rfl
  · exact mem_foldl _ _ (fun s _ => mem_sendFlit s d _) _
/-- An access that leaves the package keeps the memory list. -/
@[simp] theorem mem_sendAway (s : State) (d : Nat) (k : AccKind) (l : List Byte) (wave : Nat) (x : Away) :
    (sendAway s d k l wave x).mem = s.mem := by
  unfold sendAway
  split
  · dsimp only
    split
    · exact mem_sendForeign _ _ _ _ _
    · exact mem_sendForeign _ _ _ _ _
  · exact mem_sendForeign _ _ _ _ _
/-- Writing a range of virtual addresses keeps the form. -/
theorem memoryWf_writeVirtual {s : State} (who : Who) (va n : Nat) (new : List (Nat × Byte)) (h : memoryWf s.mem = true) :
    memoryWf (writeVirtual who va n new s).mem = true := by
  unfold writeVirtual
  refine memoryWf_foldl _ _ (fun s k hs => ?_) h
  dsimp only
  split
  · exact memoryWf_writePart _ _ _ _ hs
  · rw [mem_sendAway]; exact hs
  · rw [mem_sendAway]; exact hs
  · exact hs
theorem memoryWf_syncImage {s : State} (w : Wave) (h : memoryWf s.mem = true) : memoryWf (syncImage s w).mem = true :=
  memoryWf_writeVirtual _ _ _ _ h

end Sys2Proof.Machine
end

