-- ==== Sys2Proof/Laws/Scalar.lean ====
section
/-! SUPPORT. Laws of the scalar stream: what the shared start of a scalar instruction does when nothing stops it, and what
its completion leaves. -/

namespace Sys2Proof.Machine

variable {s : State} {w : Wave} {i : Instr}

/-! ### Registers -/

@[simp] theorem sreg_zero (w : Wave) : sreg w 0 = 0 := rfl

/-- A scalar register after a write: s0 discards it. -/
theorem sreg_setS (w : Wave) (d r : BitVec 6) (v : W64) : sreg (setS w d v) r = if d = r ∧ r ≠ 0 then v else sreg w r := by
  unfold sreg setS
  by_cases hr : r = 0
  · simp [show r = 0#6 from hr]
  · by_cases hd : d = 0
    · subst hd; rw [if_pos rfl, if_neg hr, if_neg (fun h => hr h.1.symm)]
    · rw [if_neg hr, if_neg hd]
      simp only [mget_mput]
      have : r.toNat = d.toNat ↔ d = r := ⟨fun h => (BitVec.eq_of_toNat_eq h).symm, fun h => h ▸ rfl⟩
      have hr' : ¬r = 0#6 := hr
      simp [this, hr']

/-- A write of a scalar register changes nothing but the scalar registers. -/
theorem setS_eq (w : Wave) (d : BitVec 6) (v : W64) : setS w d v = { w with r := { w.r with s := (setS w d v).r.s } } := by
  unfold setS; split <;> rfl
@[simp] theorem setS_c (w : Wave) (d : BitVec 6) (v : W64) : (setS w d v).c = w.c := by rw [setS_eq]
@[simp] theorem setS_y (w : Wave) (d : BitVec 6) (v : W64) : (setS w d v).y = w.y := by rw [setS_eq]

/-! ### Suppression -/

/-- What ends with a completed instruction: the suppression of its stream. -/
theorem unsuppress_eq (w : Wave) (n : Nat) :
    unsuppress w n = { w with c := { w.c with bksup := w.c.bksup &&& ~~~(supMask w n) } } := rfl

/-! ### Breakpoints -/

/-- Without an enabled entry nothing matches. -/
theorem bkEntries_quiet (h : Quiet s w) (p : Nat → Nat → Bool) : bkEntries s w p = [] := by
  unfold bkEntries
  rw [List.filter_eq_nil_iff]
  intro n hn
  have := h n (List.mem_range.1 hn)
  simp only [State.ctlBits] at this
  simp [wbits, this]
theorem bkScalar_quiet (h : Quiet s w) : bkScalar s w i = none := by
  unfold bkScalar bkPc
  rw [bkEntries_quiet h]
  simp
theorem scalarWatch_quiet (h : Quiet s w) (k : AccKind) (va : W64) (n : Nat) : scalarWatch s w i k va n = none := by
  unfold scalarWatch bkWatch
  rw [bkEntries_quiet h]
  simp

/-! ### The start and the end of a scalar instruction -/

@[simp] theorem onWave_eq {k : Wave → Out} (h : s.wave? s.focus = some w) : onWave s k = k w := by simp [onWave, h]

/-- A scalar instruction that nothing stops goes on to its own meaning. -/
theorem scalarOp_run {srcs : List (BitVec 6)} {dst : Option (BitVec 6)} {k : Wave → Out} {regs : List (BitVec 6)}
    (h : ScalarAt s w i regs) (hr : ∀ r, r ∈ srcs ∨ dst = some r → r ∈ regs) : scalarOp i srcs dst s k = k w := by
  unfold scalarOp
  rw [onWave_eq h.focus]
  have h1 : srcs.any (emptyS w) = false := by
    rw [List.any_eq_false]; intro r hm; simp [h.full r (hr r (.inl hm))]
  have h2 : dst.any (emptyS w) = false := by
    cases dst with
    | none => rfl
    | some r => simp [h.full r (hr r (.inr rfl))]
  simp [bkScalar_quiet h.quiet, h.legal, h1, h2]

/-- Completion after a write of s(d). -/
theorem doneS_setS (s : State) (w : Wave) (d : BitVec 6) (v : W64) (n : Nat) :
    ∃ t, doneS s (setS w d v) n = .next t ∧ ScalarWrites s t w (some d) v (w.c.pc + BitVec.ofNat 64 n) := by
  refine ⟨_, rfl, ⟨_, rfl, fun r => ?_, ?_⟩, fun _ _ => peek_setWave ..⟩
  · have : ∀ u : Wave, sreg (stepPc u n) r = sreg u r := fun u => by simp [stepPc, unsuppress_eq, sreg]
    rw [this, sreg_setS]; simp
  · rw [stepPc, unsuppress_eq, setS_eq]; rfl

/-- Completion without a result. -/
theorem doneS_plain (s : State) (w : Wave) (n : Nat) (v : W64) :
    ∃ t, doneS s w n = .next t ∧ ScalarWrites s t w none v (w.c.pc + BitVec.ofNat 64 n) := by
  refine ⟨_, rfl, ⟨_, rfl, fun r => ?_, ?_⟩, fun _ _ => peek_setWave ..⟩
  · simp [stepPc, unsuppress_eq, sreg]
  · rw [stepPc, unsuppress_eq]

/-- Going on at another counter, after a write of s(d). -/
theorem jumpS_setS (s : State) (w : Wave) (d : BitVec 6) (v pc : W64) :
    ∃ t, jumpS s (setS w d v) pc = .next t ∧ ScalarWrites s t w (some d) v pc := by
  refine ⟨_, rfl, ⟨_, rfl, fun r => ?_, ?_⟩, fun _ _ => peek_setWave ..⟩
  · have : ∀ (u : Wave) (c : WaveCtl), sreg { u with c := c } r = sreg u r := fun _ _ => rfl
    rw [this, unsuppress_eq, this, sreg_setS]; simp
  · rw [unsuppress_eq, setS_eq]; rfl

theorem jumpS_plain (s : State) (w : Wave) (v pc : W64) :
    ∃ t, jumpS s w pc = .next t ∧ ScalarWrites s t w none v pc := by
  refine ⟨_, rfl, ⟨_, rfl, fun r => ?_, ?_⟩, fun _ _ => peek_setWave ..⟩
  · simp [unsuppress_eq, sreg]
  · rw [unsuppress_eq]

/-- Register arithmetic of two sources. -/
theorem aluOp_run {d a b : BitVec 6} {f : W64 → W64 → W64} (h : ScalarAt s w i [d, a, b]) :
    ∃ t, aluOp i d a b f s = .next t ∧ ScalarWrites s t w (some d) (f (sreg w a) (sreg w b)) (w.c.pc + 4) := by
  unfold aluOp
  rw [scalarOp_run h (by simp; tauto)]
  exact doneS_setS s w d _ 4
/-- Arithmetic of one source. -/
theorem immOp_run {d a : BitVec 6} {f : W64 → W64} (h : ScalarAt s w i [d, a]) :
    ∃ t, immOp i d a f s = .next t ∧ ScalarWrites s t w (some d) (f (sreg w a)) (w.c.pc + 4) := by
  unfold immOp
  rw [scalarOp_run h (by simp)]
  exact doneS_setS s w d _ 4
theorem constOp_run {d : BitVec 6} {v : W64} {n : Nat} (h : ScalarAt s w i [d]) :
    ∃ t, constOp i d v n s = .next t ∧ ScalarWrites s t w (some d) v (w.c.pc + BitVec.ofNat 64 n) := by
  unfold constOp
  rw [scalarOp_run h (by simp)]
  exact doneS_setS s w d _ n
theorem branchOp_run {a b : BitVec 6} {off : BitVec 14} {c : W64 → W64 → Bool} (h : ScalarAt s w i [a, b]) :
    ∃ t, branchOp i a b off c s = .next t ∧ ScalarWrites s t w none 0
      (if c (sreg w a) (sreg w b) then w.c.pc + off.signExtend 64 <<< 2 else w.c.pc + 4) := by
  unfold branchOp
  rw [scalarOp_run h (by simp)]
  split
  · exact jumpS_plain s w 0 _
  · exact doneS_plain s w 4 0

end Sys2Proof.Machine
end

