-- ==== Sys2Proof/Laws/Lane.lean ====
section
/-! SUPPORT. Laws of the lanes: the view of a register through the proposal banks, and what the shared start and end of a
lane instruction do when nothing stops it. -/

namespace Sys2Proof.Machine

variable {s : State} {w : Wave} {i : Instr}

/-! ### Bits of single-bit masks -/

theorem getLsbD_or_twoPow {n : Nat} (v : BitVec n) (i j : Nat) (h : j < n) :
    (v ||| BitVec.twoPow n i).getLsbD j = (v.getLsbD j || decide (i = j)) := by
  simp [h, eq_comm]
theorem getLsbD_and_not_twoPow {n : Nat} (v : BitVec n) (i j : Nat) (h : j < n) :
    (v &&& ~~~(BitVec.twoPow n i)).getLsbD j = (v.getLsbD j && !decide (i = j)) := by
  rw [BitVec.getLsbD_and, BitVec.getLsbD_not, BitVec.getLsbD_twoPow]
  by_cases hij : i = j
  · subst hij; simp [h]
  · simp [h, hij]

/-! ### Lane registers -/

theorem mem_lanesOf {m : W32} {L : Nat} : L ∈ lanesOf m ↔ L < 32 ∧ m.getLsbD L = true := by
  simp [lanesOf]
theorem lanesOf_nodup (m : W32) : (lanesOf m).Nodup := List.Nodup.filter _ List.nodup_range

/-- A write of one line leaves the selection of lines alone. -/
@[simp] theorem sideBit_setLine (w : Wave) (n L : Nat) (x : W32) (m K : Nat) : sideBit (setLine w n L x) m K = sideBit w m K := rfl
@[simp] theorem isHome_setLine (w : Wave) (n L : Nat) (x : W32) (m : Nat) : isHome (setLine w n L x) m = isHome w m := rfl
@[simp] theorem isBank_setLine (w : Wave) (n L : Nat) (x : W32) (m : Nat) : isBank (setLine w n L x) m = isBank w m := rfl
@[simp] theorem isHome_setSideBit (w : Wave) (n L : Nat) (b : Bool) (m : Nat) : isHome (setSideBit w n L b) m = isHome w m := rfl
@[simp] theorem isBank_setSideBit (w : Wave) (n L : Nat) (b : Bool) (m : Nat) : isBank (setSideBit w n L b) m = isBank w m := rfl

/-- A side bit after a write of a side bit. -/
theorem sideBit_setSideBit (w : Wave) {n L m K : Nat} (b : Bool) (hL : L < 32) (hK : K < 32) :
    sideBit (setSideBit w n L b) m K = if m = n ∧ K = L then b else sideBit w m K := by
  unfold sideBit setSideBit
  simp only [mget_mput]
  by_cases hk : 4 * m + K / 8 = 4 * n + L / 8
  · have hm : m = n := by omega
    have hd : K / 8 = L / 8 := by omega
    subst hm
    simp only [hd, if_true]
    have h8 : K % 8 < 8 := Nat.mod_lt _ (by omega)
    by_cases hKL : K = L
    · subst hKL
      cases b
      · simp [getLsbD_and_not_twoPow _ _ _ h8]
      · simp [getLsbD_or_twoPow _ _ _ h8]
    · have hne : ¬ L % 8 = K % 8 := by omega
      cases b
      · simp [getLsbD_and_not_twoPow _ _ _ h8, hne, hKL]
      · simp [getLsbD_or_twoPow _ _ _ h8, hne, hKL]
  · have : ¬ (m = n ∧ K = L) := by rintro ⟨rfl, rfl⟩; exact hk rfl
    rw [if_neg hk, if_neg this]

/-- What a write of v(n) in a lane does to every read of a register outside the banks (R230). -/
theorem vread_vwrite (w : Wave) {n L m K : Nat} (x : W32) (hL : L < 32) (hK : K < 32) (hn : isBank w n = false)
    (hm : isBank w m = false) : vread (vwrite w n L x) m K = if m = n ∧ K = L then x else vread w m K := by
  have hbank : ∀ {a : Nat}, isHome w a = true → isBank w (a + w.c.gcount.toNat) = true := by
    intro a ha
    simp only [isHome, isBank, Bool.and_eq_true, decide_eq_true_eq] at *
    exact ⟨⟨ha.1.1, by omega⟩, by omega⟩
  have hhome : ∀ {a b : Nat}, isHome w a = true → isBank w b = false → a + w.c.gcount.toNat ≠ b := by
    rintro a b ha hb rfl
    rw [hbank ha] at hb; cases hb
  have hkey : ∀ a b : Nat, 32 * a + K = 32 * b + L ↔ a = b ∧ K = L := fun a b => by omega
  unfold vwrite
  split
  · rename_i hw
    rw [Bool.and_eq_true] at hw
    obtain ⟨hhn, hop⟩ := hw
    have hc : ∀ (l : Nat), (setSideBit (setLine w l L x) (n + w.c.gcount.toNat) L true).c = w.c := fun _ => rfl
    have hv : ∀ (l k : Nat), mget 0 (setSideBit (setLine w l L x) (n + w.c.gcount.toNat) L true).r.v k =
        if k = 32 * l + L then x else mget 0 w.r.v k := by
      intro l k; simp [setSideBit, setLine, mget_mput]
    unfold vread viewLine
    simp only [isHome_setSideBit, isHome_setLine, hc, sideBit_setSideBit _ _ hL hK, sideBit_setLine, hop, Bool.true_and, hv, hkey]
    have h1 := hhome hhn hm
    by_cases hhm : isHome w m = true
    · have h2 := hhome hhm hn
      simp only [hhm, if_true, Ne.symm h1, false_and, if_false, Nat.add_right_cancel_iff]
      by_cases hmK : m = n ∧ K = L
      · obtain ⟨rfl, rfl⟩ := hmK
        cases sideBit w m K <;> simp
      · simp only [hmK, if_false]
        have h3 : ∀ A B : Nat, (A = m ∨ A = m + w.c.gcount.toNat) → (B = n ∨ B = n + w.c.gcount.toNat) →
            ¬ (A = B ∧ K = L) := by
          rintro A B hA hB ⟨hAB, hKL⟩
          have : m ≠ n := fun e => hmK ⟨e, hKL⟩
          omega
        rw [if_neg (h3 _ _ (by split <;> simp) (by split <;> simp))]
    · have hhm' : isHome w m = false := by simpa using hhm
      have hmn : m ≠ n := by rintro rfl; rw [hhn] at hhm'; cases hhm'
      simp only [hhm', hmn, false_and, if_false, Bool.false_eq_true]
      rw [if_neg]
      rintro ⟨e, -⟩
      split at e <;> omega
  · have hv : ∀ (l k : Nat), mget 0 (setLine w l L x).r.v k = if k = 32 * l + L then x else mget 0 w.r.v k := by
      intro l k; simp [setLine, mget_mput]
    have hvl : viewLine (setLine w (viewLine w n L) L x) m K = viewLine w m K := rfl
    unfold vread
    rw [hvl, hv]
    by_cases hmn : m = n ∧ K = L
    · obtain ⟨rfl, rfl⟩ := hmn; simp
    · rw [if_neg hmn, if_neg]
      rw [hkey]
      rintro ⟨e, rfl⟩
      apply hmn
      refine ⟨?_, rfl⟩
      have hl : ∀ a : Nat, viewLine w a K = a ∨ (isHome w a = true ∧ viewLine w a K = a + w.c.gcount.toNat) := by
        intro a
        unfold viewLine
        by_cases ha : isHome w a = true
        · simp only [ha, if_true]; split <;> simp
        · simp [ha]
      rcases hl m with h1 | ⟨h1, h2⟩ <;> rcases hl n with h3 | ⟨h3, h4⟩
      · omega
      · exact absurd (by omega) (hhome h3 hm)
      · exact absurd (by omega) (hhome h1 hn)
      · omega

/-- The parts of a wave that a write of lane registers leaves alone. -/
theorem vwrite_eq (w : Wave) (n L : Nat) (x : W32) :
    vwrite w n L x = { w with r := { w.r with v := (vwrite w n L x).r.v, side := (vwrite w n L x).r.side } } := by
  unfold vwrite setSideBit setLine; split <;> rfl
theorem isBank_vwrite (w : Wave) (n L : Nat) (x : W32) (m : Nat) : isBank (vwrite w n L x) m = isBank w m := by
  rw [vwrite_eq]; rfl

theorem poisonFades_refl (w : Wave) : PoisonFades w w := fun _ => .inl rfl
theorem poisonFades_trans {a b c : Wave} (h : PoisonFades a b) (g : PoisonFades b c) : PoisonFades a c := fun k =>
  (g k).elim (fun e => (h k).imp e.trans e.trans) .inr

/-- A wave that differs from another in lane registers and their side bytes alone, and in poison that has gone. -/
def OnlyV (w w' : Wave) : Prop :=
  w' = { w with r := { w.r with v := w'.r.v, side := w'.r.side, poison := w'.r.poison } } ∧ PoisonFades w w'
theorem OnlyV.refl (w : Wave) : OnlyV w w := ⟨rfl, poisonFades_refl w⟩
theorem OnlyV.trans {a b c : Wave} (h : OnlyV a b) (g : OnlyV b c) : OnlyV a c :=
  ⟨by rw [g.1, h.1], poisonFades_trans h.2 g.2⟩
theorem OnlyV.isBank {w w' : Wave} (h : OnlyV w w') (n : Nat) : isBank w' n = isBank w n := by rw [h.1]; rfl
theorem OnlyV.isHome {w w' : Wave} (h : OnlyV w w') (n : Nat) : isHome w' n = isHome w n := by rw [h.1]; rfl
theorem onlyV_vwrite (w : Wave) (n L : Nat) (x : W32) : OnlyV w (vwrite w n L x) :=
  ⟨by unfold vwrite setSideBit setLine; split <;> rfl, fun k => .inl (by rw [vwrite_eq])⟩
/-- Entries deleted one after the other leave each key as it was, or without an entry. -/
theorem mfind_foldl_mdel {α : Type} (l : List Nat) (m : List (Nat × α)) (k : Nat) :
    mfind (l.foldl mdel m) k = mfind m k ∨ mfind (l.foldl mdel m) k = none := by
  induction l generalizing m with
  | nil => exact .inl rfl
  | cons a l ih =>
    simp only [List.foldl_cons]
    rcases ih (mdel m a) with h | h
    · rw [h, mfind_mdel]
      split <;> simp
    · exact .inr h
/-- Clearing the poison of written granules changes that alone. -/
theorem cleanGranules_eq (w : Wave) (regs : List Nat) (E : W32) :
    cleanGranules w regs E = { w with r := { w.r with poison := (cleanGranules w regs E).r.poison } } := by
  unfold cleanGranules; dsimp only; split <;> rfl
theorem poisonFades_cleanGranules (w : Wave) (regs : List Nat) (E : W32) : PoisonFades w (cleanGranules w regs E) := by
  unfold cleanGranules
  dsimp only
  split
  · exact poisonFades_refl w
  · exact fun k => mfind_foldl_mdel _ _ k
theorem onlyV_cleanGranules (w : Wave) (regs : List Nat) (E : W32) : OnlyV w (cleanGranules w regs E) :=
  ⟨by rw [cleanGranules_eq], poisonFades_cleanGranules w regs E⟩
@[simp] theorem cleanGranules_nil (w : Wave) (E : W32) : cleanGranules w [] E = w := by
  unfold cleanGranules; simp
@[simp] theorem vread_cleanGranules (w : Wave) (regs : List Nat) (E : W32) (n L : Nat) :
    vread (cleanGranules w regs E) n L = vread w n L := by rw [cleanGranules_eq]; rfl
@[simp] theorem laneValue_cleanGranules (w : Wave) (regs : List Nat) (E : W32) (wide : Bool) (n L : Nat) :
    laneValue (cleanGranules w regs E) wide n L = laneValue w wide n L := by
  unfold laneValue vread64; simp
theorem onlyV_writeV (wide : Bool) (n L : Nat) (v : W64) (w : Wave) : OnlyV w (writeV wide n L v w) := by
  unfold writeV
  cases wide
  · exact onlyV_vwrite _ _ _ _
  · exact (onlyV_vwrite _ _ _ _).trans (onlyV_vwrite _ _ _ _)
/-- A fold of such changes is one. -/
theorem onlyV_foldl {α : Type} (l : List α) (f : Wave → α → Wave) (hf : ∀ w a, OnlyV w (f w a)) (w : Wave) :
    OnlyV w (l.foldl f w) := by
  induction l generalizing w with
  | nil => exact OnlyV.refl w
  | cons a l ih => exact (hf w a).trans (ih _)

/-- The word of a result that register m receives, if it is one of those written. -/
def wordFor (wide : Bool) (d m : Nat) (v : W64) : Option W32 :=
  if m = d then some (v.extractLsb' 0 32) else if wide && m = d + 1 then some (v.extractLsb' 32 32) else none

theorem vread_writeV (w : Wave) {wide : Bool} {d L m K : Nat} (v : W64) (hL : L < 32) (hK : K < 32)
    (hd : ∀ n ∈ pairOf wide d, isBank w n = false) (hm : isBank w m = false) :
    vread (writeV wide d L v w) m K = if K = L then (wordFor wide d m v).getD (vread w m K) else vread w m K := by
  have hd0 : isBank w d = false := hd d (by unfold pairOf; split <;> simp)
  unfold writeV wordFor
  cases wide
  · simp only [Bool.false_eq_true, if_false, Bool.false_and]
    rw [vread_vwrite w _ hL hK hd0 hm]
    by_cases hKL : K = L <;> by_cases hmd : m = d <;> simp [hKL, hmd]
  · have hd1 : isBank w (d + 1) = false := hd (d + 1) (by simp [pairOf])
    simp only [if_true, Bool.true_and]
    rw [vread_vwrite _ _ hL hK (by rw [isBank_vwrite]; exact hd1) (by rw [isBank_vwrite]; exact hm), vread_vwrite w _ hL hK hd0 hm]
    by_cases hKL : K = L <;> by_cases hmd : m = d <;> by_cases hm1 : m = d + 1 <;> simp_all

/-- Results written lane by lane. -/
theorem vread_foldl_writeV {wide : Bool} {d m K : Nat} (g : Nat → W64) (hK : K < 32) (l : List Nat) (hl : ∀ L ∈ l, L < 32) :
    ∀ (w : Wave), (∀ n ∈ pairOf wide d, isBank w n = false) → isBank w m = false →
    vread (l.foldl (fun w' L => writeV wide d L (g L) w') w) m K =
      if K ∈ l then (wordFor wide d m (g K)).getD (vread w m K) else vread w m K := by
  induction l with
  | nil => intro w _ _; simp
  | cons L l ih =>
    intro w hd hm
    simp only [List.foldl_cons]
    have hb := fun n => (onlyV_writeV wide d L (g L) w).isBank n
    rw [ih (fun x hx => hl x (List.mem_cons_of_mem _ hx)) _ (fun n hn => by rw [hb]; exact hd n hn) (by rw [hb]; exact hm),
      vread_writeV w (g L) (hl L (List.mem_cons_self ..)) hK hd hm]
    by_cases hKL : K = L
    · subst hKL
      simp only [List.mem_cons, true_or, if_true]
      split
      · cases wordFor wide d m (g K) <;> rfl
      · rfl
    · simp [hKL]

/-- Two words together are the number. -/
theorem append_words (v : W64) : (v.extractLsb' 32 32 ++ v.extractLsb' 0 32 : W64) = v := by
  apply BitVec.eq_of_getLsbD_eq
  intro i hi
  rw [BitVec.getLsbD_append]
  simp only [BitVec.getLsbD_extractLsb']
  by_cases h : i < 32
  · simp [h]
  · simp [h, show i - 32 < 32 by omega, show 32 + (i - 32) = i by omega]
theorem zext_low (v : W64) : (v.extractLsb' 0 32).zeroExtend 64 = v &&& 0xFFFFFFFF := by
  apply BitVec.eq_of_toNat_eq
  have h := Nat.and_two_pow_sub_one_eq_mod v.toNat 32
  simp only [BitVec.truncate_eq_setWidth, BitVec.toNat_setWidth, BitVec.extractLsb'_toNat, Nat.shiftRight_zero, BitVec.toNat_and]
  norm_num at h ⊢
  rw [show (4294967295 : BitVec 64).toNat = 4294967295 from rfl, h]; omega

/-- What lane results leave in the registers that hold them, and in the others. -/
theorem laneValue_foldl {wide : Bool} {d K : Nat} (g : Nat → W64) (l : List Nat) (hl : ∀ L ∈ l, L < 32) (w : Wave)
    (hd : ∀ n ∈ pairOf wide d, isBank w n = false) (hK : K ∈ l) :
    laneValue (l.foldl (fun w' L => writeV wide d L (g L) w') w) wide d K = clip wide (g K) := by
  have hd0 : isBank w d = false := hd d (by unfold pairOf; split <;> simp)
  have h0 := vread_foldl_writeV (wide := wide) (d := d) (m := d) g (hl K hK) l hl w hd hd0
  rw [if_pos hK] at h0
  unfold laneValue clip
  cases wide
  · simp only [Bool.false_eq_true, if_false]
    rw [h0]; simp only [wordFor, if_true, Option.getD_some]; exact zext_low _
  · have hd1 : isBank w (d + 1) = false := hd (d + 1) (by simp [pairOf])
    have h1 := vread_foldl_writeV (wide := true) (d := d) (m := d + 1) g (hl K hK) l hl w hd hd1
    rw [if_pos hK] at h1
    simp only [if_true]
    unfold vread64
    rw [h0, h1]
    simp only [wordFor, if_true, Option.getD_some, Nat.succ_ne_self, if_false, Bool.true_and, decide_true]
    exact append_words _
theorem vread_foldl_other {wide : Bool} {d n K : Nat} (g : Nat → W64) (l : List Nat) (hl : ∀ L ∈ l, L < 32) (w : Wave)
    (hd : ∀ n ∈ pairOf wide d, isBank w n = false) (hn : isBank w n = false) (hK : K < 32) (h : n ∉ pairOf wide d ∨ K ∉ l) :
    vread (l.foldl (fun w' L => writeV wide d L (g L) w') w) n K = vread w n K := by
  rw [vread_foldl_writeV g hK l hl w hd hn]
  split
  · rename_i hm
    have hp : n ∉ pairOf wide d := h.resolve_right (fun e => e hm)
    have : wordFor wide d n (g K) = none := by
      unfold wordFor
      cases wide <;> simp_all [pairOf]
    rw [this]; rfl
  · rfl

/-! ### The start and the end of a lane instruction -/

theorem bkLane_quiet (h : Quiet s w) : bkLane s w i = none := by
  unfold bkLane bkPc
  dsimp only
  rw [bkEntries_quiet h]
  simp
theorem watchAccs_quiet (h : Quiet s w) (accs : List LaneAcc) (all : Option W32) : watchAccs s w i accs all = none := by
  unfold watchAccs bkWatch
  have : ∀ p, bkEntries s w p = [] := fun p => bkEntries_quiet h p
  simp only [this]
  split
  · rfl
  · split
    · rfl
    · rename_i e l heq
      have hm : e ∈ e :: l := List.mem_cons_self ..
      rw [← heq] at hm
      simp at hm
theorem scanAccs_nil (h : Quiet s w) : scanAccs s w i [] = none := by
  unfold scanAccs faultyAccs placedAccs
  simp [watchAccs_quiet h]

/-- A lane instruction that nothing stops goes on with its execute lanes. -/
theorem laneOp_run {sh : Shape} {E : W32} {k : State → Wave → W32 → Out} (h : LaneAt s w i sh E) : laneOp i sh s k = k s w E := by
  unfold laneOp
  rw [onWave_eq h.focus]
  have hown : ownReplay s w = false := by simp [ownReplay, h.fresh]
  have hE := h.lanes
  unfold execLanes at hE
  dsimp only
  simp only [hown, Bool.false_eq_true, if_false, ← hE, bkLane_quiet h.quiet, h.legal, h.early, Bool.and_false, Bool.not_true,
    Bool.or_false, Bool.not_false, Bool.false_and, Bool.and_true, Bool.true_and]
  have h1 : (laneUniform sh.op && decide ((getSplit w s.split).mask ≠ BitVec.allOnes 32)) = false := by
    cases hu : laneUniform sh.op
    · rfl
    · simp [h.whole hu]
  have hin : ∀ n, n ∈ (sh.srcs.flatMap srcRegs).map Prod.fst ++ sh.dst ++ sh.named ∨
      n ∈ sh.more.map Prod.fst ++ sh.dstMore ++ sh.range → n < w.winsize ∧ isBank w n = false := by
    intro n hn
    apply h.inside n
    simp only [List.map_append, List.mem_append] at *
    tauto
  have h2 : ((sh.srcs.flatMap srcRegs).map Prod.fst ++ sh.dst ++ sh.named).any (fun n => decide (w.winsize ≤ n)) = false := by
    rw [List.any_eq_false]; intro n hn; have := (hin n (.inl hn)).1; simp; omega
  have h3 : (sh.more.map Prod.fst ++ sh.dstMore ++ sh.range).any (fun n => decide (w.winsize ≤ n)) = false := by
    rw [List.any_eq_false]; intro n hn; have := (hin n (.inr hn)).1; simp; omega
  have h4 : ((sh.srcs.flatMap srcRegs).map Prod.fst ++ sh.dst ++ sh.named ++ (sh.more.map Prod.fst ++ sh.dstMore ++ sh.range)).any
      (isBank w) = false := by
    rw [List.any_eq_false]; intro n hn
    rcases List.mem_append.1 hn with hn | hn
    · simp [(hin n (.inl hn)).2]
    · simp [(hin n (.inr hn)).2]
  have h5 : sh.noGroup.any (fun n => isHome w n || isBank w n) = false := by
    rw [List.any_eq_false]; intro n hn; simp [h.group n hn]
  have hf : ∀ r ∈ sh.srcs.flatMap srcRegs ++ sh.more, emptyV w r.1 = false := by
    intro r hr
    apply h.full
    simp only [List.mem_append] at *
    exact .inl (.inl (List.mem_map_of_mem (List.mem_append.2 hr)))
  have h6 : (sh.srcs.flatMap srcRegs ++ sh.more).find? (fun r => r.2 && emptyV w r.1) = none := by
    rw [List.find?_eq_none]; intro r hr; simp [hf r hr]
  have h7 : (sh.srcs.flatMap srcRegs ++ sh.more).any (fun r => emptyV w r.1) = false := by
    rw [List.any_eq_false]; intro r hr; simp [hf r hr]
  have h8 : (sh.dst ++ sh.dstMore).any (emptyV w) = false := by
    rw [List.any_eq_false]; intro n hn
    have : emptyV w n = false := h.full n (by simp only [List.mem_append] at *; tauto)
    simp [this]
  rw [h1, h2, h3, h4, h5, h6, h7, h8]
  simp only [Bool.false_eq_true, if_false, Bool.or_self]
  exact if_neg h.active

/-- What passing on does to a wave without a replay. -/
theorem lanePass_eq (hf : w.c.unfin = 0) : lanePass s w =
    setSplit { w with c := { w.c with bksup := w.c.bksup &&& ~~~(supMask w s.split) } } s.split
      { getSplit w s.split with lpc := (getSplit w s.split).lpc + 12 } := by
  unfold lanePass
  simp only [ownReplay, hf, ne_eq, not_true_eq_false, decide_false, Bool.false_and, Bool.false_eq_true, if_false, unsuppress_eq]
  rfl

/-- A split after a write of a split. -/
theorem getSplit_setSplit (w : Wave) (n m : Nat) (x : Split) : getSplit (setSplit w n x) m = if m = n then x else getSplit w m := by
  simp [getSplit, setSplit, mget_mput]
theorem getStream_setStream (w : Wave) (q p : Nat) (x : Stream) :
    getStream (setStream w q x) p = if p = q then x else getStream w p := by
  simp [getStream, setStream, mget_mput]
/-- Streams advanced one after the other, each once. -/
theorem foldl_setStream (f : Stream → Stream) (l : List Nat) (hl : l.Nodup) (w : Wave) :
    let w' := l.foldl (fun w q => setStream w q (f (getStream w q))) w
    w' = { w with r := { w.r with q := w'.r.q } } ∧ ∀ q, getStream w' q = if q ∈ l then f (getStream w q) else getStream w q := by
  induction l generalizing w with
  | nil => exact ⟨rfl, fun q => by simp⟩
  | cons a l ih =>
    obtain ⟨h1, h2⟩ := List.nodup_cons.1 hl
    obtain ⟨h3, h4⟩ := ih h2 (setStream w a (f (getStream w a)))
    dsimp only at *
    simp only [List.foldl_cons]
    refine ⟨?_, fun q => ?_⟩
    · rw [h3]; rfl
    · rw [h4]
      by_cases hq : q = a
      · subst hq; rw [if_neg h1, getStream_setStream]; simp
      · rw [getStream_setStream, if_neg hq]; simp [hq]

/-- Completion of a lane instruction that has changed lane registers alone. -/
theorem laneFinish_keeps {w' : Wave} (hf : w.c.unfin = 0) (h : OnlyV w w') (srcs : List (Src × Bool)) :
    LaneKeeps s w (laneFinish s w' srcs) ∧ StreamsStep w (laneFinish s w' srcs) srcs ∧
      (∀ n K, vread (laneFinish s w' srcs) n K = vread w' n K) := by
  obtain ⟨h, hpf⟩ := h
  have hu : w'.c.unfin = 0 := by rw [h]; exact hf
  have hc : w'.c = w.c := by rw [h]
  have hsup : supMask w' s.split = supMask w s.split := by rw [h]; rfl
  have hsp : ∀ n, getSplit w' n = getSplit w n := fun n => by rw [h]; rfl
  have hst : ∀ n, getStream w' n = getStream w n := fun n => by rw [h]; rfl
  unfold laneFinish
  obtain ⟨h1, h2⟩ := foldl_setStream (fun q => skipStream q 1) _ (List.nodup_dedup ((streamsOf srcs).map Prod.fst)) (lanePass s w')
  dsimp only at h1 h2
  have hp := lanePass_eq (s := s) hu
  rw [hsup, hsp, hc] at hp
  refine ⟨⟨?_, fun k => ?_, fun n hn => ?_, ?_⟩, fun q => ?_, fun n K => ?_⟩
  · rw [h1, hp]
    simp only [setSplit]
    rw [h]
  · rw [h1]
    show mfind (lanePass s w').r.poison k = _ ∨ mfind (lanePass s w').r.poison k = _
    rw [hp]
    exact hpf k
  · rw [h1]
    show getSplit (lanePass s w') n = _
    rw [hp, getSplit_setSplit, if_neg hn]
    rw [h]; rfl
  · rw [h1]
    show getSplit (lanePass s w') s.split = _
    rw [hp, getSplit_setSplit, if_pos rfl]
  · rw [h2]
    have e : getStream (lanePass s w') q = getStream w q := by rw [hp]; exact hst q
    simp [e]
  · rw [h1]
    show vread (lanePass s w') n K = _
    rw [hp]
    have hv : ∀ (x : WaveCtl), x.gbase = w'.c.gbase → x.gcount = w'.c.gcount → x.pdefined = w'.c.pdefined →
        x.popen = w'.c.popen → vread { w' with c := x } n K = vread w' n K := by
      intro x e1 e2 e3 e4
      unfold vread viewLine isHome sideBit
      simp only [e1, e2, e3, e4]
    apply hv <;> simp [hc]

/-- In an execute lane it is the source itself. -/
theorem computeVal_eq {sh : Shape} {E : W32} {n L : Nat} {x : Src} {wide : Bool} (h : sh.srcs[n]? = some (x, wide))
    (hL : E.getLsbD L = true) : computeVal s w sh E [] n L = source s w sh.f x wide L := by
  unfold computeVal source
  rw [h]
  cases x <;> simp [hL]
/-- Of a source that is no stream it is the source in every lane. -/
theorem computeVal_any {sh : Shape} {E : W32} {n L : Nat} {x : Src} {wide : Bool} (h : sh.srcs[n]? = some (x, wide))
    (hx : ∀ q, x ≠ .stream q) : computeVal s w sh E [] n L = source s w sh.f x wide L := by
  unfold computeVal source
  rw [h]
  cases x <;> first | rfl | exact absurd rfl (hx _)

/-- No granule of the list is poisoned, so none is met. -/
theorem granulePoison_none (g : Gather) (l : List (Nat × Nat × Nat)) (h : ∀ p ∈ l, mfind w.r.poison (4 * p.2.1 + p.2.2 / 8) = none) :
    granulePoison w g l = g := by
  unfold granulePoison
  induction l with
  | nil => rfl
  | cons p l ih =>
    simp only [List.foldl_cons, h p (List.mem_cons_self ..)]
    exact ih fun q hq => h q (List.mem_cons_of_mem _ hq)
theorem regPoison_none (E : W32) (regs : List Nat)
    (h : ∀ n ∈ regs, ∀ L < 32, mfind w.r.poison (4 * viewLine w n L + L / 8) = none) : regPoison w E regs = {} := by
  unfold regPoison
  apply granulePoison_none
  intro p hp
  simp only [List.mem_flatMap, List.mem_map] at hp
  obtain ⟨n, hn, L, hL, rfl⟩ := hp
  exact h n hn L (mem_lanesOf.1 hL).1

theorem laneMask_nil : laneMask [] = 0 := rfl
theorem lanesOf_ne_nil {m : W32} (h : m ≠ 0) : lanesOf m ≠ [] := by
  intro e
  apply h
  apply BitVec.eq_of_getLsbD_eq
  intro i hi
  have : i ∉ lanesOf m := by rw [e]; simp
  rw [mem_lanesOf] at this
  simpa [hi] using this

/-- A compute instruction that nothing stops acts once in all its lanes: what it reads beside its sources is not poisoned either,
and the granules of its destinations that it writes whole hold no poison afterwards. -/
theorem laneChecked_run {sh : Shape} {E : W32} {bad hold : Wave → (Nat → Nat → W64) → Nat → Bool}
    {eff : State → Wave → W32 → Bool → (Nat → Nat → W64) → Wave} (h : LaneAt s w i sh E) (hr : sh.res = true → resBad w = none)
    (hb : ∀ L, E.getLsbD L = true → bad w (computeVal s w sh E []) L = false)
    (hh : ∀ L, E.getLsbD L = true → hold w (computeVal s w sh E []) L = false)
    (hp : ∀ p ∈ sh.reaches w E (computeVal s w sh E []), mfind w.r.poison (4 * p.2.1 + p.2.2 / 8) = none) :
    laneChecked i sh s bad hold eff =
      laneDone s (cleanGranules (eff s w E true (computeVal s w sh E [])) (sh.dst ++ sh.dstMore) E) sh.srcs := by
  unfold laneChecked
  rw [laneOp_run h]
  have h1 : (streamsOf sh.srcs).any (streamBad w) = false := by
    rw [List.any_eq_false]; intro p hp; simp [h.bound p hp]
  have h2 : (if sh.res then resBad w else none) = none := by
    split
    · exact hr ‹_›
    · rfl
  have h3 := regPoison_none (w := w) E _ h.clean
  have hl : loadAll s w [] = (s, [], 0) := rfl
  have hi : imageStalls w {} = false := rfl
  have hfl : failedOf {} = [] := rfl
  simp only [h1, h.arrived, scanAccs_nil h.quiet, h2, List.isEmpty_nil, Bool.not_true, Bool.false_and, Bool.false_eq_true, if_false,
    List.foldl_nil, h3, hi, hl, hfl]
  have hE : E &&& ~~~((0 : W32) ||| 0) = E := by
    have : ~~~((0 : W32) ||| 0) = BitVec.allOnes 32 := by decide
    rw [this, BitVec.and_allOnes]
  have hE' : E &&& ~~~(0 : W32) = E := by
    have : ~~~(0 : W32) = BitVec.allOnes 32 := by decide
    rw [this, BitVec.and_allOnes]
  have hr3 := granulePoison_none (w := w) {} ((sh.reaches w E (computeVal s w sh E [])).filter fun p => E.getLsbD p.1)
    fun p h => hp p (List.mem_filter.1 h).1
  simp only [ne_eq, not_true_eq_false, decide_false, Bool.and_false, Bool.false_eq_true, if_false, hE, hE', hr3]
  have h4 : (lanesOf E).filter (bad w (computeVal s w sh E [])) = [] := by
    rw [List.filter_eq_nil_iff]; intro L hL; simp [hb L (mem_lanesOf.1 hL).2]
  have h5 : (lanesOf E).any (hold w (computeVal s w sh E [])) = false := by
    rw [List.any_eq_false]; intro L hL; simp [hh L (mem_lanesOf.1 hL).2]
  have h0 : ¬ E = 0 := h.active
  simp only [h4, h5, laneMask_nil, not_true_eq_false, Bool.false_eq_true, if_false, if_neg h0, if_true, decide_true]
  rfl

/-- A lane-wise result: what a compute instruction with one destination leaves. -/
theorem laneResult_run {sh : Shape} {E : W32} {wide : Bool} {f : State → Wave → (Nat → W64) → Nat → W64}
    (h : LaneAt s w i { sh with dst := pairOf wide sh.f.dest.toNat } E) (hr : sh.res = false)
    (hp : ∀ v, sh.reaches w E v = []) :
    ∃ t, laneResult i sh wide s f = .next t ∧ LaneWrites s t w sh.srcs E wide sh.f.dest.toNat
      (fun L => f s w (fun n => computeVal s w sh E [] n L) L) := by
  unfold laneResult laneCompute
  dsimp only
  rw [laneChecked_run h (by simp [hr]) (fun _ _ => rfl) (fun _ _ => rfl) (by simp [hp])]
  have hd : ∀ n ∈ pairOf wide sh.f.dest.toNat, isBank w n = false := fun n hn =>
    (h.inside n (by simp only [List.mem_append]; tauto)).2
  have hE : ∀ L ∈ lanesOf E, L < 32 := fun L hL => (mem_lanesOf.1 hL).1
  have hov := onlyV_foldl (lanesOf E) (fun w' L => writeV wide sh.f.dest.toNat L
    (f s w (fun n => computeVal s w { sh with dst := pairOf wide sh.f.dest.toNat } E [] n L) L) w') (fun w a => onlyV_writeV _ _ _ _ _) w
  obtain ⟨h1, h2, h3⟩ := laneFinish_keeps (s := s) h.fresh (hov.trans (onlyV_cleanGranules _
    (pairOf wide sh.f.dest.toNat ++ sh.dstMore) E)) sh.srcs
  refine ⟨_, rfl, ⟨_, rfl, h1, h2, fun L hL => ?_, fun n L hL hn hx => ?_⟩, fun _ _ => peek_setWave ..⟩
  · have hL' : L ∈ lanesOf E := mem_lanesOf.2 ⟨BitVec.lt_of_getLsbD hL, hL⟩
    have := laneValue_foldl (wide := wide) (d := sh.f.dest.toNat) (fun L => f s w
      (fun n => computeVal s w { sh with dst := pairOf wide sh.f.dest.toNat } E [] n L) L) (lanesOf E) hE w hd hL'
    refine Eq.trans ?_ this
    unfold laneValue vread64
    simp only [h3, vread_cleanGranules]
  · rw [h3, vread_cleanGranules]
    exact vread_foldl_other _ _ hE w hd hn hL (hx.imp id fun e he => by rw [(mem_lanesOf.1 he).2] at e; cases e)

/-! ### Masks of lanes -/

theorem getLsbD_foldl_twoPow (l : List Nat) (m : W32) {K : Nat} (hK : K < 32) :
    (l.foldl (fun (m : W32) n => m ||| BitVec.twoPow 32 n) m).getLsbD K = (m.getLsbD K || decide (K ∈ l)) := by
  induction l generalizing m with
  | nil => simp
  | cons a l ih =>
    simp only [List.foldl_cons]
    rw [ih, getLsbD_or_twoPow _ _ _ hK]
    by_cases h : a = K
    · subst h; simp
    · have h' : ¬ K = a := fun e => h e.symm
      simp [h, h']
theorem getLsbD_laneMask (l : List Nat) {K : Nat} (hK : K < 32) : (laneMask l).getLsbD K = decide (K ∈ l) := by
  unfold laneMask; rw [getLsbD_foldl_twoPow l 0 hK]; simp
/-- A predicate after bits of it were written. -/
theorem kread_writeK (w : Wave) (n : Nat) (m bits : W32) (j : Nat) :
    kread (writeK w n m bits) j = if j = n ∧ n ≠ 0 then (kread w n &&& ~~~m) ||| (bits &&& m) else kread w j := by
  unfold writeK kwrite
  by_cases hn : n = 0
  · subst hn; simp
  · rw [if_neg hn]
    unfold kread
    by_cases hj : j = 0
    · subst hj; simp [Ne.symm hn]
    · simp only [hj, if_false, mget_mput, hn, ne_eq, not_false_eq_true, and_true]

/-- A wave that differs from another in predicates alone. -/
theorem writeK_eq (w : Wave) (n : Nat) (m bits : W32) :
    writeK w n m bits = { w with r := { w.r with k := (writeK w n m bits).r.k } } := by
  unfold writeK kwrite; split <;> rfl

end Sys2Proof.Machine
end

