-- ==== Sys2Proof/Laws/Units.lean ====
section
/-! SUPPORT. Laws of what the units of a die do on their own (records, rings, fills, write-backs): they change dies, memory, messages
and what leaves, never a wave, a team, a launch or a cluster. -/

namespace Sys2Proof.Machine

variable {s t u : State}

/-! ### Updates of dies and memory -/

/-- t differs from s in dies, memory and its poison, messages on their way, what has left, and free values drawn. -/
def OnlyStore (s t : State) : Prop :=
  t = { s with dies := t.dies, mem := t.mem, mempoison := t.mempoison, agenda := t.agenda, outbox := t.outbox, draws := t.draws }
theorem OnlyStore.refl (s : State) : OnlyStore s s := rfl
theorem OnlyStore.trans {a b c : State} (h : OnlyStore a b) (g : OnlyStore b c) : OnlyStore a c := by
  unfold OnlyStore at *; rw [g, h]
theorem OnlyStore.waves (h : OnlyStore s t) : t.waves = s.waves := by rw [h]
theorem OnlyStore.teams (h : OnlyStore s t) : t.teams = s.teams := by rw [h]
theorem OnlyStore.launches (h : OnlyStore s t) : t.launches = s.launches := by rw [h]
theorem OnlyStore.clusters (h : OnlyStore s t) : t.clusters = s.clusters := by rw [h]
theorem OnlyStore.focus (h : OnlyStore s t) : t.focus = s.focus := by rw [h]
theorem OnlyStore.split (h : OnlyStore s t) : t.split = s.split := by rw [h]
theorem OnlyStore.ticks (h : OnlyStore s t) : t.ticks = s.ticks := by rw [h]
theorem OnlyStore.wave? (h : OnlyStore s t) (k : Nat) : t.wave? k = s.wave? k := by simp [State.wave?, h.waves]
theorem OnlyStore.team? (h : OnlyStore s t) (k : Nat) : t.team? k = s.team? k := by simp [State.team?, h.teams]
theorem OnlyStore.team (h : OnlyStore s t) (k : Nat) : t.team k = s.team k := by simp [State.team, h.teams]
theorem OnlyStore.launch (h : OnlyStore s t) (k : Nat) : t.launch k = s.launch k := by simp [State.launch, h.launches]

theorem onlyStore_modDie (s : State) (d : Nat) (f : Die → Die) : OnlyStore s (s.modDie d f) := rfl
theorem onlyStore_modCache (s : State) (d : Nat) (f : CacheState → CacheState) : OnlyStore s (s.modCache d f) := rfl
theorem onlyStore_modFrame (s : State) (d : Nat) (x : TileId) (f : Frame → Frame) : OnlyStore s (s.modFrame d x f) := rfl
theorem onlyStore_setCtl (s : State) (d o : Nat) (v : W64) : OnlyStore s (s.setCtl d o v) := rfl
theorem onlyStore_setCtlBits (s : State) (d o hi lo v : Nat) : OnlyStore s (s.setCtlBits d o hi lo v) := rfl
theorem onlyStore_putCells (s : State) (c : Nat) (new : List (Nat × Byte)) : OnlyStore s (s.putCells c new) := rfl
theorem onlyStore_push (s : State) (i : Instr) : OnlyStore s (s.push i) := rfl
theorem onlyStore_foldl {α : Type} (l : List α) (f : State → α → State) (hf : ∀ s a, OnlyStore s (f s a)) (s : State) :
    OnlyStore s (l.foldl f s) := by
  induction l generalizing s with
  | nil => exact .refl s
  | cons a l ih => exact (hf s a).trans (ih _)
theorem onlyStore_hostPut (s : State) (h c : Nat) (new : List (Nat × Byte)) : OnlyStore s (s.hostPut h c new) :=
  OnlyStore.trans (b := hostLine s h 1 c []) rfl (onlyStore_foldl _ _ (fun _ _ => by exact rfl) _)
theorem onlyStore_writeHome (s : State) (home base cell : Nat) (repl : BitVec 8) (new : List (Nat × Byte)) :
    OnlyStore s (s.writeHome home base cell repl new) := by
  have here : OnlyStore s (s.writeHere home base cell repl new) := by
    unfold State.writeHere
    dsimp only
    split
    · split <;> rfl
    · split
      · exact onlyStore_hostPut _ _ _ _
      · rfl
  unfold State.writeHome
  refine OnlyStore.trans ?_ (onlyStore_foldl _ _ (fun s c => onlyStore_putCells _ _ _) _)
  exact here.trans (by exact rfl)
theorem onlyStore_poisonHome (s : State) (home base cell : Nat) (repl : BitVec 8) (bits : BitVec 33) (o : W32) :
    OnlyStore s (s.poisonHome home base cell repl bits o) := by
  unfold State.poisonHome
  dsimp only
  split
  · rfl
  · split <;> split <;> rfl
theorem onlyStore_unitPart (s : State) (d pa : Nat) (repl : BitVec 8) (l : List Byte) : OnlyStore s (s.unitPart d pa repl l) := by
  unfold State.unitPart
  dsimp only
  split
  · split
    · exact (onlyStore_writeHome _ _ _ _ _ _).trans rfl
    · rfl
  · rfl
  · rfl
theorem onlyStore_unitGo (d : Nat) (repl : BitVec 8) (n pa : Nat) (l : List Byte) (s : State) :
    OnlyStore s (State.unitGo d repl n pa l s) := by
  induction n generalizing s pa l with
  | zero => rfl
  | succ n ih =>
    unfold State.unitGo
    split
    · rfl
    · exact (onlyStore_unitPart _ _ _ _ _).trans (ih _ _ _)
theorem onlyStore_unitWrite (s : State) (d pa : Nat) (l : List Byte) : OnlyStore s (s.unitWrite d pa l) := onlyStore_unitGo _ _ _ _ _ _
theorem onlyStore_ringPutOrDrop (s : State) (d : Nat) (r : Ring) (rec' : List Byte) : OnlyStore s (ringPutOrDrop s d r rec') := by
  unfold ringPutOrDrop
  split
  · exact (onlyStore_unitWrite _ _ _ _).trans (onlyStore_setCtlBits _ _ _ _ _ _)
  · exact onlyStore_setCtlBits _ _ _ _ _ _
/-- A trace record changes nothing but dies and memory. -/
theorem onlyStore_traceRec (s : State) (d : Nat) (name : List Byte) (type : Nat) (payload : List Byte) :
    OnlyStore s (traceRec s d name type payload) := by
  unfold traceRec
  dsimp only
  split
  · exact (onlyStore_modDie _ _ _).trans (onlyStore_ringPutOrDrop _ _ _ _)
  · exact OnlyStore.refl s
theorem onlyStore_errorRec (s : State) (d cls source pa : Nat) (name : List Byte) (unit action : Nat) :
    OnlyStore s (errorRec s d cls source pa name unit action).1 := by
  unfold errorRec
  dsimp only
  refine OnlyStore.trans ?_ (onlyStore_traceRec _ _ _ _ _)
  split
  · exact (onlyStore_modDie _ _ _).trans (onlyStore_ringPutOrDrop _ _ _ _)
  · exact onlyStore_modDie _ _ _
theorem onlyStore_freezeCluster (s : State) (d c pa : Nat) (name : List Byte) (wave : Nat) :
    OnlyStore s (freezeCluster s d c pa name wave) := by
  unfold freezeCluster
  dsimp only
  exact ((onlyStore_errorRec _ _ _ _ _ _ _ _).trans (onlyStore_setCtl _ _ _ _)).trans (onlyStore_modDie _ _ _)

/-! ### Write-backs, evictions and the home's service -/

theorem onlyStore_writeSide (s : State) (home base side : Nat) (repl : BitVec 8) (new : List (Nat × Byte)) :
    OnlyStore s (s.writeSide home base side repl new) := by
  unfold State.writeSide
  split
  · rfl
  · exact onlyStore_foldl _ _ (fun _ _ => onlyStore_unitGo _ _ _ _ _ _) _
theorem onlyStore_sideBack (s : State) (f : Frame) : OnlyStore s (sideBack s f) := by
  unfold sideBack
  dsimp only
  split
  · split
    · exact (onlyStore_unitGo _ _ _ _ _ _).trans (onlyStore_poisonHome _ _ _ _ _ _ _)
    · exact onlyStore_unitGo _ _ _ _ _ _
  · exact onlyStore_unitGo _ _ _ _ _ _
theorem onlyStore_writeBack (s : State) (f : Frame) : OnlyStore s (writeBack s f) := by
  unfold writeBack
  dsimp only
  split
  · rfl
  · have h := onlyStore_foldl (cellOf s f.base :: replicaCells f.home (cellOf s f.base) f.repl)
      (fun s c => { s with mem := msplice s.mem c 2048 f.payload }) (fun _ _ => by exact rfl) s
    split
    · exact h.trans (by exact rfl)
    · refine OnlyStore.trans ?_ (onlyStore_sideBack _ _)
      exact h.trans (by exact rfl)
theorem onlyStore_evict (s : State) (d : Nat) (f : Frame) : OnlyStore s (evict s d f) := by
  unfold evict
  dsimp only
  split
  · rfl
  · split
    · split <;> rfl
    · split
      · exact (OnlyStore.trans (b := dropAnnex s d f.tile) rfl (onlyStore_writeBack _ _)).trans rfl
      · rfl
theorem onlyStore_sendInv (s : State) (h : Nat) (x : TileId) (l : List Nat) : OnlyStore s (sendInv s h x l) :=
  onlyStore_foldl _ _ (fun _ _ => by exact rfl) _
theorem onlyStore_sendData (s : State) (src x : Nat) (y : TileId) (kind : Nat) (data : TileData) :
    OnlyStore s (sendData s src x y kind data) := rfl
theorem onlyStore_flushServed (s : State) (h : Nat) (x : TileId) : OnlyStore s (flushServed s h x) :=
  OnlyStore.trans (b := s.modCache h _) rfl (onlyStore_foldl _ _ (fun _ _ => by exact rfl) _)
theorem onlyStore_serveReq (s : State) (h : Nat) (f : Frame) (kind x : Nat) : OnlyStore s (serveReq s h f kind x) := by
  have inv : ∀ (s v : State) (y : TileId) (l : List Nat), OnlyStore s v → OnlyStore s (sendInv v h y l) :=
    fun _ _ _ _ e => e.trans (onlyStore_sendInv _ _ _ _)
  unfold serveReq
  dsimp only
  split
  all_goals
    repeat' split
    all_goals first
      | exact rfl
      | exact onlyStore_flushServed _ _ _
      | exact inv _ _ _ _ rfl
theorem onlyStore_settleHome (h : Nat) (x : TileId) (n : Nat) (s : State) : OnlyStore s (settleHome h x n s) := by
  induction n generalizing s with
  | zero => rfl
  | succ n ih =>
    have ih' : ∀ {v : State}, OnlyStore s v → OnlyStore s (settleHome h x n v) := fun e => e.trans (ih _)
    unfold settleHome
    dsimp only
    split
    · rfl
    · split
      · split
        · exact ih' rfl
        · rfl
      · split
        · exact ih' rfl
        · rfl
      · split
        · refine ih' ?_
          split
          · rfl
          · rfl
        · rfl
      · rfl
      · split
        · rfl
        · split
          · exact onlyStore_evict _ _ _
          · exact ih' rfl
      · split
        · rfl
        · split
          · rfl
          · exact ih' (OnlyStore.trans (onlyStore_modFrame _ _ _ _) (onlyStore_serveReq _ _ _ _ _))
theorem onlyStore_queueHome (s : State) (h : Nat) (x : TileId) (kind y : Nat) : OnlyStore s (queueHome s h x kind y) :=
  (onlyStore_modFrame _ _ _ _).trans (onlyStore_settleHome _ _ _ _)
theorem onlyStore_setPins (s : State) (d : Nat) (old new : List TileId) : OnlyStore s (setPins s d old new) :=
  (onlyStore_foldl _ _ (fun _ _ => by exact rfl) _).trans
    (onlyStore_foldl _ _ (fun _ _ => (onlyStore_modFrame _ _ _ _).trans (onlyStore_settleHome _ _ _ _)) _)

/-! ### Agents of a die -/

theorem onlyStore_spliceHome (s : State) (home base cell : Nat) (repl : BitVec 8) (lo n : Nat) (new : List (Nat × Byte)) :
    OnlyStore s (s.spliceHome home base cell repl lo n new) := by
  unfold State.spliceHome
  dsimp only
  generalize hu : (if (s.frameAt? home base).isSome then _ else s) = u
  have hu : OnlyStore s u := by rw [← hu]; split <;> rfl
  split
  · exact hu.trans (by exact rfl)
  · split
    · exact (hu.trans (onlyStore_hostPut _ _ _ _)).trans (by exact rfl)
    · exact hu.trans (by exact rfl)
theorem onlyStore_ownHost (s b : State) (q : FillReq) : OnlyStore s (ownHost s b q) := by
  unfold ownHost; split <;> rfl
theorem onlyStore_writePart (s : State) (d : Nat) (p : Placed) (n : Nat) (new : List (Nat × Byte)) :
    OnlyStore s (writePart s d p n new) := by
  unfold writePart
  dsimp only
  split
  · refine OnlyStore.trans (b := ownHost _ s p.req) ?_ (by exact rfl)
    refine OnlyStore.trans ?_ (onlyStore_ownHost _ _ _)
    exact (onlyStore_spliceHome _ _ _ _ _ _ _ _).trans (by exact rfl)
  · rfl
theorem onlyStore_sendFlit (s : State) (d : Nat) (l : List Byte) : OnlyStore s (sendFlit s d l) := by
  unfold sendFlit; split <;> rfl
theorem onlyStore_sendForeign (s : State) (d kind pkg : Nat) (l : List Byte) : OnlyStore s (sendForeign s d kind pkg l) := by
  unfold sendForeign
  dsimp only
  split
  · rfl
  · refine OnlyStore.trans ?_ (onlyStore_foldl _ _ (fun _ _ => onlyStore_sendFlit _ _ _) _)
    exact rfl
theorem onlyStore_sendAway (s : State) (d : Nat) (k : AccKind) (l : List Byte) (wave : Nat) (x : Away) :
    OnlyStore s (sendAway s d k l wave x) := by
  unfold sendAway
  split
  · dsimp only
    split
    · exact onlyStore_sendForeign _ _ _ _ _
    · exact (onlyStore_sendForeign _ _ _ _ _).trans (by exact rfl)
  · exact onlyStore_sendForeign _ _ _ _ _
theorem onlyStore_writeVirtual (who : Who) (va n : Nat) (new : List (Nat × Byte)) (s : State) :
    OnlyStore s (writeVirtual who va n new s) := by
  unfold writeVirtual
  refine onlyStore_foldl _ _ (fun s x => ?_) s
  dsimp only
  split
  · exact onlyStore_writePart _ _ _ _ _
  · exact onlyStore_sendAway _ _ _ _ _ _
  · exact onlyStore_sendAway _ _ _ _ _ _
  · rfl
theorem onlyStore_syncStopped (s : State) (key : Nat) : OnlyStore s (syncStopped s key) := by
  unfold syncStopped
  split
  · rfl
  · split
    · split
      · rfl
      · exact onlyStore_writeVirtual _ _ _ _ _
    · split
      · rfl
      · exact onlyStore_writeVirtual _ _ _ _ _
    · rfl

/-! ### Fills -/

theorem onlyStore_allocate (s : State) (d : Nat) (f : Frame) : OnlyStore s (allocate s d f).1 := by
  unfold allocate
  split
  · rfl
  · split
    · exact onlyStore_queueHome _ _ _ _ _
    · dsimp only
      split
      · exact (onlyStore_evict _ _ _).trans rfl
      · rfl
theorem onlyStore_fillMirror (s : State) (d : Nat) (tid : BitVec 20) : OnlyStore s (fillMirror s d tid) := by
  unfold fillMirror; split <;> rfl
theorem onlyStore_askHost (s : State) (q : FillReq) : OnlyStore s (askHost s q) := by
  unfold askHost; split <;> rfl
theorem onlyStore_completeFill {d : Nat} {q : FillReq} (h : completeFill s d q = .ok t) : OnlyStore s t := by
  unfold completeFill at h
  split at h
  · cases h
  · dsimp only at h
    have h0 := onlyStore_fillMirror s d q.tile.tid
    have h1 := h0.trans (onlyStore_askHost _ q)
    split at h
    · split at h
      · rename_i v hv; cases h
        have := onlyStore_allocate (askHost (fillMirror s d q.tile.tid) q) d
          (newFrame (fillMirror s d q.tile.tid) d q (if isHostCell (cellOf (fillMirror s d q.tile.tid) q.base) then .s else .e))
        rw [hv] at this
        exact h1.trans this
      · cases h
    · split at h
      · cases h
      · split at h
        · rename_i v hv; cases h
          have := onlyStore_allocate ((askHost (fillMirror s d q.tile.tid) q).sendClock q.home) d
            { newFrame (fillMirror s d q.tile.tid) d q .s with fillclk := fillClock ((fillMirror s d q.tile.tid).clock q.home) }
          rw [hv] at this
          exact (h1.trans (OnlyStore.trans (by exact rfl) this)).trans (by exact rfl)
        · cases h
theorem onlyStore_pcohTouch {d : Nat} {q : FillReq} {x : Bool} (h : pcohTouch s d q x = .ok t) : OnlyStore s t := by
  unfold pcohTouch at h
  dsimp only at h
  split at h
  · split at h
    · cases h
    · split at h <;> cases h
  · split at h
    all_goals first
      | (cases h; done)
      | (cases h; rfl)
      | (repeat' split at h) <;> first | (cases h; done) | (cases h; rfl)
theorem onlyStore_touch {d : Nat} {q : FillReq} {x : Bool} (h : touch s d q x = .ok t) : OnlyStore s t := by
  unfold touch at h
  split at h
  · exact onlyStore_pcohTouch h
  · split at h
    · split at h
      · split at h
        · rename_i v hv
          cases h
          exact (OnlyStore.trans (b := s.dropFrame d q.tile) rfl (onlyStore_completeFill hv)).trans rfl
        · rename_i r hr
          exact absurd h (hr t)
      · cases h; rfl
    · exact onlyStore_completeFill h
theorem onlyStore_bring {k : AccKind} {d : Nat} {p : Placed} (h : bring s k d p = .ok t) : OnlyStore s t := by
  unfold bring at h
  split at h
  · exact onlyStore_touch h
  · cases h; rfl
theorem onlyStore_cachePage (s : State) (d c x : Nat) (pid : W32) (va : W64) : OnlyStore s (cachePage s d c x pid va) := by
  unfold cachePage
  split
  · rfl
  · split <;> rfl
/-- What an access has brought in changes no wave. -/
theorem onlyStore_reaches {w : Wave} {k : AccKind} {va : W64} {n : Nat} {p : Placed} (h : Reaches s w k va n p u) : OnlyStore s u :=
  (onlyStore_cachePage _ _ _ _ _ _).trans (onlyStore_bring h.brought)

end Sys2Proof.Machine
end

