-- ==== Sys2Proof/Laws/Trap.lean ====
section
/-! SUPPORT. Laws of what a die writes on its own (records, rings) and of taking a trap. -/

namespace Sys2Proof.Machine

variable {s t : State} {w : Wave} {i : Instr}

/-! ### Trap entry -/

theorem mfind_mmod {β : Type} (m : List (Nat × β)) (k j : Nat) (f : β → β) :
    mfind (mmod m k f) j = if j = k then (mfind m k).map f else mfind m j := by
  unfold mmod
  cases h : mfind m k with
  | none => split <;> simp_all
  | some v => rw [mfind_mset]; rfl

/-- What clears a team out of the units of its cluster changes no team. -/
theorem teams_clearUnits (s : State) (d c k : Nat) : (clearUnits s d c k).teams = s.teams := by
  have kick : ∀ (s : State), (kickCopy (kickSeq s d c) d c).teams = s.teams := by
    intro s; unfold kickCopy kickSeq; dsimp only; split <;> split <;> rfl
  unfold clearUnits
  dsimp only
  rw [kick]
  exact (onlyStore_foldl _ _ (fun _ _ => onlyStore_setPins _ _ _ _) s).teams
/-- Releasing a team changes no other team; one that still runs ends with the status. -/
theorem releaseTeam_team (s : State) (k : Nat) (status : W16) (j : Nat) :
    (releaseTeam s k status).team? j = if j = k then (s.team? k).map fun t => if t.phase = .ended || t.phase = .done then t else
      { t with phase := .ended, status := status, banks := [], bars := [], accCfg := [], acc := [], accPoison := [], slots := [],
               store := [], fault := none } else s.team? j := by
  have kick : ∀ (s : State) (i : Instr) (d : Nat), (kickPlace (s.push i) d).teams = s.teams := by
    intro s i d; unfold kickPlace; dsimp only; split <;> rfl
  unfold releaseTeam
  cases h : s.team? k with
  | none => dsimp only; split
            · subst_vars; simpa using h
            · rfl
  | some t =>
    dsimp only [Option.map_some]
    by_cases hp : (decide (t.phase = .ended) || decide (t.phase = .done)) = true
    · rw [if_pos hp, if_pos hp]
      split
      · subst_vars; exact h
      · rfl
    · rw [if_neg hp, if_neg hp]
      unfold State.team?
      rw [kick]
      show mfind (mset (State.teams _) k _) j = _
      rw [mfind_mset]
      split
      · rfl
      · show mfind (clearUnits _ _ _ _).teams j = _
        rw [teams_clearUnits]
/-- Killing a team changes no other team. -/
theorem killTeam_other (s : State) (k : Nat) (status : W16) {j : Nat} (h : j ≠ k) : (killTeam s k status).team? j = s.team? j := by
  have hm : ∀ (s : State) (f : Team → Team), (s.modTeam k f).team? j = s.team? j := by
    intro s f; unfold State.team? State.modTeam; simp only [mfind_mmod, if_neg h]
  unfold killTeam
  dsimp only
  split
  · split
    · exact hm _ _
    · rw [hm, hm]
  · rw [releaseTeam_team, if_neg h, hm]
/-- Killing a team that still runs ends it with the status. -/
theorem killTeam_team (s : State) (k : Nat) (status : W16) {team : Team} (h : s.team? k = some team) (h1 : team.phase ≠ .ended)
    (h2 : team.phase ≠ .done) (h3 : team.phase ≠ .moving) :
    ∃ team', (killTeam s k status).team? k = some team' ∧ team'.phase = .ended ∧ team'.status = status ∧ team'.killed = true := by
  have ht : s.team k = team := by
    unfold State.team mget; unfold State.team? at h; rw [h]; rfl
  have e : (s.modTeam k fun t => { t with killed := true }).team? k = some { team with killed := true } := by
    unfold State.team? at *
    simp only [State.modTeam, mfind_mmod, if_true, h, Option.map_some]
  unfold killTeam
  dsimp only
  rw [ht, if_neg (by simp [h3]), releaseTeam_team, if_pos rfl, e, Option.map_some, if_neg (by simp [h1, h2])]
  exact ⟨_, rfl, rfl, rfl, rfl⟩
/-- A team has been killed with this status. -/
def Killed (s : State) (k : Nat) (status : W16) : Prop :=
  ∃ t, s.team? k = some t ∧ t.phase = .ended ∧ t.status = status ∧ t.killed = true
/-- It stays so, whichever team is killed next. -/
theorem killed_killTeam {k : Nat} {status : W16} (h : Killed s k status) (j : Nat) (st : W16) : Killed (killTeam s j st) k status := by
  obtain ⟨t, a, b, c, d⟩ := h
  by_cases hj : k = j
  · subst hj
    have ht : s.team k = t := by unfold State.team mget; unfold State.team? at a; rw [a]; rfl
    have e : (s.modTeam k fun t => { t with killed := true }).team? k = some { t with killed := true } := by
      unfold State.team? at *
      simp only [State.modTeam, mfind_mmod, if_true, a, Option.map_some]
    refine ⟨{ t with killed := true }, ?_, b, c, rfl⟩
    unfold killTeam
    dsimp only
    rw [ht, if_neg (by simp [b]), releaseTeam_team, if_pos rfl, e, Option.map_some, if_pos (by simp [b])]
  · exact ⟨t, (killTeam_other s j st hj).trans a, b, c, d⟩
theorem killed_foldl {α : Type} (l : List α) (f : State → α → State) {k : Nat} {status : W16}
    (hf : ∀ s a, Killed s k status → Killed (f s a) k status) {s : State} (h : Killed s k status) : Killed (l.foldl f s) k status := by
  induction l generalizing s with
  | nil => exact h
  | cons a l ih => exact ih (hf _ _ h)
/-- What a region's policy does leaves a team that has been killed so. -/
theorem killed_regionOutcome {k : Nat} {status : W16} (h : Killed s k status) (d : Nat) (l : Launch) :
    Killed (regionOutcome s d l) k status := by
  unfold regionOutcome
  dsimp only
  split
  · refine killed_foldl _ (fun s q => processSignal s d l.pid (some q) none) (fun _ _ e => e) ?_
    exact killed_foldl _ (fun s (t : Nat × Team) => killTeam s t.1 2) (fun _ _ e => killed_killTeam e _ _) h
  · exact killed_foldl _ _ (fun _ _ e => killed_killTeam e _ _) h
  · exact h
/-- An unhandled trap ends a team that still runs with STATUS 4. -/
theorem unhandled_team (s : State) (d k cause : Nat) (va : W64) {team : Team} (h : s.team? k = some team) (h1 : team.phase ≠ .ended)
    (h2 : team.phase ≠ .done) (h3 : team.phase ≠ .moving) : Killed (unhandled s d k cause va) k 4 := by
  have hk : Killed (killTeam s k 4) k 4 := killTeam_team s k 4 h h1 h2 h3
  unfold unhandled
  dsimp only
  split
  · refine killed_foldl _ _ (fun s e hs => ?_) hk
    split
    · exact hs
    · exact killed_regionOutcome hs _ _
  · exact hk

/-- Taking a trap does what R234 says. -/
theorem enterTrap_traps (h : s.wave? s.focus = some w) (x : Trap) : Traps s (enterTrap s s.focus x) w x := by
  unfold enterTrap
  rw [h]
  dsimp only
  constructor
  · intro h1 h2
    simp only [h1, h2, decide_false, Bool.or_self, Bool.false_eq_true, if_false]
    constructor
    · rw [(onlyStore_traceRec _ _ _ _ _).wave?]
      simp [trapped]
    · intro k hk
      rw [(onlyStore_traceRec _ _ _ _ _).wave?]
      simp [State.wave?, State.setWave, mfind_mset, hk]
  · intro h1 team ht hp1 hp2 hp3
    have : (w.c.intrap || decide (w.y.tvec = 0)) = true := by
      rcases h1 with h1 | h1 <;> simp [h1]
    simp only [this, if_true]
    rw [(onlyStore_traceRec _ _ _ _ _).team?]
    exact unhandled_team s _ _ _ _ ht hp1 hp2 hp3

/-- The trap of a scalar instruction. -/
theorem trapScalar_traps (h : s.wave? s.focus = some w) (i : Instr) (cause : Nat) (taddr : W64) :
    ∃ t, trapScalar s w i cause taddr = .next t ∧ ScalarTraps s t w i cause taddr := by
  refine ⟨_, rfl, ?_⟩
  have e : causeBits cause 0 true false 0 = BitVec.ofNat 64 (256 + cause) := by
    unfold causeBits; simp [Nat.add_comm]
  rw [e]
  exact enterTrap_traps h _

/-- The trap of a lane instruction that replays nothing. -/
theorem trapLane_traps (h : s.wave? s.focus = some w) (hu : w.c.unfin = 0) (i : Instr) (cause : Nat) (m : W32) (taddr : W64) :
    ∃ t, trapLane s w i cause m taddr = .next t ∧ LaneTraps s t w i cause m taddr := by
  refine ⟨_, rfl, ?_⟩
  unfold laneTrap
  have e : causeBits cause 0 false false 0 = BitVec.ofNat 64 cause := by
    unfold causeBits; simp
  have hm : (s.modWave s.focus fun w => if w.c.unfin ≠ 0 && w.unfinSplit = s.split then refill w else w) =
      s.setWave s.focus w := by
    unfold State.modWave State.setWave mmod
    have h' : mfind s.waves s.focus = some w := h
    rw [h']; simp [hu]
  dsimp only
  rw [hm, e]
  have hw : (s.setWave s.focus w).wave? (s.setWave s.focus w).focus = some w := by simp
  have := enterTrap_traps hw { tcause := BitVec.ofNat 64 cause, tspc := w.c.pc
                               tlpc := w.y.lanebase + (getSplit w s.split).lpc.zeroExtend 64, tamask := (getSplit w s.split).mask, tfmask := m, inst := instBits i, taddr := taddr, split := s.split }
  constructor
  · intro h1 h2
    obtain ⟨a, b⟩ := this.enters h1 h2
    refine ⟨a, fun k hk => (b k hk).trans ?_⟩
    simp [State.wave?, State.setWave, mfind_mset, hk]
  · exact this.kills

end Sys2Proof.Machine
end

