-- ==== Sys2Proof/Laws/Access.lean ====
section
/-! SUPPORT. Laws of accesses to storage: what a scalar access does when it meets storage, what its bookkeeping leaves of the
stored bytes, the landing of a load, and the store at the home of a tile. -/

namespace Sys2Proof.Machine

variable {s t u : State} {w : Wave} {i : Instr}

/-! ### Frames and cells -/

/-- Frames changed in ways that keep base and payload hold the same bytes. -/
theorem frameBytes_map (s t : State) (e : Nat) (g : Frame → Frame) (hg : ∀ f, (g f).base = f.base ∧ (g f).payload = f.payload)
    (h : t.frames e = (s.frames e).map g) (b k : Nat) : frameBytes t e b k = frameBytes s e b k := by
  unfold frameBytes
  rw [h]
  induction s.frames e with
  | nil => rfl
  | cons f l ih =>
    simp only [List.map_cons, List.filter_cons, (hg f).1]
    split
    · simp only [List.map_cons, (hg f).2, ih]
    · exact ih

/-- Nothing stored has changed. -/
def SameBytes (u t : State) : Prop := t.mem = u.mem ∧ ∀ e b k, frameBytes t e b k = frameBytes u e b k
theorem SameBytes.refl (s : State) : SameBytes s s := ⟨rfl, fun _ _ _ => rfl⟩
theorem SameBytes.trans {a b c : State} (h : SameBytes a b) (g : SameBytes b c) : SameBytes a c :=
  ⟨g.1.trans h.1, fun e x k => (g.2 e x k).trans (h.2 e x k)⟩
theorem SameBytes.frame (h : SameBytes u t) (base lo n : Nat) (cells : List Nat) : StoreFrame u t base lo n cells :=
  ⟨fun c _ => by simp only [State.cellByte, h.1], fun e b k _ => h.2 e b k⟩
theorem sameBytes_frames (hm : t.mem = u.mem) (h : ∀ e, t.frames e = u.frames e) : SameBytes u t :=
  ⟨hm, fun e b k => by unfold frameBytes; rw [h]⟩
theorem frames_modDie_other (s : State) (d : Nat) (f : Die → Die) (hf : ∀ x, (f x).cache.frames = x.cache.frames) (e : Nat) :
    (s.modDie d f).frames e = s.frames e := by
  unfold State.frames
  rw [die_modDie]
  split
  · subst_vars; exact hf _
  · rfl
theorem sameBytes_modDie (s : State) (d : Nat) (f : Die → Die) (hf : ∀ x, (f x).cache.frames = x.cache.frames) :
    SameBytes s (s.modDie d f) := sameBytes_frames rfl (frames_modDie_other s d f hf)
theorem sameBytes_setWave (s : State) (k : Nat) (w : Wave) : SameBytes s (s.setWave k w) := sameBytes_frames rfl fun _ => rfl
theorem sameBytes_push (s : State) (i : Instr) : SameBytes s (s.push i) := sameBytes_frames rfl fun _ => rfl
theorem sameBytes_modFrame (s : State) (d : Nat) (x : TileId) (g : Frame → Frame)
    (hg : ∀ f, (g f).base = f.base ∧ (g f).payload = f.payload) : SameBytes s (s.modFrame d x g) := by
  refine ⟨rfl, fun e b k => ?_⟩
  by_cases he : e = d
  · subst he
    apply frameBytes_map s _ e (fun f => if f.tile = x && !f.wb then g f else f)
    · intro f; split
      · exact hg f
      · exact ⟨rfl, rfl⟩
    · rw [frames_modFrame, if_pos rfl]
  · unfold frameBytes; rw [frames_modFrame, if_neg he]
theorem sameBytes_nearDrop (s : State) (d c : Nat) (x : TileId) : SameBytes s (nearDrop s d c x) :=
  sameBytes_modFrame s d x (fun f => { f with sharers := f.sharers &&& ~~~(BitVec.twoPow 64 c), ncown := false }) fun _ => ⟨rfl, rfl⟩
theorem sameBytes_nearMakeRoom (d c n : Nat) (s : State) : SameBytes s (nearMakeRoom d c n s) := by
  induction n generalizing s with
  | zero => exact .refl s
  | succ n ih =>
    unfold nearMakeRoom
    split
    · exact (sameBytes_nearDrop _ _ _ _).trans (ih _)
    · exact .refl s
theorem sameBytes_nearTouch (s : State) (d c : Nat) (x : TileId) (own : Bool) : SameBytes s (nearTouch s d c x own) := by
  have h : ∀ (s : State) (g : Frame → Frame), (∀ f, (g f).base = f.base ∧ (g f).payload = f.payload) → SameBytes s (s.modFrame d x g) :=
    fun s g hg => sameBytes_modFrame s d x g hg
  unfold nearTouch
  dsimp only
  split
  · exact h _ _ fun f => by split <;> exact ⟨rfl, rfl⟩
  · exact (sameBytes_nearMakeRoom _ _ _ _).trans (h _ _ fun f => by split <;> exact ⟨rfl, rfl⟩)
/-- Counting an access changes the count of the sampling unit, and may ask for a sample. -/
theorem countAccess_cases (s : State) (who : Who) (va : W64) (kind launch : Nat) (p : Placed) :
    countAccess s who va kind launch p = s ∨
    ∃ c, countAccess s who va kind launch p = s.modDie who.d (fun x => { x with attach := { x.attach with smpCount := c } }) ∨
      ∃ q, countAccess s who va kind launch p =
        (s.modDie who.d fun x => { x with attach := { x.attach with smpCount := c } }).push (.accessSample (Fin.ofNat 8 who.d) q) := by
  unfold countAccess
  by_cases h : (decide (s.ctlBits who.d 0x5800 0 0 = 0) || (decide (8 ≤ kind) && decide (kind ≠ 13))) = true
  · exact .inl (if_pos h)
  · rw [if_neg h]
    dsimp only
    by_cases h' : sampleWeight p.leaf < if (s.die who.d).attach.smpCount = 0 then 2 ^ (min 10 (s.ctlBits who.d 0x5800 4 1) + 6)
      else (s.die who.d).attach.smpCount
    · rw [if_pos h']; exact .inr ⟨_, .inl rfl⟩
    · rw [if_neg h']; exact .inr ⟨_, .inr ⟨_, rfl⟩⟩
theorem sameBytes_countAccess (s : State) (who : Who) (va : W64) (kind launch : Nat) (p : Placed) :
    SameBytes s (countAccess s who va kind launch p) := by
  rcases countAccess_cases s who va kind launch p with h | ⟨c, h | ⟨q, h⟩⟩ <;> rw [h]
  · exact SameBytes.refl s
  · exact sameBytes_modDie _ _ _ (by intro _; rfl)
  · exact (sameBytes_modDie _ _ _ (by intro _; rfl)).trans (sameBytes_push _ _)
theorem countAccess_waves (s : State) (who : Who) (va : W64) (kind launch : Nat) (p : Placed) :
    (countAccess s who va kind launch p).waves = s.waves ∧ (countAccess s who va kind launch p).focus = s.focus := by
  rcases countAccess_cases s who va kind launch p with h | ⟨c, h | ⟨q, h⟩⟩ <;> rw [h] <;> exact ⟨rfl, rfl⟩

theorem sameView_countAccess (s : State) (who : Who) (va : W64) (kind launch : Nat) (p : Placed) :
    SameView s (countAccess s who va kind launch p) := by
  rcases countAccess_cases s who va kind launch p with h | ⟨c, h | ⟨q, h⟩⟩ <;> rw [h]
  · exact .refl s
  · exact sameView_modDie _ _ _ (by intro _; exact ⟨rfl, rfl⟩)
  · exact (sameView_modDie _ _ _ (by intro _; exact ⟨rfl, rfl⟩)).trans (sameView_push _ _)
/-- An access that the near cache serves is not counted (R59). -/
theorem countMiss_cases (s : State) (who : Who) (va : W64) (acc launch : Nat) (k : AccKind) (p : Placed) :
    countMiss s who va acc launch k p = s ∨ countMiss s who va acc launch k p = countAccess s who va acc launch p := by
  unfold countMiss; split
  · exact .inl rfl
  · exact .inr rfl
theorem onlyStore_nearTouch (s : State) (d c : Nat) (x : TileId) (own : Bool) : OnlyStore s (nearTouch s d c x own) := by
  have room : ∀ (n : Nat) (s : State), OnlyStore s (nearMakeRoom d c n s) := by
    intro n
    induction n with
    | zero => exact fun _ => rfl
    | succ n ih =>
      intro s
      unfold nearMakeRoom
      split
      · exact (onlyStore_modFrame _ _ _ _).trans (ih _)
      · rfl
  unfold nearTouch
  dsimp only
  split
  · rfl
  · exact (room _ _).trans rfl

/-! ### A scalar access -/

section
variable (u : State) (w : Wave) (who : Who) (va : W64) (acc : Nat) (k : AccKind) (p : Placed)

theorem sameView_arrived : SameView u (arrived u w who va acc k p) := by
  have h : SameView u (countMiss u who va acc w.launch k p) := by
    rcases countMiss_cases u who va acc w.launch k p with h | h <;> rw [h]
    · exact .refl u
    · exact sameView_countAccess _ _ _ _ _ _
  unfold arrived
  dsimp only
  split
  · exact h.trans (sameView_nearTouch _ _ _ _ _)
  · exact h
theorem sameBytes_arrived : SameBytes u (arrived u w who va acc k p) := by
  have h : SameBytes u (countMiss u who va acc w.launch k p) := by
    rcases countMiss_cases u who va acc w.launch k p with h | h <;> rw [h]
    · exact .refl u
    · exact sameBytes_countAccess _ _ _ _ _ _
  unfold arrived
  dsimp only
  split
  · exact h.trans (sameBytes_nearTouch _ _ _ _ _)
  · exact h
theorem arrived_waves : (arrived u w who va acc k p).waves = u.waves ∧ (arrived u w who va acc k p).focus = u.focus := by
  have h : (countMiss u who va acc w.launch k p).waves = u.waves ∧ (countMiss u who va acc w.launch k p).focus = u.focus := by
    rcases countMiss_cases u who va acc w.launch k p with h | h <;> rw [h]
    · exact ⟨rfl, rfl⟩
    · exact countAccess_waves _ _ _ _ _ _
  unfold arrived
  dsimp only
  split
  · have := onlyStore_nearTouch (countMiss u who va acc w.launch k p) who.d who.cluster p.req.tile false
    exact ⟨this.waves.trans h.1, this.focus.trans h.2⟩
  · exact h
end

/-- Which atomics are pending is not changed by the translation caches. -/
theorem atomicPending_cachePage (s : State) (d c x : Nat) (pid : W32) (va : W64) (e wave base o n : Nat) :
    atomicPending (cachePage s d c x pid va) e wave base o n = atomicPending s e wave base o n := by
  have h : ∀ f, atomicPending (s.modTr d f) e wave base o n = atomicPending s e wave base o n := by
    intro f
    unfold atomicPending State.modTr
    rw [die_modDie]
    split
    · subst_vars; rfl
    · rfl
  unfold cachePage
  split
  · rfl
  · split
    · exact h _
    · rfl
/-- A scalar access that meets storage is performed there. -/
theorem scalarMem_run {k : AccKind} {va : W64} {n acc : Nat} {p : Placed} {act : ScalarDo} (hq : Quiet s w)
    (h : Reaches s w k va n p u) :
    scalarMem i k va n acc s w act = act.here (arrived u w (waveWho s w) va acc k p) (waveWho s w) p w := by
  have hc : accessPoison (countMiss u (waveWho s w) va acc w.launch k p) k (waveWho s w).d p n = none := by
    have hv : SameView u (countMiss u (waveWho s w) va acc w.launch k p) := by
      rcases countMiss_cases u (waveWho s w) va acc w.launch k p with h | h <;> rw [h]
      · exact .refl u
      · exact sameView_countAccess _ _ _ _ _ _
    rw [hv.accessPoison, h.clean]
  have hp : (decide (k = .load) && atomicPending (cachePage s (waveWho s w).d (waveWho s w).cluster (waveWho s w).pindex (waveWho s w).pid va)
      (waveWho s w).d s.focus p.req.base (p.pa - p.req.base) n) = false := by
    rw [atomicPending_cachePage]
    by_cases hk : k = .load
    · simp [h.after hk]
    · simp [hk]
  have hf : (cachePage s (waveWho s w).d (waveWho s w).cluster (waveWho s w).pindex (waveWho s w).pid va).focus = s.focus :=
    (onlyStore_cachePage _ _ _ _ _ _).focus
  unfold scalarMem
  dsimp only
  rw [h.placed]
  simp only [h.ordered, h.good, Bool.false_eq_true, if_false, h.whole, ne_eq, not_true_eq_false, scalarWatch_quiet hq, h.outside, hf, hp,
    h.brought, hc]
  rfl

/-! ### The landing of a load (R218) -/

theorem emptyS_setEmptyS (w : Wave) (d r : BitVec 6) :
    emptyS (setEmptyS w d) r = (emptyS w r || decide (r = d ∧ d ≠ 0)) := by
  unfold setEmptyS
  split
  · rename_i h; simp [h]
  · rename_i h
    unfold emptyS
    simp only
    rw [getLsbD_or_twoPow _ _ _ r.isLt]
    have : d.toNat = r.toNat ↔ r = d := ⟨fun e => (BitVec.eq_of_toNat_eq e).symm, fun e => e ▸ rfl⟩
    have h' : ¬ d = 0#6 := h
    simp [this, h']
theorem emptyS_setFullS (w : Wave) (d r : BitVec 6) : emptyS (setFullS w d.toNat) r = (emptyS w r && !decide (r = d)) := by
  unfold setFullS emptyS
  simp only
  rw [getLsbD_and_not_twoPow _ _ _ r.isLt]
  have : d.toNat = r.toNat ↔ r = d := ⟨fun e => (BitVec.eq_of_toNat_eq e).symm, fun e => e ▸ rfl⟩
  simp [this]
theorem stepPc_eq (w : Wave) (n : Nat) :
    stepPc w n = { w with c := { w.c with pc := w.c.pc + BitVec.ofNat 64 n, bksup := w.c.bksup &&& ~~~(supMask w 7) } } := by
  rw [stepPc, unsuppress_eq]
theorem setEmptyS_eq (w : Wave) (d : BitVec 6) : setEmptyS w d = { w with r := { w.r with sEmpty := (setEmptyS w d).r.sEmpty } } := by
  unfold setEmptyS; split <;> rfl

/-- A landing with nothing left to wait for is applied; what else changes is no wave. -/
theorem exec_loadResultLand {key n : Nat} {l : Landing} (h : s.wave? key = some w) (hl : mfind w.landings n = some l)
    (hn : l.need = 0) : ∃ t, exec (.loadResultLand key n) s = .next t ∧ OnlyStore (s.setWave key (landNow w n l)) t := by
  refine ⟨syncStopped (s.setWave key (landNow w n l)) key, ?_, onlyStore_syncStopped _ _⟩
  show execLoadResultLand key n s = _
  unfold execLoadResultLand
  simp [h, hl, hn]
/-- The landing of a scalar result. -/
theorem landNow_scalar (w : Wave) (n : Nat) (d : BitVec 6) (v : W64) (hd : d ≠ 0) :
    let w' := landNow w n { scalar := some (d, v), fullS := [d.toNat] }
    sreg w' d = v ∧ emptyS w' d = false ∧ ∀ r, r ≠ d → sreg w' r = sreg w r := by
  have hn : ∀ l : List (Nat × Landing), l.find? (fun p => p.2.regs.any fun r => ([] : List Nat).contains r) = none := by
    intro l; rw [List.find?_eq_none]; intro x _; simp
  unfold landNow
  dsimp only
  rw [hn]
  have hc : ∀ u : Wave, cleanWritten u [] = u := fun u => by unfold cleanWritten; simp
  unfold applyLanding
  simp only [List.foldl_nil, List.foldl_cons, List.map_nil, hc]
  have e : ∀ (u : Wave) (m : List (Nat × Byte)) (r : BitVec 6),
      sreg (setFullS { u with r := { u.r with side := m } } d.toNat) r = sreg u r := fun _ _ _ => rfl
  refine ⟨?_, ?_, fun r hr => ?_⟩
  · rw [e, sreg_setS, if_pos ⟨rfl, hd⟩]
  · rw [emptyS_setFullS]; simp
  · rw [e, sreg_setS, if_neg (fun h => hr h.1.symm)]; rfl

/-- A scalar load that completes: its result is on its way. -/
theorem landScalar_lands (s : State) (w : Wave) (d : BitVec 6) (v : W64) (n : Nat) (hd : emptyS w d = false) :
    ∃ t, landScalar s w d v n = .next t ∧ ScalarLands t s.focus w d v (w.c.pc + BitVec.ofNat 64 n) ∧ SameBytes s t ∧
      ∀ k, k ≠ s.focus → t.wave? k = s.wave? k := by
  unfold landScalar
  by_cases h : d = 0
  · rw [if_pos h]
    refine ⟨_, rfl, ⟨⟨_, wave_setWave_same .., ?_⟩, fun e => absurd h e⟩, sameBytes_setWave _ _ _, fun k hk => ?_⟩
    · rw [stepPc_eq]; subst h; exact ⟨rfl, fun _ => rfl, fun r => by simp [emptyS], rfl, rfl, rfl⟩
    · simp [State.wave?, State.setWave, mfind_mset, hk]
  · rw [if_neg h]
    have hw : (s.setWave s.focus (stepPc (setEmptyS w d) n)).wave? s.focus = some (stepPc (setEmptyS w d) n) := wave_setWave_same ..
    have hl : (stepPc (setEmptyS w d) n).landings = w.landings ∧ (stepPc (setEmptyS w d) n).nextLanding = w.nextLanding := by
      rw [stepPc_eq, setEmptyS_eq]; exact ⟨rfl, rfl⟩
    refine ⟨_, rfl, ?_⟩
    unfold addLanding
    rw [hw]
    dsimp only
    rw [if_pos rfl, hl.1, hl.2]
    refine ⟨⟨⟨_, wave_setWave_same .., ?_⟩, fun _ => ⟨by simp, ?_⟩⟩, ?_, fun k hk => ?_⟩
    · have he := emptyS_setEmptyS w d
      rw [stepPc_eq]
      rw [setEmptyS_eq] at he ⊢
      exact ⟨rfl, fun _ => rfl, he, rfl, rfl, rfl⟩
    · obtain ⟨t, ht, hs⟩ := exec_loadResultLand (w := { stepPc (setEmptyS w d) n with
          landings := mset w.landings w.nextLanding { scalar := some (d, v), fullS := [d.toNat] }, nextLanding := w.nextLanding + 1 })
          (s := (State.setWave (s.setWave s.focus (stepPc (setEmptyS w d) n)) s.focus { stepPc (setEmptyS w d) n with
            landings := mset w.landings w.nextLanding { scalar := some (d, v), fullS := [d.toNat] }, nextLanding := w.nextLanding + 1 }).push
              (.loadResultLand s.focus w.nextLanding))
          (key := s.focus) (n := w.nextLanding) (wave_setWave_same ..) (mfind_mset_same ..) rfl
      refine ⟨t, ht, _, (hs.wave? _).trans (wave_setWave_same ..), ?_⟩
      obtain ⟨a, b, c⟩ := landNow_scalar { stepPc (setEmptyS w d) n with
          landings := mset w.landings w.nextLanding { scalar := some (d, v), fullS := [d.toNat] }, nextLanding := w.nextLanding + 1 }
          w.nextLanding d v h
      refine ⟨a, b, fun r hr => (c r hr).trans ?_⟩
      rw [stepPc_eq, setEmptyS_eq]; rfl
    · exact ((sameBytes_setWave _ _ _).trans (sameBytes_setWave _ _ _)).trans (sameBytes_push _ _)
    · simp [State.wave?, State.setWave, State.push, mfind_mset, hk]

end Sys2Proof.Machine
end

