-- ==== Sys2Proof/Laws/Event.lean ====
section
/-! SUPPORT. Laws of the words that statements about events use: fields of control registers, and what an event leaves. -/

namespace Sys2Proof

open Machine

theorem Fields.refl (s : State) (d : Nat) : Fields s s d [] := ⟨by simp, fun _ _ _ _ _ => rfl⟩
/-- One more field is set, apart from those before it. -/
theorem Fields.set {s t : State} {d : Nat} {l : List (Nat × Nat × Nat × Nat)} (f : Fields s t d l) (off : Nat) {hi lo : Nat} (v : Nat)
    (h : hi < 64) (hl : lo ≤ hi) (hw : ∀ p ∈ l, p.2.2.1 ≤ p.2.1) (hd : ∀ p ∈ l, p.1 ≠ off ∨ p.2.1 < lo ∨ hi < p.2.2.1) :
    Fields s (t.setCtlBits d off hi lo v) d (l ++ [(off, hi, lo, v % 2 ^ (hi + 1 - lo))]) := by
  constructor
  · intro p hp
    rcases List.mem_append.1 hp with hp | hp
    · rw [ctlBits_setCtlBits_ne t d off v d p.1 p.2.1 p.2.2.1 h hl (hw p hp) (.inr (by rcases hd p hp with a | a | a <;> tauto))]
      exact f.now p hp
    · rw [List.mem_singleton.1 hp]; exact ctlBits_setCtlBits_same t d off v h hl
  · intro o a b hab hn
    have hm := hn (off, hi, lo, v % 2 ^ (hi + 1 - lo)) (by simp)
    rw [ctlBits_setCtlBits_ne t d off v d o a b h hl hab (.inr (by rcases hm with m | m | m <;> [left; (right; left); (right; right)] <;>
      first | exact fun e => m e.symm | exact m))]
    exact f.kept o a b hab fun p hp => hn p (List.mem_append.2 (.inl hp))
/-- What reads no control register of the die keeps the fields. -/
theorem Fields.of_ctl {s t u : State} {d : Nat} {l : List (Nat × Nat × Nat × Nat)} (f : Fields s t d l)
    (h : ∀ off, u.ctl d off = t.ctl d off) : Fields s u d l := by
  constructor
  · intro p hp; unfold State.ctlBits; rw [h]; exact f.now p hp
  · intro o a b hab hn; unfold State.ctlBits; rw [h]; exact f.kept o a b hab hn

theorem DieActs.refl (s : State) (d : Nat) : DieActs s s d (s.die d) [] [] := ⟨rfl, fun _ _ => rfl, by simp⟩
theorem DieActs.modDie {s t : State} {d : Nat} {x : Die} {l : List Instr} {o : List Outgoing} (h : DieActs s t d x l o) (f : Die → Die) :
    DieActs s (t.modDie d f) d (f x) l o := by
  refine ⟨by rw [die_modDie_same, h.die], fun e he => by rw [die_modDie_ne t f he, h.others e he], ?_⟩
  conv_lhs => rw [h.rest]
  rfl
theorem DieActs.setCtl {s t : State} {d : Nat} {x : Die} {l : List Instr} {o : List Outgoing} (h : DieActs s t d x l o) (off : Nat)
    (v : W64) : DieActs s (t.setCtl d off v) d { x with ctl := ((t.setCtl d off v).die d).ctl } l o := by
  have := h.modDie fun x => { x with ctl := mset x.ctl off v }
  rw [State.setCtl, die_modDie_same, h.die]; exact this
theorem DieActs.setCtlBits {s t : State} {d : Nat} {x : Die} {l : List Instr} {o : List Outgoing} (h : DieActs s t d x l o)
    (off hi lo v : Nat) :
    DieActs s (t.setCtlBits d off hi lo v) d { x with ctl := ((t.setCtlBits d off hi lo v).die d).ctl } l o := h.setCtl off _
theorem DieActs.push {s t : State} {d : Nat} {x : Die} {l : List Instr} {o : List Outgoing} (h : DieActs s t d x l o) (i : Instr) :
    DieActs s (t.push i) d x (l ++ [i]) o := by
  refine ⟨h.die, h.others, ?_⟩
  conv_lhs => rw [h.rest]
  simp [State.push]

end Sys2Proof
end

