-- ==== Sys2Proof/Laws/Store.lean ====
section
/-! SUPPORT. Laws of stores: a write at the home of a tile stores its bytes and nothing else. -/

namespace Sys2Proof.Machine

variable {s u : State}

/-! ### A store at the home of its tile -/

theorem atOffsets_mem {lo : Nat} {l : List Byte} {q : Nat × Byte} (h : q ∈ atOffsets lo l) :
    lo ≤ q.1 ∧ q.1 < lo + l.length ∧ l.getD (q.1 - lo) 0 = q.2 := by
  induction l generalizing lo with
  | nil => simp [atOffsets] at h
  | cons b l ih =>
    simp only [atOffsets, List.mem_cons] at h
    rcases h with rfl | h
    · simp
    · obtain ⟨a, b', c⟩ := ih h
      refine ⟨by omega, by simp only [List.length_cons]; omega, ?_⟩
      rw [show q.1 - lo = (q.1 - (lo + 1)) + 1 by omega, List.getD_cons_succ, c]
theorem mem_atOffsets {lo k : Nat} {l : List Byte} (h : k < l.length) : (lo + k, l.getD k 0) ∈ atOffsets lo l := by
  induction l generalizing lo k with
  | nil => simp at h
  | cons b l ih =>
    cases k with
    | zero => simp [atOffsets]
    | succ k =>
      simp only [List.length_cons] at h
      have := ih (lo := lo + 1) (k := k) (by omega)
      simp only [atOffsets, List.mem_cons, List.getD_cons_succ]
      right; rwa [show lo + 1 + k = lo + (k + 1) by omega] at this
theorem payPart_atOffsets {lo : Nat} {l : List Byte} (h : lo + l.length ≤ 2048) : payPart (atOffsets lo l) = atOffsets lo l := by
  unfold payPart
  rw [List.filter_eq_self]
  intro q hq
  have := atOffsets_mem hq
  simp only [decide_eq_true_eq]; omega
theorem sidePart_atOffsets {lo : Nat} {l : List Byte} (h : lo + l.length ≤ 2048) : sidePart (atOffsets lo l) = [] := by
  unfold sidePart
  rw [List.filterMap_eq_nil_iff]
  intro q hq
  have := atOffsets_mem hq
  rw [if_neg (by omega)]

/-- Writing a list of bytes at rising offsets: each offset reads its byte, others are as before. -/
theorem mget_putBytes (c lo : Nat) (l : List Byte) (m : List (Nat × Byte)) (k : Nat) :
    mget 0 ((atOffsets lo l).foldl (fun m p => mput 0 m (c + p.1) p.2) m) k =
      if c + lo ≤ k ∧ k < c + lo + l.length then l.getD (k - c - lo) 0 else mget 0 m k := by
  induction l generalizing lo m with
  | nil => simp only [atOffsets, List.foldl_nil, List.length_nil]; rw [if_neg (by omega)]
  | cons b l ih =>
    simp only [atOffsets, List.foldl_cons, List.length_cons]
    rw [ih, mget_mput]
    by_cases h : k = c + lo
    · subst h
      rw [if_neg (by omega), if_pos rfl, if_pos (by omega)]
      simp
    · by_cases h' : c + (lo + 1) ≤ k ∧ k < c + (lo + 1) + l.length
      · rw [if_pos h', if_pos (by omega), show k - c - lo = (k - c - (lo + 1)) + 1 by omega, List.getD_cons_succ]
      · rw [if_neg h', if_neg h, if_neg (by omega)]
theorem cellByte_putCells (s : State) (c lo : Nat) (l : List Byte) (k : Nat) :
    (s.putCells c (atOffsets lo l)).cellByte k =
      if c + lo ≤ k ∧ k < c + lo + l.length then l.getD (k - c - lo) 0 else s.cellByte k := mget_putBytes c lo l s.mem k
theorem putBytes_atOffsets (lo : Nat) (l : List Byte) (m : List (Nat × Byte)) (k : Nat) :
    mget 0 (putBytes m (atOffsets lo l)) k = if lo ≤ k ∧ k < lo + l.length then l.getD (k - lo) 0 else mget 0 m k := by
  have := mget_putBytes 0 lo l m k
  simp only [Nat.zero_add, Nat.sub_zero] at this
  exact this

/-- A list of replica writes: cells outside them stay, and a written tile keeps its bytes. -/
theorem cellByte_foldl_putCells (cs : List Nat) (s : State) (lo : Nat) (l : List Byte) (k : Nat) :
    (∀ x ∈ cs, k < x + lo ∨ x + lo + l.length ≤ k) →
    (cs.foldl (fun s c => s.putCells c (atOffsets lo l)) s).cellByte k = s.cellByte k := by
  induction cs generalizing s with
  | nil => intro _; rfl
  | cons c cs ih =>
    intro h
    rw [List.foldl_cons, ih _ (fun x hx => h x (List.mem_cons_of_mem _ hx)), cellByte_putCells, if_neg]
    have := h c List.mem_cons_self; omega
theorem cellByte_foldl_keep (cs : List Nat) (s : State) (lo : Nat) (l : List Byte) (c k : Nat) (hk : k < l.length)
    (hl : lo + l.length ≤ 2048) (hc : c % 2048 = 0) (hcs : ∀ x ∈ cs, x % 2048 = 0) (h : s.cellByte (c + lo + k) = l.getD k 0) :
    (cs.foldl (fun s c => s.putCells c (atOffsets lo l)) s).cellByte (c + lo + k) = l.getD k 0 := by
  induction cs generalizing s with
  | nil => exact h
  | cons x cs ih =>
    rw [List.foldl_cons]
    refine ih _ (fun y hy => hcs y (List.mem_cons_of_mem _ hy)) ?_
    have hx := hcs x List.mem_cons_self
    rw [cellByte_putCells]
    by_cases e : x + lo ≤ c + lo + k ∧ c + lo + k < x + lo + l.length
    · rw [if_pos e]
      have : x = c := by omega
      subst this
      congr 1; omega
    · rw [if_neg e, h]
theorem frames_foldl_putCells (cs : List Nat) (s : State) (new : List (Nat × Byte)) (e : Nat) :
    (cs.foldl (fun s c => s.putCells c new) s).frames e = s.frames e := by
  induction cs generalizing s with
  | nil => rfl
  | cons c cs ih => rw [List.foldl_cons, ih]; rfl

theorem frameBytes_mem {b k : Nat} {x : Byte} {e : Nat} (h : x ∈ frameBytes s e b k) : ∃ f ∈ s.frames e, f.base = b ∧ mget 0 f.payload k = x := by
  unfold frameBytes at h
  obtain ⟨f, hf, rfl⟩ := List.mem_map.1 h
  have := List.mem_filter.1 hf
  exact ⟨f, this.1, by simpa using this.2, rfl⟩

/-- Frames changed in ways that keep the base, and the payload at k of those at b. -/
theorem frameBytes_map' (s t : State) (e b k : Nat) (g : Frame → Frame) (h : t.frames e = (s.frames e).map g)
    (hg : ∀ f, (g f).base = f.base ∧ (f.base = b → mget 0 (g f).payload k = mget 0 f.payload k)) :
    frameBytes t e b k = frameBytes s e b k := by
  unfold frameBytes
  rw [h]
  induction s.frames e with
  | nil => rfl
  | cons f l ih =>
    simp only [List.map_cons, List.filter_cons, (hg f).1]
    split
    · rename_i hb
      simp only [List.map_cons, (hg f).2 (by simpa using hb), ih]
    · exact ih

/-- What a write at the home does to one frame of its tile. -/
def writeFrame (base lo : Nat) (repl : BitVec 8) (l : List Byte) (f : Frame) : Frame :=
  let f' := if f.base = base && !f.nq4 && hasData f then
    { f with payload := putBytes f.payload (payPart (atOffsets lo l)), side := putBytes f.side (sidePart (atOffsets lo l)), dirty := f.dirty || decide (repl = 0) } else f
  if f'.base = base && !f'.nq4 then { f' with poison := clearBits f'.poison (clearedBits (atOffsets lo l)) } else f'
theorem writeFrame_base (base lo : Nat) (repl : BitVec 8) (l : List Byte) (f : Frame) :
    (writeFrame base lo repl l f).base = f.base ∧ (writeFrame base lo repl l f).nq4 = f.nq4 ∧
      hasData (writeFrame base lo repl l f) = hasData f := by
  unfold writeFrame; dsimp only; split_ifs <;> exact ⟨rfl, rfl, rfl⟩
theorem writeFrame_payload {base lo : Nat} {repl : BitVec 8} {l : List Byte} (hl : lo + l.length ≤ 2048) (f : Frame) :
    (writeFrame base lo repl l f).payload =
      if f.base = base && !f.nq4 && hasData f then putBytes f.payload (atOffsets lo l) else f.payload := by
  unfold writeFrame; dsimp only; rw [payPart_atOffsets hl]; split_ifs <;> rfl
theorem frames_hostPut (s : State) (h c : Nat) (new : List (Nat × Byte)) (e : Nat) : (s.hostPut h c new).frames e = s.frames e := by
  unfold State.hostPut
  suffices ∀ t : State, t.frames e = s.frames e → (new.foldl (fun s p => hostLine s h 2 (c + p.1) [p.2]) t).frames e = s.frames e from
    this _ rfl
  induction new with
  | nil => exact fun _ ht => ht
  | cons p l ih => exact fun t ht => ih _ ht
theorem frames_writeHere (u : State) (home base cell lo : Nat) (repl : BitVec 8) (l : List Byte) (e : Nat) :
    (u.writeHere home base cell repl (atOffsets lo l)).frames e =
      if (u.frameAt? home base).isSome ∧ e = home then (u.frames home).map (writeFrame base lo repl l) else u.frames e := by
  have hm : ∀ (v : State) (g : List Frame → List Frame), (v.modCache home fun c => { c with frames := g c.frames }).frames e =
      if e = home then g (v.frames home) else v.frames e := by
    intro v g; unfold State.frames State.modCache; rw [die_modDie]; split <;> rfl
  unfold State.writeHere
  by_cases hf : (u.frameAt? home base).isSome
  · rw [if_pos hf]
    dsimp only
    have : (u.modCache home fun c => { c with
        frames := clearFrames (writeFrames c.frames base (atOffsets lo l) (repl = 0)) base (clearedBits (atOffsets lo l)) }).frames e = if e = home then (u.frames home).map (writeFrame base lo repl l) else u.frames e := by
      refine (hm u fun l' => clearFrames (writeFrames l' base (atOffsets lo l) (repl = 0)) base (clearedBits (atOffsets lo l))).trans ?_
      split
      · unfold clearFrames writeFrames; rw [List.map_map]; rfl
      · rfl
    simp only [hf, true_and]
    rw [← this]
    split <;> rfl
  · rw [if_neg hf]
    refine Eq.trans ?_ (if_neg (fun h => hf h.1)).symm
    split
    · exact frames_hostPut _ _ _ _ _
    · rfl
theorem cellByte_writeHere (u : State) (home base cell lo : Nat) (repl : BitVec 8) {l : List Byte} (hl : lo + l.length ≤ 2048) (k : Nat) :
    (u.writeHere home base cell repl (atOffsets lo l)).cellByte k =
      if (if (u.frameAt? home base).isSome then repl ≠ 0 else isHostCell cell = false) ∧ cell + lo ≤ k ∧ k < cell + lo + l.length then
        l.getD (k - cell - lo) 0 else u.cellByte k := by
  unfold State.writeHere
  rw [payPart_atOffsets hl]
  by_cases hf : (u.frameAt? home base).isSome
  · simp only [if_pos hf]
    by_cases hr : repl = 0
    · simp only [hr, if_true, ne_eq, not_true_eq_false, false_and, if_false]; rfl
    · simp only [hr, if_false, ne_eq, not_false_eq_true, true_and]
      rw [cellByte_putCells]; rfl
  · simp only [if_neg hf]
    cases hh : isHostCell cell
    · simp only [Bool.false_eq_true, if_false, true_and]
      exact cellByte_putCells _ _ _ _ _
    · simp only [if_true, Bool.true_eq_false, false_and, if_false]
      simp only [State.cellByte, mem_hostPut]
/-- A write at the home of a tile: its bytes are stored, and nothing else. -/
theorem writeHome_stores (u : State) (home base cell lo : Nat) (repl : BitVec 8) (l : List Byte) (hc : cell % 2048 = 0)
    (hl : lo + l.length ≤ 2048) :
    Stored u (u.writeHome home base cell repl (atOffsets lo l)) home base cell lo l ∧
    StoreFrame u (u.writeHome home base cell repl (atOffsets lo l)) base lo l.length (cell :: replicaCells home cell repl) := by
  have hrep : ∀ x ∈ replicaCells home cell repl, x % 2048 = 0 := by
    intro x hx
    obtain ⟨d, -, hd⟩ := List.mem_filterMap.1 hx
    split at hd
    · cases hd; unfold lpddrBase; omega
    · cases hd
  have hf := frames_writeHere u home base cell lo repl l
  have hb := cellByte_writeHere u home base cell lo repl hl
  have ft : ∀ e, (u.writeHome home base cell repl (atOffsets lo l)).frames e =
      (u.writeHere home base cell repl (atOffsets lo l)).frames e := by
    intro e; unfold State.writeHome; dsimp only; rw [frames_foldl_putCells]; rfl
  unfold State.writeHome at ft ⊢
  rw [payPart_atOffsets hl] at ft ⊢
  dsimp only at ft ⊢
  set v := u.writeHere home base cell repl (atOffsets lo l) with hv
  refine ⟨fun k hk => ⟨fun hn f hfm hb' hq hd => ?_, fun hn hh => ?_⟩, fun c hcx => ?_, fun e b k hb' => ?_⟩
  · rw [ft, hf, if_pos ⟨by simpa [Option.isSome_iff_ne_none] using hn, rfl⟩] at hfm
    obtain ⟨f0, hf0, rfl⟩ := List.mem_map.1 hfm
    obtain ⟨e1, e2, e3⟩ := writeFrame_base base lo repl l f0
    rw [writeFrame_payload hl, if_pos, putBytes_atOffsets, if_pos (by omega)]
    · congr 1; omega
    · rw [← e1, ← e2, ← e3, hb', hq, hd]; simp
  · apply cellByte_foldl_keep _ _ _ _ _ _ hk hl hc hrep
    show v.cellByte _ = _
    rw [hb, if_pos ⟨by simp [hn, hh], by omega, by omega⟩]
    congr 1; omega
  · rw [cellByte_foldl_putCells _ _ _ _ _ (fun x hx => hcx x (List.mem_cons_of_mem _ hx))]
    show v.cellByte c = _
    rw [hb, if_neg]
    have := hcx cell List.mem_cons_self; omega
  · by_cases he : (u.frameAt? home base).isSome ∧ e = home
    · obtain ⟨he1, rfl⟩ := he
      refine frameBytes_map' u _ e b k (writeFrame base lo repl l) (by rw [ft, hf, if_pos ⟨he1, rfl⟩]) fun f =>
        ⟨(writeFrame_base base lo repl l f).1, fun hfb => ?_⟩
      rw [writeFrame_payload hl]
      split
      · rename_i hcnd
        simp only [Bool.and_eq_true, decide_eq_true_eq] at hcnd
        rw [putBytes_atOffsets, if_neg]
        have : f.base = base := hcnd.1.1
        omega
      · rfl
    · unfold frameBytes; rw [ft, hf, if_neg he]

theorem sameBytes_advanceClock (s : State) (h : Nat) : SameBytes s (s.advanceClock h) :=
  sameBytes_modDie _ _ _ (by intro x; split <;> rfl)
theorem sameBytes_markModified (s : State) (d : Nat) (x : TileId) : SameBytes s (markModified s d x) :=
  sameBytes_modFrame _ _ _ _ (by intro f; split <;> exact ⟨rfl, rfl⟩)

theorem frames_advanceClock (s : State) (h e : Nat) : (s.advanceClock h).frames e = s.frames e :=
  frames_modDie_other _ _ _ (by intro x; dsimp only; split <;> rfl) _

/-- The frames that hold a tile do so after a change of their states. -/
theorem stored_map {v : State} {home base cell lo : Nat} {l : List Byte} (h : Stored u s home base cell lo l) (g : Frame → Frame)
    (hg : ∀ f, (g f).base = f.base ∧ (g f).payload = f.payload ∧ (g f).nq4 = f.nq4 ∧ hasData (g f) = hasData f)
    (hf : v.frames home = (s.frames home).map g) (hm : v.mem = s.mem) : Stored u v home base cell lo l := by
  intro k hk
  refine ⟨fun hn f hfm hb hq hd => ?_, fun hn => ?_⟩
  · rw [hf] at hfm
    obtain ⟨f0, hf0, rfl⟩ := List.mem_map.1 hfm
    rw [(hg f0).2.1]
    exact (h k hk).1 hn f0 hf0 ((hg f0).1.symm.trans hb) ((hg f0).2.2.1.symm.trans hq) ((hg f0).2.2.2.symm.trans hd)
  · intro hh; rw [← (h k hk).2 hn hh]; simp only [State.cellByte, hm]
theorem stored_modFrame {home base cell lo : Nat} {l : List Byte} (h : Stored u s home base cell lo l) (d : Nat) (x : TileId)
    (g : Frame → Frame) (hg : ∀ f, (g f).base = f.base ∧ (g f).payload = f.payload ∧ (g f).nq4 = f.nq4 ∧ hasData (g f) = hasData f) :
    Stored u (s.modFrame d x g) home base cell lo l := by
  by_cases he : home = d
  · subst he
    refine stored_map h (fun f => if f.tile = x && !f.wb then g f else f) (fun f => ?_) (by rw [frames_modFrame, if_pos rfl]) rfl
    split
    · exact hg f
    · exact ⟨rfl, rfl, rfl, rfl⟩
  · refine stored_map h id (fun f => ⟨rfl, rfl, rfl, rfl⟩) (by rw [frames_modFrame, if_neg he, List.map_id]) rfl
theorem stored_same {v : State} {home base cell lo : Nat} {l : List Byte} (h : Stored u s home base cell lo l)
    (hf : v.frames home = s.frames home) (hm : v.mem = s.mem) : Stored u v home base cell lo l :=
  stored_map h id (fun f => ⟨rfl, rfl, rfl, rfl⟩) (by rw [hf, List.map_id]) hm
theorem stored_view {v : State} {home base cell lo : Nat} {l : List Byte} (h : Stored u s home base cell lo l) (hv : SameView s v) :
    Stored u v home base cell lo l := by
  obtain ⟨g, hg, e⟩ := hv.cache home
  refine stored_map h g (fun f => ?_) (by rw [State.frames, e]) hv.mem
  obtain ⟨a, b, e'⟩ := hg f
  rw [e']
  exact ⟨rfl, rfl, rfl, rfl⟩
theorem storeFrame_same {v : State} {base lo n : Nat} {cells : List Nat} (h : StoreFrame u s base lo n cells) (g : SameBytes s v) :
    StoreFrame u v base lo n cells :=
  ⟨fun c hc => (by simp only [State.cellByte, g.1] : v.cellByte c = s.cellByte c).trans (h.cells c hc),
   fun e b k hb => (g.2 e b k).trans (h.frames e b k hb)⟩

theorem firstOf_some {α : Type} {f : Nat → Option α} {n i : Nat} {a : α} (h : firstOf f n i = some a) : ∃ k, f k = some a := by
  induction n generalizing i with
  | zero => cases h
  | succ n ih =>
    unfold firstOf at h
    cases hf : f i with
    | some b => rw [hf] at h; exact ⟨i, hf.trans h⟩
    | none => rw [hf] at h; exact ih h

/-- The cell of a tile is the start of a tile. -/
theorem cellOf_mod (s : State) (base : Nat) (h : base % 2048 = 0) : cellOf s base % 2048 = 0 := by
  have hl : ∀ x, s.locate base = x → (match x with | .cached _ c => c | .host _ c => c | _ => base) % 2048 = 0 := by
    intro x hx
    unfold State.locate at hx
    dsimp only at hx
    split at hx
    · split at hx <;> subst hx <;> exact h
    · split at hx
      · split at hx
        · rename_i c hc
          subst hx
          unfold poolCell at hc
          split at hc
          · obtain ⟨k, hk⟩ := firstOf_some hc
            dsimp only at hk
            split at hk
            · cases hk; dsimp only; omega
            · cases hk
          · cases hc
        · subst hx; exact h
      · split at hx
        · split at hx
          · rename_i c hc
            subst hx
            dsimp only
            obtain ⟨k, hk⟩ := firstOf_some hc
            dsimp only at hk
            split at hk
            · simp only [Option.some.injEq, Prod.mk.injEq] at hk; rw [← hk.1]; unfold hostCell; omega
            · cases hk
          · rename_i c hc
            subst hx
            dsimp only
            obtain ⟨k, hk⟩ := firstOf_some hc
            dsimp only at hk
            split at hk
            · simp only [Option.some.injEq, Prod.mk.injEq] at hk; rw [← hk.1]; unfold hostCell; omega
            · cases hk
          · subst hx; exact h
        · split at hx <;> subst hx <;> exact h
  exact hl _ rfl

/-- A store at the home of a causal tile: its bytes are stored there, and nothing else. -/
theorem storeBytes_home (s : State) (who : Who) (key : Nat) (p : Placed) (l : List Byte) (hh : p.req.home.val = who.d)
    (hp : p.req.pcoh = false) (ht : InTile p l.length) :
    Stored s (storeBytes s who key p l) p.req.home.val p.req.base (cellOf s p.req.base) (p.pa - p.req.base) l ∧
    StoreFrame s (storeBytes s who key p l) p.req.base (p.pa - p.req.base) l.length
      (cellOf s p.req.base :: replicaCells p.req.home.val (cellOf s p.req.base) p.req.repl) := by
  obtain ⟨h1, h2⟩ := writeHome_stores s p.req.home.val p.req.base (cellOf s p.req.base) (p.pa - p.req.base) p.req.repl l
    (cellOf_mod s _ ht.1) ht.2.2
  unfold storeBytes storeAt
  have hside : ∀ side repl, s.writeSide p.req.home.val p.req.base side repl (atOffsets (p.pa - p.req.base) l) = s := by
    intro side repl; unfold State.writeSide; split
    · rfl
    · rw [sidePart_atOffsets ht.2.2]; rfl
  have hpo : ∀ (v : State) c r o, v.poisonHome p.req.home.val p.req.base c r 0 o = v := by
    intro v c r o; unfold State.poisonHome; rw [if_pos rfl]
  simp only [hside, hpo, hp, Bool.false_and, Bool.false_eq_true, if_false, if_pos hh]
  have hgm : ∀ f : Frame, let g := (if f.st = .e || (f.st = .s && f.home = who.d && !f.pcoh) then { f with st := CohState.m } else f)
      g.base = f.base ∧ g.payload = f.payload ∧ g.nq4 = f.nq4 ∧ hasData g = hasData f := by
    intro f; dsimp only; split
    · rename_i hc
      refine ⟨rfl, rfl, rfl, ?_⟩
      simp only [Bool.or_eq_true, decide_eq_true_eq, Bool.and_eq_true] at hc
      rcases hc with hc | hc
      · simp [hasData, hc]
      · simp [hasData, hc.1.1]
    · exact ⟨rfl, rfl, rfl, rfl⟩
  have own : ∀ v b : State, (ownHost v b p.req).mem = v.mem ∧ ∀ e, (ownHost v b p.req).frames e = v.frames e := by
    intro v b; unfold ownHost; split <;> exact ⟨rfl, fun _ => rfl⟩
  constructor
  · refine stored_same ?_ (frames_advanceClock _ _ _) rfl
    refine stored_view ?_ (sameView_nearTouch _ _ _ _ _)
    exact stored_same (stored_modFrame h1 who.d p.req.tile _ hgm) ((own _ _).2 _) (own _ _).1
  · refine storeFrame_same h2 (SameBytes.trans ?_ (sameBytes_advanceClock _ _))
    refine SameBytes.trans ?_ (sameBytes_nearTouch _ _ _ _ _)
    exact (sameBytes_markModified _ _ _).trans (sameBytes_frames (own _ _).1 (own _ _).2)

/-- A store seen from before the uses that an access counts. -/
theorem stored_before {v t : State} (h : SameView u v) {home base cell lo : Nat} {l : List Byte} (hs : Stored v t home base cell lo l) :
    Stored u t home base cell lo l := fun k hk =>
  ⟨fun hn => (hs k hk).1 fun e => hn ((h.frameAt?_none home base).1 e), fun hn => (hs k hk).2 ((h.frameAt?_none home base).2 hn)⟩
theorem storeFrame_view {v t : State} (h : SameBytes u v) {base lo n : Nat} {cells : List Nat} (hs : StoreFrame v t base lo n cells) :
    StoreFrame u t base lo n cells :=
  ⟨fun c hc => (hs.cells c hc).trans (by simp only [State.cellByte, h.1]), fun e b k hb => (hs.frames e b k hb).trans (h.2 e b k)⟩

/-- A store at the home of a causal tile changes no wave. -/
theorem onlyStore_storeBytes_home (s : State) (who : Who) (key : Nat) (p : Placed) (l : List Byte)
    (hh : p.req.home.val = who.d) (hp : p.req.pcoh = false) : OnlyStore s (storeBytes s who key p l) := by
  unfold storeBytes storeAt
  dsimp only
  rw [hp]
  simp only [Bool.false_and, Bool.false_eq_true, if_false, if_pos hh]
  refine OnlyStore.trans ?_ (by exact rfl)
  refine OnlyStore.trans ?_ (onlyStore_nearTouch _ _ _ _ _)
  refine OnlyStore.trans ?_ (onlyStore_ownHost _ _ _)
  refine OnlyStore.trans ?_ (onlyStore_modFrame _ _ _ _)
  refine OnlyStore.trans ?_ (onlyStore_poisonHome _ _ _ _ _ _ _)
  exact (onlyStore_writeSide _ _ _ _ _ _).trans (onlyStore_writeHome _ _ _ _ _ _)

end Sys2Proof.Machine
end

