-- ==== Sys2Proof/Tests/Slice0.lean ====
section
/-! SUPPORT. Tests: ill-formed terms that the checks refuse, decoding of words written out from the encoding tables (chapter
"Encodings and opcode map"), results of the spec's own worked examples, and for each statement a state and operands that
meet what it supposes. -/

set_option Elab.async false

namespace Sys2Proof.Tests

open Sys2Proof Machine

/-! ### Words (R277, R280, R285) -/

/-- The words of a 96-bit lane instruction, the lowest first (R275). -/
def cut (w : BitVec 96) : List W32 := [w.extractLsb' 0 32, w.extractLsb' 32 32, w.extractLsb' 64 32]

/-- The scalar word, with its literal if it has one, reads as the instruction. -/
def reads (p : W32 × Option W32 × Instr) : Bool := decide (decode (p.1 :: p.2.1.toList) = some p.2.2)

/-- The lane word reads as the instruction. -/
def readsLane (p : BitVec 96 × Instr) : Bool := decide (decode (cut p.1) = some p.2)

theorem test_decode_scalar_register_forms : [
    (0b000001_000101_010100_111111_00000000, none, .add 5 20 63),
    (0b000001_000110_010101_111110_00000001, none, .sub 6 21 62),
    (0b000001_000111_010110_111101_00000010, none, .and 7 22 61),
    (0b000001_001000_010111_111100_00000011, none, .or 8 23 60),
    (0b000001_001001_011000_111011_00000100, none, .xor 9 24 59),
    (0b000001_001010_011001_111010_00000101, none, .shl 10 25 58),
    (0b000001_001011_011010_111001_00000110, none, .shr 11 26 57),
    (0b000001_001100_011011_111000_00000111, none, .sar 12 27 56),
    (0b000001_001101_011100_110111_00001000, none, .mul 13 28 55),
    (0b000001_001110_011101_110110_00001001, none, .mulh 14 29 54),
    (0b000001_001111_011110_110101_00001010, none, .div 15 30 53),
    (0b000001_010000_011111_110100_00001011, none, .rem 16 31 52),
    (0b000001_010001_100000_110011_00001100, none, .min 17 32 51),
    (0b000001_010010_100001_110010_00001101, none, .max 18 33 50),
    (0b000001_010011_100010_110001_00001110, none, .slt 19 34 49),
    (0b000001_010100_100011_110000_00001111, none, .sltn 20 35 48)
  ].all reads = true := by decide +kernel

theorem test_decode_scalar_immediates : [
    (0b000010_000111_001001_11111111111010, none, .addi 7 9 0x3FFA),
    (0b000011_000111_001001_11111111110111, none, .andi 7 9 0x3FF7),
    (0b000100_000111_001001_11111111110100, none, .ori 7 9 0x3FF4),
    (0b000101_000111_001001_11111111110001, none, .xori 7 9 0x3FF1),
    (0b001001_000111_001001_11111111100101, none, .slti 7 9 0x3FE5),
    (0b000110_000001_000010_00000000_111100, none, .shli 1 2 60),
    (0b000111_000001_000010_00000000_111101, none, .shri 1 2 61),
    (0b001000_000001_000010_00000000_111110, none, .sari 1 2 62),
    (0b001010_000011_10000000000000000001, none, .lui 3 0x80001),
    (0b001011_100001_00000000000000000000, some 0xFFFFFFFE, .movl 33 0xFFFFFFFE)
  ].all reads = true := by decide +kernel

theorem test_decode_scalar_memory : [
    (0b001100_000101_000100_10_111111111000, none, .sld 5 4 2 0xFF8),
    (0b001101_000110_000011_11_011111111111, none, .sst 6 3 3 0x7FF),
    (0b001110_000111_000010_101_11111111000, none, .slda 7 2 5 0x7F8),
    (0b001111_001000_000001_100_00000010000, none, .sstr 8 1 4 16),
    (0b010000_000110_000100_000111_000_000_00, none, .samoAdd 6 4 7 0 0),
    (0b010000_000110_000100_000111_001_001_01, none, .samoAnd 6 4 7 1 1),
    (0b010000_000110_000100_000111_010_010_10, none, .samoOr 6 4 7 2 2),
    (0b010000_000110_000100_000111_011_011_00, none, .samoXor 6 4 7 3 0),
    (0b010000_000110_000100_000111_100_100_01, none, .samoMin 6 4 7 4 1),
    (0b010000_000110_000100_000111_101_101_10, none, .samoMax 6 4 7 5 2),
    (0b010000_000110_000100_000111_110_000_00, none, .samoSwap 6 4 7 0 0),
    (0b010000_000110_000100_000111_111_001_01, none, .samoCas 6 4 7 1 1)
  ].all reads = true := by decide +kernel

theorem test_decode_scalar_control : [
    (0b010001_001010_101000_11111111111111, none, .beq 10 40 0x3FFF),
    (0b010010_001011_101001_11111111111110, none, .bne 11 41 0x3FFE),
    (0b010011_001100_101010_11111111111101, none, .blt 12 42 0x3FFD),
    (0b010100_001101_101011_11111111111100, none, .bge 13 43 0x3FFC),
    (0b010101_001110_101100_11111111111011, none, .bltn 14 44 0x3FFB),
    (0b010110_001111_101101_11111111111010, none, .bgen 15 45 0x3FFA),
    (0b010111_11111111111111111111111110, none, .jmp 0x3FFFFFE),
    (0b011000_00000000000000000000000101, none, .call 5),
    (0b011001_000000_111111_00000000000000, none, .jr 63),
    (0b011010_010100_001000_0100_0000001001, some 0x24, .lblk 20 8 4 9 0x24),
    (0b011011_00000000000000000000000000, none, .ldrain),
    (0b011100_000_110_010001_11111111100000, none, .stbind 6 17 0x3FE0),
    (0b011101_000_101_00000000000000000000, none, .strel 5)
  ].all reads = true := by decide +kernel

theorem test_decode_scalar_sync : [
    (0b011110_001001_00000000000000000000, none, .bclose 9),
    (0b011111_000000_001001_00000000000000, none, .bwait 9),
    (0b100000_000101_001001_00000000000000, none, .bararr 5 9),
    (0b100001_000110_001001_00000000000000, none, .barwait 6 9),
    (0b100010_000111_001001_00000000000000, none, .barexp 7 9),
    (0b100011_000000000000000000000_11111, none, .fence 31),
    (0b100100_000000_111000_0000000000_1111, none, .scopeset 56 15),
    (0b100101_00000000000000000000000000, none, .recfence),
    (0b100110_0000000000000000000000_1011, none, .recload 11)
  ].all reads = true := by decide +kernel

theorem test_decode_scalar_system : [
    (0b000000_10101010111100110111101111, none, .udf 0x2ABCDEF),
    (0b100111_000000_10101011110011011110, none, .syscall 0xABCDE),
    (0b101000_00000000000000000000000000, none, .trapret),
    (0b101001_000101_00000000_000001100000, none, .csrr 5 0x060),
    (0b101010_000000_000100_00_000000100000, none, .csrw 4 0x020),
    (0b101011_00000000000000000000000000, none, .exit),
    (0b101100_000000_00000000000001001101, none, .brk 77),
    (0b101101_00000000000000000000000000, none, .yield),
    (0b101110_000001_000010_000011_00000000, none, .launch 1 2 3),
    (0b101111_00000000000000000000000000, none, .nop),
    (0b110000_000100_000101_000110_00000000, none, .waitev 4 5 6),
    (0b110001_00000000000000000000000001, none, .scalarReservedOpcode 0xC4000001)
  ].all reads = true := by decide +kernel

theorem test_decode_lane_integers : [
    (0b0000001_000_010_1_0_1111111111_1111111110_0000000001_0000000000_00_11_00_1_0_0_11111111111111111111111111111111, .iadd ⟨0, 2, true, false, 1023, .v 1022 true, .imm 0xFFFFFFFF, .v 0 false, 0x1⟩),
    (0b0000010_110_000_0_0_0000000100_0000000010_0000000011_0000000000_00_01_00_0_0_0_00000000000000000000000000000000, .isub ⟨6, 0, false, false, 4, .v 2 false, .bp 3, .v 0 false, 0x0⟩),
    (0b0000011_001_000_0_0_0000000101_0000010000_0000000111_0000000000_01_00_00_0_0_0_00000000000000000000000000000000, .imul ⟨1, 0, false, false, 5, .special .lane, .v 7 false, .v 0 false, 0x0⟩),
    (0b0000100_111_000_0_0_0000000110_0000000010_0000000100_0000001000_00_00_00_0_0_0_00000000000000000000000000000001, .imad ⟨7, 0, false, false, 6, .v 2 false, .v 4 false, .v 8 false, 0x1⟩),
    (0b0000101_000_000_0_0_0000000101_0000000110_0000000111_0000000000_00_00_00_0_0_0_00000000000000000000000000000000, .imulh ⟨0, 0, false, false, 5, .v 6 false, .v 7 false, .v 0 false, 0x0⟩),
    (0b0000110_110_000_0_0_0000000110_0000000111_0000001000_0000000000_10_00_00_0_0_0_00000000000000000000000000000000, .idiv ⟨6, 0, false, false, 6, .stream 7, .v 8 false, .v 0 false, 0x0⟩),
    (0b0000111_000_000_0_0_0000000101_0000000110_0000000111_0000000000_00_00_00_0_1_0_00000000000000000000000000000000, .imin ⟨0, 0, false, false, 5, .v 6 false, .v 7 true, .v 0 false, 0x0⟩),
    (0b0001000_001_000_0_0_0000000101_0000000110_0000000111_0000000000_00_00_00_0_0_0_00000000000000000000000000000000, .imax ⟨1, 0, false, false, 5, .v 6 false, .v 7 false, .v 0 false, 0x0⟩),
    (0b0001001_000_000_0_0_0000000010_0000010100_0000010110_0000000000_00_00_00_0_0_0_00000000000000000000000000000000, .land ⟨0, 0, false, false, 2, .v 20 false, .v 22 false, .v 0 false, 0x0⟩),
    (0b0001010_110_001_0_0_0000000100_0000010100_0000011000_0000000000_00_00_00_0_0_0_00000000000000000000000000000000, .lor ⟨6, 1, false, false, 4, .v 20 false, .v 24 false, .v 0 false, 0x0⟩),
    (0b0001011_000_010_0_0_0000000110_0000010100_0000011010_0000000000_00_00_00_0_0_0_00000000000000000000000000000000, .lxor ⟨0, 2, false, false, 6, .v 20 false, .v 26 false, .v 0 false, 0x0⟩),
    (0b0001100_110_011_0_0_0000001000_0000010100_0000011100_0000000000_00_00_00_0_0_0_00000000000000000000000000000000, .lshl ⟨6, 3, false, false, 8, .v 20 false, .v 28 false, .v 0 false, 0x0⟩),
    (0b0001101_000_100_0_0_0000001010_0000010100_0000011110_0000000000_00_00_00_0_0_0_00000000000000000000000000000000, .lshr ⟨0, 4, false, false, 10, .v 20 false, .v 30 false, .v 0 false, 0x0⟩),
    (0b0001110_110_101_0_0_0000001100_0000010100_0000100000_0000000000_00_00_00_0_0_0_00000000000000000000000000000000, .lsar ⟨6, 5, false, false, 12, .v 20 false, .v 32 false, .v 0 false, 0x0⟩),
    (0b0001111_000_000_0_0_0000001001_0000001000_0000000000_0000000000_00_00_00_0_0_0_00000000000000000000000000000000, .popc ⟨0, 0, false, false, 9, .v 8 false, .v 0 false, .v 0 false, 0x0⟩),
    (0b0010000_110_000_0_0_0000001010_0000001000_0000000000_0000000000_00_00_00_0_0_0_00000000000000000000000000000000, .clz ⟨6, 0, false, false, 10, .v 8 false, .v 0 false, .v 0 false, 0x0⟩),
    (0b0010001_001_000_0_0_0000000111_0000001000_0000000101_0000000000_00_11_00_0_0_0_00000000000000000000000000000101, .icmp ⟨1, 0, false, false, 7, .v 8 false, .imm 0x5, .v 0 false, 0x5⟩),
    (0b0010010_000_000_0_0_0000001001_0000001000_0000000111_0000000000_00_00_00_0_0_0_00000000000000000000000000001011, .sel ⟨0, 0, false, false, 9, .v 8 false, .v 7 false, .v 0 false, 0xB⟩),
    (0b0100010_001_000_0_0_0000001001_0000001000_0000000111_0000000110_00_00_00_0_0_0_00000000000000000000000000000001, .dot4 ⟨1, 0, false, false, 9, .v 8 false, .v 7 false, .v 6 false, 0x1⟩)
  ].all readsLane = true := by decide +kernel

theorem test_decode_lane_floats : [
    (0b0010011_010_000_0_0_0000000100_0000000010_0000000011_0000000000_00_00_00_0_0_0_00000000000000000000000000000000, .fadd ⟨2, 0, false, false, 4, .v 2 false, .v 3 false, .v 0 false, 0x0⟩),
    (0b0010100_011_000_0_0_0000000100_0000000010_0000000110_0000000000_00_00_00_0_0_0_00000000000000000000000000000101, .fsub ⟨3, 0, false, false, 4, .v 2 false, .v 6 false, .v 0 false, 0x5⟩),
    (0b0010101_010_000_0_0_0000001001_0000000010_0000000001_0000000000_00_11_00_0_0_0_00111111000000000000000000000000, .fmul ⟨2, 0, false, false, 9, .v 2 false, .imm 0x3F000000, .v 0 false, 0x1⟩),
    (0b0010110_100_000_0_0_0000001001_0000000010_0000000011_0000000100_00_00_11_0_0_0_00111100000000000011110000000000, .ffma ⟨4, 0, false, false, 9, .v 2 false, .v 3 false, .imm 0x3C003C00, 0x4⟩),
    (0b0010111_101_000_0_0_0000001001_0000000010_0000000011_0000000000_00_00_00_0_0_0_00000000000000000000000000000000, .fmin ⟨5, 0, false, false, 9, .v 2 false, .v 3 false, .v 0 false, 0x0⟩),
    (0b0011000_010_000_0_0_0000001001_0000000010_0000000011_0000000000_00_00_00_0_0_0_00000000000000000000000000000000, .fmax ⟨2, 0, false, false, 9, .v 2 false, .v 3 false, .v 0 false, 0x0⟩),
    (0b0011001_011_000_0_0_0000000011_0000000010_0000000100_0000000000_00_00_00_0_0_0_00000000000000000000000000000111, .fcmp ⟨3, 0, false, false, 3, .v 2 false, .v 4 false, .v 0 false, 0x7⟩),
    (0b0011010_010_000_0_0_0000001001_0000000010_0000000000_0000000000_00_00_00_0_0_0_00000000000000000000000000000011, .frnd ⟨2, 0, false, false, 9, .v 2 false, .v 0 false, .v 0 false, 0x3⟩),
    (0b0011011_000_000_0_0_0000001000_0000000011_0000000000_0000000000_00_00_00_0_0_0_00000000000000000000100000101000, .fcvt ⟨0, 0, false, false, 8, .v 3 false, .v 0 false, .v 0 false, 0x828⟩),
    (0b0011100_010_000_0_0_0000011100_0000111000_0000000000_0000000000_00_00_00_0_0_0_00000000000000000000000000000000, .rcp ⟨2, 0, false, false, 28, .v 56 false, .v 0 false, .v 0 false, 0x0⟩),
    (0b0011101_010_000_0_0_0000011101_0000111010_0000000000_0000000000_00_00_00_0_0_0_00000000000000000000000000000000, .rsq ⟨2, 0, false, false, 29, .v 58 false, .v 0 false, .v 0 false, 0x0⟩),
    (0b0011110_010_000_0_0_0000011110_0000111100_0000000000_0000000000_00_00_00_0_0_0_00000000000000000000000000000000, .sqrt ⟨2, 0, false, false, 30, .v 60 false, .v 0 false, .v 0 false, 0x0⟩),
    (0b0011111_010_000_0_0_0000011111_0000111110_0000000000_0000000000_00_00_00_0_0_0_00000000000000000000000000000000, .exp2 ⟨2, 0, false, false, 31, .v 62 false, .v 0 false, .v 0 false, 0x0⟩),
    (0b0100000_010_000_0_0_0000100000_0001000000_0000000000_0000000000_00_00_00_0_0_0_00000000000000000000000000000000, .log2 ⟨2, 0, false, false, 32, .v 64 false, .v 0 false, .v 0 false, 0x0⟩),
    (0b0100001_010_000_0_0_0000100001_0001000010_0000000000_0000000000_00_00_00_0_0_0_00000000000000000000000000000000, .ln ⟨2, 0, false, false, 33, .v 66 false, .v 0 false, .v 0 false, 0x0⟩),
    (0b0100011_100_000_0_0_0000001001_0000001000_0000000111_0000000110_00_00_00_0_0_0_00000000000000000000000000000010, .hfma2 ⟨4, 0, false, false, 9, .v 8 false, .v 7 false, .v 6 false, 0x2⟩),
    (0b1100000_011_000_0_0_0000001000_0000000110_0000000101_0000000000_00_00_00_0_0_0_00000000000000000000000000000001, .fscale ⟨3, 0, false, false, 8, .v 6 false, .v 5 false, .v 0 false, 0x1⟩)
  ].all readsLane = true := by decide +kernel

theorem test_decode_lane_moves_and_predicates : [
    (0b0100100_110_000_0_0_0000001000_0000000000_0000000000_0000000000_11_00_00_0_0_0_10000000000000000000000000000000, .mov ⟨6, 0, false, false, 8, .imm 0x80000000, .v 0 false, .v 0 false, 0x0⟩),
    (0b0100101_000_000_0_0_0000001000_0000001001_0000000000_0000000000_00_00_00_0_0_0_00000000000000000000000000000111, .movsp ⟨0, 0, false, false, 8, .v 9 false, .v 0 false, .v 0 false, 0x7⟩),
    (0b0100110_110_000_0_0_0000001000_0000001001_0000001011_0000000000_00_00_00_0_0_0_00000000000000000000000000000000, .rget ⟨6, 0, false, false, 8, .v 9 false, .v 11 false, .v 0 false, 0x0⟩),
    (0b0100111_000_000_0_0_0000000000_0000001001_0000000000_0000001100_00_11_00_0_0_0_00000000000000000000000000000011, .rput ⟨0, 0, false, false, 0, .v 9 false, .imm 0x3, .v 12 false, 0x0⟩),
    (0b0101000_000_000_0_0_0000001000_0000001001_0000010000_0000000000_00_01_00_0_0_0_00000000000000000000000000000000, .shfl ⟨0, 0, false, false, 8, .v 9 false, .special .lane, .v 0 false, 0x0⟩),
    (0b0101001_000_000_0_0_0000001000_0000001001_0000000000_0000000000_00_11_00_0_0_0_00000000000000000000000000010000, .shflx ⟨0, 0, false, false, 8, .v 9 false, .imm 0x10, .v 0 false, 0x0⟩),
    (0b0101010_000_000_0_1_0000000000_0000001001_0000001010_0000000000_00_00_00_0_0_0_00000000000000000000000000000000, .bcast ⟨0, 0, false, true, 0, .v 9 false, .v 10 false, .v 0 false, 0x0⟩),
    (0b0101011_000_000_0_1_0000000000_0000001001_0000000000_0000000000_00_00_00_0_0_0_00000000000000000000000000000000, .ballot ⟨0, 0, false, true, 0, .v 9 false, .v 0 false, .v 0 false, 0x0⟩),
    (0b0101100_000_000_0_0_0000000101_0000001001_0000000000_0000000000_00_00_00_0_0_0_00000000000000000000000000000010, .vote ⟨0, 0, false, false, 5, .v 9 false, .v 0 false, .v 0 false, 0x2⟩),
    (0b0101101_010_000_0_1_0000000000_0000001001_0000000000_0000000000_00_00_00_0_0_0_00000000000000000000000000000010, .reduce ⟨2, 0, false, true, 0, .v 9 false, .v 0 false, .v 0 false, 0x2⟩),
    (0b0101110_111_000_0_0_0000000100_0000001000_0000000000_0000000000_00_00_00_0_0_0_00000000000000000000000000001101, .scan ⟨7, 0, false, false, 4, .v 8 false, .v 0 false, .v 0 false, 0xD⟩),
    (0b0101111_000_000_0_0_0000000110_0000001001_0000000000_0000000000_00_00_00_0_0_0_00000000000000000000000000000000, .pset ⟨0, 0, false, false, 6, .v 9 false, .v 0 false, .v 0 false, 0x0⟩),
    (0b0110000_000_000_0_0_0000000101_0000000000_0000000000_0000000000_00_00_00_0_0_0_00000000000000000000000010001011, .plop ⟨0, 0, false, false, 5, .v 0 false, .v 0 false, .v 0 false, 0x8B⟩),
    (0b0110001_000_000_0_0_0001100100_0000000000_0000000000_0000000000_00_00_00_0_0_0_00000000000000000000000000111111, .feclr ⟨0, 0, false, false, 100, .v 0 false, .v 0 false, .v 0 false, 0x3F⟩),
    (0b0110010_000_000_0_0_0001100100_0000000000_0000000000_0000000000_00_00_00_0_0_0_00000000000000000000000000000101, .feset ⟨0, 0, false, false, 100, .v 0 false, .v 0 false, .v 0 false, 0x5⟩)
  ].all readsLane = true := by decide +kernel

theorem test_decode_lane_control : [
    (0b0110011_000_001_1_0_0000000000_0000000000_0000000000_0000000000_00_00_00_0_0_0_11111111111111100000000000000101, .lbr ⟨0, 1, true, false, 0, .v 0 false, .v 0 false, .v 0 false, 0xFFFE0005⟩),
    (0b0110100_000_000_0_0_0000000000_0000000000_0000000000_0000000000_00_00_00_0_0_0_11111111111111100000000000000000, .ljmp ⟨0, 0, false, false, 0, .v 0 false, .v 0 false, .v 0 false, 0xFFFE0000⟩),
    (0b0110101_000_000_0_0_0000000000_0000000000_0000000000_0000000000_00_00_00_0_0_0_00000000000000000000000000000000, .lend ⟨0, 0, false, false, 0, .v 0 false, .v 0 false, .v 0 false, 0x0⟩),
    (0b0110110_000_000_0_0_0000000000_0000000000_0000000000_0000000000_00_00_00_0_0_0_00000000000000000000000000000000, .lnop ⟨0, 0, false, false, 0, .v 0 false, .v 0 false, .v 0 false, 0x0⟩),
    (0b0110111_000_011_0_0_0000000000_0000000000_0000000000_0000000000_00_00_00_0_0_0_11011110101011011011111011101111, .ltrap ⟨0, 3, false, false, 0, .v 0 false, .v 0 false, .v 0 false, 0xDEADBEEF⟩),
    (0b0111000_000_000_0_0_0000000000_0000000000_0000000000_0000000000_00_00_00_0_0_0_00000000000000000000000000000000, .lbrk ⟨0, 0, false, false, 0, .v 0 false, .v 0 false, .v 0 false, 0x0⟩),
    (0b1000000_000_000_0_0_0000000000_0000000000_0000000000_0000000000_00_00_00_0_0_0_00001111100000000000000000000000, .lfence ⟨0, 0, false, false, 0, .v 0 false, .v 0 false, .v 0 false, 0xF800000⟩),
    (0b1000001_000_000_0_0_0000000000_0000010010_0000000000_0000000000_01_00_00_0_0_0_00000000000000000000000000111111, .bar ⟨0, 0, false, false, 0, .special .amask, .v 0 false, .v 0 false, 0x3F⟩),
    (0b1000010_000_000_0_0_0000000000_0000000000_0000000000_0000000000_00_00_00_0_0_0_00000000000000000000001111111101, .qskip ⟨0, 0, false, false, 0, .v 0 false, .v 0 false, .v 0 false, 0x3FD⟩),
    (0b1000011_000_000_0_0_0000000000_0000000000_0000000000_0000000000_00_00_00_0_0_0_00000010100000000000000000000000, .ctxsync ⟨0, 0, false, false, 0, .v 0 false, .v 0 false, .v 0 false, 0x2800000⟩),
    (0b1000111_111_000_0_0_0000000110_0000000000_0000000000_0000000000_00_00_00_0_0_0_00000000000000000000000000000000, .rand ⟨7, 0, false, false, 6, .v 0 false, .v 0 false, .v 0 false, 0x0⟩),
    (0b1001000_010_000_0_0_0000000101_0000000000_0000000000_0000000000_00_00_00_0_0_0_00000000000000000000000000000000, .randu ⟨2, 0, false, false, 5, .v 0 false, .v 0 false, .v 0 false, 0x0⟩),
    (0b1001001_000_000_0_0_0000000000_0000000000_0000000000_0000000000_00_00_00_0_0_0_00000000000000010000001110000100, .propose ⟨0, 0, false, false, 0, .v 0 false, .v 0 false, .v 0 false, 0x10384⟩),
    (0b1001010_010_000_0_0_0000000000_0000000001_0000000010_0000000000_00_00_00_0_0_0_00000000000000000000000000000001, .accept ⟨2, 0, false, false, 0, .v 1 false, .v 2 false, .v 0 false, 0x1⟩),
    (0b1001011_000_000_0_0_0000000000_0000000000_0000000000_0000000000_00_00_00_0_0_0_00000000000000000000000000000000, .pdiscard ⟨0, 0, false, false, 0, .v 0 false, .v 0 false, .v 0 false, 0x0⟩),
    (0b1001100_000_000_0_0_0000000100_0000000110_0000000000_0000000000_00_00_00_0_0_0_00000000000000000000000000000000, .pread ⟨0, 0, false, false, 4, .v 6 false, .v 0 false, .v 0 false, 0x0⟩),
    (0b1001101_000_000_0_0_0000000100_0000000000_0000000000_0000000000_00_00_00_0_0_0_00000000000000000000000000000001, .pcount ⟨0, 0, false, false, 4, .v 0 false, .v 0 false, .v 0 false, 0x1⟩),
    (0b1111111_00000000000000000000000000000000000000000000000000000000000000000000000000000000000000000, .laneReservedOpcode 0xFE0000000000000000000000)
  ].all readsLane = true := by decide +kernel

theorem test_decode_lane_memory : [
    (0b0111001_010_000_0_0_0000000110_0000000100_0000000000_0000000000_00_00_00_0_0_0_00010000100111111111111111111100, .ldv ⟨2, 0, false, false, 6, .v 4 false, .v 0 false, .v 0 false, 0x109FFFFC⟩),
    (0b0111010_110_000_0_0_0000000000_0000000010_0000000110_0000000000_01_00_00_0_0_0_00100010100000000000000000001000, .stv ⟨6, 0, false, false, 0, .bp 2, .v 6 false, .v 0 false, 0x22800008⟩),
    (0b0111011_000_000_0_0_0000000110_0000000100_0000000000_0000000000_00_00_00_0_0_0_00000000100000000000000000000000, .ldb ⟨0, 0, false, false, 6, .v 4 false, .v 0 false, .v 0 false, 0x800000⟩),
    (0b0111100_000_000_0_0_0000000000_0000000100_0000000110_0000000000_00_00_00_0_0_0_00000000100000000000000000000000, .stb ⟨0, 0, false, false, 0, .v 4 false, .v 6 false, .v 0 false, 0x800000⟩),
    (0b0111101_000_000_0_0_0000000000_0000000100_0000000110_0000000000_00_00_00_0_0_0_00000000100000000000000000010000, .cstore ⟨0, 0, false, false, 0, .v 4 false, .v 6 false, .v 0 false, 0x800010⟩),
    (0b0111110_011_000_0_0_0000000110_0000000100_0000000000_0000000000_00_00_00_0_0_0_00000000100000000000000000000000, .xload ⟨3, 0, false, false, 6, .v 4 false, .v 0 false, .v 0 false, 0x800000⟩),
    (0b0111111_000_000_0_0_0000000110_0000000100_0000000110_0000000111_00_00_00_0_0_0_00100001111100000000000000000000, .atom ⟨0, 0, false, false, 6, .v 4 false, .v 6 false, .v 7 false, 0x21F00000⟩),
    (0b1000100_010_000_0_0_0000000101_0000001000_0000000000_0000000000_00_00_00_0_0_0_00000000000000000000000000000100, .packg ⟨2, 0, false, false, 5, .v 8 false, .v 0 false, .v 0 false, 0x4⟩),
    (0b1000101_010_000_0_0_0000000101_0000001000_0000000000_0000000000_00_00_00_0_0_0_00000000000000000000000000000000, .unpackg ⟨2, 0, false, false, 5, .v 8 false, .v 0 false, .v 0 false, 0x0⟩),
    (0b1000110_100_000_0_0_0000000101_0000001000_0000000000_0000000000_00_11_00_0_0_0_00111111100000000000000000000000, .nqdec ⟨4, 0, false, false, 5, .v 8 false, .imm 0x3F800000, .v 0 false, 0x0⟩)
  ].all readsLane = true := by decide +kernel

theorem test_decode_lane_tiles_and_engines : [
    (0b1001110_000_000_0_0_0000000101_0000001000_0000000000_0000000000_00_00_00_0_0_0_00000000000000000000000000001111, .tclook ⟨0, 0, false, false, 5, .v 8 false, .v 0 false, .v 0 false, 0xF⟩),
    (0b1001111_000_000_0_0_0000000000_0000001000_0000000000_0000000000_00_00_00_0_0_0_00000000000000000000000011100101, .tcpf ⟨0, 0, false, false, 0, .v 8 false, .v 0 false, .v 0 false, 0xE5⟩),
    (0b1010000_000_000_0_0_0000000000_0000001000_0000000000_0000000000_00_00_00_0_0_0_00000000000000000000011111100011, .tchalo ⟨0, 0, false, false, 0, .v 8 false, .v 0 false, .v 0 false, 0x7E3⟩),
    (0b1010001_000_000_0_0_0000000000_0000000000_0000000000_0000000000_00_00_00_0_0_0_00000000000000000000000000001001, .tcinv ⟨0, 0, false, false, 0, .v 0 false, .v 0 false, .v 0 false, 0x9⟩),
    (0b1010010_000_000_0_0_0000000000_0000001000_0000000000_0000000000_00_00_00_0_0_0_00000000000000000000000000101111, .tcpin ⟨0, 0, false, false, 0, .v 8 false, .v 0 false, .v 0 false, 0x2F⟩),
    (0b1010011_000_000_0_0_0000000000_0000001000_0000001010_0000000000_00_00_00_0_0_0_00000000000000000000000011111111, .tcflush ⟨0, 0, false, false, 0, .v 8 false, .v 10 false, .v 0 false, 0xFF⟩),
    (0b1010100_000_000_0_0_0000000000_0000001000_0000000000_0000000000_00_00_00_0_0_0_00000000000000000000000000001111, .recbind ⟨0, 0, false, false, 0, .v 8 false, .v 0 false, .v 0 false, 0xF⟩),
    (0b1010101_000_000_0_0_0000000000_0000000010_0000000100_0000000110_00_00_00_0_0_0_00000000000001010000001000010000, .cpy ⟨0, 0, false, false, 0, .v 2 false, .v 4 false, .v 6 false, 0x50210⟩),
    (0b1010110_000_000_0_0_0000000000_0000000010_0000000100_0000000110_00_00_00_0_0_0_00000000000000010000000000100001, .cpyg ⟨0, 0, false, false, 0, .v 2 false, .v 4 false, .v 6 false, 0x10021⟩),
    (0b1010111_000_000_0_0_0000000000_0000000010_0000000100_0000000000_00_00_00_0_0_0_00000000100101010000000001000001, .coll ⟨0, 0, false, false, 0, .v 2 false, .v 4 false, .v 0 false, 0x950041⟩),
    (0b1011000_000_000_0_0_0000000000_0000000010_0000000000_0000000000_00_00_00_0_0_0_00000000000000000000000000000000, .tcfg ⟨0, 0, false, false, 0, .v 2 false, .v 0 false, .v 0 false, 0x0⟩),
    (0b1011001_000_000_0_0_0000000000_0000000000_0000000000_0000000000_00_00_00_0_0_0_00000000000000000000000011111111, .trel ⟨0, 0, false, false, 0, .v 0 false, .v 0 false, .v 0 false, 0xFF⟩),
    (0b1011010_000_000_0_0_0000000000_0000000000_0000000000_0000000000_00_00_00_0_0_0_00000000000000000000000010000001, .tzero ⟨0, 0, false, false, 0, .v 0 false, .v 0 false, .v 0 false, 0x81⟩),
    (0b1011011_101_000_0_0_0000000000_0000000010_0000000100_0000000110_00_00_00_0_0_0_00000000000000110000100000000101, .mma ⟨5, 0, false, false, 0, .v 2 false, .v 4 false, .v 6 false, 0x30805⟩),
    (0b1011100_000_000_0_0_0000000000_0000000010_0000000100_0000000110_00_00_00_0_0_0_00000000000000000000100000000000, .mmag ⟨0, 0, false, false, 0, .v 2 false, .v 4 false, .v 6 false, 0x800⟩),
    (0b1011101_010_000_0_0_0000000000_0000000010_0000000000_0000000000_00_00_00_0_0_0_00000000000000000000000000000011, .tlda ⟨2, 0, false, false, 0, .v 2 false, .v 0 false, .v 0 false, 0x3⟩),
    (0b1011110_101_000_0_0_0000000000_0000000010_0000000100_0000000000_00_00_00_0_0_0_00000000000000010000000010000010, .tsta ⟨5, 0, false, false, 0, .v 2 false, .v 4 false, .v 0 false, 0x10082⟩),
    (0b1011111_010_000_0_0_0001000000_0000000000_0000000000_0000000000_00_00_00_0_0_0_00000000000000000000000000000001, .tmovv ⟨2, 0, false, false, 64, .v 0 false, .v 0 false, .v 0 false, 0x1⟩)
  ].all readsLane = true := by decide +kernel

/-! ### Ill-formed terms (R279, R281, R282, R287) -/

def r (n : BitVec 10) : Src := .v n false
def no : Src := .v 0 false
def one : Src := .imm 1

/-- Fields of a lane instruction with guard k0: type, dest, sources and X. -/
def lf (ty : BitVec 3) (dest : BitVec 10) (a b c : Src) (x : W32) : LaneFields := ⟨ty, 0, false, false, dest, a, b, c, x⟩

theorem test_ill_formed_scalar : [
    (.slda 1 2 6 0 : Instr), .sstr 1 2 7 0, .samoAdd 1 2 3 6 0, .samoAnd 1 2 3 7 0, .samoOr 1 2 3 0 3, .samoXor 1 2 3 6 0,
    .samoMin 1 2 3 5 3, .samoMax 1 2 3 6 1, .samoSwap 1 2 3 7 2, .samoCas 1 2 3 0 3, .lblk 1 0 9 0 0, .lblk 1 57 8 0 0,
    .fence 6, .fence 15, .scopeset 57 0, .scalarReservedOpcode 0xC3FFFFFF, .laneReservedOpcode 0x020000000000000000000000
  ].all (fun i => !i.wf) = true := by decide +kernel

/-- One check of each row: types, widths, reserved codes, unassigned X bits, sources, immediates and destinations. -/
theorem test_ill_formed_integers_and_floats : [
    (.iadd (lf 2 1 (r 1) (r 2) no 0) : Instr), .iadd (lf 6 1 (r 2) (r 2) no 0), .iadd (lf 6 2 (r 3) (r 2) no 0),
    .iadd (lf 0 1 one (r 2) no 0), .iadd (lf 0 1 (r 1) (r 2) no 2), .iadd (lf 0 1 (r 1) (r 2) (r 3) 0),
    .iadd ⟨0, 0, false, true, 0, r 1, r 2, no, 0⟩, .isub (lf 0 1 (r 1) (r 2) no 3), .imul (lf 0 1 (r 1) (r 2) no 1),
    .imad (lf 0 1 (r 1) one one 0), .imad (lf 0 1 (r 1) one (r 2) 0), .imulh (lf 4 1 (r 1) (r 2) no 0), .idiv (lf 7 1 (r 2) (r 2) no 0),
    .imin (lf 0 1 (r 1) (r 2) no 1), .imax (lf 5 1 (r 1) (r 2) no 0), .land (lf 1 1 (r 1) (r 2) no 0), .lor (lf 7 2 (r 2) (r 2) no 0),
    .lxor (lf 0 1 (r 1) (r 2) no 1), .lshl (lf 1 1 (r 1) (r 2) no 0), .lshr (lf 6 2 (r 2) (r 1) no 0), .lsar (lf 0 1 one (r 1) no 0),
    .popc (lf 0 1 one no no 0), .clz (lf 0 1 (r 1) (r 1) no 0), .icmp (lf 0 8 (r 1) (r 2) no 0), .icmp (lf 0 1 (r 1) (r 2) no 6),
    .sel (lf 0 1 (r 1) (r 2) no 16), .fadd (lf 2 1 (r 1) (r 2) no 6), .fsub (lf 0 1 (r 1) (r 2) no 0), .fmul (lf 2 1 (r 1) one no 7),
    .ffma (lf 2 1 (r 1) one one 0), .fmin (lf 2 1 (r 1) (r 2) no 1), .fmax (lf 3 1 (r 2) (r 2) no 0), .fcmp (lf 2 1 (r 1) (r 2) no 8),
    .fcmp (lf 4 1 (r 1) (r 2) no 0), .frnd (lf 2 1 (r 1) no no 6), .fcvt (lf 0 1 (r 1) no no 0xE00), .fcvt (lf 0 1 (r 1) no no 0x0E0),
    .fcvt (lf 0 1 (r 1) no no 8), .fcvt (lf 0 1 (r 2) no no 0x300), .fcvt (lf 0 1 (r 1) no no 0x60), .fcvt (lf 0 1 (r 1) no no 0x1000),
    .rcp (lf 4 1 (r 1) no no 0), .rsq (lf 3 2 (r 2) no no 0), .sqrt (lf 2 1 (r 1) no no 1), .exp2 (lf 3 2 (r 2) no no 0),
    .log2 (lf 2 1 (r 1) (r 1) no 0), .ln (lf 2 1 one no no 0), .dot4 (lf 0 1 (r 1) (r 2) one 0), .hfma2 (lf 2 1 (r 1) (r 2) (r 3) 0),
    .fscale (lf 2 1 (r 1) (r 2) no 7)].all (fun i => !i.wf) = true := by decide +kernel

theorem test_ill_formed_moves_and_control : [
    (.mov (lf 1 1 (r 1) no no 0) : Instr), .movsp (lf 0 1 (r 1) no no 0), .movsp (lf 0 1 no no no 8), .rget (lf 6 1 (r 1) (r 2) no 0),
    .rput (lf 0 1 (r 1) (r 2) (r 3) 0), .shfl (lf 1 1 (r 1) (r 2) no 0), .shflx (lf 0 1 (r 1) (r 2) no 1),
    .bcast ⟨0, 0, false, true, 1, r 1, r 2, no, 0⟩, .ballot (lf 1 1 (r 1) no no 0), .vote (lf 0 1 (r 1) no no 3),
    .reduce (lf 0 1 (r 1) no no 6), .reduce (lf 2 1 (r 1) no no 3), .scan (lf 3 2 (r 2) no no 5), .scan (lf 0 1 (r 1) no no 16),
    .pset (lf 0 8 (r 1) no no 0), .plop (lf 0 1 no no no 512), .feclr (lf 0 1 no no no 64), .feset (lf 1 1 no no no 0),
    .lbr (lf 0 1 no no no 0), .ljmp (lf 0 0 no no no 1), .ljmp ⟨0, 1, false, false, 0, no, no, no, 0⟩, .lend ⟨0, 0, true, false, 0, no, no, no, 0⟩,
    .lnop (lf 0 0 no no no 1), .ltrap (lf 1 0 no no no 0), .lbrk (lf 0 0 (r 1) no no 0), .lfence (lf 0 0 no no no (6 <<< 23)),
    .lfence (lf 0 0 no no no 1), .bar (lf 0 0 (r 1) no no 64), .qskip (lf 0 0 no no no 1024), .ctxsync (lf 0 0 no no no (1 <<< 28)),
    .rand (lf 6 1 no no no 0), .randu (lf 0 1 no no no 0), .propose (lf 0 0 no no no (1 <<< 17)), .accept (lf 2 0 (r 1) (r 2) no 0),
    .pdiscard (lf 0 0 no no no 1), .pread (lf 1 1 (r 1) no no 0), .pcount (lf 0 1 no no no 2)
  ].all (fun i => !i.wf) = true := by decide +kernel

theorem test_ill_formed_memory_and_engines : [
    (.ldv (lf 0 1 (r 2) no no (3 <<< 30)) : Instr), .ldv (lf 0 1 (r 2) no no (2 <<< 28)), .ldv (lf 0 1 (r 1) no no 0), .ldv (lf 2 1 (r 2) no no (1 <<< 21)),
    .ldv (lf 0 1 (r 2) no no (1 <<< 30 ||| 1)), .ldv (lf 0 1 (r 2) no no (2 <<< 30)), .stv (lf 0 0 (r 2) (r 3) no (1 <<< 28)),
    .stv (lf 0 1 (r 2) (r 3) no 0), .ldb (lf 1 1 (r 2) no no 0), .ldb (lf 0 1 (r 2) no no (1 <<< 18)), .stb (lf 0 0 (r 2) one no 0),
    .cstore (lf 4 0 (r 2) (r 3) no 0), .xload (lf 0 1 (r 2) no no (1 <<< 30)), .atom (lf 3 2 (r 2) (r 2) no 0), .atom (lf 0 1 (r 2) (r 3) (r 4) 0),
    .atom (lf 2 1 (r 2) (r 3) no (1 <<< 20)), .packg (lf 2 1 (r 4) no no 6), .unpackg (lf 0 1 (r 4) no no 0), .nqdec (lf 3 1 (r 4) (r 5) no 0),
    .tclook (lf 0 1 (r 2) no no 0x11), .tcpf (lf 0 0 (r 1) no no 0), .tchalo (lf 0 0 (r 2) no no 0x10), .tcinv (lf 0 0 no no no 16),
    .tcpin (lf 0 0 (r 2) no no 64), .tcflush (lf 0 0 (r 2) no no 0), .recbind (lf 0 0 (r 2) no no 16), .cpy (lf 0 0 (r 2) (r 4) (r 6) (1 <<< 24)),
    .cpyg (lf 0 0 (r 2) (r 4) (r 6) 0x210), .coll (lf 0 0 (r 2) (r 4) no (3 <<< 22)), .coll (lf 0 0 (r 2) (r 4) no (1 <<< 22)), .tcfg (lf 0 0 one no no 0),
    .trel (lf 0 0 no no no 256), .tzero (lf 0 0 (r 1) no no 0), .mma (lf 7 0 (r 2) (r 4) no 0), .mma (lf 0 0 (r 2) (r 4) (r 6) 0),
    .mmag (lf 0 0 (r 2) (r 4) (r 6) 0), .tlda (lf 2 0 (r 2) no no (1 <<< 7)), .tsta (lf 3 0 (r 2) no no (1 <<< 8)), .tmovv (lf 3 1 no no no 0)
  ].all (fun i => !i.wf) = true := by decide +kernel

/-- No decoder reads an ill-formed word: a reserved ordering, a shift amount of seven bits, an LBLK whose parameters pass
s63, and the FMUL of the worked example with rounding code 6 or a second immediate. -/
theorem test_refused_words : decode [0b010000_000110_000100_000111_000_000_11#32] = none ∧ decode [0b000110_000001_000010_00000001_000000#32] = none ∧
    decode [0b011010_000001_111111_0010_0000000000#32, 0] = none ∧ decode [0x3F000000, 0x40300060, 0x2A800480] = none ∧
    decode [0x3F000000, 0x40080078, 0x2A800480] = none := by decide +kernel

/-! ### States for one instruction -/

/-- The state with a scalar wave in focus, the wave changed by f. -/
def sState (f : Wave → Wave) : State := (State.reset.withFetchWord 32 0).setWave (waveKey 1 0 0) (f (placedWave 32))

/-- The state with a wave whose lanes run in focus, the wave changed by f. -/
def lState (f : Wave → Wave) : State := (State.reset.withFetchWord 96 0).setWave (waveKey 1 0 0) (f (placedWave 96))

/-- The wave in focus after the instruction. -/
def after (i : Instr) (s : State) : Wave :=
  match exec i s with
  | .next t => (t.wave? t.focus).getD {}
  | _ => {}

/-- The scalar registers s1, s2, … with these values. -/
def sregs (l : List W64) (w : Wave) : Wave :=
  { w with r := { w.r with s := (List.range l.length).foldl (fun m k => mput 0 m (k + 1) (l.getD k 0)) w.r.s } }

/-- The register v(n) with these values in lanes 0, 1, … -/
def vreg (n : Nat) (l : List W32) (w : Wave) : Wave :=
  { w with r := { w.r with v := (List.range l.length).foldl (fun m k => mput 0 m (32 * n + k) (l.getD k 0)) w.r.v } }

/-- The values of v(n) in the first lanes. -/
def lanes (w : Wave) (n k : Nat) : List W32 := (List.range k).map (vread w n)

/-- A predicate. -/
def kreg (n : Nat) (v : W32) (w : Wave) : Wave := { w with r := { w.r with k := mput 0 w.r.k n v } }

/-! ### Results of the spec's examples -/

/-- The table of R291. -/
theorem test_div_rem : [((7 : Int), (2 : Int), (3 : Int), (1 : Int)), (-7, 2, -3, -1), (7, -2, -3, 1), (7, 0, -1, 7), (-2 ^ 63, -1, -2 ^ 63, 0)].all (fun (x, y, q, z) =>
    let s := sState (sregs [BitVec.ofInt 64 x, BitVec.ofInt 64 y])
    sreg (after (.div 3 1 2) s) 3 = BitVec.ofInt 64 q && sreg (after (.rem 3 1 2) s) 3 = BitVec.ofInt 64 z) = true := by decide +kernel

/-- R291: x = 2^62 and y = −4. -/
theorem test_mulh_mul : let s := sState (sregs [0x4000000000000000, 0xFFFFFFFFFFFFFFFC])
    sreg (after (.mulh 3 1 2) s) 3 = 0xFFFFFFFFFFFFFFFF ∧ sreg (after (.mul 3 1 2) s) 3 = 0 := by decide +kernel

/-- R293: movl s7, 0x80000000, and the counter over the literal; lui s3 with the greatest negative field. -/
theorem test_movl_lui : let w := after (.movl 7 0x80000000) (sState id)
    sreg w 7 = 0xFFFFFFFF80000000 ∧ w.c.pc = (placedWave 32).c.pc + 8 ∧ sreg (after (.lui 3 0x80000) (sState id)) 3 = BitVec.ofInt 64 (-2 ^ 33) := by
  decide +kernel

/-- R290: bits 63:6 of a shift count are ignored, SAR copies bit 63; s0 discards (R214). -/
theorem test_shifts_and_s0 : let s := sState (sregs [0x8000000000000001, 0x41])
    sreg (after (.shl 3 1 2) s) 3 = 2 ∧ sreg (after (.shr 3 1 2) s) 3 = 0x4000000000000000 ∧ sreg (after (.sar 3 1 2) s) 3 = 0xC000000000000000 ∧
    sreg (after (.add 0 1 2) s) 0 = 0 := by decide +kernel

/-- The worked example of two waves and two tiles (R305): the arrival with mask 3 while bytes are pending, and a mismatch. -/
theorem test_barrier_example :
    let s := sState (sregs [3, 2, 4096])
    let x := match exec (.barexp 3 3) s with | .next t => t | _ => s
    let y := match exec (.bararr 3 1) x with | .next t => t | _ => s
    (getBar y (teamKey 1 0) 3).arrived = 1 ∧ (getBar y (teamKey 1 0) 3).pending = 4096 ∧ (getBar y (teamKey 1 0) 3).phase = false := by decide +kernel

/-- The worked example of one value and two draws (R247): 1 + 2^−8 to BF16. -/
theorem test_stochastic_rounding : fround bf16 (.sr 0x800000) false false (.fin false 257 (-8)) = 0x3F81 ∧
    fround bf16 (.sr 0x7FFFFF) false false (.fin false 257 (-8)) = 0x3F80 := by decide +kernel

/-- The worked example of a granule (R252): 100.0, −3.5 and the FP32 number nearest 0.01. -/
theorem test_granule : let w := after (.packg (lf 2 9 (r 4) no no 0)) (lState fun w => vreg 4 [0x42C80000] (vreg 5 [0xC0600000] (vreg 6 [0x3C23D70A] w)))
    lanes w 9 2 = [0x0012D67C, 0] ∧ mget 0 w.r.side (4 * 9) = 0x7D := by decide +kernel

/-- The worked example of the tree and the running order (R350, R351): lanes 0 to 3 hold 2^24, 1, 1, 1. -/
theorem test_reduce_scan : let s := lState fun w => vreg 4 [0x4B800000, 0x3F800000, 0x3F800000, 0x3F800000] (kreg 1 0xF w)
    lanes (after (.reduce ⟨2, 1, false, false, 5, r 4, no, no, 0⟩) s) 5 4 = [0x4B800001, 0x4B800001, 0x4B800001, 0x4B800001] ∧
    lanes (after (.scan ⟨2, 1, false, false, 5, r 4, no, no, 0⟩) s) 5 4 = [0x4B800000, 0x4B800000, 0x4B800000, 0x4B800000] := by decide +kernel

/-- The worked example of one acceptance step (R360): the decisions of lanes 0 to 5, and ln 0.5 and ln 0.25. -/
theorem test_acceptance : [((0 : Nat), (0x3F000000 : Nat), true), (0xBF800000, 0x3F000000, false), (0xBF800000, 0x3E800000, true), (0x7FC00000, 0x3F000000, false),
    (0xC0A00000, 0, true), (0, 0xBF000000, false)].all (fun (l, u, ok) => accepts l u == ok) = true ∧
    fround fp32 .rne false false (lnV (fdecode fp32 false 0x3F000000)) = 0xBF317218 ∧
    fround fp32 .rne false false (lnV (fdecode fp32 false 0x3E800000)) = 0xBFB17218 := by decide +kernel

/-- The worked example of nested divergence (R225): the LBR at 0 with k1 = 0x0000FFFF, toff 5 and roff 8. -/
theorem test_nested_divergence : let w := after (.lbr ⟨0, 1, false, false, 0, no, no, no, 0x00050008⟩) (lState (kreg 1 0xFFFF))
    getSplit w 0 = { lpc := 0x3C, mask := 0x0000FFFF, valid := true, chain := [(0x60, 0)] } ∧
    getSplit w 1 = { lpc := 0x0C, mask := 0xFFFF0000, valid := true, chain := [(0x60, 0)] } ∧ w.c.tagnext = 1 := by decide +kernel

/-- The worked example of one block of one tile (R51, R254): q = 127 and S = 2^−5 resolve to 2^−6; code 13 is 0.5625. -/
theorem test_block_scale : nq4Scale 0x3D000000 127 = 0x3C800000 ∧
    fround fp32 .rne false false (fmulV (nq4V 13) (fdecode fp32 false 0x3C800000)) = 0x3C100000 ∧ nq4V 7 = .fin false 0 (-24) := by decide +kernel

/-- The worked example of the order of roundings (R256): 2^24 + 1 ties to the even fraction. -/
theorem test_k_block_rounding : fround fp32 .rne false false (faddV false (fdecode fp32 false 0x4B800000)
    (fmulV (fdecode e4m3 false 0x30) (fdecode e4m3 false 0x40))) = 0x4B800000 := by decide +kernel

/-! ### What the statements suppose, as checks -/

/-- The parts of `ScalarAt`. -/
def scalarB (s : State) (w : Wave) (i : Instr) (regs : List (BitVec 6)) : Bool :=
  decide (s.wave? s.focus = some w) &&
  (List.range 8).all (fun n => s.ctlBits (waveWho s w).d (0xA000 + 0x80 * (waveWho s w).cluster + 0x10 * n) 0 0 = 0) &&
  i.wf && regs.all fun r => !emptyS w r

theorem scalarB_spec {s : State} {w : Wave} {i : Instr} {regs : List (BitVec 6)} (h : scalarB s w i regs = true) : ScalarAt s w i regs := by
  simp only [scalarB, Bool.and_eq_true, decide_eq_true_eq, List.all_eq_true, List.mem_range, Bool.not_eq_true'] at h
  exact ⟨h.1.1.1, h.1.1.2, h.1.2, h.2⟩

/-- The parts of `LaneAt`. -/
def laneB (s : State) (w : Wave) (i : Instr) (sh : Shape) (E : W32) : Bool :=
  let read := (sh.srcs.flatMap srcRegs ++ sh.more).map Prod.fst
  decide (s.wave? s.focus = some w) &&
  (List.range 8).all (fun n => s.ctlBits (waveWho s w).d (0xA000 + 0x80 * (waveWho s w).cluster + 0x10 * n) 0 0 = 0) &&
  i.wf && decide (E = execLanes s w sh.f) && decide (E ≠ 0) &&
  (!laneUniform sh.op || decide ((getSplit w s.split).mask = BitVec.allOnes 32)) && !sh.early w && decide (w.c.unfin = 0) &&
  (read ++ sh.dst ++ sh.dstMore ++ sh.named ++ sh.range).all (fun n => decide (n < w.winsize) && !isBank w n) &&
  (read ++ sh.dst ++ sh.dstMore).all (fun n => !emptyV w n) && sh.noGroup.all (fun n => !isHome w n && !isBank w n) &&
  read.all (fun n => (List.range 32).all fun L => (mfind w.r.poison (4 * viewLine w n L + L / 8)).isNone) &&
  (streamsOf sh.srcs).all (fun p => !streamBad w p) && decide (streamAccs w E sh.srcs = [])

theorem laneB_spec {s : State} {w : Wave} {i : Instr} {sh : Shape} {E : W32} (h : laneB s w i sh E = true) : LaneAt s w i sh E := by
  simp only [laneB, Bool.and_eq_true, Bool.or_eq_true, decide_eq_true_eq, List.all_eq_true, List.mem_range, Bool.not_eq_true',
    Option.isNone_iff_eq_none] at h
  obtain ⟨⟨⟨⟨⟨⟨⟨⟨⟨⟨⟨⟨⟨h1, h2⟩, h3⟩, h4⟩, h5⟩, h6⟩, h7⟩, h8⟩, h9⟩, h10⟩, h11⟩, h12⟩, h13⟩, h14⟩ := h
  refine ⟨h1, h2, h3, h4, h5, fun hu => ?_, h7, h8, fun n hn => h9 n hn, fun n hn => h10 n hn, fun n hn => h11 n hn,
    fun n hn L hL => h12 n hn L hL, fun p hp => h13 p hp, h14⟩
  rcases h6 with h6 | h6
  · rw [hu] at h6; cases h6
  · exact h6

/-- The place of an access to n bytes, if it is storage. -/
def placed? (s : State) (w : Wave) (k : AccKind) (va : W64) (n : Nat) : Option Placed :=
  match place s (waveWho s w) k va n none w.launch with
  | .ok p => some p
  | _ => none

/-- The state with the frame of the access brought in. -/
def broughtIn (s : State) (w : Wave) (k : AccKind) (va : W64) (p : Placed) : State :=
  match bring (cachePage s (waveWho s w).d (waveWho s w).cluster (waveWho s w).pindex (waveWho s w).pid va) k (waveWho s w).d p with
  | .ok u => u
  | _ => s

/-- The parts of `Reaches`. -/
def reachesB (s : State) (w : Wave) (k : AccKind) (va : W64) (n : Nat) (p : Placed) : Bool :=
  let who := waveWho s w
  !scalarHeld w && decide (placed? s w k va n = some p) && !fillFaults s k who.d p &&
  (decide (k ≠ .load) || !atomicPending s who.d s.focus p.req.base (p.pa - p.req.base) n) && decide (va.toNat % n = 0) &&
  (ownImage w va).isNone &&
  (match bring (cachePage s who.d who.cluster who.pindex who.pid va) k who.d p with | .ok _ => true | _ => false) &&
  (accessPoison (broughtIn s w k va p) k who.d p n).isNone

theorem reachesB_spec {s : State} {w : Wave} {k : AccKind} {va : W64} {n : Nat} {p : Placed} (h : reachesB s w k va n p = true) :
    Reaches s w k va n p (broughtIn s w k va p) := by
  simp only [reachesB, Bool.and_eq_true, Bool.or_eq_true, decide_eq_true_eq, Bool.not_eq_true', Option.isNone_iff_eq_none] at h
  obtain ⟨⟨⟨⟨⟨⟨⟨h0, h1⟩, h2⟩, h3⟩, h4⟩, h5⟩, h6⟩, h7⟩ := h
  refine ⟨h0, ?_, h2, fun hk => h3.resolve_left fun hn => hn hk, h4, h5, ?_, h7⟩
  · unfold placed? at h1
    split at h1
    · injection h1 with h1; subst h1; assumption
    · cases h1
  · unfold broughtIn
    split at h6
    · rename_i u hu; rw [hu]
    · cases h6

/-- The page at 0x10000 stands in LPDDR6 of die 0. -/
def place0 (va : Nat) : Placed :=
  { pa := va, leaf := placedLeaf
    req := { tile := flatTile va, base := va / 2048 * 2048, home := 0, enc := false, pcoh := false, repl := 0, nq4 := false, side := 0, owner := 1 } }

/-! ### Witnesses: scalar instructions -/

/-- The wave of `sState f`. -/
def sw (f : Wave → Wave) : Wave := f (placedWave 32)

theorem test_meets_ScalarRegisterArithmetic : [(.add 1 2 3 : Instr), .sub 0 2 2, .and 63 2 3, .or 1 2 3, .xor 1 1 1, .shl 1 2 3, .shr 1 2 3, .sar 1 2 3,
    .mul 1 2 3, .mulh 1 2 3, .min 1 2 3, .max 1 2 3, .slt 1 2 3, .sltn 1 2 3].all (fun i => scalarB (sState id) (sw id) i [1, 2, 3, 0, 63]) = true := by
  decide +kernel

theorem test_meets_DivisionNeverTraps : [((7 : W64), (0 : W64)), (0x8000000000000000, 0xFFFFFFFFFFFFFFFF), (7, 2), (0x4000000000000000, BitVec.ofInt 64 (-4))].all
    (fun p => let f := sregs [p.1, p.2]
      [(.div 3 1 2 : Instr), .rem 3 1 2, .mulh 3 1 2, .mul 3 1 2].all (fun i => scalarB (sState f) (sw f) i [3, 1, 2]) &&
        sreg (sw f) 1 = p.1 && sreg (sw f) 2 = p.2) = true := by decide +kernel

theorem test_meets_ScalarImmediates : [(.addi 3 1 0x2000 : Instr), .andi 3 1 0x1FFF, .ori 0 1 1, .xori 3 1 1, .slti 3 1 1, .shli 3 1 63, .shri 3 1 0, .sari 3 1 63,
    .lui 3 0x80000, .movl 3 0xFFFFFFFF].all (fun i => scalarB (sState id) (sw id) i [3, 1, 0]) = true := by decide +kernel

/-- Both outcomes of every condition. -/
theorem test_meets_ConditionalBranches : [((0 : W64), (0 : W64)), (0xFFFFFFFFFFFFFFFF, 1), (1, 0xFFFFFFFFFFFFFFFF)].all (fun p =>
    let f := sregs [p.1, p.2]
    [(.beq 1 2 0x2000 : Instr), .bne 1 2 0x1FFF, .blt 1 2 0, .bge 1 2 1, .bltn 1 2 2, .bgen 1 2 3].all fun i => scalarB (sState f) (sw f) i [1, 2]) = true := by
  decide +kernel

/-- A wave whose counter is on a page that is not mapped. -/
def lostPage (w : Wave) : Wave := { w with c := { w.c with pc := 0x40000000 } }

theorem test_meets_Jumps : scalarB (sState id) (sw id) (.jmp 0x2000000) [] && scalarB (sState id) (sw id) (.call 0x1FFFFFF) [63] &&
    scalarB (sState (sregs [0x10000])) (sw (sregs [0x10000])) (.jr 1) [1] && scalarB (sState (sregs [0x10002])) (sw (sregs [0x10002])) (.jr 1) [1] &&
    decide (((0x10000 : W64).toNat % 4 = 0) ∧ (0x10002 : W64).toNat % 4 ≠ 0) &&
    (let s := sState lostPage
     let v := tick s
     decide (s.agenda = [] ∧ oldestEvent v [] = none ∧ v.wave? v.focus = some (sw lostPage) ∧ v.lane = false) && focusReady v (sw lostPage) &&
       !(waveIssues v (sw lostPage) && asyncDue (sw lostPage)) &&
       match fetchWord v (sw lostPage) (sw lostPage).c.pc 3 with | .page _ => true | _ => false) = true := by decide +kernel

/-- The scalar registers s1, s2, … with the wave's image away from the placed page. -/
def away (l : List W64) (w : Wave) : Wave := { sregs l w with ctxbase := 0x40000000 }

/-- s1 names the placed page. -/
def page1 : Wave → Wave := away [0x10000, 5, 6]

theorem test_meets_ScalarLoads : scalarB (sState page1) (sw page1) (.sld 4 1 3 8) [1, 4] && reachesB (sState page1) (sw page1) .load (0x10000 + 8) 8 (place0 0x10008) &&
    scalarB (sState page1) (sw page1) (.sld 4 1 0 0x7FF) [1, 4] && reachesB (sState page1) (sw page1) .load (0x10000 + 0x7FF) 1 (place0 0x107FF) &&
    scalarB (sState page1) (sw page1) (.slda 0 1 5 8) [1, 0] &&
    reachesB (refetchAt (sState page1) (sw page1) 5 0x10008 none) (sw page1) .load 0x10008 8 (place0 0x10008) = true := by decide +kernel

theorem test_meets_ScalarStores : (let p := place0 0x107F8
    scalarB (sState page1) (sw page1) (.sst 2 1 3 0x7F8) [1, 2] && reachesB (sState page1) (sw page1) .store (0x10000 + 0x7F8) 8 p &&
    scalarB (sState page1) (sw page1) (.sstr 2 1 5 8) [1, 2] && reachesB (sState page1) (sw page1) .store (0x10000 + 8) 8 (place0 0x10008) &&
    decide (p.req.home.val = (waveWho (sState page1) (sw page1)).d) && !p.req.pcoh &&
    decide (p.req.base % 2048 = 0 ∧ p.req.base ≤ p.pa ∧ p.pa - p.req.base + 8 ≤ 2048) && !releaseWaits (sState page1) (sw page1) 5) = true := by decide +kernel

theorem test_meets_ScalarAtomics : (let p := place0 0x10000
    let s := sState page1
    let w := sw page1
    [(.samoAdd 2 1 3 5 2 : Instr), .samoAnd 2 1 3 0 0, .samoOr 2 1 3 1 1, .samoXor 2 1 3 2 2, .samoMin 0 1 3 3 0, .samoMax 2 1 3 4 1, .samoSwap 2 1 3 5 2,
      .samoCas 2 1 3 5 2].all (fun i => scalarB s w i [1, 3, 2]) && reachesB s w .atomic (sreg w 1) 8 p &&
    !releaseWaits s w 5 && (aolAdmit (arrived (broughtIn s w .atomic (sreg w 1) p) w (waveWho s w) (sreg w 1) 2 .atomic p) 0 p.req.tile w.launch w.team w.idx).isSome) = true := by
  decide +kernel

/-- A stream table entry at 0x10000: BASE 0x11000, 4 steps of 128 bytes, lanes 4 bytes apart; with `bad` a reserved byte is set. -/
def streamS (bad : Bool) (f : Wave → Wave) : State :=
  (sState f).unitWrite 0 0x10000 (leBytes 8 0x11000 ++ leBytes 4 128 ++ leBytes 4 4 ++ leBytes 4 0 ++ leBytes 2 4 ++ leBytes 9 0 ++ leBytes 1 (if bad then 1 else 0))

theorem test_meets_LaneBlockIssue :
    scalarB (sState page1) (sw page1) (.lblk 4 1 8 0 0xFFFFFFFC) (4 :: (List.range 8).map fun k => (1 : BitVec 6) + BitVec.ofNat 6 k) &&
    scalarB (sState page1) (sw page1) (.lblk 0 1 0 1023 2) [0] && (freeEntry (sw page1)).isSome && drained (sw page1) &&
    scalarB (sState page1) (sw page1) .ldrain [] && scalarB (sState page1) (sw page1) (.strel 7) [] &&
    [false, true].all (fun bad => let s := streamS bad page1
      let u := broughtIn s (sw page1) .load 0x10000 (place0 0x10000)
      scalarB s (sw page1) (.stbind 7 1 0) [1] && reachesB s (sw page1) .load 0x10000 32 (place0 0x10000) &&
        (streamOf (loadBytes u 0 (place0 0x10000) 0 32)).isNone == bad) = true := by decide +kernel

theorem test_meets_CopyBatches : scalarB (sState id) (sw id) (.bclose 0) [0] && scalarB (sState id) (sw id) (.bclose 4) [4] &&
    [false, true].all (fun waits => let f : Wave → Wave := fun w => sregs [5] { w with y := { w.y with batch := 2, bdone := if waits then 1 else 2 } }
      scalarB (sState f) (sw f) (.bwait 1) [1] &&
        (decide ((sw f).y.bdone.toNat < min (sreg (sw f) 1).toNat (sw f).y.batch.toNat)) == waits) = true := by decide +kernel

/-- A wave with a handler. -/
def handled (f : Wave → Wave) (w : Wave) : Wave := f { w with y := { w.y with tvec := 0x10400 } }

theorem test_meets_TeamBarriers : [((1 : W64), (.bararr 3 1 : Instr), true), (2, .bararr 3 1, false)].all (fun (m, i, good) =>
      let f := handled (sregs [m])
      let s := sState f
      let w := sw f
      let x := getBar s (teamKey w.launch w.team) 3
      scalarB s w i [1] && !releaseWaits s w 2 && !x.lane && (s.team? (teamKey w.launch w.team)).isSome && !w.c.intrap && decide (w.y.tvec ≠ 0) && !x.opened &&
        ((BitVec.extractLsb' 0 16 m).getLsbD w.idx == good)) &&
    (let f := sregs [1]
     let s := sState f
     let x := getBar s (teamKey 1 0) 3
     scalarB s (sw f) (.barexp 3 1) [1] && scalarB s (sw f) (.barwait 3 1) [1] && scalarB s (sw f) (.barwait 3 0) [0] &&
       (x.phase == (0 : W64).getLsbD 0) && (x.phase != (1 : W64).getLsbD 0)) = true := by decide +kernel

theorem test_meets_FencesAndScopes : (let s := sState id
    let w := sw id
    [(0 : BitVec 5), 5, 16, 31].all (fun n => scalarB s w (.fence n) [] && !releaseWaits s w n.toNat) && scalarB s w .recfence [] && !releaseWaits s w 5 &&
    scalarB s w (.scopeset 56 15) ((List.range 8).map fun k => (56 : BitVec 6) + BitVec.ofNat 6 k) &&
    scalarB s w (.scopeset 0 0) ((List.range 8).map fun k => (0 : BitVec 6) + BitVec.ofNat 6 k)) = true := by decide +kernel

theorem test_meets_SystemRegisterReads : [(0x000 : BitVec 12), 0x060, 0x003, 0x7FF, 0x800, 0xFFF].all
    (fun n => scalarB (sState id) (sw id) (.csrr 5 n) [5]) = true := by decide +kernel

theorem test_meets_SystemRegisterWrites : drained (sw id) && [(0x020 : BitVec 12), 0x029, 0x013, 0x060, 0x000, 0x7FF, 0x800, 0xFFF].all
    (fun n => scalarB (sState id) (sw id) (.csrw 5 n) [5]) = true := by decide +kernel

theorem test_meets_YieldNopUdfAndExit : (let s := sState id
    let w := sw id
    [(.yield : Instr), .nop, .udf 0, .udf 0x3FFFFFF, .brk 0, .scalarReservedOpcode 0xC4000000, .scalarReservedOpcode 0xFFFFFFFF, .exit].all (fun i => scalarB s w i []) &&
    drained w && w.landings.isEmpty && !pendingOf s 0 s.focus && (s.cluster 0).seq.isEmpty &&
    (teamWaves (s.setWave s.focus (endWave w)) (teamKey 1 0)).all (fun p => p.2.ended) &&
    (let s2 := s.setWave (waveKey 1 0 1) { w with idx := 1 }
     scalarB s2 w .exit [] && !(teamWaves (s2.setWave s2.focus (endWave w)) (teamKey 1 0)).all fun p => p.2.ended)) = true := by decide +kernel

theorem test_meets_ServiceCalls : scalarB (sState id) (sw id) (.syscall 7) [] && decide ((sw id).wait = .none) && drained (sw id) &&
    (sw id).landings.isEmpty && !releaseWaits (sState id) (sw id) 5 &&
    [true, false].all (fun ok => let f : Wave → Wave := fun w => { w with wait := .served ok }
      decide ((sState f).wave? (sState f).focus = some (sw f) ∧ (sw f).wait = .served ok)) &&
    (let f : Wave → Wave := fun w => { w with wait := .synced }
     decide ((sState f).wave? (sState f).focus = some (sw f) ∧ (sw f).wait = .synced)) = true := by decide +kernel

/-- A wave in its handler, to return to split n at lane address off with the lanes m. -/
def inHandler (n : W32) (off : W64) (m : W32) (w : Wave) : Wave :=
  { w with
    y := { w.y with tsplit := n, tlpc := w.y.lanebase + off, tamask := m }
    c := { w.c with intrap := true } }

theorem test_meets_ReturnFromTrap : scalarB (sState id) (sw id) .trapret [] && !(sw id).c.intrap &&
    [(inHandler 7 0 0, true, true), (inHandler 0 0xFFFFFFFC 1, true, true), (inHandler 3 0 0x80000000, true, true), (inHandler 0 2 1, false, true),
      (inHandler 0 0x100000000 1, true, false)].all (fun (f, four, low) => let w := sw f
        scalarB (sState f) w .trapret [] && w.c.intrap && !w.c.hq && (decide ((w.y.tlpc - w.y.lanebase).toNat % 4 = 0) == four) &&
          (decide ((w.y.tlpc - w.y.lanebase).toNat ≤ 2 ^ 32 - 4) == low) && (decide (w.y.tsplit.toNat % 8 = 7) || decide (w.y.tamask ≠ 0))) = true := by
  decide +kernel

/-- s1 is a queue handle of die 0 and one outside the view, s2 the address of a packet. -/
theorem test_meets_LaunchesAndEvents : (let f := sregs [0x100003, 0x10000]
    let s := sState f
    let w := sw f
    scalarB s w (.launch 3 1 2) [1, 2, 3] && decide (w.wait = .none) && decide ((sreg w 2).toNat % 128 = 0) &&
      !(s.die 0).image.view.getLsbD 1) &&
    (let f := away [3, 0x10000]
     let s := (sState f).modDie 0 fun x => { x with image := { x.image with view := 1 } }
     let w := sw f
     scalarB s w (.launch 3 1 2) [1, 2, 3] && (s.die 0).image.view.getLsbD 0 && decide (bitsOf 3 28 23 = s.pkg) && !releaseWaits s w 5 &&
       reachesB s w .load 0x10000 128 (place0 0x10000) &&
       decide ((arrived (broughtIn s w .load 0x10000 (place0 0x10000)) w (waveWho s w) 0x10000 3 .load (place0 0x10000)).pkg = s.pkg)) &&
    (let f : Wave → Wave := fun w => { w with wait := .launched 3 }
     decide ((sState f).wave? (sState f).focus = some (sw f) ∧ (sw f).wait = .launched 3)) &&
    [(0 : W64), 1].all (fun e => let f := away [0x10000, e]
      let r := refetchAt (sState f) (sw f) 5 0x10000 none
      scalarB (sState f) (sw f) (.waitev 3 1 2) [1, 2, 3] && reachesB r (sw f) .load 0x10000 16 (place0 0x10000) &&
        ((leNat ((loadBytes (broughtIn r (sw f) .load 0x10000 (place0 0x10000)) 0 (place0 0x10000) 0 16).take 4) ==
          (sreg (sw f) 2).toNat % 2 ^ 32) == decide (e = 0))) = true := by decide +kernel

/-! ### Records -/

/-- The record of the worked example (R155, R272), with this id and base. -/
def recBytes (tid base : Nat) : List Byte :=
  leBytes 4 tid ++ [0x0B, 2, 0, 0] ++ leBytes 8 base ++ leBytes 4 300 ++ leBytes 4 200 ++ leBytes 4 1 ++ leBytes 4 1 ++ [4, 5, 0, 0] ++ leBytes 12 0 ++
    leBytes 8 38912 ++ leBytes 8 272384 ++ leBytes 8 272384 ++ leBytes 56 0

/-- The worked example of a record: it passes the checks; element (37, 70) lies in tile (2, 2), 81,920 bytes on, at index 101. -/
theorem test_record_example : let x := recordAt 0x10000 (recBytes 0x20005 0x400000)
    x.ok = true ∧ x.count 0 = 19 ∧ x.count 1 = 7 ∧ tensorHome x.tid = 1 ∧
    x.element? (fun d => [37, 70, 0, 0].getD d 0) = some ({ tile := ⟨0x20005, 0x002002⟩, va := 0x400000 + 81920, nq4 := false, side := 0 }, 101 * 4) := by
  decide +kernel

/-- The record at 0x10000 with its tensor table on die 0: entry 5 holds the address, the process, and bit 0 of its flags. `bad`
spoils the rank. -/
def recS (bad : Bool) (s : State) : State :=
  let s := (s.setCtl 0 0x5C00 0x40001).unitWrite 0 0x10000 (recBytes 5 0x400000)
  let s := s.unitWrite 0 (0x40000 + 160) (leBytes 8 0x10000 ++ leBytes 4 (waveWho s (placedWave 32)).pid.toNat ++ [0, 0, 1, 0])
  if bad then s.unitWrite 0 0x10005 [9] else s

/-- The record as the slot holds it. -/
def rec0 : Record := recordAt 0x10000 (recBytes 5 0x400000)

/-- Slot 3 of the wave's team is bound to the record. -/
def slotS (s : State) : State := setSlot s (placedWave 32) 3 rec0

theorem test_meets_RecordReload : (slotOf (sState page1) (sw page1) 3).isNone && scalarB (sState page1) (sw page1) (.recload 3) [] && drained (sw page1) &&
    [false, true].all (fun bad => let s := slotS (recS bad (sState page1))
      let w := sw page1
      let p := place0 0x10000
      let q := place0 0x10040
      let u := broughtIn s w .load 0x10000 p
      let s1 := arrived u w (waveWho s w) 0x10000 3 .load p
      let v := broughtIn s1 w .load 0x10040 q
      let s2 := arrived v w (waveWho s1 w) 0x10040 3 .load q
      let x := recordAt 0x10000 (loadBytes u 0 p 0 64 ++ loadBytes v 0 q 0 64)
      scalarB s w (.recload 3) [] && decide (slotOf s w 3 = some rec0) && reachesB s w .load 0x10000 64 p && scalarB s1 w (.recload 3) [] &&
        reachesB s1 w .load 0x10040 64 q && ((x.ok && x.entryOk s2 (waveWho s2 w).pid) == !bad)) = true := by decide +kernel

/-! ### Witnesses: lane instructions -/

/-- The wave of `lState f`. -/
def lw (f : Wave → Wave) : Wave := f (placedWave 96)

/-- The check of `LaneAt` where the guard is k0. -/
def laneOk (f : Wave → Wave) (i : Instr) (sh : Shape) : Bool := laneB (lState f) (lw f) i sh (BitVec.allOnes 32)

def v1 (n : BitVec 10) : Src × Bool := (r n, false)
def v2 (n : BitVec 10) : Src × Bool := (r n, true)

/-- Shapes of one, two and three sources with fields f. -/
def shape (op : Nat) (f : LaneFields) (n : Nat) : Shape :=
  { op := op, f := f, srcs := [(f.a, f.wide), (f.b, f.wide), (f.c, f.wide)].take n, dst := pairOf f.wide f.dest.toNat }

theorem test_meets_LaneIntegers : [(0 : BitVec 3), 1, 6, 7].all (fun ty =>
    let f := lf ty 1022 (r 4) (r 6) no 0
    let g := lf ty 6 (r 4) (r 6) (r 8) 1
    [((.iadd f : Instr), 0x01), (.isub f, 0x02), (.imul f, 0x03), (.imulh f, 0x05), (.idiv f, 0x06), (.imin f, 0x07), (.imax f, 0x08)].all
      (fun p => laneOk id p.1 (shape p.2 f 2)) && laneOk id (.imad g) (shape 0x04 g 3) && (g.wide || laneOk id (.dot4 g) (shape 0x22 g 3))) = true := by
  decide +kernel

theorem test_meets_LaneBits : [(0 : BitVec 3), 6].all (fun ty =>
    let f := lf ty 8 (r 4) (r 6) no 0
    let g := lf ty 8 (r 4) no no 0
    [((.land f : Instr), 0x09), (.lor f, 0x0A), (.lxor f, 0x0B), (.lshl f, 0x0C), (.lshr f, 0x0D), (.lsar f, 0x0E), (.sel f, 0x12)].all
      (fun p => laneOk id p.1 (shape p.2 f 2)) && laneOk id (.popc g) (shape 0x0F g 1) && laneOk id (.clz g) (shape 0x10 g 1)) = true := by decide +kernel

theorem test_meets_LaneFloatArithmetic : [(2 : BitVec 3), 3, 4, 5].all (fun ty =>
    let f := lf ty 8 (r 4) (r 6) no 0
    let g := lf ty 8 (r 4) (r 6) (r 10) 3
    [((.fadd f : Instr), 0x13), (.fsub f, 0x14), (.fmul f, 0x15), (.fmin f, 0x17), (.fmax f, 0x18)].all (fun p => laneOk id p.1 (shape p.2 f 2)) &&
      laneOk id (.ffma g) (shape 0x16 g 3) && (decide (ty.toNat < 4) || (!g.wide && laneOk id (.hfma2 g) (shape 0x23 g 3)))) = true := by decide +kernel

theorem test_meets_LaneFloatFunctions : (let f := lf 2 8 (r 4) no no 0
    [((.rcp f : Instr), 0x1C), (.rsq f, 0x1D), (.sqrt f, 0x1E), (.exp2 f, 0x1F), (.log2 f, 0x20), (.ln f, 0x21), (.frnd f, 0x1A)].all
      (fun p => laneOk id p.1 (shape p.2 f 1)) &&
    [(2 : BitVec 3), 3, 4, 5].all (fun ty => let g := lf ty 8 (r 4) (r 6) no 0
      laneOk id (.fscale g) { op := 0x60, f := g, srcs := [(r 4, g.wide), v1 6], dst := pairOf g.wide 8 }) &&
    [(0x320 : W32), 0x230, 0x82C, 0x720].all (fun x => let g := lf 0 8 (r 4) no no x
      laneOk id (.fcvt g) { op := 0x1B, f := g, srcs := [(r 4, cvWide (g.xf 7 4))], dst := pairOf (cvWide (g.xf 11 8)) 8 })) = true := by decide +kernel

theorem test_meets_LanePredicates : [(0 : BitVec 10), 7].all (fun d =>
    let f := lf 6 d (r 4) (r 6) no 5
    let g := lf 2 d (r 4) (r 6) no 7
    let h := lf 0 d (r 4) no no 0
    let k := lf 0 d no no no 4
    laneOk id (.icmp f) { op := 0x11, f := f, srcs := [v2 4, v2 6] } && laneOk id (.fcmp g) { op := 0x19, f := g, srcs := [v1 4, v1 6] } &&
      laneOk id (.pset h) { op := 0x2F, f := h, srcs := [v1 4] } && laneOk id (.plop k) { op := 0x30, f := k }) = true := by decide +kernel

/-- An index that names a register in every lane, and one that does not. -/
theorem test_meets_LaneMoves : (let f := lf 6 8 (r 4) no no 0
    laneOk id (.mov f) (shape 0x24 f 1) &&
    [(0 : W32), 6].all (fun x => let g := lf 0 8 no no no x
      laneOk id (.movsp g) { shape 0x25 g 0 with named := [] }) &&
    (let g := lf 0 8 (r 9) no no 7
     laneOk id (.movsp g) { shape 0x25 g 0 with named := [9] }) &&
    [((0 : W32), true), (1023, false), (0xFFFFFFFF, false)].all (fun (x, good) =>
      let h : Wave → Wave := vreg 4 (List.replicate 32 x)
      let g := lf 6 8 (r 4) (r 5) no 0
      let p := lf 6 0 (r 4) (r 5) (r 6) 0
      laneOk h (.rget g) { op := 0x26, f := g, srcs := [v1 4, v1 5], dst := [8, 9] } &&
        laneOk h (.rput p) { op := 0x27, f := p, srcs := [v1 4, v1 5, v2 6] } &&
        (List.range 32).all fun L => indexBad (lw h) true (sgn 32 (source (lState h) (lw h) g (r 4) false L).toNat) == !good && (!good || [0, 1].all fun n =>
          !emptyV (lw h) (x.toNat + n) && (mfind (lw h).r.poison (4 * viewLine (lw h) (x.toNat + n) L + L / 8)).isNone))) = true := by decide +kernel

/-- A block with a result register that is not written yet. -/
def resBlock (w : Wave) : Wave := setEntry w 0 { getEntry w 0 with res := 5 }

theorem test_meets_CrossLane : (let f := lf 0 8 (r 4) (r 6) no 0
    let a := lf 0 8 (r 4) no no 0
    let fr : LaneFields := ⟨0, 0, false, true, 0, r 4, r 6, no, 0⟩
    let ar : LaneFields := ⟨0, 0, false, true, 0, r 4, no, no, 0⟩
    let v (op : Nat) (f : LaneFields) (n : Nat) : Shape := { op := op, f := f, srcs := [v1 4, v1 6].take n, dst := [8], cross := true }
    let x (op : Nat) (f : LaneFields) (n : Nat) : Shape := { op := op, f := f, srcs := [v1 4, v1 6].take n, res := true, cross := true }
    laneOk id (.shfl f) (v 0x28 f 2) && laneOk id (.shflx f) (v 0x29 f 2) && laneOk id (.bcast f) (v 0x2A f 2) && laneOk id (.ballot a) (v 0x2B a 1) &&
    laneOk id (.vote a) (v 0x2C a 1) && laneOk id (.reduce a) (v 0x2D a 1) && laneOk id (.scan a) (v 0x2E a 1) &&
    laneOk resBlock (.bcast fr) (x 0x2A fr 2) && laneOk resBlock (.ballot ar) (x 0x2B ar 1) && laneOk resBlock (.vote ar) (x 0x2C ar 1) &&
    laneOk resBlock (.reduce ar) (x 0x2D ar 1) && decide ((getEntry (lw resBlock) (headEntry (lw resBlock))).res ≠ 0) &&
    !(getEntry (lw resBlock) (headEntry (lw resBlock))).resw) = true := by decide +kernel

/-- Stream 5 is bound and one step before its end. -/
def nearEnd (w : Wave) : Wave := setStream w 5 { bound := true, pos := 3, count := 4 }

theorem test_meets_LaneControl : (let f := lf 0 0 no no no 0
    let e := lf 0 960 no no no 63
    let q := lf 0 0 no no no 0x3FD
    let fe (op : Nat) : Shape := { op := op, f := e, named := [960], range := (List.range 64).map fun k => 960 + k }
    laneOk id (.lnop f) { op := 0x36, f := f } && laneOk id (.feclr e) (fe 0x31) && laneOk id (.feset e) (fe 0x32) &&
    (List.range 64).all (fun k => !pendingV (lw id) (960 + k)) && laneOk id (.lfence f) { op := 0x40, f := f } && !releaseWaits (lState id) (lw id) f.scope5 &&
    laneOk id (.ctxsync f) { op := 0x43, f := f } && (lw id).landings.isEmpty && laneOk id (.qskip q) { op := 0x42, f := q } && !(getStream (lw id) 5).bound &&
    laneOk nearEnd (.qskip q) { op := 0x42, f := q } && (getStream (lw nearEnd) 5).bound) = true := by decide +kernel

/-- A wave with four splits, the one in focus with the lanes 0 to 15; or with a stack of four. -/
def crowded (stack : Nat) (w : Wave) : Wave :=
  [1, 2, 3].foldl (fun w n => setSplit w n { valid := true, mask := BitVec.twoPow 32 (15 + n) })
    (setSplit (kreg 1 1 w) 0 { getSplit w 0 with stack := List.replicate stack { pmask := 0, ppc := 0, rpc := 0, phase := false } })

theorem test_meets_LaneBranches : (let f := lf 0 0 no no no 0x00050008
    let g : LaneFields := ⟨0, 1, false, false, 0, no, no, no, 0x80007FFF⟩
    let half := kreg 1 0xFFFF
    let ok (h : Wave → Wave) (E : W32) : Bool := laneB (lState h) (lw h) (.lbr g) { op := 0x33, f := g } E && decide ((getSplit (lw h) 0).mask &&& ~~~E ≠ 0)
    laneOk id (.lbr f) { op := 0x33, f := f } && decide ((getSplit (lw id) 0).mask &&& ~~~(BitVec.allOnes 32) = (0 : W32)) &&
    ok half 0xFFFF && !(lw half).c.intrap && decide ((validSplits (lw half)).length < 4 ∧ (getSplit (lw half) 0).chain.length < 2 ∧ freeSplit (lw half) ≠ 0) &&
    ok (fun w => { half w with c := { (half w).c with intrap := true } }) 0xFFFF &&
    [3, 4].all (fun n => ok (crowded n) 1 && !decide ((validSplits (lw (crowded n))).length < 4) && decide ((getSplit (lw (crowded n)) 0).stack.length = n)) &&
    (let j := lf 0 0 no no no 0x80000000
     laneOk id (.ljmp j) { op := 0x34, f := j })) = true := by decide +kernel

/-- The splits of a wave at its LEND: with a stack entry in each phase, among others, and alone with blocks that repeat, end or
owe a result. -/
theorem test_meets_LaneEnd : (let f := lf 0 0 no no no 0
    let entry (m : W32) (p : Bool) (w : Wave) : Wave :=
      setSplit w 0 { getSplit w 0 with stack := [{ pmask := m, ppc := 12, rpc := 24, phase := p }] }
    let rep (a b : BitVec 10) (w : Wave) : Wave := setEntry w 0 { getEntry w 0 with iter := a, rep := b }
    let ok (h : Wave → Wave) : Bool := laneOk h (.lend f) { op := 0x35, f := f } && (getSplit (lw h) 0).valid && !(lw h).c.intrap
    [entry 1 false, entry 1 true, crowded 0, rep 0 1, rep 1023 1023, resBlock].all ok && decide (validSplits (lw (rep 0 1)) = [0]) &&
    decide (validSplits (lw (crowded 0)) ≠ [0]) && decide (headEntry (lw id) ≠ 4)) = true := by decide +kernel

theorem test_meets_LaneTrapsAndBarrier : (let f := lf 0 0 no no no 0xFFFFFFFF
    let g := lf 0 0 no no no 0
    let b := lf 0 0 (r 4) no no 63
    let all : Wave → Wave := handled (vreg 4 (List.replicate 32 0xFFFFFFFF))
    laneOk id (.ltrap f) { op := 0x37, f := f } && laneOk id (.lbrk g) { op := 0x38, f := g } && laneOk all (.bar b) { op := 0x41, f := b, srcs := [v1 4] } &&
    ((lState all).team? (teamKey 1 0)).isSome && !(getBar (lState all) (teamKey 1 0) 63).opened && popcount (0xFFFFFFFF : W32) = 32 &&
    laneOk (handled id) (.bar b) { op := 0x41, f := b, srcs := [v1 4] } && !(lw (handled id)).c.intrap && decide ((lw (handled id)).y.tvec ≠ 0)) = true := by
  decide +kernel

/-! ### Witnesses: lane accesses, tiles and engines -/

/-- The wave's image away from the placed page; v2 and v3 hold the addresses a + n × L of the lanes L. -/
def at4 (a n : Nat) (w : Wave) : Wave := vreg 2 ((List.range 32).map fun L => BitVec.ofNat 32 (a + n * L)) { w with ctxbase := 0x40000000 }

/-- The parts of `Gathered`, with what gathering gives. -/
def gathers (s : State) (w : Wave) (i : Instr) (mem : List LaneAcc) : Option (State × Gather) :=
  let x := mem.foldl (gatherOne w) (s, {})
  if (scanAccs s w i mem).isNone && x.2.accs.all (fun p => match p.2 with | .here _ => true | _ => false) && decide (x.2.poison = 0) then some x else none

/-- The accesses of the lanes, if none traps. -/
def accsOf (s : State) (w : Wave) (m : MemForm) (E : W32) : Option (List LaneAcc) :=
  match laneAddrs s w m E with
  | .ok l => some l
  | .error _ => none

/-- A load meets storage in every lane. -/
def loadOk (h : Wave → Wave) (i : Instr) (m : MemForm) (E : W32) : Bool :=
  let s := lState h
  let w := lw h
  laneB s w i (memShape s w m) E &&
    match (accsOf s w m E).bind (gathers s w i) with
    | some (u, g) => decide ((loadAll u w g.accs).2.2 = 0)
    | none => false

/-- A store is performed in every lane. -/
def storeOk (h : Wave → Wave) (i : Instr) (m : MemForm) (E : W32) (bytes : Nat → List Byte) : Bool :=
  let s := lState h
  let w := lw h
  laneB s w i (memShape s w m) E &&
    match (accsOf s w m E).bind (gathers s w i) with
    | some (u, g) => decide ((storeAll m.ordered (fun a => bytes a.lane) [] g.accs (u, dropPrefetch w, 0)).2.2 = E)
    | none => false

/-- The one access of a lane with its place, brought in. -/
def oneAt (h : Wave → Wave) (i : Instr) (m : MemForm) (E : W32) (k : AccKind) : Option (LaneAcc × Placed × State × State) :=
  let s := lState h
  let w := lw h
  match (accsOf s w m E).bind fun l => (gathers s w i l).map fun x => (l, x) with
  | some ([b], u, { accs := [(c, .here q)], .. }) =>
    match bring u k (waveWho u w).d q with
    | .ok v => if b = c then some (b, q, u, v) else none
    | _ => none
  | _ => none

/-- Lane 31 alone. -/
def lane31 (f : Wave → Wave) (w : Wave) : Wave := kreg 1 0x80000000 (f w)
def g1 (f : LaneFields) : LaneFields := { f with guard := 1 }
def ends31 (h : Wave → Wave) (i : Instr) (m : MemForm) (k : AccKind) : Bool :=
  match oneAt (lane31 h) i m 0x80000000 k with
  | some (b, q, _, _) => decide (b.lane = 31 ∧ q.req.home.val = 0 ∧ q.req.base % 2048 = 0 ∧ q.req.base ≤ q.pa ∧ q.pa - q.req.base + m.width ≤ 2048) && !q.req.pcoh
  | none => false

/-- Two lines of 128 bytes from 0x10000. -/
def lineOk (i : Instr) (f : LaneFields) (k : AccKind) : Bool :=
  let s := lState (at4 0x10000 0)
  let w := lw (at4 0x10000 0)
  match lineTile s w f (BitVec.allOnes 32) with
  | .ok (t, va) => match gathers s w i (lineAccs (BitVec.allOnes 32) (lineCount f) k t va) with
    | some (u, g) =>
      if k = .load then decide ((loadAll u w g.accs).2.2 = 0)
      else decide ((storeAll false (fun a => leBytes 4 (vread w (4 + (a.key - 8)) a.lane).toNat) [] g.accs (u, dropPrefetch w, 0)).2.2 = BitVec.allOnes 32)
    | none => false
  | .error _ => false

theorem test_meets_LaneLoads : (let f := lf 0 8 (r 2) no no 0
    let g := lf 3 8 (r 2) no no 0x10
    let b := lf 0 8 (r 2) no no 0x00080000
    let k := lf 0 8 (r 2) no no 0x10
    let all := BitVec.allOnes 32
    loadOk (at4 0x10000 4) (.ldv f) (ldvForm f) all && loadOk (at4 0x10000 8) (.ldv g) (ldvForm g) all && loadOk (at4 0x10000 0) (.xload f) (xloadForm f) all &&
    laneB (lState (lane31 (at4 0x10000 4))) (lw (lane31 (at4 0x10000 4))) (.ldv (g1 f)) (memShape (lState id) (lw id) (ldvForm (g1 f))) 0x80000000 &&
    (oneAt (lane31 (at4 0x10000 4)) (.ldv (g1 f)) (ldvForm (g1 f)) 0x80000000 .load).isSome &&
    laneOk (at4 0x10000 0) (.ldb b) { op := 0x3B, f := b, srcs := [v2 2], dst := [8], dstMore := [9] } && lineOk (.ldb b) b .load &&
    laneOk (at4 0x10000 0) (.tclook k) { op := 0x4E, f := k, srcs := [v2 2], dst := [8] } && !tcUnbound (lState (at4 0x10000 0)) (lw (at4 0x10000 0)) k) = true := by
  decide +kernel

theorem test_meets_LaneStores : (let f := lf 0 0 (r 2) (r 4) no 0
    let g := lf 3 0 (r 2) (r 4) no 8
    let b := lf 0 0 (r 2) (r 4) no 0x00080000
    let all := BitVec.allOnes 32
    let bytes (n L : Nat) : List Byte := leBytes n L
    storeOk (at4 0x10000 4) (.stv f) (stvForm f) all (bytes 4) && storeOk (at4 0x10000 8) (.stv g) (stvForm g) all (bytes 8) &&
    storeOk (at4 0x10000 0) (.cstore f) (cstoreForm f) all (bytes 4) && ends31 (at4 0x10000 4) (.stv (g1 f)) (stvForm (g1 f)) .store &&
    laneB (lState (lane31 (at4 0x10000 4))) (lw (lane31 (at4 0x10000 4))) (.stv (g1 f)) (memShape (lState id) (lw id) (stvForm (g1 f))) 0x80000000 &&
    laneOk (at4 0x10000 0) (.stb b) { op := 0x3C, f := b, srcs := [v2 2, v1 4], more := [(5, false)] } && lineOk (.stb b) b .store) = true := by decide +kernel

theorem test_meets_LaneAtomics : [(0 : W32), 7].all (fun op =>
    let f := lf 0 8 (r 2) (r 4) (if op = 7 then r 5 else no) (op <<< 20)
    let m := atomForm f
    let h := at4 0x10000 4
    let s := lState h
    let w := lw h
    laneB s w (.atom f) (memShape s w m) (BitVec.allOnes 32) &&
      (match (accsOf s w m (BitVec.allOnes 32)).bind (gathers s w (.atom f)) with
       | some (u, g) =>
         let x := g.accs.foldl (atomOne f (fun L => L) (fun _ => 0) w.nextLanding) { s := u, w := dropPrefetch w }
         decide (x.done = BitVec.allOnes 32 ∧ x.s.focus = s.focus ∧ x.s.split = s.split)
       | none => false) &&
      ends31 h (.atom (g1 f)) (atomForm (g1 f)) .atomic &&
      laneB (lState (lane31 h)) (lw (lane31 h)) (.atom (g1 f)) (memShape (lState id) (lw id) (atomForm (g1 f))) 0x80000000 &&
      match oneAt (lane31 h) (.atom (g1 f)) (atomForm (g1 f)) 0x80000000 .atomic with
      | some (b, q, _, v) => (aolAdmit v 0 q.req.tile w.launch w.team w.idx).isSome && decide (b.n = m.width)
      | none => false) = true := by decide +kernel

theorem test_meets_NarrowFormats : (let p := lf 2 8 (r 4) no no 5
    let u := lf 2 8 (r 4) no no 0
    laneOk id (.packg p) { op := 0x44, f := p, srcs := [v1 4], dst := [8], more := [(5, false), (6, false), (7, false)], noGroup := [8] } &&
    laneOk id (.unpackg u) { op := 0x45, f := u, srcs := [v1 4], dst := [8], dstMore := [9, 10, 11], noGroup := [4] } &&
    [((2 : BitVec 3), 8), (4, 4)].all (fun (ty, n) => let f := lf ty 8 (r 4) (r 6) no 0
      laneOk id (.nqdec f) { op := 0x46, f := f, srcs := [v1 4, v1 6], dst := [8], dstMore := (List.range n).map fun k => 8 + k })) = true := by decide +kernel

theorem test_meets_RandomValues : (let f := lf 6 1022 no no no 0
    let g := lf 2 1023 no no no 0
    laneOk id (.rand f) { op := 0x47, f := f, dst := [1022, 1023] } && laneOk id (.randu g) { op := 0x48, f := g, dst := [1023] }) = true := by decide +kernel

/-- A defined group of two registers at v10, open or not. -/
def group (o : Bool) (w : Wave) : Wave := { w with c := { w.c with pdefined := true, gbase := 10, gcount := 2, popen := o } }

theorem test_meets_ProposalBanks : (let f (b n : W32) := lf 0 0 no no no (n <<< 10 ||| b)
    let ok (h : Wave → Wave) (f : LaneFields) : Bool :=
      laneOk h (.propose f) { op := 0x49, f := f, early := fun _ => decide (f.xf 16 10 = 0) || decide (64 < f.xf 16 10) }
    let a := lf 2 0 (r 4) no no 0
    let b := lf 2 0 (r 4) (r 5) no 1
    let d := lf 0 0 no no no 0
    let p := lf 0 8 (r 4) no no 0
    let c := lf 0 8 no no no 1
    ok id (f 10 2) && ok (group false) (f 10 2) && ok (group false) (f 896 64) && !(lw id).c.popen && !(lw (group false)).c.popen && ok id (f 1000 64) &&
    decide ((lw id).winsize < 1000 + 128 ∧ 896 + 128 ≤ (lw id).winsize) && ok (group true) (f 10 2) && (lw (group true)).c.popen &&
    laneOk (group true) (.accept a) { op := 0x4A, f := a, srcs := [v1 4], early := fun w => !w.c.popen } &&
    laneOk (group true) (.accept b) { op := 0x4A, f := b, srcs := [v1 4, v1 5], early := fun w => !w.c.popen } &&
    laneOk (group true) (.pdiscard d) { op := 0x4B, f := d } && laneOk id (.pdiscard d) { op := 0x4B, f := d } &&
    [((1 : W32), true), (2, false), (1023, false)].all (fun (x, good) => let h : Wave → Wave := fun w => group false (vreg 4 (List.replicate 32 x) w)
      laneOk h (.pread p) { op := 0x4C, f := p, srcs := [v1 4], dst := [8] } &&
        (List.range 32).all fun L => preadBad (lw h) (source (lState h) (lw h) p (r 4) false L) == !good && !emptyV (lw h) (10 + x.toNat) &&
          [10, 12].all fun n => (mfind (lw h).r.poison (4 * (n + x.toNat) + L / 8)).isNone) &&
    laneOk id (.pcount c) { op := 0x4D, f := c, dst := [8] }) = true := by decide +kernel

/-- The record of the worked example with a halo. -/
def halo0 : Record := recordAt 0x10000 ((recBytes 5 0x400000).set 6 2)

theorem test_meets_TileCacheInstructions : (let h := at4 0x10000 0
    let s := lState h
    let t := setSlot s (lw h) 3 halo0
    let p := lf 0 0 (r 2) no no 0x10
    let q := lf 0 0 (r 2) no no 0x30
    let z : Wave → Wave := fun w => vreg 2 [0] w
    let tz := setSlot (lState z) (lw z) 3 halo0
    let k := lf 0 0 (r 2) no no 0x7E3
    let i := lf 0 0 no no no 3
    let e := lf 0 0 (r 2) (r 4) no 0x13
    laneB s (lw h) (.tcpf p) { op := 0x4F, f := p, srcs := [v2 2] } (BitVec.allOnes 32) && !tcUnbound s (lw h) p &&
    (let s1 := (List.range 32).foldl (fun s' L => (tcpfPlaces s' (lw h) p (tcOperand s' (lw h) p L)).foldl (prefetchTile (waveWho s' (lw h))) s') s
     decide (s1.split = s.split ∧ s1.focus = s.focus)) &&
    laneB s (lw h) (.tcpin q) { op := 0x52, f := q, srcs := [v2 2] } (BitVec.allOnes 32) &&
    (let x := (List.range 32).foldl (pinLane q (lw h)) (s, 0)
     decide (x.2 = BitVec.allOnes 32 ∧ x.1.split = s.split ∧ x.1.focus = s.focus)) &&
    laneB tz (lw z) (.tchalo k) { op := 0x50, f := k, srcs := [v2 2] } (BitVec.allOnes 32) && decide (slotOf tz (lw z) 3 = some halo0) &&
    (halo0.packed? (tcOperand tz (lw z) k 0)).isSome && halo0.halo && laneB t (lw h) (.tcinv i) { op := 0x51, f := i } (BitVec.allOnes 32) && !fetchPinned t halo0.tid &&
    laneB t (lw h) (.tcflush e) { op := 0x53, f := e, srcs := [v2 2, v2 4] } (BitVec.allOnes 32) &&
    !pendingOf t 0 t.focus && decide ((tcOperand t (lw h) e 0).toNat < 2 ^ 48 ∧ (srcVal t (lw h) [] 0 e.b true 0).toNat < 2 ^ 48) &&
    laneB s (lw h) (.tchalo k) { op := 0x50, f := k, srcs := [v2 2] } (BitVec.allOnes 32) && laneB s (lw h) (.tcinv i) { op := 0x51, f := i } (BitVec.allOnes 32) &&
    laneB s (lw h) (.tcflush e) { op := 0x53, f := e, srcs := [v2 2, v2 4] } (BitVec.allOnes 32) && (slotOf s (lw h) 3).isNone &&
    (let u := lf 0 0 (r 2) no no 3
     tcUnbound s (lw h) u && laneB s (lw h) (.tcpf u) { op := 0x4F, f := u, srcs := [v2 2] } (BitVec.allOnes 32) &&
       laneB s (lw h) (.tcpin u) { op := 0x52, f := u, srcs := [v2 2] } (BitVec.allOnes 32))) = true := by decide +kernel

/-- Every cached leaf says that its page holds code payloads, though no region does: a faulty fill. -/
def miscoded (s : State) : State := s.modTr 0 fun x => { x with cache := x.cache.map fun e => { e with leaf := e.leaf ||| 0x80 } }

theorem test_meets_RecordBind : [(false, 0x10000), (true, 0x10000), (false, 0x10004)].all (fun (bad, a) =>
    let h := at4 a 0
    let s := recS bad (lState h)
    let w := lw h
    let f := lf 0 0 (r 2) no no 3
    let accs := (List.range 16).map fun k => ({ lane := 0, key := 8 + k, va := BitVec.ofNat 64 (a + 8 * k), n := 8, kind := .load, counted := k = 0 } : LaneAcc)
    laneB s w (.recbind f) { op := 0x54, f := f, srcs := [v2 2] } (BitVec.allOnes 32) &&
      laneB (miscoded s) w (.recbind f) { op := 0x54, f := f, srcs := [v2 2] } (BitVec.allOnes 32) &&
      ((placedAccs (miscoded s) w accs).any fun p => match p.2 with
        | .ok q => fillFaults (miscoded s) p.1.kind 0 q | _ => false) &&
      (if a % 64 ≠ 0 then (faultyAccs s w (.recbind f) accs).isNone else
        match gathers s w (.recbind f) accs with
        | some (u, g) =>
          let x := loadAll u w g.accs
          let bytes := (List.range 16).flatMap fun k => leBytes 8 ((mfind x.2.1 (32 * (8 + k))).getD 0).toNat
          let y := recordAt (BitVec.ofNat 64 a) bytes
          decide (x.2.2 = 0) && ((y.ok && y.entryOk x.1 (waveWho x.1 w).pid) == !bad) && (s.team? (teamKey 1 0)).isSome
        | none => false)) = true := by decide +kernel

/-- The wave has a copy on its way. -/
def copying (s : State) : State :=
  (s.modCluster (clusterKey 0 0) fun c => { c with copies := [{ inst := 0, id := 7, op := 0x55, f := lf 0 0 no no no 0, wave := s.focus, tlpc := 0 }] })

theorem test_meets_MatrixIssue : (let s := lState id
    let w := lw id
    let sh (op : Nat) (f : LaneFields) (dst more : List Nat) : Shape := { op := op, f := f, srcs := seqSrcs op f, dst := dst, dstMore := more }
    let all := BitVec.allOnes 32
    let c := lf 0 0 (r 2) no no 0
    let x := lf 0 0 no no no 0xFF
    let m := lf 0 0 (r 2) (r 4) no 0
    let mc := lf 0 0 (r 2) (r 4) (r 6) (1 <<< 11)
    let ma := lf 0 0 (r 2) (r 4) no (1 <<< 12)
    let mg := lf 0 0 (r 2) (r 4) (r 6) (3 <<< 11)
    let t := lf 2 0 (r 2) no no 0
    let v := lf 2 64 no no no (15 <<< 12)
    let badShape : Wave → Wave := vreg 2 (List.replicate 32 0xFFFFFFFF)
    let l : Wave → Wave := fun w => { w with lastCopy := 7 }
    laneB s w (.tcfg c) (sh 0x58 c [] []) all && laneB s w (.trel x) (sh 0x59 x [] []) all && laneB s w (.tzero x) (sh 0x5A x [] []) all &&
    laneB s w (.mma m) (sh 0x5B m [] []) all && laneB s w (.mmag mc) (sh 0x5C mc [] []) all && laneB s w (.tlda t) (sh 0x5D t [] []) all &&
    laneB s w (.tsta t) (sh 0x5E t [] []) all && laneB s w (.tmovv v) (sh 0x5F v [64] ((List.range 15).map fun k => 65 + k)) all &&
    (seqRoom s 0 0 s.focus).isSome && !((List.range 8).any fun i => shapeBad (s.team (teamKey 1 0)).tilemax i 0) &&
    laneB (lState badShape) (lw badShape) (.tcfg c) (sh 0x58 c [] []) all && shapeBad (s.team (teamKey 1 0)).tilemax 0 0xFF &&
    (let y := copying (lState l)
     laneB y (lw l) (.mma ma) (sh 0x5B ma [] []) all && laneB y (lw l) (.mmag mg) (sh 0x5C mg [] []) all &&
       match followOf y (lw l) with | some x => decide (x.follow = none ∧ x.landed = none) | none => false)) = true := by decide +kernel

/-- A list of rows at 0x10000: 512 integers of 32 bits in one dimension. -/
def list0 : Record := recordAt 0x20000 (((recBytes 6 0x10000).set 4 0x06).set 36 0)

/-- The tensor table of die 0 at 0x40000, with valid entries 5 and 6. -/
def tensors (s : State) : State :=
  [5, 6].foldl (fun s n => s.unitWrite 0 (0x40000 + 32 * n) (leBytes 8 0x10000 ++ leBytes 4 0 ++ [0, 0, 1, 0])) (s.setCtl 0 0x5C00 0x40001)

/-- Slots 0 and 1 hold the record of the worked example, slot 2 the list. -/
def slots3 (s : State) : State := [(0, rec0), (1, rec0), (2, list0)].foldl (fun s p => setSlot s (placedWave 96) p.1 p.2) s

theorem test_meets_CopyIssue : (let flat (c : W32) : Wave → Wave := fun w => vreg 6 (List.replicate 32 c) (at4 0x10000 0 w)
    let all := BitVec.allOnes 32
    let f := lf 0 0 (r 2) (r 4) (r 6) 0x210
    let g := lf 0 0 (r 2) (r 4) (r 6) 0x20
    let k := lf 0 0 (r 2) (r 4) no 0x20
    let bc := lf 0 0 (r 2) (r 4) no (1 <<< 22 ||| 16 <<< 16 ||| 0x20)
    let cpy (h : Wave → Wave) : Bool := laneB (lState h) (lw h) (.cpy f) { op := 0x55, f := f, srcs := copySrcs f true } all
    let z : Wave → Wave := fun w => vreg 6 (List.replicate 32 0x200000) { w with ctxbase := 0x40000000 }
    let s := slots3 (tensors (lState z))
    let w := lw z
    let c := (copyVal s w g.c).toNat
    cpy (flat 0x001002) && copyRoom (lState (flat 0)) 0 0 (lState (flat 0)).focus && decide (copyRec (lState (flat 0)) (lw (flat 0)) true 0 = some none) &&
    decide ((bitsOf 0x001002 11 0 + 1) * (bitsOf 0x001002 23 12 + 1) ≤ 65536) && decide ((copyVal (lState (flat 0)) (lw (flat 0)) (r 2)).toNat % 2048 = 0) &&
    cpy (flat 0xFFFFFF) && decide (¬ (bitsOf 0xFFFFFF 11 0 + 1) * (bitsOf 0xFFFFFF 23 12 + 1) ≤ 65536) &&
    laneB s w (.cpyg g) { op := 0x56, f := g, srcs := copySrcs g true } all &&
    decide (slotOf s w 0 = some rec0 ∧ slotOf s w 1 = some rec0 ∧ slotOf s w (bitsOf c 23 20) = some list0 ∧ list0.efmt = 6 ∧ c < 2 ^ 43) &&
    (let nr := bitsOf c 30 24 + 1
     let len := (bitsOf c 42 31 + 1) * rec0.ext 0
     let els := (List.range nr).filterMap fun n => listAt? list0 (bitsOf c 19 0 + n)
     let mem := els.mapIdx fun n x => ({ lane := 0, key := 8 + n, va := BitVec.ofNat 64 (x.1.va + 4 * x.2), n := 4, kind := .load, tile := some x.1 } : LaneAcc)
     decide (els.length = nr) &&
       match gathers s w (.cpyg g) mem with
       | some (u, e) =>
         let v := loadAll u w e.accs
         decide (v.2.2 = 0 ∧ v.1.focus = s.focus ∧ v.1.split = s.split) && scalarB v.1 w .nop [] && copyRoom v.1 0 0 s.focus &&
           (List.range nr).all fun n => (cpygAt rec0 0 (sgn 32 ((mfind v.2.1 (32 * (8 + n))).getD 0).toNat) (len - 1)).isSome &&
             (cpygAt rec0 0 (elemBase rec0 0 1 + n) (len - 1)).isSome
       | none => false) &&
    laneB s w (.coll k) { op := 0x57, f := k, srcs := copySrcs k false } all && (collKind rec0.efmt).isSome && (tileAt rec0 (coordOf 0)).isSome &&
    (collTile rec0 0 0).isSome && copyRoom s 0 0 s.focus && laneB s w (.coll bc) { op := 0x57, f := bc, srcs := copySrcs bc false } all &&
    laneB (lState z) w (.coll k) { op := 0x57, f := k, srcs := copySrcs k false } all && (slotOf (lState z) w 0).isNone) = true := by decide +kernel

/-! ### Witnesses: power, links and the Confluence channel -/

/-- The reset state with die 0 brought up. -/
def upS : State := State.reset.setCtl 0 0x20 6

/-- That state with some control registers of die 0 set. -/
def withCtl (l : List (Nat × W64)) : State := l.foldl (fun s p => s.setCtl 0 p.1 p.2) upS

/-- That state with die 0 changed. -/
def withDie (f : Die → Die) (s : State := upS) : State := s.modDie 0 f

/-- The dies are up and firmware cores 10, 12 to 14 and supervisor core 0 work. -/
def free (s : State) : Bool := !dieDown s 0 && [Master.fw 2, .fw 4, .fw 5, .fw 6, .sup 0].all fun m => !masterStopped s 0 m

theorem test_meets_IslandsAndThrottles : (let s := upS
    let gated := withCtl [(0x1018, 0x1F)]
    let off := withCtl [(0x1018, 0x0F), (0x1098, 0x100)]
    let low := withDie fun x => { x with power := { x.power with cap := 14 } }
    let leaving : State := { upS with teams := [(5, { die := 0, cluster := 13, phase := .suspended })] }
    free s && free low && free leaving && decide (s.ctlBits 0 0x1098 8 8 = 0) && decide (gated.ctlBits 0 0x1018 4 4 = 1 ∧ gated.ctlBits 0 0x1098 8 8 = 0) &&
    islandEmpty gated 0 3 && (islandFrames gated 0 3).all (fun f => evictable f && !copiesOut 0 f) && s.teams.isEmpty &&
    decide (off.ctlBits 0 0x1018 4 4 = 0 ∧ off.ctlBits 0 0x1098 8 8 = 1 ∧ (leaving.team? 5).isSome) &&
    decide (s.ctlBits 0 0x2000 15 0 < 4201 ∧ 3989 * 100 < s.ctlBits 0 0x2000 15 0 * 95 ∧ (low.die 0).power.cap < 15)) = true := by decide +kernel

/-- Die 0 in a boot phase. -/
def phaseS (n : Nat) : State := withCtl [(0x20, BitVec.ofNat 64 n)]

def manifest : List Byte :=
  leBytes 4 0x4B4E3346 ++ leBytes 4 1 ++ leBytes 8 0 ++ ((List.range 8).flatMap fun _ => leBytes 16 0 ++ shake256 [] 48) ++ shake256 [] 64
def signKey : List Byte := leBytes 57
  93580901206173710976753735987196085771259439851124873976880823564855501252783717315783226183906719430767822675765528425088438043641317136
/-- What Ed448 signs the manifest with, for the public key above. -/
def manifestSig : List Byte := leBytes 114
  9858914371991831828382256242436381039338278141468004238221004571014619482114994520846498933901168144418077467325354523656036990064086580928663167690809127372027504485623981624043595418872137613802968460604848547497723861572286276433822820552733676584234663835436384174218

/-- A report of a boot phase. -/
def report (trained : Bool) (m : List Byte) : BootReport :=
  { trained := trained, images := m, signer := signKey, manifestLen := 0, expected := 1, identities := [], pkg := 0
    hostMode := true, hostPid := 7, hostSpeed := 0, peers := [(2, 1)] }

theorem test_meets_BringUpAndFirmware : (let box := withCtl [(0x7120, 0x900)]
    let request : Body := bodyOf (leBytes 4 1 ++ leBytes 2 1 ++ leBytes 1 15 ++ zeros 41)
    [0, 1, 2, 3, 4, 5].all (fun n => !dieDown (phaseS n) 0 && decide ((phaseS n).ctlBits 0 0x20 3 0 = n)) && peerOk (phaseS 4) 0 2 1 &&
    !imageSetOk (report true []) [] 0 && [2, 4, 6].all (fun k => fwUp upS 0 k) && ((upS.die 0).conf.stuck.isEmpty) &&
    decide (bodyNat request 0 4 = 1 ∧ bodyNat request 6 1 < 16 ∧ bodyNat request 7 1 = 0 ∧ bodyNat request 40 8 = 0 ∧ bodyNat request 4 2 % 512 / 8 = upS.pkg) &&
    free box && decide (box.ctlBits 0 0x7120 11 8 - 8 = 1 ∧ (mget [] (box.die 0).fw.inbox 1).length < 8)) = true := by decide +kernel

theorem test_manifest_signature : edVerify signKey ((manifest ++ manifestSig).take 592) ((manifest ++ manifestSig).drop 592) = true := by decide +kernel

theorem test_manifest_image : let m := manifest ++ manifestSig
    m.length = 706 ∧ listNat m 0 4 = 0x4B4E3346 ∧ 1 ≤ listNat m 4 4 ∧ shake256 [] 48 = (m.drop 32).take 48 ∧ shake256 [] 64 = (m.drop 528).take 64 := by decide +kernel

theorem test_manifest_rest : ((List.range 8).all fun k => decide (listNat (manifest ++ manifestSig) (16 + 64 * k) 8 = 0 ∧
    listNat (manifest ++ manifestSig) (16 + 64 * k + 8) 8 = 0 ∧
    ((manifest ++ manifestSig).drop (16 + 64 * k + 16)).take 48 = ((manifest ++ manifestSig).drop 32).take 48)) = true ∧
    listNat (manifest ++ manifestSig) 8 8 = 0 := by decide +kernel

theorem partOk_empty {l : List Byte} {n : Nat} {digest : List Byte} (h : shake256 [] n = digest) : partOk l 0 0 n digest = true := by
  simp [partOk, setPart, h]

theorem imageSetOk_of {m : List Byte} {n : Nat} (h1 : m.length = 706) (h2 : listNat m 0 4 = 0x4B4E3346)
    (h4 : edVerify signKey (m.take 592) (m.drop 592) = true)
    (h5 : ∀ k ∈ List.range 8, listNat m (16 + 64 * k) 8 = 0 ∧ listNat m (16 + 64 * k + 8) 8 = 0 ∧ shake256 [] 48 = (m.drop (16 + 64 * k + 16)).take 48)
    (h6 : listNat m 8 8 = 0) (h7 : shake256 [] 64 = (m.drop 528).take 64) (h8 : n ≤ listNat m 4 4) :
    imageSetOk (report true m) (shake256 signKey 64) n = true := by
  have hm : manifestOf (report true m).images = m := by simp only [manifestOf, report]; exact List.take_of_length_le (by omega)
  unfold imageSetOk
  rw [hm]
  simp only [Bool.and_eq_true, decide_eq_true_eq, List.all_eq_true]
  refine ⟨⟨⟨⟨⟨⟨h1, h2⟩, rfl⟩, h4⟩, fun k hk => ?_⟩, ?_⟩, h8⟩
  · obtain ⟨ha, hb, hc⟩ := h5 k hk
    rw [ha, hb]; exact partOk_empty hc
  · rw [h6]; exact partOk_empty h7

/-- A set that passes the four checks of R72: with the digest of its key in the fuses, and the fused minimum at its SVN. -/
theorem test_meets_BringUpAndFirmware_image : imageSetOk (report true (manifest ++ manifestSig)) (shake256 signKey 64) 1 = true := by
  obtain ⟨h1, h2, h3, h4, h5⟩ := test_manifest_image
  obtain ⟨h6, h7⟩ := test_manifest_rest
  exact imageSetOk_of h1 h2 test_manifest_signature
    (fun k hk => let this := of_decide_eq_true (List.all_eq_true.1 h6 k hk); ⟨this.1, this.2.1, h4.trans this.2.2.symm⟩) h7 h5 h3

/-- Port p of die 0 with this LNKCTL and this state. -/
def portS (p : Nat) (ctl : W64) (x : Port) : State := withDie (fun y => { y with ports := [(p, x)] }) (withCtl [(0x3000 + 0x100 * p, ctl)])

def idle : List Byte := zeros 208
def queued : List Byte := leBytes 2 0x0100 ++ zeros 206
def sent0 : SentFlit := { count := 0, slot := 0, plain := queued, wire := zeros 256 }

theorem test_meets_LinkFlits : (let up : W64 := 0x4000
    let a := portS 0 up { txq := [queued] }
    let k := portS 4 up { txq := [queued], keySet := true, sent := [(0, 2 ^ 40 - 1)] }
    let asleep := portS 0 0x8000 { txq := [queued] }
    let old := portS 0 up { replay := [sent0] }
    let waking (n : Nat) := portS 0 0xC000 { txq := [queued], tries := n }
    [a, k, asleep, old, waking 1].all free && (nextFlit a 0 0 (portOf a 0 0)).isSome && (nextFlit k 0 4 (portOf k 0 4)).isSome && decide (a.ctlBits 0 0x3000 15 14 = 1) &&
    decide (a.ctlBits 0 0x3000 16 16 = 0) && decide (k.ctlBits 0 0x3400 15 14 = 1 ∧ k.ctlBits 0 0x3400 16 16 = 0) &&
    decide (asleep.ctlBits 0 0x3000 15 14 = 2 ∧ asleep.ctlBits 0 0x3000 16 16 = 0 ∧ (portOf asleep 0 0).txq ≠ []) &&
    decide ((portOf old 0 0).replay = [sent0] ∧ (portOf old 0 0).txq = [] ∧ (portOf old 0 0).training = false ∧ old.ctlBits 0 0x3008 15 4 = 100) &&
    (portOf (portS 0 up { training := true }) 0 0).training && [1, 2].all (fun n => decide ((waking n).ctlBits 0 0x3000 15 14 = 3 ∧ (portOf (waking n) 0 0).tries = n)) &&
    (failedCounts (portOf a 0 0)).all (fun c => mget 0 (portOf a 0 0).fails c = 0) &&
    (match openFlit a 0 0 [] with | .uncorrectable => true | _ => false)) = true := by decide +kernel

set_option maxRecDepth 100000 in
/-- A flit with its check bytes comes through the FEC. -/
theorem test_meets_LinkFlits_good : (let a := portS 0 0x4000 {}
    match openFlit a 0 0 (sealFlit a 0 0 0 5 (leBytes 2 0x0100 ++ leBytes 6 5 ++ zeros 200)) with | .good l => decide (bitsOf (listNat l 0 16) 63 16 = 5) | _ => false) = true := by
  decide +kernel

set_option maxRecDepth 100000 in
/-- One with other check bytes fails. -/
theorem test_meets_LinkFlits_failed : (let a := portS 0 0x4000 {}
    match openFlit a 0 0 (fecEncode (leBytes 2 0x0100 ++ zeros 222)) with
    | .failed c => decide (mget 0 (portOf a 0 0).fails c = 0) && !gotCount (portOf a 0 0) c && gotCount { rxNext := c + 1 } c
    | _ => false) = true := by
  decide +kernel

/-- The ephemeral key and its signature, as the peer with the key of `manifestSig` sends them, and its report. -/
def ephemeral : List Byte := zeros 64 ++ leBytes 114
  25756767584475240712492075213224559110806132193458879804599937572166204765613648236903438079321982424016174794891626123387292582226273763041648345009063144043598640068934977489534594268679439171904626533620950519407581153088165133384170049948073383431316315939472098237762
def peerReport : List Byte := leBytes 4 1 ++ zeros 108 ++ signKey ++ zeros 7 ++ leBytes 114
  21901788827359480741093904226411887466607293729328172080723372613640739596917287970307743362551621711059693497706230761634470851544499092883103763383725419514697828433700157082911212033825384131971081228472742796439725651430923764398962822447539612378129182337477037680801 ++ zeros 30
/-- Port 4 of die 0 in an exchange with a peer whose key it knows. -/
def exchanging (x : Port) : State := withDie (fun y => { y with fw := { y.fw with keys := [(0, signKey)] } }) (portS 4 0 { x with
  kxOn := true
  ownNonce := zeros 32 })

theorem test_meets_LinkKeys : (let s := portS 4 0 { keys := [(1, 7)], sent := [(0, 2 ^ 40)], keySet := true }
    let x := exchanging {}
    let part : List Byte := zeros 2 ++ leBytes 2 1 ++ zeros 140
    free s && free x && slotUsed s 0 4 0 && !slotUsed s 0 4 1 && linkCoreUp s 0 && linkCoreUp x 0 && (mfind (portOf s 0 4).keys 1).isSome &&
    decide (s.ctlBits 0 0x3400 13 12 = 0 ∧ mget 0 (portOf s 0 4).sent 0 = 2 ^ 40 ∧ (portOf s 0 4).kxOn = false ∧ (portOf s 0 4).keySet = true) &&
    decide ((portOf x 0 4).kxOn = true ∧ (portOf x 0 4).ready = false ∧ (portOf (exchanging { ready := true }) 0 4).ready = true) &&
    decide (listNat (zeros 144) 2 2 = 0 ∧ listNat part 2 2 = 1 ∧ listNat (zeros 144) 8 8 = (portOf x 0 4).rolls) &&
    decide ((portOf x 0 4).wanted = none) && rollReady (exchanging { ready := true, keys := [(1, 7)] }) 0 4 &&
    !reportOk x 0 4 ((portOf x 0 4).report ++ (part.drop 8).take 136) && !(portOf x 0 4).peerOk && !slotUsed x 0 4 1) = true := by decide +kernel

theorem test_meets_LinkKeys_report : (let x := exchanging { report := peerReport.take 184 }
    reportOk x 0 4 ((portOf x 0 4).report ++ peerReport.drop 184)) = true := by decide +kernel

theorem test_meets_LinkKeys_ephemeral : (let x := exchanging { peerOk := true }
    let busy := exchanging { peerOk := true, rxSlot := 1 }
    !slotUsed x 0 4 1 && slotUsed busy 0 4 1 && !(portOf busy 0 4).ready && (portOf busy 0 4).peerOk && decide (peerKey busy 0 4 = peerKey x 0 4) &&
    (portOf x 0 4).peerOk && (peerKey x 0 4).any fun k => edVerify k ((ephemeral.drop 8).take 56) ((ephemeral.drop 64).take 114)) = true := by decide +kernel

/-! ### Witnesses: the Confluence channel and the system image -/

/-- Group 0 of die 0 is dies 0 and 1 of the package, and die 0 is its sequencer; mailbox 9 is enabled on both. -/
def grouped : State :=
  let s := (withCtl [(0x4A00, 0x8000), (0x4920, 1)]).setCtl 1 0x4920 1
  s.unitWrite 0 (groupAddr s 0 0) (leBytes 64 3 ++ zeros 2)

def unicast : W512 := makeMsg 7 9 false 1 0 0 0
def multicast : W512 := makeMsg 5 9 true 0 0 0 0

theorem test_meets_ConfluenceMessages : (let s := grouped
    let busy := withDie (fun x => { x with conf := { x.conf with sending := [(0, unicast)] } }) (s.setCtl 0 0x4040 1)
    let off := s.setCtl 1 0x4920 0
    let waits := withDie (fun x => { x with conf := { x.conf with sending := [(0, multicast)] } }) off
    free s && isCore (.sup 0) 0 && decide (s.ctlBits 0 0x4040 0 0 = 0 ∧ busy.ctlBits 0 0x4040 0 0 = 1) && (mfind (busy.die 0).conf.sending 0).isSome &&
    !msgAllowed (makeMsg 3 9 false 1 0 0 0) 0 && msgAllowed unicast 0 && !msgMulti unicast && decide (msgTo unicast / 8 = s.pkg) &&
    msgAllowed multicast 0 && msgMulti multicast && (groupMask s 0 (msgGroup multicast)).getLsbD 0 && decide (groupSeq s 0 0 / 8 = s.pkg) &&
    !(groupMask s 0 (msgGroup (makeMsg 5 9 true 1 0 0 0))).getLsbD 0 && !fromLost s 0 0 && decide (maskDies (groupMask s 0 0) = [0, 1]) &&
    [0, 1].all (fun x => boxOn s x (msgBox multicast) && hasRoom s x multicast && !dieDown s x) && !boxOn off 1 (msgBox multicast) &&
    decide (mfind (waits.die 0).conf.sending 0 = some multicast) && decide ((s.die 0).conf.heldMsgs = [] ∧ boxUsed s 0 9 = 0) && boxOn s 0 9 &&
    !msgMulti unicast && decide (msgSeq (setMsg multicast 95 64 1) = (mget 0 (s.die 0).conf.seqSeen 0).toNat + 1) &&
    decide (msgType (setMsg (makeMsg 2 9 true 0 0 0 0) 95 64 1) = 2) && boxMaster (.sup 0) 3 && decide ((s.ctlBits 0 0x4868 22 16 + 128 - 0) % 128 ≤ 64) &&
    (let abroad : W512 := makeMsg 7 9 false 9 0 0 0
     let move : W512 := makeMsg 4 9 true 0 0 2 0
     msgAllowed abroad 0 && !msgMulti abroad && decide (msgTo abroad / 8 ≠ s.pkg) && msgAllowed move 0 &&
       decide (msgType move = 4 ∧ bodyNat (msgBody move) 0 1 = 2 ∧ msgType multicast ≠ 4)) &&
    !goesAbroad s unicast && !fromLost s 0 (msgFrom unicast) && decide (4 ≤ s.ctlBits 0 0x20 3 0)) = true := by
  decide +kernel

theorem test_meets_SystemImageEvents : (let s := withDie (fun x => { x with image := { x.image with joined := 3 } }) grouped
    let formed := withDie (fun x => { x with image := { x.image with joined := 3, view := 3, formed := true }, conf := { x.conf with heard := [] } }) grouped
    let tables := (s.setCtl 0 0x5D00 0x10001).unitWrite 0 0x10000 (leBytes 4 7 ++ leBytes 4 1 ++ leBytes 8 0x40000)
    let halted := (s.setCtl 2 0x20 0x100).setCtl 3 0x20 0x100
    !dieDown s 0 && decide (6 ≤ s.ctlBits 0 0x20 3 0) && mayForm s && !mayForm halted && [s, halted].all (fun s => !agreeVoid s 0 (agreeBody 1 0 0 [])) &&
    decide (6 ≤ formed.ctlBits 0 0x20 3 0 ∧ groupSeq formed 0 0 / 8 = formed.pkg ∧ (formed.die 0).image.recover = none) && (groupMask formed 0 0).getLsbD 0 &&
    agreeVoid s 0 (agreeBody 2 5 0 []) && [(2, 1), (1, 0), (6, 7), (7, 7), (8, 5), (5, 7)].all (fun p => !agreeVoid s 0 (agreeBody p.1 0 p.2 [])) &&
    !agreeVoid formed 0 (agreeBody 3 0 1 []) && rootOf (noteApplied s 0 (agreeBody 5 0 7 [])) 0 7 = none &&
    rootOf (noteApplied tables 0 (agreeBody 5 0 7 [])) 0 7 = some 0x40000 && decide (s.teams = [] ∧ ¬ 9 / 8 = s.pkg ∧ (s.die 0).image.recover = none) &&
    free s && decide ((s.die 0).image.formed = false ∧ (s.die 0).image.formSent = false ∧ groupSeq s 0 0 = s.dieIndex 0) && (s.die 0).image.joined.getLsbD 0 &&
    (groupMask s 0 0).getLsbD 1 && decide (1 ∉ (s.die 0).conf.silent) && (formed.die 0).image.view.getLsbD 1 && decide (groupSeq formed 0 0 ≠ 1) &&
    !mustWithdraw (formed.die 0) && decide (2 * ((formed.die 0).conf.heard.filter fun n => (formed.die 0).image.view.getLsbD n).length <
      (maskDies (formed.die 0).image.view).length) && mustWithdraw { s.die 0 with fw := { (s.die 0).fw with frozen := 8 } }) = true := by decide +kernel

/-! ### Witnesses: the memory attach, registers, the host port and queues -/

/-- An import window that is cached, at the start of the import space of die 0. -/
def imported : State := withCtl [(0x6000, 1), (0x6200, 0xC000000100000000)]

theorem test_meets_MemoryAttachEvents : (let s := upS
    let full := withCtl [(0x5810, 0x40000000000)]
    let on := withCtl [(0x5000, 1)]
    let entry := withCtl [(0x5008, 0x10000), (0x5010, 0x100000), (0x5018, 0x200000)]
    let log := (withCtl [(0x5B00, 2), (0x5B10, 0x100000000), (0x5B08, 0x4000)]).unitWrite 0 0x4000 (leBytes 4 1)
    free s && ringRoom s 0 smpRing && !ringRoom full 0 smpRing && decide (s.ctlBits 0 0x5000 0 0 = 0 ∧ on.ctlBits 0 0x5000 0 0 = 1) &&
    frEnableOk entry 0 0 (BitVec.ofNat 64 ((2 ||| 1 : W64).toNat &&& frMask 0)) && !frEnableOk s 0 0 (BitVec.ofNat 64 ((4 ||| 1 : W64).toNat &&& frMask 0)) &&
    windowOk s 0 0x6100 0 0x8000000100000000 45 32 12 8192 && !windowOk s 0 0x6100 0 0x8000000000000000 45 32 12 8192 &&
    windowOk s 0 0x6200 0 0x8000000100000000 58 32 25 (2 ^ 26) && !windowOk s 0 0x6200 0 0x8000000000000000 58 32 25 (2 ^ 26) &&
    decide (ringAt 0x5810 (.fw 2) = some (smpRing, true)) && ringHeadOk s 0 smpRing 0 && !ringHeadOk s 0 smpRing 1 &&
    decide (imported.locate 0x8000000000000 = .cached 0 (2 ^ 80)) && isHostCell (2 ^ 80) && !dieDown imported 0 && (imported.frames 0).all (fun f => !copiesOut 0 f) &&
    decide (log.ctlBits 0 0x5B00 1 0 = 2) && aolKnows log 0 ⟨1, 0⟩ && decide ((log.die 0).dbg.aolFree = [])) = true := by decide +kernel

/-- Process 1 has its entry and a page, which the PASIDs 5 (frozen) and 6 use. -/
def procS : State :=
  let s := (withCtl [(0x5D00, 0x100001)]).unitWrite 0 0x100000 (leBytes 4 1 ++ leBytes 4 1)
  s.modDie 0 fun x => { x with
    tr := { x.tr with cache := [⟨64, 0, 1, placedVa, 65536, placedLeaf, 0⟩] }
    host := { x.host with pasids := [(5, 1, true), (6, 1, false)] }
    image := { x.image with qtbase := 0x30000 } }

theorem test_meets_RegistersAndHosts : (let s := procS
    let stopped := withDie fun x => { x with fw := { x.fw with frozen := 0x20 } }
    free s && (match plainReg s 0 0x4A00 (.sup 0) with | some r => r.ok | none => false) &&
    (match plainReg s 0 0x4A00 (.fw 0) with | some r => !r.ok | none => false) && masterStopped stopped 0 (.fw 5) && !isFw (.sup 0) 5 &&
    !isSup (.fw 2) && decide (pasidOf s 0 4 = none ∧ pasidOf s 0 5 = some (1, true) ∧ pasidOf s 0 6 = some (1, false)) &&
    decide (findProcess s 0 1 = some 0 ∧ s.locate 0x10000 = .cached 0 0x10000) && !inFirmware 0x10000 && !dieDown s 0 &&
    !readOnlySpan s 0 0x10000 1 && !readOnlySpan s 0 0x10000 8 && !fillFaultAt s 0 (flatPlaced s 0 0x10000 placedLeaf) &&
    !masterStopped s 0 (.sup 0) && (s.die 0).tr.coreWaits.isEmpty && (s.die 0).cache.pend.isEmpty && !coreAtomic s 0 0 &&
    decide (ctlBase 0 + 0x9000 < 2 ^ 64 ∧ s.locate (ctlBase 0 + 0x9000) = .ctl 0 0x9000 ∧ s.locate (ctlBase 0 + 0x7000) = .ctl 0 0x7000) &&
    mayRead 0x9000 (.sup 0) && !mayRead 0x7000 (.sup 0) &&
    [[1], [2], [1, 2]].all (fun n => decide (translate s 0 64 0 1 0x10000 n = .ok 0x10000 placedLeaf s.pkg)) &&
    decide (((s.die 0).host.pasids.filter fun q => q.1 ≠ 6).length < 4096)) = true := by decide +kernel

/-- Queue n of die 0: its ring of 16 packets stands at the start of the page; flags, STATE, HEAD, TAIL. -/
def queueS (n flags state head tail : Nat) (s : State := procS) : State :=
  s.unitWrite 0 (0x30000 + 64 * n) (leBytes 8 0x10000 ++ leBytes 1 4 ++ leBytes 1 flags ++ leBytes 1 state ++ zeros 1 ++ leBytes 4 1 ++
    leBytes 4 head ++ leBytes 4 tail ++ zeros 8 ++ leBytes 8 0x4000)
def inSlot (s : State) : State := modHost s 0 fun h => { h with slots := [{ q := 0, woken := 0, since := 0 }] }
def savePage : SavePage := { page := 0, queues := [0], bytes := zeros 512 }
def paged (p : SavePage) (s : State) : State := modHost s 0 fun h => { h with pages := [p] }
def packet : List Byte := leBytes 1 1 ++ zeros 7 ++ leBytes 8 0x10800 ++ zeros 18 ++ leBytes 2 0x100 ++ zeros 2 ++ leBytes 2 16 ++ zeros 88

theorem test_meets_QueuesAndPackets : (let s := queueS 0 1 0 0 0
    let fed := queueS 0 3 0 0 0
    let bad := queueS 0 1 9 0 0
    let waits := modHost s 0 fun h => { h with waking := [0] }
    let away := paged savePage (queueS 0 1 2 0 0)
    let short (tail : Nat) := modHost (queueS 0 1 1 0 tail) 0 fun h => { h with
      slots := (List.range 256).map fun k => { q := k, woken := 0, since := 0 }, waking := [300] }
    let reading := paged { savePage with reading := true } s
    let again := paged { savePage with reading := true, retried := true } s
    !parseStopped s 0 && (wakePasid s (.host 0 5)).any Prod.snd && !(wakePasid s (.host 0 6)).any Prod.snd && mayWake s 0 0 (.host 0 6) &&
    !mayWake procS 0 0 (.host 0 6) && mayWake s 0 0 .supervisor && queueEn s 0 0 && !queueFed s 0 0 && queueFed fed 0 0 &&
    !badDescriptor s 0 0 && badDescriptor bad 0 0 && decide (queueState bad 0 0 ≠ 3) &&
    decide (queueState s 0 0 = 0 ∧ queueState (queueS 0 1 3 0 0) 0 0 = 3 ∧ queueState away 0 0 = 2 ∧ pageOfQueue away 0 0 = some savePage) &&
    !queueEn (queueS 0 0 0 0 0) 0 0 && decide ((17 + 2 ^ 32 - queueHead s 0 0) % 2 ^ 32 > 2 ^ queueNat s 0 0 8 1) && (queueSlot s 0 0).isNone &&
    decide ((1 + 2 ^ 32 - queueHead s 0 0) % 2 ^ 32 ≤ 2 ^ queueNat s 0 0 8 1 ∧ (1 + 2 ^ 32 - queueTail s 0 0) % 2 ^ 32 < 2 ^ 31) &&
    decide ((waits.die 0).host.waking = [0] ∧ (waits.die 0).host.slots.length < Config.queueSlots ∧ queueState waits 0 0 = 0) && queueEn waits 0 0 &&
    (queueSlot waits 0 0).isNone && (queueSlot away 0 0).isNone && queueEn away 0 0 &&
    [0, 1].all (fun n => slotsShort (short n) 0 && (queueSlot (short n) 0 0).isSome && decide (queueLeft (short n) 0 0 = n)) &&
    decide ((away.die 0).host.pages.find? (fun x => x.page = 0 && !x.written) = some savePage) &&
    ((reading.die 0).host.pages.find? fun x => x.page = 0 && x.reading).isSome && ((again.die 0).host.pages.find? fun x => x.page = 0 && x.reading && x.retried).isSome) = true := by
  decide +kernel

theorem test_meets_QueuesAndPackets_parse : (let s := inSlot (queueS 0 1 1 0 1)
    let good := s.unitWrite 0 0x10000 packet
    let kernel := good.unitWrite 0 0x10820 [9]
    let who := unitWho 0 0 1
    let s1 (s : State) : State := (virtualNat s who 0x10000 128).1
    let p (s : State) : BitVec 1024 := BitVec.ofNat 1024 (virtualNat s who 0x10000 128).2
    let k (s : State) : List Byte := bytesAt (putBytes [] (readVirtual who (packNat (p s) 8 8) 64 (s1 s)).2) 0 64
    (queueSlot s 0 0).isSome && queueEn s 0 0 && !queueFault s 0 0 && decide (queueLeft s 0 0 = 1 ∧ findProcess s 0 (queuePid s 0 0) = some 0) &&
    decide (findProcess (s.setCtl 0 0x5D00 0) 0 1 = none ∧ ringEntry s 0 0 0 = 0x10000 ∧ rangeCheck good who 0x10000 128 .load = .ok) && badPacket (p s) &&
    decide (rangeCheck s who 0x10000 128 .load = .ok) && !badPacket (p good) && decide (rangeCheck (s1 good) who (packNat (p good) 8 8) 64 .load = .ok) &&
    !badKernel (p good) (k good) && badKernel (p kernel) (k kernel) && !badPacket (p kernel)) = true := by decide +kernel

theorem test_meets_QueuesAndPackets_launch : (let s := (queueS 0 3 0 0 0).setWave 7 { wait := .launch 0 }
    let full := queueS 0 3 0 0 16
    let r : LaunchReq := { wave := 7, landing := 0, pid := 1, queue := 0, packet := 0 }
    decide (r.src = 0) && queueEn s 0 0 && queueFed s 0 0 && decide (queuePid s 0 0 = r.pid ∧ queueState s 0 0 = 0 ∧ queueState (queueS 0 3 3 0 0) 0 0 = 3) &&
    !badDescriptor s 0 0 && badDescriptor (queueS 0 11 0 0 0) 0 0 && queueFed (queueS 0 11 0 0 0) 0 0 &&
    !badDescriptor full 0 0 && decide (2 ^ queueNat full 0 0 8 1 ≤ queueLeft full 0 0 ∧ queueLeft s 0 0 < 2 ^ queueNat s 0 0 8 1) &&
    decide (findProcess s 0 r.pid = some 0 ∧ rangeCheck s (unitWho 0 0 1) 0x10000 128 .store = .ok ∧ queuePid s 0 0 ≠ 2) &&
    decide (ringEntry s 0 0 (queueTail s 0 0) = 0x10000 ∧ findProcess (s.setCtl 0 0x5D00 0) 0 1 = none) &&
    decide ((s.wave? r.wave).map Wave.wait = some (.launch r.landing))) = true := by decide +kernel

/-- 128 queues that may be spilled: of their descriptors only LOG2N is not 0. -/
def spillS : State := { procS with mem := (List.range 128).map fun q => (0x30008 + 64 * q, 4), now := 10 ^ 9 }

theorem mfind_map_range (g : Nat → Nat) (v : Byte) (c : Nat) : ∀ l : List Nat,
    mfind (l.map fun q => (g q, v)) c = if ∃ q ∈ l, g q = c then some v else none := by
  intro l
  induction l with
  | nil => simp [mfind]
  | cons a l ih =>
    by_cases h : g a = c
    · simp [mfind, h]
    · simp [mfind, h, ih]

theorem spillS_byte (q k : Nat) (hq : q < 128) (hk : k < 64) : spillS.peek 0 (0x30000 + 64 * q + k) = if k = 8 then 4 else 0 := by
  have hf : spillS.frames 0 = [] := by decide +kernel
  have hl : spillS.locate (0x30000 + 64 * q + k) = .cached 0 (0x30000 + 64 * q + k) := by
    have h0 : (0x30000 + 64 * q + k) / 0x4000000000 = 0 := by omega
    have h1 : (0x30000 + 64 * q + k) % 0x4000000000 < lpddrSize := by unfold lpddrSize; omega
    unfold State.locate
    simp only [h0, h1, if_true, Nat.zero_lt_succ]
  have h (p : Nat) : spillS.frameAt? 0 p = none := by simp [State.frameAt?, hf]
  have hm : spillS.mem = (List.range 128).map fun q => (0x30008 + 64 * q, 4) := rfl
  rw [State.peek]
  have hp (b o : Nat) : pendingByte (spillS.die 0).cache.pend b o = none := by
    have : (spillS.die 0).cache.pend = [] := by decide +kernel
    rw [this]; rfl
  simp only [h, hl, hp, State.cellByte, hm, mget, mfind_map_range]
  by_cases h8 : k = 8
  · rw [if_pos ⟨q, List.mem_range.2 hq, by omega⟩]; simp [h8]
  · rw [if_neg]
    · simp [h8]
    · rintro ⟨p, -, hp⟩; omega

theorem spillS_bytes (q : Nat) (hq : q < 128) : ∀ n off, off + n ≤ 64 →
    spillS.peekBytes 0 (0x30000 + 64 * q + off) n = (List.range' off n).map fun k => if k = 8 then 4 else 0 := by
  intro n
  induction n with
  | zero => intro off _; rfl
  | succ n ih =>
    intro off h
    rw [State.peekBytes, spillS_byte q off hq (by omega), Nat.add_assoc, ih (off + 1) (by omega), List.range'_succ, List.map_cons]

theorem test_meets_QueuesAndPackets_spill : let qs : List (BitVec 20) := (List.range 128).map (BitVec.ofNat 20)
    qs.length = 128 ∧ (qs.map BitVec.toNat).Nodup ∧ ∀ x ∈ qs, maySpill spillS 0 x.toNat = true := by
  refine ⟨by decide +kernel, by decide +kernel, fun x hx => ?_⟩
  have hq : x.toNat < 128 := by
    obtain ⟨n, hn, rfl⟩ := List.mem_map.1 hx
    have := List.mem_range.1 hn
    simp only [BitVec.toNat_ofNat]; omega
  have hb : (spillS.die 0).image.qtbase = 0x30000 := by decide +kernel
  have n (off k : Nat) (h : off + k ≤ 64) : queueNat spillS 0 x.toNat off k = leNat ((List.range' off k).map fun k => if k = 8 then 4 else 0) := by
    rw [queueNat, queueAddr, hb, State.peekNat, spillS_bytes _ hq _ _ h]
  have hp : (spillS.die 0).host.pages = [] := by decide +kernel
  have hw : (spillS.die 0).host.waking = [] := by decide +kernel
  have ht : spillS.time = 10 ^ 9 := by decide +kernel
  have hk : mget 0 (spillS.die 0).host.woken x.toNat = 0 := by
    have : (spillS.die 0).host.woken = [] := by decide +kernel
    rw [this]; rfl
  simp only [maySpill, ht, hk, queueState, queueLeft, queueTail, queueHead, badDescriptor, pageOfQueue, hp, hw,
    n 8 1 (by omega), n 9 1 (by omega), n 10 1 (by omega), n 11 1 (by omega), n 16 4 (by omega), n 20 4 (by omega), n 30 2 (by omega),
    n 40 24 (by omega), n 32 8 (by omega), n 0 8 (by omega)]
  rfl

/-! ### Witnesses: the scheduler, the engines, waves and the debugger -/

/-- Team 0 of launch 1 (its packet given) with its wave on cluster 0 of die 0; the unit sees a page at 0x10000 and a large one at 0x200000. -/
def teamS (f : Team → Team) (pk : List Byte) : State :=
  let s := (sState id).setCtl 0 0x20 6
  let s := s.modDie 0 fun x => { x with tr := { x.tr with
    cache := x.tr.cache ++ [⟨64, 0, 1, placedVa, 65536, placedLeaf, 0⟩, ⟨64, 0, 1, 0x200000, 0x200000, placedLeaf, 0⟩] } }
  let s := { s with launches := [(1, { s.launch 1 with packet := BitVec.ofNat 1024 (leNat pk) })] }
  s.modTeam (teamKey 1 0) f
/-- The packet of a launch whose first dependence expects n in the word at 0x10000. -/
def dependent (n : Nat) : List Byte := zeros 64 ++ leBytes 8 0x10000 ++ leBytes 4 n ++ leBytes 1 1
def team1 : Nat := teamKey 1 0
/-- A region table with a slice of 100 µs and so many clusters. -/
def regionTab (clusters : Nat) : List Byte :=
  leBytes 4 0xFFFFFFFF ++ leBytes 2 26 ++ zeros 2 ++ leBytes 4 100 ++ leBytes 2 clusters ++ zeros 2 ++ leBytes 8 (2 ^ 40) ++ zeros 232
def inRegion (clusters : Nat) (ready : List Nat) (s : State) : State :=
  withDie (fun x => { x with sched := { x.sched with regions := [(1, regionTab clusters)], ready := ready } }) s

theorem test_meets_SchedulerEvents : (let w : Team → Team := fun t => { t with phase := .waiting }
    let s := teamS w []
    let who := unitWho 0 0 1
    let dep (n : Nat) : State := { teamS w (dependent n) with keyDigest := [] }
    let look (s : State) : State × Except RangeCheck Nat := depState s who (s.launch 1).packet 0
    let susp := teamS (fun t => { t with phase := .suspended }) []
    let shut := susp.setCtl 0 0x1000 0x1F
    let ready := teamS (fun t => { t with phase := .ready, carved := true, ctx := 0x10000 }) []
    let none0 := inRegion 0 [] ready
    decide ((s.team? team1).map Team.phase = some .waiting) && (match look (dep 0) with | (u, .ok 2) => decide (u = dep 0) | _ => false) &&
    (match look s with | (u, .ok 1) => mayBegin u (s.launch 1) && decide ((readyWith u 0).2 = [team1]) | _ => false) &&
    (match look (dep 5) with | (_, .ok 0) => true | _ => false) && !dieDown s 0 && decide (readyList s 0 = []) &&
    s.teams.all (fun y => y.2.phase ≠ .running) && teamAwake susp team1 && canResume susp 0 (susp.team team1) && (tryResume susp team1).2 &&
    !canResume shut 0 (shut.team team1) && decide ((ready.team team1).fault = none) && canPlaceOn ready 0 0 (ready.team team1) && (tryBlock ready 0 0 team1).2 &&
    (List.range 64).all (fun b => !canPlaceOn none0 0 b (none0.team team1) && !budgetOk none0 0 b (none0.team team1))) = true := by decide +kernel

theorem test_meets_SchedulerEvents_moves : (let moving := teamS (fun t => { t with phase := .moving, ctx := 0x10000 }) []
    let killed := teamS (fun t => { t with phase := .moving, killed := true }) []
    let busy : State := { (moving.modCluster 0 fun c => { c with copies := [{ id := 1, inst := 0, op := 0x55, f := lf 0 0 no no no 0, wave := waveKey 1 0 0, tlpc := 0 }] }) with
      agenda := [.teamMoveComplete 0 team1] }
    let pair (x : Team) (l : List Nat) : State := inRegion 1 l { teamS id [] with teams :=
      [(team1, { launch := 1, phase := .running, waves := 1, regBytes := 2 ^ 20 }), (teamKey 1 1, { x with launch := 1, t := 1, waves := 1, regBytes := 2 ^ 20 })] }
    let slice := pair { phase := .ready, carved := true, ctx := 0x10000 } [teamKey 1 1]
    let back := pair { phase := .suspended } [teamKey 1 1]
    let alone := inRegion 1 [] (teamS id [])
    let tab := withDie fun x => { x with image := { x.image with regionBase := [(1, 0x30000, 1)] } }
    [moving, killed].all (fun s => !draining s (s.team team1) team1) && draining busy (busy.team team1) team1 && (killed.team team1).killed &&
    scheduleUp moving 0 && decide (Instr.teamMoveComplete 0 team1 ∈ busy.agenda) && !(moving.team team1).killed &&
    decide (rangeCheck moving ((moving.team team1).who (moving.launch 1)) 0x10000 0 .atomic = .ok) &&
    [slice, back].all (fun s => sliceDue s 0 team1 (s.team team1) 100 && decide (sliceWaiter s 0 team1 (s.team team1) = some (teamKey 1 1))) &&
    !sliceDue slice 0 team1 (slice.team team1) 99 && decide (sliceWaiter alone 0 team1 (alone.team team1) = none) && scheduleUp slice 0 &&
    decide ((slice.team (teamKey 1 1)).phase = .ready ∧ (back.team (teamKey 1 1)).phase = .suspended) && (tryBlock slice 0 0 (teamKey 1 1)).2 &&
    (tryResume back (teamKey 1 1)).2 && decide (((tab.die 0).image.regionBase.find? fun r => r.1 = 1) = some (1, 0x30000, 1)) && scheduleUp tab 0) = true := by
  decide +kernel

theorem test_meets_SchedulerEvents_ends : (let past := teamS (fun t => { t with phase := .ended }) (zeros 40 ++ leBytes 8 0x10000)
    let grid := { past with launches := [(1, { past.launch 1 with done := 1, packet := BitVec.ofNat 1024 (leNat (zeros 48 ++ leBytes 8 0x10000 ++ leBytes 2 0x8000)) })] }
    let out (p : TeamPhase) : State := (teamS (fun t => { t with phase := p, ctx := 0x200000, accCfg := [(0, { en := true })] }) []).modCluster 0 fun c => { c with writeout := [(24, team1, 0)] }
    !parseStopped past 0 && mayRelease past 0 && !parseStopped grid 0 && mayRelease grid 0 && !teamBusy past (past.team team1) team1 && decide ((past.launch 1).pk 40 8 = 0x10000 ∧ rangeCheck past (unitWho 0 0 1) 0x10000 16 .store = .ok) &&
    decide ((teamS id [] |>.launch 1).pk 40 8 = 0) && decide ((grid.launch 1).id = 1 ∧ (grid.launch 1).gridDone = false ∧ (grid.launch 1).done = (grid.launch 1).teams ∧
      (grid.launch 1).pk 48 8 = 0x10000 ∧ bit ((grid.launch 1).pk 56 2) 15 = true) &&
    [TeamPhase.running, .suspended].all (fun p => decide (((out p).cluster (clusterKey 0 0)).writeout.find? (fun w => w.1 = 24) = some (24, team1, 0))) &&
    isStopped .suspended && !isStopped .running && (accCfgOf ((out .suspended).team team1) 0).en &&
    decide (rangeCheck (out .suspended) (((out .suspended).team team1).who ((out .suspended).launch 1)) (0x200000 + 1024) 65536 .store = .ok)) = true := by decide +kernel

/-- An entry of the sequencer: opcode, place, started. -/
def seqE (op order : Nat) (on : Bool) : SeqEntry :=
  { inst := 0, op := op, f := lf 0 0 no no no 1, wave := waveKey 1 0 0, tlpc := 0, started := on, order := order }
def seqS (l : List SeqEntry) (s : State) : State := s.modCluster 0 fun c => { c with seq := l }
def tiles (t : Team) : Team := { t with accCfg := [(0, { en := true })] }
/-- A flat copy of one tile, and a state with these copies. -/
def copy0 : CopyCmd := { id := 1, inst := 0, op := 0x55, f := lf 0 0 no no no 0, wave := waveKey 1 0 0, tlpc := 0, a := 0x10000, b := 0x10800 }
def copyS (l : List CopyCmd) : State := (sState id).modCluster 0 fun c => { c with copies := l }

theorem test_meets_EngineSteps : (let one := seqS [seqE 0x5B 1 false] (teamS tiles [])
    let two := seqS [seqE 0x5B 1 true, { seqE 0x5B 2 false with f := lf 0 0 no no no 0, wave := waveKey 2 0 0 }]
      { teamS id [] with teams := [(team1, { launch := 1, phase := .running }), (teamKey 2 0, { launch := 2, phase := .running, prio := 9 })], waves := [(waveKey 1 0 0, {}), (waveKey 2 0 0, {})] }
    let best (s : State) : Option SeqEntry := let v := refillSeq s 0 0; seqBest v ((v.cluster 0).seq.filter (seqCan v 0))
    let stops (s : State) : Option SeqEntry := ((refillSeq s 0 0).cluster 0).seq.find? fun y => y.started && isMma y
    let zero := seqS [seqE 0x5A 1 true] (teamS tiles [])
    let gone (p : TeamPhase) : State := seqS [seqE 0x5A 1 true] (teamS (fun t => { t with phase := p }) [])
    decide (best (sState id) = none ∧ (best one).map SeqEntry.order = some 1 ∧ (best two).map SeqEntry.order = some 2) && (stops one).isNone &&
    decide ((stops two).map SeqEntry.order = some 1) && (zero.wave? (waveKey 1 0 0)).isSome && seqServed zero (waveKey 1 0 0) && teamOver (gone .ended) (seqE 0x5A 1 true) &&
    !teamOver (gone .suspended) (seqE 0x5A 1 true) && !seqServed (gone .suspended) (waveKey 1 0 0) &&
    [0x5A, 0x58].all (fun op => let s := seqS [seqE op 1 true] (teamS tiles [])
      ((s.cluster 0).seq.find? fun a => a.order = 1 && a.started).isSome && !teamOver s (seqE op 1 true) && !(seqE op 1 true).busy && seqServed s (waveKey 1 0 0)) &&
    (accNames (seqE 0x5A 1 true)).all (fun i => (accCfgOf (zero.team team1) i).en) && decide (accNames (seqE 0x5A 1 true) ≠ []) && (zero.team? team1).isSome) = true := by
  decide +kernel

set_option maxRecDepth 100000 in
theorem test_meets_EngineSteps_copies : (let cold := copyS [copy0]
    let found (s : State) : Bool := ((s.cluster 0).copies.find? fun y => y.id = 1 && y.started && y.landed.isNone && y.hold = .none).isSome
    let hot := copyS [{ copy0 with started := true }]
    let late (n : Nat) : CopyCmd := { copy0 with started := true, busy := true, remote := n }
    !copyFrozen cold 0 0 && copyFrozen (hot.setCtl 0 0x5E20 1) 0 0 && found (hot.setCtl 0 0x5E20 1) && (hot.wave? copy0.wave).isSome &&
    (copyBest cold ((cold.cluster 0).copies.filter fun y => !y.started && y.landed.isNone)).isSome && found hot && !copyYields hot 0 { copy0 with started := true } &&
    decide (copy0.f.xf 21 21 ≠ 1) && [0, 1].all (fun n => found (copyS [late n]) && !copyYields (copyS [late n]) 0 (late n) &&
      (let (u, z) := engWriteAll (engWho (copyS [late n]) copy0.wave) copy0.wave 7 (keyLaunch copy0.wave) (.engine 0 true 1) (late n).writes (copyS [late n])
       z.stop.isNone && (unacked u 0 ((late n).pend ++ z.pend)).isEmpty && decide ((late n).remote + z.remote = n))) &&
    match engReadAll (engWho hot copy0.wave) 6 (keyLaunch copy0.wave) (copyPlan copy0).1 hot with
      | (u, .ok ts) =>
        let z := (engWriteAll (engWho u copy0.wave) copy0.wave 7 (keyLaunch copy0.wave) (.engine 0 true 1) ((copyPlan copy0).2 ts) u).2
        z.stop.isNone && (unacked u 0 z.pend).isEmpty && decide (z.remote = 0 ∧ ts.length = 1)
      | _ => false) = true := by decide +kernel

/-- BAR on barrier 3, with the wave's split 0 waiting at it. -/
def barS (ph : Bool) : State :=
  let s := State.reset.withFetchWord 96 ((encode (.bar (lf 0 0 no no no 3))).foldr (fun a n => a.toNat + 2 ^ 32 * n) 0)
  setBar (s.setWave (waveKey 1 0 0) (let w := placedWave 96; { w with c := { w.c with arv := 1, aph := 0 } })) (teamKey 1 0) 3 { phase := ph }

theorem test_meets_WaveAndDebugEvents : (let l : Landing := { scalar := some (3, 5), lanes := [(70, 9)], fullS := [3], fullV := [2], regs := [2] }
    let landS := (sState id).setWave (waveKey 1 0 0) { sw id with landings := [(0, l)], nextLanding := 1 }
    let lands := (landS.wave? (waveKey 1 0 0)).getD {}
    let str := setStream (sw id) 2 { bound := true, count := 4, base := 0x10000 }
    let due : Wave := { handled id (sw id) with asyncs := [{ tcause := 2 }] }
    let bar (ph : Bool) : Wave := ((barS ph).wave? (waveKey 1 0 0)).getD {}
    decide (mfind lands.landings 0 = some l ∧ l.need = 0) && (mdel lands.landings 0).isEmpty && (getStream str 2).bound && !(getStream str 2).dir && str.running && !str.ended &&
    !due.c.intrap && due.park.isNone && decide (due.y.tvec ≠ 0) && [true, false].all (fun ph => (bar ph).running && (getSplit (bar ph) 0).valid && waitsBar (bar ph) 0 &&
      ((barAt (barS ph) (bar ph) (getSplit (bar ph) 0).lpc).map Prod.fst == some 3) && decide ((getBar (barS ph) (teamKey 1 0) 3).phase = ph)) && !(bar true).c.aph.getLsbD 0) = true := by
  decide +kernel

theorem test_meets_WaveAndDebugEvents_debug : (let v : W64 := 0x0000000100000000
    let s := (sState id).setCtl 0 0x20 6
    let halted := (sState fun w => { w with c := { w.c with halted := true } }).setCtl 0 0x20 6
    let busy (n : Nat) : State := ((sState fun w => { w with stepping := n, c := { w.c with halted := true } }).setCtl 0 0x9000 v).setCtl 0 0x9008 1
    let traced : State := { s.setCtl 0 0x5A00 0x100 with issued := [(0, waveKey 1 0 0)] }
    let key := dbgTarget v
    free s && (issuedOn traced 0 0).isSome && (issuedOn s 0 0).isNone && !masterStopped halted 0 (.sup 0) && !dbgBusy s 0 && decide (key = waveKey 1 0 0) && (State.reset.team? (key / 16)).isNone && decide ((s.team (key / 16)).die = 0 ∧ (s.team (key / 16)).phase ≠ .away) &&
    (s.wave? key).any (fun w => !w.ended && !w.c.halted && w.running) && (halted.wave? key).any (fun w => !w.ended && w.c.halted && w.stepping = 0) &&
    ((sState endWave).wave? key).any (fun w => w.ended) && [0, 1].all (fun n => dbgBusy (busy n) 0 && decide (dbgTarget ((busy n).ctl 0 0x9000) = key) &&
      ((busy n).wave? key).any (fun w => !w.ended && decide (w.stepping = n))) && !inKBlock (busy 0) key && decide (traced.ctlBits 0 0x5A00 11 8 ≠ 0) &&
    (s.wave? s.focus).any (fun w => decide ((waveWho s w).d = 0 ∧ (waveWho s w).cluster = 0) && w.running) && !dieDown s 0) = true := by decide +kernel

/-! ### Witnesses: coherence, upkeep, shoot-downs -/

def tile9 : TileId := ⟨0, 32⟩
/-- Die d holds this frame of `tile9`, whose home is die 1. -/
def cohS (d : Nat) (f : Frame) : State :=
  State.reset.modCache d fun c => { c with frames := [{ f with tile := tile9, pcoh := true, home := 1, base := 0x10000 }] }

theorem test_meets_PackageCoherence_home : (let at1 (f : Frame) : Frame := (homeFrame (cohS 1 f) 1 tile9).getD {}
    let src : Nat := 2
    [((0 : BitVec 8), (0 : BitVec 4)), (4, 0), (8, 0), (12, 0), (4, 11)].all (fun p =>
      let f := at1 { st := .e, dsharers := p.1, downer := p.2 }
      (homeFrame (cohS 1 { st := .e, dsharers := p.1, downer := p.2 }) 1 tile9).isSome && decide (f.wait = .none ∧ f.queue = [] ∧ f.dsharers = p.1) &&
        decide (ownerOf f = if p.2 = 11 then some 3 else none)) && !dieDown (cohS 1 { st := .e }) 1 &&
    decide ((diesOf (at1 { st := .e, dsharers := 4 }).dsharers).filter (· ≠ src) = [] ∧ (diesOf (at1 { st := .e, dsharers := 12 }).dsharers).filter (· ≠ src) ≠ []) &&
    decide (bit8 src = 4 ∧ (at1 { st := .s, wait := .upgWait 3, acks := 4 }).acks &&& ~~~bit8 src = 0 ∧ (at1 { st := .s, wait := .upgWait 3, acks := 12 }).acks &&& ~~~bit8 src ≠ 0) &&
    [0, 1].all (fun k => decide ((at1 { st := .s, wait := .fwdPend 3 k }).wait = .fwdPend 3 k ∧ (at1 { st := .s, wait := .fwdPend 3 k }).acks = 0 ∧
      (at1 { st := .s, wait := .fwdPend 3 k }).heldWback = none)) && (homeFrame State.reset 1 tile9).isNone &&
    decide (ownerOf (at1 { st := .s, downer := 10 }) = some src ∧ (at1 { st := .s, downer := 10 }).repl = 0)) = true := by decide +kernel

theorem test_meets_PackageCoherence_die : (let d : Nat := 0
    (bufferFrame State.reset d tile9).isNone && (dieFrame State.reset d tile9).isNone && !tensorPcoh State.reset 5 &&
    [CohState.is, .sm, .s, .m, .o, .e].all (fun st =>
      let s := cohS d { st := st }
      let f := (dieFrame s d tile9).getD {}
      (dieFrame s d tile9).isSome && (bufferFrame s d tile9).isNone && !inGrace s f && decide (f.st = st ∧ f.fetchPins = 0 ∧ f.home ≠ d ∧ f.heldFwd = [] ∧ f.answered = false)) &&
    [true, false].all (fun asked => (dieFrame (cohS d { st := .is, answered := true, asked := asked }) d tile9).any fun f => f.answered && f.asked == asked && f.heldFwd.isEmpty) &&
    [(2 : BitVec 8), 6].all fun a =>
      let j : CacheJob := { id := 7, kind := 1, tid := 5, acks := a }
      let s := State.reset.modCache d fun c => { c with jobs := [j] }
      decide ((s.die d).cache.jobs.find? (fun k => k.id = 7) = some j ∧ j.strips = 0 ∧ (j.acks &&& ~~~bit8 1 = 0 ↔ a = 2))) = true := by decide +kernel

theorem test_meets_CacheUpkeep : (let s := State.reset
    let a (seq : Nat) : AtomicReq := { src := 1, seq := seq, tile := tile9, base := 0x10000, off := 8, width := 8, op := .add, kind := .signed, operand := 1, compare := 0, repl := 0,
                                       dest := .scalar (waveKey 1 0 0) 0 3, clock := ⟨0, 0⟩ }
    let need (t : TileId) : FillReq := { tile := t, base := 0x10000, home := 0, enc := false, pcoh := tensorPcoh s t.tid, repl := 0, nq4 := false, side := 0, owner := 0 }
    let p : Placed := { pa := 0x10008, req := need tile9, leaf := 0 }
    let jobS (j : CacheJob) (h : List HaloStrip) : State := s.modCache 0 fun c => { c with jobs := [j], halo := h }
    let bump (n : BitVec 8) : CacheJob := { id := 3, kind := 0, tid := 5, acks := n, wave := 9 }
    let flush (n : Nat) (a : BitVec 8) : CacheJob := { id := 4, kind := 1, tid := 0, acks := a, strips := n }
    let waits := (jobS (bump 2) []).setWave 9 { wait := .bump 3 }
    let lands := (sState id).setWave (waveKey 1 0 0) { sw id with landings := [(0, { need := 1, scalar := some (3, 0) })] }
    !dieDown s 0 && !fromLost s 0 1 && pairTurn s 0 1 0 && !pairTurn s 0 1 1 && decide (atOffsets 8 [1, 2] = [(8, 1), (9, 2)]) &&
    (match touch s 0 (need tile9) true with | .ok u => decide (u.ctlBits 0 0x5B00 1 0 = 0) | _ => false) && decide (p.req.base % 2048 = 0 ∧ p.req.base ≤ p.pa ∧ p.pa - p.req.base + 8 ≤ 2048) &&
    (lands.wave? (waveKey 1 0 0)).any (fun w => (mfind w.landings 0).isSome) && decide ((a 0).off + (a 0).base = p.pa) &&
    [(2 : BitVec 8), 6].all (fun n => ((jobS (bump n) []).die 0).cache.jobs.any fun j => j.kind = 0 && j.tid = 5 && j.acks.getLsbD 1) &&
    decide ((waits.wave? 9).map Wave.wait = some (.bump 3)) && (((s.die 0).cache.jobs.find? fun j => j.kind = 1 && j.tid = tile9.tid && j.strips ≠ 0)).isNone &&
    [(1, 0), (2, 0), (1, 2)].all (fun (n, a) => ((jobS (flush n a) []).die 0).cache.jobs.any fun j => j.kind = 1 && j.tid = tile9.tid && j.strips ≠ 0) &&
    [1, 2].all (fun n => ((jobS (flush n 0) [⟨9, tile9, 2, [], 4⟩]).die 0).cache.halo.any fun y => y.id = 9 && decide (y.face ≠ haloStartFace ∧ y.job = 4)) &&
    (s.frame? 0 tile9).isNone && ((cohS 1 { st := .e }).frame? 1 tile9).isSome && (match completeFill s 0 (need tile9) with | .ok _ => true | _ => false) &&
    (match completeFill s 0 { need tile9 with enc := true } with | .fault _ => true | _ => false) &&
    (match completeFill (errorRec s 0 1 2 0x10000 [] (lpddrChannel 0x10000) 0).1 0 (need tile9) with | .ok _ => true | _ => false) &&
    (match completeFill (s.modCache 0 fun c => { c with fencedWays := List.replicate 20 (tileHash tile9, 0) }) 0 (need tile9) with | .wait _ => true | _ => false)) = true := by
  decide +kernel

/-- The start of a TCHALO: its job carries the record, and the tile can be read. -/
theorem test_meets_CacheUpkeep_halo : (let r := recordAt 0x10000 ((recBytes 5 0x10000).set 6 2)
    let s := recS false (sState id)
    let j : CacheJob := { id := 4, kind := 2, tid := 5, wave := waveKey 1 0 0, record := some r }
    match engRead s (engWho s j.wave) 0 (keyLaunch j.wave) (r.tile fun k => coordAt 0 k).use with | (_, .ok _) => true | _ => false) = true := by decide +kernel

/-! ### Witnesses: shoot-downs and fault answers -/

def intent (kind pid count : Nat) : Body := bodyOf (leBytes 1 kind ++ zeros 1 ++ leBytes 2 9 ++ leBytes 4 pid ++ leBytes 8 0x20000 ++ leBytes 4 count ++ zeros 28)
def shoot (commit : Bool) (drain : List (Nat × Nat)) : ShootDown :=
  { src := 1, sdid := 9, kind := 1, pid := 1, first := 0x20000, count := 1, box := 0, tag := 0, acked := false, commit := commit, drain := drain }
/-- Process 1 has its entry, with a wave in focus that is changed; this is open in its directory. -/
def dirS (f : Wave → Wave) (g : TransState → TransState) : State :=
  let s := (((sState f).setCtl 0 0x20 6).setCtl 0 0x5D00 0x100001).unitWrite 0 0x100000 (leBytes 4 1 ++ leBytes 4 1)
  s.modTr 0 g
def shootS (x : ShootDown) : State := dirS id fun t => { t with shoots := [x] }
def faultS (f : Wave → Wave) (o : FaultOwner) (again : Option Instr) : State :=
  dirS f fun t => { t with faults := [{ fid := 3, owner := o, record := [], written := true, va := 0x20000, reason := 2, again := again }] }

theorem test_meets_ShootDowns : (let s := dirS id id
    let old := (shootS (shoot false [(1, 0)])).modCache 0 fun c => { c with pend := [{ seq := 0, home := 1, base := 0, bytes := [], wave := 0 }] }
    let parked := dirS (fun w => { w with park := some { blocked := true } }) fun t => { t with shoots := [shoot false []] }
    let hw : State := (shootS (shoot false [])).modTr 0 fun t => { t with violators := [(2, waveKey 1 0 0), (64, 5)] }
    let frozen := (hw.setCtl 0 0x5E18 4).setCtl 0 0x5E20 1
    shootVoid (intent 3 1 1) false && !shootVoid (intent 1 1 1) false && shootVoid (intent 1 1 0) true && !shootVoid (intent 2 1 1) true &&
    decide (findProcess s 0 7 = none ∧ findProcess s 0 1 = some 0 ∧ rootOf s 0 1 = some 0 ∧ bodyNat (intent 1 1 1) 2 2 = 9) &&
    ((shootS (shoot false [])).die 0).tr.shoots.any (fun x => decide (x.src = 1 ∧ x.sdid = 9) && !x.acked) &&
    (shoot false [(1, 0)]).drain.any (fun p => (unfinished old 0).contains p) && !((shoot false []).drain.any fun p => (unfinished s 0).contains p) &&
    decide ((s.die 0).tr.hostWaits = []) && (parked.wave? (waveKey 1 0 0)).any (fun w => w.park == some { blocked := true } && decide ((waveWho parked w).d = 0)) &&
    ((shootS (shoot true [])).die 0).tr.shoots.any (fun x => decide (x.src.toNat = wbits 0x10009 24 16 ∧ x.sdid.toNat = wbits 0x10009 15 0) && x.commit) &&
    (s.die 0).tr.shoots.isEmpty && free s && !masterStopped s 0 (.fw 2) && !isSup (.fw 2) &&
    (frozen.die 0).tr.violators.all (fun q => decide (q.2 ≠ 0)) && (frozen.ctl 0 0x5E18).getLsbD 2 && (frozen.ctl 0 0x5E20).getLsbD 0 &&
    (frozen.team? (waveKey 1 0 0 / 16)).any (fun t => decide (t.phase = .running))) = true := by decide +kernel

theorem test_meets_FaultAnswers : (let k := waveKey 1 0 0
    let call := faultS (fun w => { w with wait := .syscall 3 }) (.wave k) none
    let park (l : List (Nat × W32)) : State := faultS (fun w => { handled id w with park := some { records := l } }) (.wave k) none
    let again : Instr := .packetParse 0 0
    let seq := seqS [{ seqE 0x5B 1 true with hold := .fault 3 }] (faultS id (.seq 0 0 1) none)
    let copy := (faultS id (.copy 0 0 1) none).modCluster 0 fun c => { c with copies := [{ copy0 with hold := .fault 3 }] }
    let host := (faultS id (.host 5) none).modTr 0 fun t => { t with hostWaits := [{ ticket := 5, pasid := 6, va := 0, kind := .read 8, fault := some 3 }] }
    let stored := (faultS id (.seq 0 0 1) none).modTeam (waveKey 1 0 0 / 16) fun t => { t with store := [{ seqE 0x5B 1 false with hold := .fault 3 }] }
    (heldEntry seq 0 3).any (fun p => p.1 == some 0) && (heldEntry stored 0 3).any (fun p => p.1 == none) && (answered? stored 0 3).isSome &&
    [call, park [(3, 1)], park [(3, 1), (4, 2)], seq, copy, host].all (fun s => free s && (answered? s 0 3).isSome && decide ((s.wave? k).isSome)) &&
    (answered? State.reset 0 3).isNone && (call.wave? k).any (fun w => decide (w.wait = .syscall 3)) &&
    ((park [(3, 1)]).wave? k).any (fun w => w.park.isSome && !w.c.intrap && decide (w.wait ≠ .syscall 3 ∧ w.y.tvec ≠ 0)) &&
    ((seq.cluster (clusterKey 0 0)).seq.find? fun e => heldBy 3 e.hold).isSome && ((copy.cluster (clusterKey 0 0)).copies.find? fun y => y.id = 1).isSome &&
    ((host.die 0).tr.hostWaits.find? fun y => y.ticket = 5).isSome &&
    [FaultOwner.context 1 0, .queue 0, .event 0 0, .launchWrite 0].all fun o => (answered? (faultS id o (some again)) 0 3).any fun f => f.again == some again) = true := by
  decide +kernel

/-! ### Witnesses: the decoder and the step -/

theorem test_meets_EncodeDecode : (let i : Instr := .fadd ⟨2, 0, false, false, 4, .v 2 false, .v 3 false, .v 0 false, 0⟩
    i.wf && decide (encode i = [0, 0x40180000, 0x26800200] ∧ (Instr.add 1 2 3).wf = true ∧ encode (.add 1 2 3) ≠ [])) = true := by decide +kernel

theorem test_meets_StepRuns : (let s := State.reset.withFetchWord 32 0x08313FF4
    let tk (s : State) : State := { tick s with agenda := (tick s).agenda.filter fun e => !dropped (tick s) e }
    let v := tk s
    let w := (v.wave? v.focus).getD {}
    let lit := State.reset.withFetchWord 64 (0x69421000 + 2 ^ 32)
    let lane := State.reset.withFetchWord 96 (0x40180000 * 2 ^ 32 + 0x26800200 * 2 ^ 64)
    let wl := ((tk lane).wave? lane.focus).getD {}
    let bad := State.reset.withFetchWord 96 (0x3F000000 + 0x40300060 * 2 ^ 32 + 0x2A800480 * 2 ^ 64)
    let event := { s with agenda := [Instr.placementDecision 0], ticks := 0 }
    let va (n : Nat) : W64 := BitVec.ofNat 64 (0x10000 + n)
    (oldestEvent v v.agenda).isNone && (oldestEvent (tk event) (tk event).agenda).any (fun p => encode p.1 == []) &&
    [(v, w), (tk lane, wl)].all (fun p => (List.range 8).all fun n => decide (p.1.ctlBits (waveWho p.1 p.2).d (0xA000 + 0x80 * (waveWho p.1 p.2).cluster + 0x10 * n) 0 0 = 0)) &&
     (v.wave? v.focus).isSome && focusReady v w && !(waveIssues v w && asyncDue w) && !v.lane && decide (fetchWord v w w.c.pc 3 = .word 0x08313FF4) &&
    !hasLiteral 0x08313FF4 && decide (decode [0x08313FF4] = some (.addi 3 4 0x3FF4) ∧ encode (.addi 3 4 0x3FF4) ≠ []) &&
    hasLiteral 0x69421000 && decide (fetchWord (tk lit) ((tk lit).wave? lit.focus |>.getD {}) (va 4) 3 = .word 1) && (decode [0x69421000, 1]).isSome && lane.lane && focusReady (tk lane) wl &&
    decide (fetchWord (tk lane) wl (va 0) 4 = .word 0 ∧ fetchWord (tk lane) wl (va 4) 4 = .word 0x40180000 ∧ fetchWord (tk lane) wl (va 8) 4 = .word 0x26800200) &&
    (decode [0, 0x40180000, 0x26800200]).isSome && decide (wl.y.lanebase = 0x10000 ∧ wl.c.unfin = 0) && decide (decode [0x3F000000, 0x40300060, 0x2A800480] = none ∧ bad.lane = true) &&
    decide (encode (.placementDecision 0) = [] ∧ (tk event).ticks % 2 = 1) && (decode [0b010000_000110_000100_000111_000_000_11#32]).isNone && hasLiteral 0b011010_000001_111111_0010_0000000000#32 &&
    (decode [0b011010_000001_111111_0010_0000000000#32, 0]).isNone &&
    (match translate s 0 0 0 1 0x10000 [3] with | .ok pa _ pkg => decide (pa = 0x10000 ∧ pkg = s.pkg) | _ => false) && decide (s.locate 0x10000 = .cached 0 0x10000) && !inFirmware 0x10000 &&
    decide (isHostCell 0x10000 = false ∧ bit placedLeaf.toNat 7 = (codeRegion? s 0 0x10000).isSome) && !dieDown s 0) = true := by
  decide +kernel

theorem test_meets_IssueChoiceKept : (match step State.reset with | .next _ => true | _ => false) = true := by decide +kernel

end Sys2Proof.Tests
end

section
/-! PROOFS. The scalar instructions of chapter 16: division (R291), conditional branches (R298), jumps and the fetch that
follows them (R275, R299). -/

namespace Sys2Proof.Machine

variable {s : State} {w : Wave} {i : Instr}

/-! ### Division (R291) -/

/-- The wrap of −2^63 by −1 is what the truncated quotient already gives. -/
theorem divQ_cases (x y : W64) :
    divQ x y = if y = 0 then BitVec.allOnes 64
      else if x = 0x8000000000000000 ∧ y = BitVec.allOnes 64 then 0x8000000000000000
      else BitVec.ofInt 64 (x.toInt.tdiv y.toInt) := by
  unfold divQ
  by_cases hy : y = 0
  · rw [if_pos hy, if_pos hy]
  · rw [if_neg hy, if_neg hy]
    split
    · obtain ⟨rfl, rfl⟩ := ‹_ ∧ _›
      decide
    · rfl

/-- The remainder is what the truncated quotient leaves of the dividend: 0 for −2^63 by −1. -/
theorem divR_cases (x y : W64) :
    divR x y = if y = 0 then x
      else if x = 0x8000000000000000 ∧ y = BitVec.allOnes 64 then 0
      else BitVec.ofInt 64 (x.toInt - x.toInt.tdiv y.toInt * y.toInt) := by
  unfold divR
  by_cases hy : y = 0
  · rw [if_pos hy, if_pos hy]
  · rw [if_neg hy, if_neg hy]
    split
    · obtain ⟨rfl, rfl⟩ := ‹_ ∧ _›
      decide
    · rw [Int.tmod_def, Int.mul_comm y.toInt]

theorem exec_div_writes {d a b : BitVec 6} (h : ScalarAt s w (.div d a b) [d, a, b]) :
    ∃ t, exec (.div d a b) s = .next t ∧ ScalarWrites s t w (some d) (divQ (sreg w a) (sreg w b)) (w.c.pc + 4) :=
  aluOp_run h
theorem exec_rem_writes {d a b : BitVec 6} (h : ScalarAt s w (.rem d a b) [d, a, b]) :
    ∃ t, exec (.rem d a b) s = .next t ∧ ScalarWrites s t w (some d) (divR (sreg w a) (sreg w b)) (w.c.pc + 4) :=
  aluOp_run h
theorem exec_mul_writes {d a b : BitVec 6} (h : ScalarAt s w (.mul d a b) [d, a, b]) :
    ∃ t, exec (.mul d a b) s = .next t ∧ ScalarWrites s t w (some d) (sreg w a * sreg w b) (w.c.pc + 4) :=
  aluOp_run h
theorem exec_mulh_writes {d a b : BitVec 6} (h : ScalarAt s w (.mulh d a b) [d, a, b]) :
    ∃ t, exec (.mulh d a b) s = .next t ∧
      ScalarWrites s t w (some d) (BitVec.ofInt 64 ((sreg w a).toInt * (sreg w b).toInt / 2 ^ 64)) (w.c.pc + 4) := by
  show ∃ t, execMulh d a b s = .next t ∧ _
  rw [execMulh]
  exact aluOp_run (f := fun x y => BitVec.ofInt 64 (x.toInt * y.toInt / 2 ^ 64)) h

/-! ### Branch targets and conditions (R298) -/

/-- The shifted offset of the model is the four-fold offset of R298 and R299. -/
theorem shiftLeft_two_eq_four_mul (x : W64) : x <<< 2 = 4 * x := by
  rw [BitVec.shiftLeft_eq_mul_twoPow, BitVec.mul_comm]
  rfl

theorem not_slt_iff_toInt_le (x y : W64) : (!x.slt y) = true ↔ y.toInt ≤ x.toInt := by
  rw [Bool.not_eq_true', ← Bool.not_eq_true, BitVec.slt_iff_toInt_lt, Int.not_lt]
theorem not_ult_iff_toNat_le (x y : W64) : (!x.ult y) = true ↔ y.toNat ≤ x.toNat := by
  rw [Bool.not_eq_true', ← Bool.not_eq_true, BitVec.ult_iff_toNat_lt, Nat.not_lt]

/-- A branch whose test c says whether `p` holds goes to its target under `p` and steps by 4 otherwise. -/
theorem branchOp_goes {a b : BitVec 6} {off : BitVec 14} {c : W64 → W64 → Bool} {p : Prop}
    (h : ScalarAt s w i [a, b]) (hc : c (sreg w a) (sreg w b) = true ↔ p) :
    ∃ t, branchOp i a b off c s = .next t ∧
      (p → ScalarWrites s t w none 0 (w.c.pc + 4 * off.signExtend 64)) ∧ (¬p → ScalarWrites s t w none 0 (w.c.pc + 4)) := by
  obtain ⟨t, ht, writes⟩ := branchOp_run (c := c) (off := off) h
  rw [shiftLeft_two_eq_four_mul] at writes
  refine ⟨t, ht, fun hp => ?_, fun hp => ?_⟩
  · rwa [if_pos (hc.2 hp)] at writes
  · rwa [if_neg (mt hc.1 hp)] at writes

/-! ### Jumps (R299) -/

theorem exec_jmp_writes {off : BitVec 26} (h : ScalarAt s w (.jmp off) []) :
    ∃ t, exec (.jmp off) s = .next t ∧ ScalarWrites s t w none 0 (w.c.pc + 4 * off.signExtend 64) := by
  show ∃ t, execJmp off s = .next t ∧ _
  rw [execJmp, scalarOp_run h (by simp), shiftLeft_two_eq_four_mul]
  exact jumpS_plain s w 0 _

theorem exec_call_writes {off : BitVec 26} (h : ScalarAt s w (.call off) [63]) :
    ∃ t, exec (.call off) s = .next t ∧
      ScalarWrites s t w (some 63) (w.c.pc + 4) (w.c.pc + 4 * off.signExtend 64) := by
  show ∃ t, execCall off s = .next t ∧ _
  rw [execCall, scalarOp_run h (by simp), shiftLeft_two_eq_four_mul]
  exact jumpS_setS s w 63 _ _

/-- JR looks at bits 1:0 of its target. -/
theorem low_two_bits_eq_zero_iff (x : W64) : x.extractLsb' 0 2 = 0 ↔ x.toNat % 4 = 0 := by
  rw [← BitVec.toNat_inj, BitVec.extractLsb'_toNat]
  simp

theorem exec_jr_eq {a : BitVec 6} (h : ScalarAt s w (.jr a) [a]) :
    exec (.jr a) s = if (sreg w a).toNat % 4 = 0 then jumpS s w (sreg w a) else trapScalar s w (.jr a) 0x05 (sreg w a) := by
  show execJr a s = _
  rw [execJr, scalarOp_run h (by simp)]
  simp only [ne_eq, low_two_bits_eq_zero_iff, ite_not]

/-! ### The fetch at a page without the execute right (R275) -/

@[simp] theorem tick_agenda (s : State) : (tick s).agenda = s.agenda := rfl

/-- With nothing on its way a step is a wave's. -/
theorem next_of_agenda_nil (h : s.agenda = []) : next s = nextWave s := by
  have hs : { s with agenda := s.agenda.filter fun i => !dropped s i } = s := by
    rw [h, List.filter_nil, ← h]
  unfold next
  rw [hs]
  dsimp only
  rw [h, oldestEvent, ite_self]

/-- A wave that can issue, and has no trap due, fetches from its scalar stream. -/
theorem nextWave_scalar (hw : s.wave? s.focus = some w) (hl : s.lane = false) (hr : focusReady s w = true)
    (ha : (waveIssues s w && asyncDue w) = false) : nextWave s = fetchScalar s w := by
  simp [nextWave, hw, hl, hr, ha]

theorem fetchWords_page {va : W64} {right reason : Nat} (hf : fetchWord s w va right = .page reason) (l : List W64) :
    fetchWords w right (va :: l) s = (s, .error (va, .page reason)) := by
  rw [fetchWords, hf]

/-- The scalar stream of a wave parks at an address that has no page with SX: access kind 8, with the reason of the miss. -/
theorem fetchFails_page (hl : s.lane = false) (va : W64) (reason : Nat) :
    fetchFails s w va (.page reason) = parkWave s false true 8 [⟨0, va, some reason, false⟩] 0 0 [] [] := by
  unfold fetchFails
  rw [hl]
  rfl

theorem fetchScalar_page {reason : Nat} (hf : fetchWord s w w.c.pc 3 = .page reason) :
    fetchScalar s w = .out (fetchFails s w w.c.pc (.page reason)) := by
  rw [fetchScalar, fetchWords_page hf]

end Sys2Proof.Machine

open Sys2Proof Sys2Proof.Machine

/-- Settles O2: the two corner cases of R291 are those of `divQ_cases` and `divR_cases`; the products of 2^62 and −4 are
computed. -/
theorem divisionNeverTraps : Obligations.DivisionNeverTraps := by
  unfold Obligations.DivisionNeverTraps
  intro s w d a b x y minInt q r
  have hq : divQ x y = q := divQ_cases x y
  have hr : divR x y = r := divR_cases x y
  refine ⟨fun h => hq ▸ exec_div_writes h, fun h => hr ▸ exec_rem_writes h, fun hx hy => ⟨fun h => ?_, fun h => ?_⟩⟩
  · have product : BitVec.ofInt 64 (x.toInt * y.toInt / 2 ^ 64) = 0xFFFFFFFFFFFFFFFF := by rw [hx, hy]; rfl
    exact product ▸ exec_mulh_writes h
  · have product : x * y = 0 := by rw [hx, hy]; decide
    exact product ▸ exec_mul_writes h

/-- Settles O4: each of the six is a `branchOp` whose test says what its condition says. -/
theorem conditionalBranches : Obligations.ConditionalBranches := by
  unfold Obligations.ConditionalBranches
  intro s w a b off x y goes
  refine ⟨?beq, ?bne, ?blt, ?bge, ?bltn, ?bgen, by decide, by decide⟩
  case beq => exact fun h => branchOp_goes (c := fun x y => x = y) h decide_eq_true_iff
  case bne => exact fun h => branchOp_goes (c := fun x y => x ≠ y) h decide_eq_true_iff
  case blt => exact fun h => branchOp_goes (c := BitVec.slt) h BitVec.slt_iff_toInt_lt
  case bge => exact fun h => branchOp_goes (c := fun x y => !x.slt y) h (not_slt_iff_toInt_le x y)
  case bltn => exact fun h => branchOp_goes (c := BitVec.ult) h BitVec.ult_iff_toNat_lt
  case bgen => exact fun h => branchOp_goes (c := fun x y => !x.ult y) h (not_ult_iff_toNat_le x y)

/-- Settles O5: JMP, CALL and an aligned JR are jumps, a misaligned JR is a scalar trap, and the step that fetches where no
page has SX is that of `fetchScalar_page`. -/
theorem jumps : Obligations.Jumps := by
  unfold Obligations.Jumps
  intro s w a off
  refine ⟨exec_jmp_writes, exec_call_writes, fun h aligned => ?_, fun h misaligned => ?_, ?_⟩
  · rw [exec_jr_eq h, if_pos aligned]
    exact jumpS_plain s w 0 _
  · rw [exec_jr_eq h, if_neg misaligned]
    exact trapScalar_traps h.focus _ _ _
  · intro reason v empty focus scalar ready noTrap page
    have fetch : next v = .out (parkWave v false true 8 [⟨0, w.c.pc, some reason, false⟩] 0 0 [] []) := by
      rw [next_of_agenda_nil ((tick_agenda s).trans empty), nextWave_scalar focus scalar ready noTrap, fetchScalar_page page,
        fetchFails_page scalar]
    show step s = _
    rw [step, fetch]

end
